-- ==== Sys2Proof/Word.lean ====
section
/-! DEFINITION. The one word of the DS-408 that the manual treats as bits: a character of the yard line, which is also a byte of
the configuration image (10.1, 10.5). Every quantity of the conventions table of 00_scope.md is a count and is a Nat. -/

namespace Sys2Proof

/-- A character of a frame, a byte of the image. -/
abbrev Byte := BitVec 8

/-- The characters of one frame, in the order received (R159). -/
abbrev Frame := List Byte

end Sys2Proof
end

