-- ==== Sys2Proof/Syntax.lean ====
section
/-! DEFINITION. The commands: one constructor for each row of `spec/opcode_table.json`, with the operands that the event brings from
outside (the table lists none; log 2, 15, 16). -/

namespace Sys2Proof

/-- The line's level at the sample ticks 7, 8 and 9 of one bit (R143); `true` is recessive, logic 1 (R141). -/
structure Samples where
  t7 : Bool
  t8 : Bool
  t9 : Bool
  deriving DecidableEq, Repr

/-- The events of the part (95_what_each_step_holds.md), each whole. -/
inductive Instr where
  /-- RESET (R168). -/
  | reset
  /-- RESET_RELEASE (R169). -/
  | resetRelease
  /-- LOAD_SUCCESS (R170) with the serial memory's bytes from address 0. -/
  | loadSuccess (memory : List Byte)
  /-- LOAD_FAILURE (R169) with the serial memory's bytes from address 0. -/
  | loadFailure (memory : List Byte)
  /-- SAMPLE_CLOSE (R1) with the vane code, bit 3 is g3 (R3). -/
  | sampleClose (vane : BitVec 4)
  /-- ANEMOMETER_PULSE (R2). -/
  | anemometerPulse
  /-- HELD_TIMER_EXPIRY (R15). -/
  | heldTimerExpiry
  /-- DISPATCH_FORECAST (R19). -/
  | dispatchForecast
  /-- YARD_CLOCK_ADVANCE (R32). -/
  | yardClockAdvance
  /-- EVALUATION_TIMER_EXPIRY (R36). -/
  | evaluationTimerExpiry
  /-- EVALUATION_COMPLETION (R48); `weightsFirst` is the order of the notices of R50 and R51, which the manual leaves open (log 6). -/
  | evaluationCompletion (weightsFirst : Bool)
  /-- OVERRIDE_EXPIRY (R47) of a face's override. -/
  | overrideExpiry (face : Nat)
  /-- DISPATCH_MONITOR (R57). -/
  | dispatchMonitor
  /-- MONITOR_SILENCE_CROSSING (R58) of a monitor's record. -/
  | monitorSilenceCrossing (id : Nat)
  /-- HOLD_EXPIRY (R62) of a face's hold timer. -/
  | holdExpiry (face : Nat)
  /-- DISPATCH_MACHINE (R69). -/
  | dispatchMachine
  /-- MACHINE_STALE_CROSSING (R71). -/
  | machineStaleCrossing (id : Nat)
  /-- MACHINE_REMOVAL (R71). -/
  | machineRemoval (id : Nat)
  /-- DISPATCH_REPORT (R81). -/
  | dispatchReport
  /-- PEER_STALE_CROSSING (R85). -/
  | peerStaleCrossing (id : Nat)
  /-- PEER_REMOVAL (R85). -/
  | peerRemoval (id : Nat)
  /-- DISPATCH_POND (R96). -/
  | dispatchPond
  /-- POND_SILENCE_EXPIRY (R97). -/
  | pondSilenceExpiry
  /-- G_T_NOTICE (R105). -/
  | gtNotice
  /-- ON_AIM (R122) of a channel. -/
  | onAim (channel : Fin 4)
  /-- SLEW_TIMEOUT (R122) of a channel. -/
  | slewTimeout (channel : Fin 4)
  /-- VALVE_OPEN_REPORT (R123) of a channel. -/
  | valveOpenReport (channel : Fin 4)
  /-- VALVE_TIMEOUT (R123) of a channel. -/
  | valveTimeout (channel : Fin 4)
  /-- DWELL_EXPIRY (R124) of a channel. -/
  | dwellExpiry (channel : Fin 4)
  /-- FLOW_PULSE (R136) of a channel. -/
  | flowPulse (channel : Fin 4)
  /-- PRESSURE_SAMPLE (R137) with the reading in kPa. -/
  | pressureSample (reading : Nat)
  /-- BREAK_SEND_END (R154). -/
  | breakSendEnd
  /-- IDLE_GAP_COMPLETE (R145). -/
  | idleGapComplete
  /-- BREAK_HEARD (R153). -/
  | breakHeard
  /-- FRAME_RECEIVED (R160) with the characters of the complete frame. -/
  | frameReceived (frame : Frame)
  /-- FRAME_START (R149). -/
  | frameStart
  /-- ARBITRATION_LOST (R150) at bit `bit` (0..10) of character `char` (from 0) of the station's frame. -/
  | arbitrationLost (char bit : Nat) (samples : Samples)
  /-- CLASH (R151) at bit `bit` (0..10) of character `char` (from 0) of the station's frame. -/
  | clash (char bit : Nat) (samples : Samples)
  /-- FRAME_SENT (R156). -/
  | frameSent
  /-- SELF_SILENCE_EXPIRY (R152). -/
  | selfSilenceExpiry
  /-- DISPATCH_ORDER_MODE (R172). -/
  | dispatchOrderMode
  /-- DISPATCH_ORDER_BANK (R135). -/
  | dispatchOrderBank
  /-- DISPATCH_ORDER_FORCE (R45). -/
  | dispatchOrderForce
  /-- DISPATCH_ORDER_RESUME (R174). -/
  | dispatchOrderResume
  /-- DISPATCH_ORDER_ZERO (R111). -/
  | dispatchOrderZero
  /-- LISTENING_TIMER_EXPIRY (R170). -/
  | listeningTimerExpiry
  /-- HUSH_HOLD_EXPIRY (R174). -/
  | hushHoldExpiry
  /-- REPORT_TIMER_EXPIRY (R175). -/
  | reportTimerExpiry
  /-- FAULT_PATTERN_TICK (R176). -/
  | faultPatternTick
  /-- START_EDGE (R146) with the idle gap measure at the edge, in sample ticks, 192 when complete (R145, R149). -/
  | startEdge (measure : Nat)
  /-- BIT_READ (R143). -/
  | bitRead (samples : Samples)
  /-- DOMINANT_RUN_END (R151). -/
  | dominantRunEnd
  /-- FRAME_DISCARDED_AT_DISPATCH (R163). -/
  | frameDiscardedAtDispatch
  /-- ORDER_IGNORED (R171). -/
  | orderIgnored
  deriving DecidableEq, Repr

end Sys2Proof
end

