-- ==== Sys2Proof/Decode.lean ====
section
/-! DEFINITION. The words of the commands: `spec/opcode_table.json` gives no bits to any of its 54 rows, so no word spells a command. -/

namespace Sys2Proof

/-- The command that the `nbits` bits of `w` spell, by the table's bits: the table gives none to any row (98_reader.md counts 0 rows
with fixed bits), so every word is refused. -/
def decodeTableWord (_nbits _w : Nat) : Option Instr := none

end Sys2Proof
end

