-- ==== Sys2Proof/Machine/State.lean ====
section
/-! DEFINITION. The state of the part: every item the manual gives its blocks (INVENTORY.md lists each with its rule), as plain data.
A timer is `Option Nat`: `none` stopped, `some t` running with `t` milliseconds left. An age is in milliseconds since the store. -/

namespace Sys2Proof.Machine

/-- The response levels in their order (00_scope.md): QUIET 0, WATCH 1, PREWET 2, SPRAY 3, HEAVY 4. -/
inductive Level where
  | quiet | watch | prewet | spray | heavy
  deriving DecidableEq, Repr

/-- The station modes (chapter 11). -/
inductive Mode where
  | starting | listening | auto | standby | hushed | fault
  deriving DecidableEq, Repr

/-- The mode that LISTENING leads to (R170). -/
inductive Target where
  | auto | standby
  deriving DecidableEq, Repr

/-- The mode a hush remembers (R173). -/
inductive Remembered where
  | listening | auto | standby
  deriving DecidableEq, Repr

/-- The anemometer's health (1.1). -/
inductive Health where
  | healthy | stuck
  deriving DecidableEq, Repr

/-- The wind source (R10); `localWind` is LOCAL. -/
inductive WindSource where
  | localWind | peer | forecast | held | failsafe
  deriving DecidableEq, Repr

/-- The held timer (R14, R15). -/
inductive HeldTimer where
  | idle
  | running (left : Nat)
  | expired
  deriving DecidableEq, Repr

/-- One of a channel's two stored plans. -/
inductive Bank where
  | a | b
  deriving DecidableEq, Repr

/-- The grant policy of the image (8.1). -/
inductive Policy where
  | keep | rotate
  deriving DecidableEq, Repr

/-- What a grant was recorded against (R127). -/
inductive Fund where
  | reuse | fresh
  deriving DecidableEq, Repr

/-- The way a leg moves its aim (R117). -/
inductive Pattern where
  | hold | arc | raster | ring
  deriving DecidableEq, Repr

/-- The ten channel states (8.3). -/
inductive ChannelState where
  | idle | waiting | slewing | opening | spraying | dry | denied | windHeld | faulted | hushed
  deriving DecidableEq, Repr

/-- A monitor's reported state (R57). -/
inductive MonitorState where
  | normal | alert | alarm
  deriving DecidableEq, Repr

/-- A machine's kind (5.1). -/
inductive MachineKind where
  | stacker | reclaimer | loader
  deriving DecidableEq, Repr

/-- A machine's activity (5.1). -/
inductive Activity where
  | parked | travelling | stacking | reclaiming
  deriving DecidableEq, Repr

/-! ## The configuration image's values (10.5) -/

/-- One face's configured values (3.1). -/
structure FaceCfg where
  orientation : Nat
  exposure : List Nat
  threshold : Nat
  gain : Nat
  evaporation : Nat
  moisture : Nat
  deriving DecidableEq, Repr

/-- A face map entry (5.1): a pile and face reference and the face index it names. -/
structure MapEntry where
  pile : Nat
  face : Nat
  index : Nat
  deriving DecidableEq, Repr

/-- A relation table entry (4.1): bit k of the upwind set for sector k, bit f - 1 of the face mask for face f (10.5). -/
structure Relation where
  monitor : Nat
  upwind : Nat
  faces : Nat
  deriving DecidableEq, Repr

/-- An arc of azimuth, clockwise from `lo` to `hi` (5.4). -/
structure Arc where
  lo : Nat
  hi : Nat
  deriving DecidableEq, Repr

/-- A shadow table entry (5.4): a cell and the arc it closes. -/
structure Shadow where
  x : Nat
  y : Nat
  arc : Arc
  deriving DecidableEq, Repr

/-- A leg of a plan (8.2). `minimum` is the number of its minimum level. -/
structure Leg where
  face : Nat
  minimum : Nat
  pattern : Pattern
  dwell : Nat
  count : Nat
  a0 : Nat
  aStep : Int
  rows : Nat
  columns : Nat
  e0 : Nat
  eStep : Int
  ringBase : Nat
  ringLength : Nat
  ringStride : Int
  deriving DecidableEq, Repr

/-- One channel's configured values (8.1) with its shadow table and fixed arcs (5.1). -/
structure ChannelCfg where
  flow : Nat
  cutoff : Nat
  gain : Nat
  weight : Nat
  valveTimeout : Nat
  slewTimeout : Nat
  shadow : List Shadow
  fixed : List Arc
  planA : List Leg
  planB : List Leg
  deriving DecidableEq, Repr

/-- The values of the configuration image (10.5). The face count and the channel count are the lengths of `faces` and `channels`. -/
structure StationCfg where
  id : Nat
  gridX : Nat
  gridY : Nat
  divisor : Nat
  period : Nat
  hearMonitor : Bool
  hearMachine : Bool
  hearForecast : Bool
  pond : Nat
  gateway : Nat
  tWatch : Nat
  tSpray : Nat
  tHeavy : Nat
  hysteresis : Nat
  reserve : Nat
  radius : Nat
  failsafe : Nat
  defaultRh : Nat
  interval : Nat
  lead : Nat
  monitorSilence : Nat
  holdTime : Nat
  pondSilence : Nat
  hushHold : Nat
  kReclaim : Nat
  kStack : Nat
  policy : Policy
  bank : Bank
  collapse : Nat
  aFactor : Nat
  aOffset : Nat
  turbidityLimit : Nat
  faces : List FaceCfg
  faceMap : List MapEntry
  relations : List Relation
  channels : List ChannelCfg
  deriving DecidableEq, Repr

/-! ## The blocks' state -/

/-- A wind sample (R4). -/
structure Sample where
  speed : Nat
  sector : Nat
  deriving DecidableEq, Repr

/-- The wind unit (1.1). `ring` holds the places written so far, by place number. -/
structure Wind where
  count : Nat
  sampleTimer : Option Nat
  ring : List Sample
  writeIndex : Nat
  full : Bool
  mean : Nat
  gust : Nat
  localSpeed : Nat
  sector : Nat
  zeroRun : Nat
  health : Health
  source : WindSource
  heldValue : Nat
  heldTimer : HeldTimer
  uEff : Nat
  deriving DecidableEq, Repr

/-- A forecast slot (2.1). -/
structure Slot where
  mean : Nat
  gust : Nat
  sector : Nat
  rh : Nat
  deriving DecidableEq, Repr

/-- A stored forecast (2.1). The slot count is the length of `slots`. -/
structure Window where
  gateway : Nat
  issue : Nat
  validFrom : Nat
  slotLength : Nat
  slots : List Slot
  deriving DecidableEq, Repr

/-- The forecast store and the yard clock (chapter 2). `selected` is the place of the selected window, which is the one locked
window (R27). -/
structure Forecast where
  places : List (Option Window)
  recency : List Nat
  selected : Option Nat
  clock : Option Nat
  advanceTimer : Option Nat
  deriving DecidableEq, Repr

/-- A force override (R45) with the milliseconds left of its countdown, none once the countdown stands at 0 and the override is expired
(R47). -/
structure Override where
  level : Level
  left : Option Nat
  deriving DecidableEq, Repr

/-- A face record (3.1); `level` is the final level. -/
structure FaceRecord where
  moisture : Nat
  eri : Nat
  base : Level
  prewet : Bool
  level : Level
  override : Option Override
  deriving DecidableEq, Repr

/-- What the snapshot holds of one face (R37). -/
structure FaceSnapshot where
  moisture : Nat
  kf : Nat
  escalation : Nat
  override : Option Level
  deriving DecidableEq, Repr

/-- The snapshot of an evaluation (R37). -/
structure Snapshot where
  uEff : Nat
  sector : Nat
  faces : List FaceSnapshot
  current : Option Slot
  lookAhead : Option Slot
  rh : Nat
  deriving DecidableEq, Repr

/-- The risk engine (chapter 3). `flight` is the snapshot of the evaluation in flight. -/
structure Risk where
  faces : List FaceRecord
  w : Nat
  hw : Nat
  timer : Option Nat
  flight : Option Snapshot
  deriving DecidableEq, Repr

/-- A monitor record (4.2). -/
structure MonitorRecord where
  state : MonitorState
  pm10 : Nat
  age : Nat
  silent : Bool
  deriving DecidableEq, Repr

/-- A face's held escalation and its hold timer, `none` is IDLE (R61). -/
structure Held where
  value : Nat
  timer : Option Nat
  deriving DecidableEq, Repr

/-- The fence response unit: a record for each relation table entry, a held escalation for each face. -/
structure Fence where
  records : List (Option MonitorRecord)
  held : List Held
  deriving DecidableEq, Repr

/-- A machine record (5.1). -/
structure MachineRecord where
  id : Nat
  kind : MachineKind
  x : Nat
  y : Nat
  activity : Activity
  pile : Nat
  face : Nat
  age : Nat
  stale : Bool
  deriving DecidableEq, Repr

/-- The machine unit; the list is kept in ascending id (log 25). -/
structure Machines where
  list : List MachineRecord
  kf : List Nat
  arcs : List (List Bool)
  refused : Nat
  deriving DecidableEq, Repr

/-- A peer record (6.1). -/
structure Peer where
  id : Nat
  x : Nat
  y : Nat
  period : Nat
  mode : Mode
  speed : Nat
  sector : Nat
  source : WindSource
  maxEri : Nat
  w : Nat
  hw : Nat
  highest : Level
  claimR : Nat
  claimF : Nat
  stale : Bool
  age : Nat
  deriving DecidableEq, Repr

/-- The peer table, in ascending id (6.1). -/
structure Peers where
  list : List Peer
  refused : Nat
  deriving DecidableEq, Repr

/-- The water share unit (7.1). `gtNotices` counts the G_t notices sent and not yet taken (R105). -/
structure Water where
  cR : Nat
  cF : Nat
  dM : Nat
  turbidity : Nat
  pondLevel : Nat
  lowLow : Bool
  silent : Bool
  timer : Option Nat
  sR : Nat
  sF : Nat
  reuse : Nat
  reuseRem : Nat
  fresh : Nat
  freshRem : Nat
  gtNotices : Nat
  deriving DecidableEq, Repr

/-- A channel's cursor: a leg and a step of it, both from 0 (the manual numbers legs from 1). -/
structure Cursor where
  leg : Nat
  step : Nat
  deriving DecidableEq, Repr

/-- A channel's state (8.1) with its valve drive output. -/
structure Channel where
  state : ChannelState
  bank : Bank
  swapPending : Bool
  cursor : Option Cursor
  ringIndex : Nat
  dryFlag : Bool
  aim : Option (Nat × Nat)
  bias : Int
  slewTimer : Option Nat
  valveTimer : Option Nat
  dwellTimer : Option Nat
  lastFund : Option Fund
  lastFace : Option Nat
  mark : Bool
  laps : Nat
  valve : Bool
  deriving DecidableEq, Repr

/-- A grant: the channel and its fund (R127). Its place in the list is its place in grant order. -/
structure Grant where
  channel : Nat
  fund : Fund
  deriving DecidableEq, Repr

/-- The sweep engine (8.1) with the pressure watch. -/
structure Sweep where
  channels : List Channel
  grants : List Grant
  waiting : List Nat
  requested : Bank
  sR : Nat
  sF : Nat
  lowRun : Nat
  pressureTimer : Option Nat
  deriving DecidableEq, Repr

/-- The receiver (R146). In a frame it holds the characters accepted and the bits of the present character, start bit first;
`fromReady` says that the start edge was seen in READY. -/
inductive Receiver where
  | stopped
  | awaitGap
  | ready
  | inFrame (fromReady : Bool) (chars : Frame) (bits : List Bool)
  deriving DecidableEq, Repr

/-- The break detector (R153): stopped, no dominant run, a run in progress, a run already heard as a break. -/
inductive DominantRun where
  | stopped | absent | inProgress | heard
  deriving DecidableEq, Repr

/-- The line interface (chapter 9). -/
structure Line where
  rx : Receiver
  gap : Option Nat
  run : DominantRun
  joinOpen : Bool
  slot : Option Frame
  sending : Option Frame
  breakDriving : Bool
  deferredFraming : Bool
  deferredClash : Bool
  noise : Nat
  framing : Nat
  clashes : Nat
  superseded : Nat
  clashRun : Nat
  silence : Option Nat
  deriving DecidableEq, Repr

/-- The frame dispatcher (10.2). -/
structure Dispatcher where
  queue : List Frame
  checkFail : Nat
  overrun : Nat
  idConflict : Nat
  deriving DecidableEq, Repr

/-- Station control (chapter 11). `spiSelect` is asserted exactly while a configuration load is in progress. -/
structure Station where
  mode : Mode
  resetAsserted : Bool
  spiSelect : Bool
  spiSent : List Byte
  listeningTimer : Option Nat
  target : Target
  remembered : Option Remembered
  hushTimer : Option Nat
  reportTimer : Option Nat
  page : Nat
  faultCode : Option Nat
  patternPhase : Nat
  patternTimer : Option Nat
  breakRequest : Bool
  deriving DecidableEq, Repr

/-- The whole machine: the blocks, the configuration in force, and the queue of waiting commands. -/
structure State where
  pending : List Instr
  cfg : StationCfg
  station : Station
  wind : Wind
  forecast : Forecast
  risk : Risk
  fence : Fence
  machines : Machines
  peers : Peers
  water : Water
  sweep : Sweep
  line : Line
  dispatcher : Dispatcher
  deriving DecidableEq, Repr

/-- The reasons a step could stop with a fault: none. No meaning raises one; the part's own error paths are states and counts. -/
inductive Fault where
  deriving DecidableEq, Repr

/-- The reasons a step could be refused. -/
inductive Refusal where
  /-- Raised by an arm of `exec` whose command has no meaning yet; safe. No arm is left that raises it. -/
  | notModelled (mnemonic : String)
  deriving DecidableEq, Repr

/-! ## The reset state -/

/-- No configuration: what stands before a load (R168; DESIGN CHOICE, log 4). -/
def StationCfg.unloaded : StationCfg where
  id := 0
  gridX := 0
  gridY := 0
  divisor := 0
  period := 0
  hearMonitor := false
  hearMachine := false
  hearForecast := false
  pond := 0
  gateway := 0
  tWatch := 0
  tSpray := 0
  tHeavy := 0
  hysteresis := 0
  reserve := 0
  radius := 0
  failsafe := 0
  defaultRh := 0
  interval := 0
  lead := 0
  monitorSilence := 0
  holdTime := 0
  pondSilence := 0
  hushHold := 0
  kReclaim := 0
  kStack := 0
  policy := .keep
  bank := .a
  collapse := 0
  aFactor := 0
  aOffset := 0
  turbidityLimit := 0
  faces := []
  faceMap := []
  relations := []
  channels := []

/-- Station control after reset (R168). -/
def Station.reset : Station where
  mode := .starting
  resetAsserted := true
  spiSelect := false
  spiSent := []
  listeningTimer := none
  target := .auto
  remembered := none
  hushTimer := none
  reportTimer := none
  page := 0
  faultCode := none
  patternPhase := 0
  patternTimer := none
  breakRequest := false

/-- The wind unit after reset (R18). -/
def Wind.reset : Wind where
  count := 0
  sampleTimer := none
  ring := []
  writeIndex := 0
  full := false
  mean := 0
  gust := 0
  localSpeed := 0
  sector := 0
  zeroRun := 0
  health := .healthy
  source := .failsafe
  heldValue := 0
  heldTimer := .expired
  uEff := 0

/-- The forecast store and the yard clock after reset (R34). -/
def Forecast.reset : Forecast where
  places := [none, none, none, none, none, none]
  recency := [5, 4, 3, 2, 1, 0]
  selected := none
  clock := none
  advanceTimer := none

/-- The risk engine after reset, until a load succeeds: no face records (R54). -/
def Risk.reset : Risk where
  faces := []
  w := 0
  hw := 0
  timer := none
  flight := none

/-- The fence response unit after reset, until a load succeeds (R66). -/
def Fence.reset : Fence where
  records := []
  held := []

/-- The machine unit after reset, until a load succeeds (R79). -/
def Machines.reset : Machines where
  list := []
  kf := []
  arcs := []
  refused := 0

/-- The peer table after reset (R93). -/
def Peers.reset : Peers where
  list := []
  refused := 0

/-- The water share unit after reset (R114). -/
def Water.reset : Water where
  cR := 0
  cF := 0
  dM := 0
  turbidity := 0
  pondLevel := 0
  lowLow := false
  silent := true
  timer := none
  sR := 0
  sF := 0
  reuse := 0
  reuseRem := 0
  fresh := 0
  freshRem := 0
  gtNotices := 0

/-- The sweep engine after reset, until a load succeeds: no channels configured (R139). -/
def Sweep.reset : Sweep where
  channels := []
  grants := []
  waiting := []
  requested := .a
  sR := 0
  sF := 0
  lowRun := 0
  pressureTimer := none

/-- The line interface after reset (R158). -/
def Line.reset : Line where
  rx := .stopped
  gap := none
  run := .stopped
  joinOpen := false
  slot := none
  sending := none
  breakDriving := false
  deferredFraming := false
  deferredClash := false
  noise := 0
  framing := 0
  clashes := 0
  superseded := 0
  clashRun := 0
  silence := none

/-- The frame dispatcher after reset (R161). -/
def Dispatcher.reset : Dispatcher where
  queue := []
  checkFail := 0
  overrun := 0
  idConflict := 0

/-- The machine right after reset: the reset input asserted, every block in the state its chapter gives (R168). -/
def State.reset : State where
  pending := []
  cfg := StationCfg.unloaded
  station := Station.reset
  wind := Wind.reset
  forecast := Forecast.reset
  risk := Risk.reset
  fence := Fence.reset
  machines := Machines.reset
  peers := Peers.reset
  water := Water.reset
  sweep := Sweep.reset
  line := Line.reset
  dispatcher := Dispatcher.reset

end Sys2Proof.Machine
end

