-- ==== Sys2Proof/Machine/Ops.lean ====
section
/-! DEFINITION. The operations that several blocks share: the conventions of 00_scope.md (remainders, sectors, counts, levels), the
updates of one block of the state, timers, and the modes in which the blocks work. The part has no exception entry: a fault of a
channel (R126), the FAULT mode (R169) and a hush (R173) are effects on the state, in Sweep.lean and Station.lean. -/

namespace Sys2Proof.Machine

/-! ## Updates of one block -/

def State.setStation (s : State) (x : Station) : State := { s with station := x }
def State.setWind (s : State) (x : Wind) : State := { s with wind := x }
def State.setForecast (s : State) (x : Forecast) : State := { s with forecast := x }
def State.setRisk (s : State) (x : Risk) : State := { s with risk := x }
def State.setFence (s : State) (x : Fence) : State := { s with fence := x }
def State.setMachines (s : State) (x : Machines) : State := { s with machines := x }
def State.setPeers (s : State) (x : Peers) : State := { s with peers := x }
def State.setWater (s : State) (x : Water) : State := { s with water := x }
def State.setSweep (s : State) (x : Sweep) : State := { s with sweep := x }
def State.setLine (s : State) (x : Line) : State := { s with line := x }
def State.setDispatcher (s : State) (x : Dispatcher) : State := { s with dispatcher := x }

/-! ## Conventions (00_scope.md) -/

/-- A count of 0..255 rises by one and holds at 255 (R157, R161). -/
def bump (n : Nat) : Nat := min 255 (n + 1)

/-- The non-negative remainder of a value that may be negative ("Remainders"). -/
def modN (x : Int) (m : Nat) : Nat := (x % (m : Int)).toNat

/-- The sector of an azimuth ("Sectors"). -/
def sectorOf (azimuth : Nat) : Nat := (azimuth + 112) % 3600 / 225

/-- The difference of two sectors taken modulo 16. -/
def sectorDiff (a b : Nat) : Nat := modN ((a : Int) - (b : Int)) 16

/-- The difference of two yard times taken modulo 86400. -/
def yardDiff (a b : Nat) : Nat := modN ((a : Int) - (b : Int)) 86400

/-- The number of a level ("Levels"). -/
def Level.num : Level → Nat
  | .quiet => 0
  | .watch => 1
  | .prewet => 2
  | .spray => 3
  | .heavy => 4

/-- The level of a number; every number above 4 is HEAVY (R44, R81). -/
def Level.ofNum : Nat → Level
  | 0 => .quiet
  | 1 => .watch
  | 2 => .prewet
  | 3 => .spray
  | _ => .heavy

/-! ## Timers and modes -/

/-- A duration of whole seconds in the milliseconds that timers hold (log 1). -/
def seconds (n : Nat) : Nat := n * 1000

/-- The modes in which the blocks work and their timers run: LISTENING, AUTO, STANDBY and HUSHED (R36, R65, R92, R113, R141). -/
def Mode.works : Mode → Bool
  | .listening | .auto | .standby | .hushed => true
  | .starting | .fault => false

/-- The station is in a mode in which the blocks work. -/
def State.works (s : State) : Bool := s.station.mode.works

/-- The number of configured faces. -/
def State.faceCount (s : State) : Nat := s.cfg.faces.length

/-- The number of configured channels. -/
def State.channelCount (s : State) : Nat := s.cfg.channels.length

/-- A face that is not configured: what a reader of a missing entry sees. -/
def FaceCfg.absent : FaceCfg where
  orientation := 0
  exposure := []
  threshold := 0
  gain := 0
  evaporation := 0
  moisture := 0

/-- The configured values of face `f`, counted from 1. -/
def State.faceCfg (s : State) (f : Nat) : FaceCfg := s.cfg.faces.getD (f - 1) FaceCfg.absent

/-- The final level of a face as the risk engine last published it; QUIET for a face that does not exist (R35). -/
def State.finalLevel (s : State) (f : Nat) : Level :=
  if f = 0 then .quiet else ((s.risk.faces[f - 1]?).map FaceRecord.level).getD .quiet

/-! ## Arcs (R75) -/

/-- An azimuth lies inside an arc, bounds included (R75). -/
def Arc.contains (r : Arc) (a : Nat) : Bool :=
  decide (modN ((a : Int) - (r.lo : Int)) 3600 ≤ modN ((r.hi : Int) - (r.lo : Int)) 3600)

/-- A channel that is not configured. -/
def ChannelCfg.absent : ChannelCfg where
  flow := 0
  cutoff := 0
  gain := 0
  weight := 0
  valveTimeout := 0
  slewTimeout := 0
  shadow := []
  fixed := []
  planA := []
  planB := []

/-- The configured values of channel `c`. -/
def State.channelCfg (s : State) (c : Nat) : ChannelCfg := s.cfg.channels.getD c ChannelCfg.absent

/-- The channel's arcs that are active: its fixed arcs and its ACTIVE shadow arcs (R75, R76). -/
def State.activeArcs (s : State) (c : Nat) : List Arc :=
  (s.channelCfg c).fixed ++
    (((s.channelCfg c).shadow.zip (s.machines.arcs.getD c [])).filter Prod.snd).map (fun e => e.1.arc)

/-- An azimuth lies in an active arc of channel `c` (R75). -/
def State.inActiveArc (s : State) (c azimuth : Nat) : Bool := (s.activeArcs c).any (fun r => r.contains azimuth)

end Sys2Proof.Machine
end

