-- ==== Sys2Proof/Machine/Operands.lean ====
section
/-! DEFINITION. The operand forms: how the fields of a frame and of the image are read from their characters (10.1, 10.3, R159), the
two-sum check (R160), and the tests of a frame at dispatch (R163). -/

namespace Sys2Proof

/-- A field of several characters, most significant first (R159). -/
def bigEndian (b : List Byte) : Nat := b.foldl (fun a c => a * 256 + c.toNat) 0

/-- A 16-bit two's-complement value (10.5). -/
def signed16 (n : Nat) : Int := if n < 32768 then (n : Int) else (n : Int) - 65536

/-- The field of `size` characters at offset `at_` of a list. -/
def field (b : List Byte) (at_ size : Nat) : Nat := bigEndian ((b.drop at_).take size)

/-- The characters of a value of `size` characters, most significant first. -/
def bytesOf : Nat → Nat → List Byte
  | 0, _ => []
  | size + 1, n => BitVec.ofNat 8 (n / 256 ^ size) :: bytesOf size n

/-- The kind code of a frame (10.1). -/
def Frame.kind (f : Frame) : Nat := field f 0 1

/-- The sender id of a frame (10.1). -/
def Frame.sender (f : Frame) : Nat := field f 1 1

/-- The length character of a frame (10.1). -/
def Frame.payloadLength (f : Frame) : Nat := field f 2 1

/-- The field of `size` characters at a payload offset (10.3). -/
def Frame.payload (f : Frame) (offset size : Nat) : Nat := field f (3 + offset) size

/-! ## The check sums (R160) -/

/-- One character's step of the two sums. -/
def checkStep (ab : Nat × Nat) (c : Byte) : Nat × Nat :=
  ((ab.1 + c.toNat) % 255, (ab.2 + (ab.1 + c.toNat) % 255) % 255)

/-- Check A and check B of a list of characters. -/
def checkSums (b : List Byte) : Nat × Nat := b.foldl checkStep (0, 0)

/-- The frame's two check characters match the sums of the characters before them (R160). -/
def Frame.verified (f : Frame) : Bool :=
  let body := f.take (f.length - 2)
  decide ((checkSums body).1 = field f (f.length - 2) 1) && decide ((checkSums body).2 = field f (f.length - 1) 1)

/-- A frame with its two check characters appended (R160). -/
def Frame.sealed (body : List Byte) : Frame :=
  body ++ [BitVec.ofNat 8 (checkSums body).1, BitVec.ofNat 8 (checkSums body).2]

/-! ## The kinds of frame (10.3) -/

/-- The kind codes of 10.3. -/
def kindPond : Nat := 1
def kindMonitor : Nat := 2
def kindMachine : Nat := 3
def kindOrder : Nat := 4
def kindReport : Nat := 5
def kindForecast : Nat := 6

/-- Test 2 of R163: the length matches the kind. -/
def Frame.lengthFits (f : Frame) : Bool :=
  if f.kind = kindPond then decide (f.payloadLength = 10)
  else if f.kind = kindMonitor then decide (f.payloadLength = 3)
  else if f.kind = kindMachine then decide (f.payloadLength = 6)
  else if f.kind = kindOrder then decide (f.payloadLength = 5)
  else if f.kind = kindReport then decide (f.payloadLength = 36)
  else decide (12 ≤ f.payloadLength) && decide (1 ≤ f.payload 8 1) && decide (f.payload 8 1 ≤ 12)
    && decide (f.payloadLength = 12 + 6 * f.payload 8 1)

/-- Tests 1 to 3 of R163: the kind code is 1..6, the length matches it, and the sender is 1..239. -/
def Frame.valid (f : Frame) : Bool :=
  decide (1 ≤ f.kind) && decide (f.kind ≤ 6) && f.lengthFits && decide (1 ≤ f.sender) && decide (f.sender ≤ 239)

/-! ## Orders (10.3) -/

/-- An order's target, code and arguments. -/
def Frame.target (f : Frame) : Nat := f.payload 0 1
def Frame.orderCode (f : Frame) : Nat := f.payload 1 1
def Frame.arg1 (f : Frame) : Nat := f.payload 2 1
def Frame.arg2 (f : Frame) : Nat := f.payload 3 1
def Frame.arg3 (f : Frame) : Nat := f.payload 4 1

end Sys2Proof

namespace Sys2Proof.Machine

/-- The order is meant for this station: its own id, or 255 for all (R171). -/
def State.targeted (s : State) (f : Frame) : Bool := decide (f.target = s.cfg.id) || decide (f.target = 255)

end Sys2Proof.Machine
end

