-- ==== Sys2Proof/Machine/Aim.lean ====
section
/-! DEFINITION. Where a cannon aims: the patterns of a leg (R117), the RING index (R118) and the crosswind bias (R121). -/

namespace Sys2Proof.Machine

/-- A leg that is not in the plan: what a reader of a missing entry sees. -/
def Leg.absent : Leg where
  face := 0
  minimum := 5
  pattern := .hold
  dwell := 0
  count := 0
  a0 := 0
  aStep := 0
  rows := 0
  columns := 0
  e0 := 0
  eStep := 0
  ringBase := 0
  ringLength := 0
  ringStride := 0

/-- The number of steps in a leg (R117). -/
def Leg.steps (g : Leg) : Nat :=
  match g.pattern with
  | .raster => g.rows * g.columns
  | .hold | .arc | .ring => g.count

/-- The pattern azimuth of step `i`, before bias; `ringIndex` is the RING index (R117). -/
def Leg.azimuth (g : Leg) (i ringIndex : Nat) : Nat :=
  match g.pattern with
  | .hold => g.a0
  | .arc => modN ((g.a0 : Int) + (i : Int) * g.aStep) 3600
  | .raster =>
    let row := i / g.columns
    let column := i - row * g.columns
    let along : Int := if row % 2 = 0 then (column : Int) else (g.columns : Int) - 1 - (column : Int)
    modN ((g.a0 : Int) + g.aStep * along) 3600
  | .ring => ringIndex % 3600

/-- The elevation of step `i`; a RASTER lifts by rows, clamped to 0..600 (R117). -/
def Leg.elevation (g : Leg) (i : Nat) : Nat :=
  match g.pattern with
  | .raster => (max 0 (min 600 ((g.e0 : Int) + g.eStep * ((i / g.columns : Nat) : Int)))).toNat
  | .hold | .arc | .ring => g.e0

/-- One stride of the RING index, with whether it wraps (R118). -/
def Leg.stride (g : Leg) (index : Nat) : Nat × Bool :=
  let moved := (index : Int) + g.ringStride
  if (g.ringBase : Int) + g.ringLength ≤ moved then ((moved - g.ringLength).toNat, true)
  else if moved < g.ringBase then ((moved + g.ringLength).toNat, true)
  else (moved.toNat, false)

/-- The sine table S of R121. -/
def sineTable : List Int := [0, 98, 181, 237, 256, 237, 181, 98, 0, -98, -181, -237, -256, -237, -181, -98]

/-- The crosswind bias of an aim at pattern azimuth `azimuth` (R121): the division truncates toward zero. -/
def biasOf (uEff windSector gain azimuth : Nat) : Int :=
  let sine := sineTable.getD (sectorDiff windSector (sectorOf azimuth)) 0
  max (-150) (min 150 (-(((uEff : Int) * sine * (gain : Int)).tdiv 2560)))

end Sys2Proof.Machine
end

