-- ==== Sys2Proof/Machine/Sweep.lean ====
section
/-! DEFINITION. The sweep engine (chapter 8): channels, priorities, the grant list and the waiting order, step starts, grant scans,
revocation, preemption, wind hold, exclusion, bank swaps, mode changes, flow and pressure. -/

namespace Sys2Proof.Machine

/-! ## Reading a channel -/

/-- A channel that is not configured: what a reader of a missing entry sees. -/
def Channel.absent : Channel where
  state := .idle
  bank := .a
  swapPending := false
  cursor := none
  ringIndex := 0
  dryFlag := false
  aim := none
  bias := 0
  slewTimer := none
  valveTimer := none
  dwellTimer := none
  lastFund := none
  lastFace := none
  mark := false
  laps := 0
  valve := false

/-- Channel `c`. -/
def State.channel (s : State) (c : Nat) : Channel := s.sweep.channels.getD c Channel.absent

/-- Channel `c` changed by `f`, every other item of the state as it was. -/
def State.onChannel (s : State) (c : Nat) (f : Channel → Channel) : State :=
  s.setSweep { s.sweep with channels := s.sweep.channels.modify c f }

/-- The plan of the channel's active bank. -/
def State.plan (s : State) (c : Nat) : List Leg :=
  match (s.channel c).bank with
  | .a => (s.channelCfg c).planA
  | .b => (s.channelCfg c).planB

/-- Leg `j` of the active bank, from 0. -/
def State.leg (s : State) (c j : Nat) : Leg := (s.plan c).getD j Leg.absent

/-- A leg is eligible while the final level of its face is at or above its minimum (R119). -/
def State.eligible (s : State) (g : Leg) : Bool := decide (g.minimum ≤ (s.finalLevel g.face).num)

/-- The first eligible leg of the active bank at or after leg `k`. -/
def State.eligibleFrom (s : State) (c k : Nat) : Option Nat :=
  (List.range (s.plan c).length).find? (fun j => decide (k ≤ j) && s.eligible (s.leg c j))

/-- The active bank has an eligible leg. -/
def State.hasWork (s : State) (c : Nat) : Bool := (s.eligibleFrom c 0).isSome

/-- The channel's priority (R119): the final level of the face of its cursor's leg, or of the first eligible leg when the cursor is
none. A channel with neither has no priority and stands in no list; it reads as QUIET here. -/
def State.priority (s : State) (c : Nat) : Level :=
  match (s.channel c).cursor with
  | some k => s.finalLevel (s.leg c k.leg).face
  | none =>
    match s.eligibleFrom c 0 with
    | some j => s.finalLevel (s.leg c j).face
    | none => .quiet

/-- The granted channel states: SLEWING, OPENING, SPRAYING and DRY (8.3). -/
def ChannelState.runs : ChannelState → Bool
  | .slewing | .opening | .spraying | .dry => true
  | .idle | .waiting | .denied | .windHeld | .faulted | .hushed => false

/-- The states in the waiting order: WAITING and DENIED (R119). -/
def ChannelState.waits : ChannelState → Bool
  | .waiting | .denied => true
  | .idle | .slewing | .opening | .spraying | .dry | .windHeld | .faulted | .hushed => false

/-- The nominal flow of channel `c`. -/
def State.flow (s : State) (c : Nat) : Nat := (s.channelCfg c).flow

/-- The sum of the nominal flows of a list of grants. -/
def State.flowOf (s : State) (l : List Grant) : Nat := (l.map (fun g => s.flow g.channel)).sum

/-- G_t, the granted total (R127). -/
def State.granted (s : State) : Nat := s.flowOf s.sweep.grants

/-- Every grant of a list is at HEAVY. -/
def State.allHeavy (s : State) (l : List Grant) : Bool := l.all (fun g => decide (s.priority g.channel = .heavy))

/-- The channel numbers of the station, C0 first. -/
def State.channelNumbers (s : State) : List Nat := List.range s.sweep.channels.length

/-! ## Places in the lists -/

/-- The back of a channel's priority group: before the first member of lower priority (R119). -/
def State.insertBack (s : State) (c : Nat) (l : List Nat) : List Nat :=
  l.takeWhile (fun d => decide ((s.priority c).num ≤ (s.priority d).num)) ++ c ::
    l.dropWhile (fun d => decide ((s.priority c).num ≤ (s.priority d).num))

/-- The front of a channel's priority group: before the first member of its own or a lower priority (R119). -/
def State.insertFront (s : State) (c : Nat) (l : List Nat) : List Nat :=
  l.takeWhile (fun d => decide ((s.priority c).num < (s.priority d).num)) ++ c ::
    l.dropWhile (fun d => decide ((s.priority c).num < (s.priority d).num))

/-- The end of a grant's priority in the grant list (R127). -/
def State.insertGrant (s : State) (g : Grant) (l : List Grant) : List Grant :=
  l.takeWhile (fun h => decide ((s.priority g.channel).num ≤ (s.priority h.channel).num)) ++ g ::
    l.dropWhile (fun h => decide ((s.priority g.channel).num ≤ (s.priority h.channel).num))

/-- The waiting order after an event that began in `old` (R119): members whose priority stands keep their places, and the members
whose priority changed and the channels that joined take the back of their groups in channel order. -/
def State.settleWaiting (old s : State) : State :=
  let keep := old.sweep.waiting.filter
    (fun c => (s.channel c).state.waits && decide (s.priority c = old.priority c))
  let move := s.channelNumbers.filter (fun c => (s.channel c).state.waits && !keep.contains c)
  s.setSweep { s.sweep with waiting := move.foldl (fun l c => s.insertBack c l) keep }

/-- The grant list after an event that began in `old` (R127): a channel whose priority changed moves to the end of its new
priority's channels; several that change in one event move in channel order (DESIGN CHOICE, log 7). -/
def State.settleGrants (old s : State) : State :=
  let keep := s.sweep.grants.filter (fun g => decide (s.priority g.channel = old.priority g.channel))
  let moved := s.channelNumbers.flatMap
    (fun c => s.sweep.grants.filter
      (fun g => decide (g.channel = c) && !decide (s.priority g.channel = old.priority g.channel)))
  s.setSweep { s.sweep with grants := moved.foldl (fun l g => s.insertGrant g l) keep }

/-! ## Notices, funds, releases -/

/-- One G_t notice to the water share unit (R127). -/
def State.noticeGt (s : State) : State := s.setWater { s.water with gtNotices := s.water.gtNotices + 1 }

/-- The grants with their funds re-derived in list order; `before` is the sum of the grants before (R127). -/
def State.fundsFrom (s : State) : Nat → List Grant → List Grant
  | _, [] => []
  | before, g :: rest =>
    { g with fund := if before + s.flow g.channel > s.sweep.sR then .fresh else .reuse } ::
      s.fundsFrom (before + s.flow g.channel) rest

/-- A channel's last grant fund follows the fund of its grant (R127). -/
def State.followFund (s : State) (g : Grant) : State := s.onChannel g.channel (fun ch => { ch with lastFund := some g.fund })

/-- The funds of the grants that remain, re-derived (R127). -/
def State.deriveFunds (s : State) : State :=
  let grants := s.fundsFrom 0 s.sweep.grants
  grants.foldl State.followFund (s.setSweep { s.sweep with grants := grants })

/-- Channel `c` leaves the grant list, the funds of the rest are re-derived, and a G_t notice is sent (R127). -/
def State.release (s : State) (c : Nat) : State :=
  (s.setSweep { s.sweep with grants := s.sweep.grants.filter (fun g => g.channel ≠ c) }).deriveFunds.noticeGt

/-- Channel `c` holds a grant. -/
def State.isGranted (s : State) (c : Nat) : Bool := s.sweep.grants.any (fun g => g.channel == c)

/-- A channel with its valve commanded closed, its timers stopped and its preemption mark cleared (R126, R129, R133, R138). -/
def Channel.stopped (ch : Channel) : Channel :=
  { ch with valve := false, slewTimer := none, valveTimer := none, dwellTimer := none, mark := false }

/-! ## The cursor -/

/-- The cursor moves to step 0 of leg `j`; a RING leg's index is set to its a0 (R118). -/
def State.moveToLeg (s : State) (c j : Nat) : State :=
  let g := s.leg c j
  s.onChannel c (fun ch =>
    { ch with cursor := some ⟨j, 0⟩, ringIndex := if g.pattern = .ring then g.a0 else ch.ringIndex })

/-- The cursor moves to the next step of its leg; a RING leg strides, and a wrap raises the lap count (R118). -/
def State.moveToNextStep (s : State) (c : Nat) (k : Cursor) : State :=
  let g := s.leg c k.leg
  s.onChannel c (fun ch =>
    if g.pattern = .ring then
      let moved := g.stride ch.ringIndex
      { ch with cursor := some ⟨k.leg, k.step + 1⟩, ringIndex := moved.1,
                laps := if moved.2 then min 65535 (ch.laps + 1) else ch.laps }
    else { ch with cursor := some ⟨k.leg, k.step + 1⟩ })

/-- A pending bank swap is taken: the active bank becomes the requested bank (R125, R135). -/
def Channel.takeSwap (ch : Channel) (requested : Bank) : Channel :=
  if ch.swapPending then { ch with bank := requested, swapPending := false } else ch

/-- A pass ends: the cursor becomes none and a pending swap is taken (R125). -/
def State.endPass (s : State) (c : Nat) : State :=
  s.onChannel c (fun ch => { ch with cursor := none }.takeSwap s.sweep.requested)

/-- The cursor at a step end (R124): the next step of its leg while the face is eligible, else step 0 of the next eligible leg, else
the pass ends. -/
def State.advanceCursor (s : State) (c : Nat) : State :=
  match (s.channel c).cursor with
  | none => s.endPass c
  | some k =>
    if k.step + 1 < (s.leg c k.leg).steps ∧ s.eligible (s.leg c k.leg) then s.moveToNextStep c k
    else
      match s.eligibleFrom c (k.leg + 1) with
      | some j => s.moveToLeg c j
      | none => s.endPass c

/-! ## Steps -/

/-- The azimuth a step start commands: the pattern azimuth turned by the bias (R120). -/
def State.stepAim (s : State) (c : Nat) (k : Cursor) : Nat × Nat × Int :=
  let g := s.leg c k.leg
  let azimuth := g.azimuth k.step (s.channel c).ringIndex
  let bias := biasOf s.wind.uEff s.wind.sector (s.channelCfg c).gain azimuth
  (modN ((azimuth : Int) + bias) 3600, g.elevation k.step, bias)

/-- A step start of a channel with a cursor (R120): the aim with its bias, the dry flag from the machine unit's arcs, a slew command,
the slew timer; the channel is SLEWING with its valve closed. -/
def State.startStep (s : State) (c : Nat) : State :=
  match (s.channel c).cursor with
  | none => s
  | some k =>
    let aim := s.stepAim c k
    s.onChannel c (fun ch =>
      { ch with state := .slewing, aim := some (aim.1, aim.2.1), bias := aim.2.2, dryFlag := s.inActiveArc c aim.1,
                slewTimer := some (seconds (s.channelCfg c).slewTimeout), valveTimer := none, dwellTimer := none,
                valve := false })

/-! ## Grants -/

/-- The grant test of R128 for channel `c` against a granted total and the grants that count for the all-HEAVY question. -/
def State.fits (s : State) (c total : Nat) (others : List Grant) : Bool :=
  decide (total + s.flow c ≤ s.sweep.sR) ||
    (decide (s.priority c = .heavy) && s.allHeavy others && decide (total + s.flow c ≤ s.sweep.sR + s.sweep.sF))

/-- Channel `c` has a step to take when granted: a cursor, or an eligible leg to begin a pass at. A channel with neither has no
priority and stands in no list (R119). -/
def State.hasStep (s : State) (c : Nat) : Bool := (s.channel c).cursor.isSome || s.hasWork c

/-- Channel `c` may be granted: no channel still waiting ahead of it has a higher priority, and the grant test passes (R128). -/
def State.grantable (s : State) (c : Nat) : Bool :=
  s.hasStep c && (s.sweep.waiting.takeWhile (fun d => d != c)).all (fun d => decide ((s.priority d).num ≤ (s.priority c).num)) &&
    s.fits c s.granted s.sweep.grants

/-- A channel without a cursor begins a pass at step 0 of its first eligible leg; one with a cursor keeps it (R128, R130). -/
def State.beginPass (s : State) (c : Nat) : State :=
  match (s.channel c).cursor, s.eligibleFrom c 0 with
  | none, some j => s.moveToLeg c j
  | _, _ => s

/-- Channel `c` leaves the waiting order, enters the grant list with its fund, and takes its first step (R127, R128). -/
def State.grant (s : State) (c : Nat) : State :=
  let g : Grant := ⟨c, if s.granted + s.flow c > s.sweep.sR then .fresh else .reuse⟩
  let s1 := s.setSweep { s.sweep with
    waiting := s.sweep.waiting.filter (fun d => d != c), grants := s.insertGrant g s.sweep.grants }
  (((s1.followFund g).noticeGt).beginPass c).startStep c

/-- The walk of a grant scan over the waiting order as it stood at the scan's start (R128). -/
def State.scanWalk (s : State) (l : List Nat) : State :=
  l.foldl (fun t c => if t.grantable c then t.grant c else t) s

/-- A granted channel is a candidate for preemption by `claimant` (R131). -/
def State.candidate (s : State) (claimant : Nat) (v : Grant) : Bool :=
  decide ((s.priority v.channel).num < (s.priority claimant).num) &&
    s.fits claimant (s.granted - s.flow v.channel) (s.sweep.grants.filter (fun g => g.channel != v.channel))

/-- The channel to mark: the lowest priority and latest grant among the candidates of the front waiting channel, which is the last
of them in the grant list (R127, R131). -/
def State.preempted (s : State) : Option Nat :=
  match s.sweep.waiting with
  | [] => none
  | claimant :: _ => ((s.sweep.grants.filter (fun v => s.candidate claimant v)).getLast?).map Grant.channel

/-- The preemption marks recomputed at the end of a scan (R131). -/
def State.remark (s : State) : State :=
  let v := s.preempted
  s.setSweep { s.sweep with
    channels := s.sweep.channels.mapIdx (fun i ch => { ch with mark := decide (v = some i) }) }

/-- A grant scan (R128): only in AUTO, then the marks. -/
def State.grantScan (s : State) : State :=
  if s.station.mode = .auto then (s.scanWalk s.sweep.waiting).remark else s

/-! ## Revocation (R129) -/

/-- The grant list stands within the shares: G_t ≤ S_r + S_f and, if any granted channel is below HEAVY, G_t ≤ S_r (R127). -/
def State.contained (s : State) : Bool :=
  decide (s.granted ≤ s.sweep.sR + s.sweep.sF) && (s.allHeavy s.sweep.grants || decide (s.granted ≤ s.sweep.sR))

/-- The latest grant of the lowest priority, the last of the grant list, is revoked: its channel is DENIED at the front of its
priority group with its cursor and slew command kept (R129), the funds of the grants that remain are re-derived, and a G_t notice is
sent (R127; log 8). -/
def State.revokeLast (s : State) : State :=
  match s.sweep.grants.getLast? with
  | none => s
  | some g =>
    let s1 := s.onChannel g.channel (fun ch => { ch.stopped with state := .denied })
    (s1.setSweep { s1.sweep with
      grants := s1.sweep.grants.dropLast, waiting := s1.insertFront g.channel s1.sweep.waiting }).deriveFunds.noticeGt

/-- Revocations until the list stands within the shares; at most `n` of them. -/
def State.revokeUntilContained : Nat → State → State
  | 0, s => s
  | n + 1, s => if s.contained then s else revokeUntilContained n s.revokeLast

/-- The containment of R129: revocations until the list stands within the shares. -/
def State.contain (s : State) : State := State.revokeUntilContained s.sweep.grants.length s

/-- The share hand-over (R105, R129): when either share is smaller than the figure held, revoke until contained; when nothing was
revoked, run a grant scan against the new shares. -/
def State.handOver (s : State) (sR sF : Nat) : State :=
  let shrunk := decide (sR < s.sweep.sR) || decide (sF < s.sweep.sF)
  let s1 := s.setSweep { s.sweep with sR := sR, sF := sF }
  if shrunk && !s1.contained then s1.contain else s1.grantScan

/-! ## Events of a channel -/

/-- The leg the channel's cursor stands on. -/
def State.currentLeg (s : State) (c : Nat) : Leg :=
  match (s.channel c).cursor with
  | some k => s.leg c k.leg
  | none => Leg.absent

/-- A slew ends on aim (R122): DRY with the dwell started, or OPENING with the valve commanded open. -/
def State.slewEnds (s : State) (c : Nat) : State :=
  let g := s.currentLeg c
  s.onChannel c (fun ch =>
    if ch.dryFlag then { ch with state := .dry, slewTimer := none, dwellTimer := some (seconds g.dwell) }
    else { ch with state := .opening, slewTimer := none, valve := true, lastFace := some g.face,
                   valveTimer := some (seconds (s.channelCfg c).valveTimeout) })

/-- The valve reports open (R123): SPRAYING with the dwell started. -/
def State.valveOpens (s : State) (c : Nat) : State :=
  let g := s.currentLeg c
  s.onChannel c (fun ch => { ch with state := .spraying, valveTimer := none, dwellTimer := some (seconds g.dwell) })

/-- A channel enters FAULTED (R126). -/
def State.faultChannel (s : State) (c : Nat) : State :=
  ((s.onChannel c (fun ch => { ch.stopped with state := .faulted })).release c).grantScan

/-- A step or a pass goes on with the grant kept (R124, R125): the grant list is put in order, the containment of R129 applies when
the cursor moved to a face at a lower level, and a step start follows unless it revoked the channel. -/
def State.continueStep (old s : State) (c : Nat) : State :=
  let s1 := State.settleGrants old s
  let s2 := if (s1.priority c).num < (old.priority c).num then s1.contain else s1
  if (s2.channel c).state = .denied then s2 else s2.startStep c

/-- A marked channel gives its grant up instead of starting another step (R131): WAITING at the front of its priority group, or IDLE
without an eligible leg; then a grant scan. A swap still pending waits for a later pass end, BANK order or hush (DESIGN CHOICE,
log 30). -/
def State.preemptionRelease (s : State) (c : Nat) : State :=
  let s1 := (s.onChannel c (fun ch =>
    { ch.stopped with state := if s.hasWork c then .waiting else .idle })).release c
  (if s.hasWork c then s1.setSweep { s1.sweep with waiting := s1.insertFront c s1.sweep.waiting } else s1).grantScan

/-- The pass end of an unmarked channel, its cursor none and its swap taken (R125). -/
def State.passEnd (old s : State) (c : Nat) : State :=
  match s.eligibleFrom c 0 with
  | none => ((s.onChannel c (fun ch => { ch.stopped with state := .idle })).release c).grantScan
  | some j =>
    if s.cfg.policy = .rotate ∧ s.sweep.waiting.any (fun d => decide (s.priority d = s.priority c)) then
      let s1 := (s.onChannel c (fun ch => { ch.stopped with state := .waiting })).release c
      (s1.setSweep { s1.sweep with waiting := s1.insertBack c s1.sweep.waiting }).grantScan
    else State.continueStep old (s.moveToLeg c j) c

/-- A step ends at its dwell expiry (R124): the valve closes, the cursor advances, and the channel goes by its mark, its pass end or
its next step. -/
def State.stepEnd (s : State) (c : Nat) : State :=
  let s1 := s.onChannel c (fun ch => { ch with valve := false, dwellTimer := none })
  let s2 := s1.advanceCursor c
  if (s.channel c).mark then s2.preemptionRelease c
  else if (s2.channel c).cursor = none then State.passEnd s1 s2 c
  else State.continueStep s1 s2 c

/-! ## Level notices (R132) -/

/-- Where an eligible channel without a grant goes: WIND-HELD when the last published U_eff is above its cutoff, else WAITING
(R132, R138). -/
def State.joinState (s : State) (c : Nat) : ChannelState :=
  if (s.channelCfg c).cutoff < s.wind.uEff then .windHeld else .waiting

/-- A channel without a grant reads the levels (R132): its cursor leaves a leg that is no longer eligible, and without an eligible leg
it goes IDLE. -/
def State.treatCursor (s : State) (c : Nat) : State :=
  match (s.channel c).cursor with
  | none => s
  | some k =>
    if s.eligible (s.leg c k.leg) then s
    else
      match s.eligibleFrom c (k.leg + 1) with
      | some j => s.moveToLeg c j
      | none => s.endPass c

/-- The treatment of one channel at a level notice, by its state (R132); a pending swap is taken where the pass ends, and not for the
state entered (DESIGN CHOICE, log 30). -/
def State.treatLevel (s : State) (c : Nat) : State :=
  match (s.channel c).state with
  | .idle =>
    if s.station.mode = .auto ∧ s.hasWork c then s.onChannel c (fun ch => { ch with state := s.joinState c }) else s
  | .waiting | .denied | .windHeld =>
    let s1 := s.treatCursor c
    if s1.hasWork c then s1 else s1.onChannel c (fun ch => { ch with state := .idle })
  | .slewing | .opening | .spraying | .dry | .faulted | .hushed => s

/-- A level notice (R132); `old` is the state before the levels were published. -/
def State.levelNotice (old s : State) : State :=
  let s1 := s.channelNumbers.foldl State.treatLevel s
  ((State.settleGrants old (State.settleWaiting old s1)).contain).grantScan

/-! ## Wind hold (R133) -/

/-- The test of one channel against the newly published U_eff (R133). A channel let go keeps its cursor, to IDLE too (DESIGN CHOICE,
log 34), and a swap still pending (DESIGN CHOICE, log 30). -/
def State.windTest (s : State) (c : Nat) : State :=
  let ch := s.channel c
  let cutoff := (s.channelCfg c).cutoff
  if ch.state.waits && decide (cutoff < s.wind.uEff) then
    s.onChannel c (fun ch => { ch.stopped with state := .windHeld })
  else if ch.state.runs && decide (cutoff < s.wind.uEff) then
    (s.onChannel c (fun ch => { ch.stopped with state := .windHeld })).release c
  else if ch.state = .windHeld ∧ s.wind.uEff + 10 ≤ cutoff then
    s.onChannel c (fun ch => { ch with state := if s.hasWork c then .waiting else .idle })
  else s

/-- A channel released its grant or joined the waiting order between two states of one event. -/
def State.releasedOrJoined (old s : State) : Bool :=
  s.channelNumbers.any (fun c =>
    ((old.channel c).state.runs && !(s.channel c).state.runs) ||
      (!(old.channel c).state.waits && (s.channel c).state.waits))

/-- The wind hold at a sample close (R133): every channel is tested, in channel order (DESIGN CHOICE, log 33), the waiting order is put
in order, and a grant scan runs when any channel has released or joined. -/
def State.windHold (s : State) : State :=
  let s1 := State.settleWaiting s (s.channelNumbers.foldl State.windTest s)
  if State.releasedOrJoined s s1 then s1.grantScan else s1

/-! ## Exclusion (R134) -/

/-- An activation notice for channel `c` (R134), by its state and its present aim. -/
def State.activationNotice (s : State) (c : Nat) : State :=
  let g := s.currentLeg c
  match (s.channel c).aim with
  | none => s
  | some aim =>
    if s.inActiveArc c aim.1 then
      match (s.channel c).state with
      | .spraying => s.onChannel c (fun ch => { ch with state := .dry, valve := false, dryFlag := true })
      | .opening =>
        s.onChannel c (fun ch => { ch with state := .dry, valve := false, dryFlag := true, valveTimer := none,
                                           dwellTimer := some (seconds g.dwell) })
      | .slewing => s.onChannel c (fun ch => { ch with dryFlag := true })
      | .idle | .waiting | .dry | .denied | .windHeld | .faulted | .hushed => s
    else s

/-! ## Bank swap (R135) -/

/-- A pending swap is taken at once in IDLE, WAITING and HUSHED, and in WIND-HELD without a cursor (R135). -/
def Channel.swapsAtOnce (ch : Channel) : Bool :=
  ch.swapPending &&
    match ch.state with
    | .idle | .waiting | .hushed => true
    | .windHeld => ch.cursor.isNone
    | .slewing | .opening | .spraying | .dry | .denied | .faulted => false

/-- One channel at a BANK order: its swap pending is set or cleared, and a swap taken at once is followed by the treatment of
eligibility of R132 (R135). The cursor becomes none in every state in which a swap is taken at once, so in IDLE too, where a wind hold
may have left one (DESIGN CHOICE, log 34). A FAULTED channel takes no part and keeps its flag as it stood (R126; log 9). -/
def State.bankChannel (s : State) (c : Nat) : State :=
  if (s.channel c).state = .faulted then s else
  let s1 := s.onChannel c (fun ch => { ch with swapPending := decide (ch.bank ≠ s.sweep.requested) })
  if (s1.channel c).swapsAtOnce then (s1.endPass c).treatLevel c else s1

/-- A BANK order (R135): one grant scan after all the swaps taken at once (DESIGN CHOICE, log 31). -/
def State.bankOrder (s : State) (requested : Bank) : State :=
  let s1 := s.setSweep { s.sweep with requested := requested }
  let s2 := State.settleWaiting s (s1.channelNumbers.foldl State.bankChannel s1)
  if s1.channelNumbers.any (fun c => decide ((s2.channel c).bank ≠ (s1.channel c).bank)) then s2.grantScan else s2

/-! ## Station modes (R138) -/

/-- A channel at a change to a mode other than AUTO (R138). -/
def Channel.hush (requested : Bank) (ch : Channel) : Channel :=
  if ch.state = .faulted then ch
  else { ch.stopped with state := .hushed, cursor := none }.takeSwap requested

/-- The sweep engine at a change to a mode other than AUTO (R138): every grant ends at once, each channel's last grant fund as it stood
(DESIGN CHOICE, log 32), with one G_t notice when G_t has changed. -/
def State.sweepHush (s : State) : State :=
  let s1 := s.setSweep { s.sweep with
    channels := s.sweep.channels.map (Channel.hush s.sweep.requested), grants := [], waiting := [] }
  if s.granted = 0 then s1 else s1.noticeGt

/-- A HUSHED channel at the change to AUTO (R138). -/
def State.wakeChannel (s : State) (c : Nat) : State :=
  if (s.channel c).state = .hushed then
    s.onChannel c (fun ch => { ch with state := if s.hasWork c then s.joinState c else .idle })
  else s

/-- The sweep engine at the change to AUTO (R138): the HUSHED channels come out in channel order and a grant scan runs. -/
def State.sweepWake (s : State) : State :=
  (State.settleWaiting s (s.channelNumbers.foldl State.wakeChannel s)).grantScan

/-! ## The commands of the field terminals -/

/-- ON_AIM (R122): ignored while the channel is not SLEWING. -/
def execOnAim (c : Fin 4) (s : State) : Host.Outcome State Fault Refusal :=
  .next (if (s.channel c).state = .slewing then s.slewEnds c else s)

/-- SLEW_TIMEOUT (R122, R126): of a slew timer run out. -/
def execSlewTimeout (c : Fin 4) (s : State) : Host.Outcome State Fault Refusal :=
  .next (if (s.channel c).state = .slewing ∧ (s.channel c).slewTimer = some 0 then s.faultChannel c else s)

/-- VALVE_OPEN_REPORT (R123): the valve feedback is not read outside OPENING. -/
def execValveOpenReport (c : Fin 4) (s : State) : Host.Outcome State Fault Refusal :=
  .next (if (s.channel c).state = .opening then s.valveOpens c else s)

/-- VALVE_TIMEOUT (R123, R126): of a valve timer run out. -/
def execValveTimeout (c : Fin 4) (s : State) : Host.Outcome State Fault Refusal :=
  .next (if (s.channel c).state = .opening ∧ (s.channel c).valveTimer = some 0 then s.faultChannel c else s)

/-- DWELL_EXPIRY (R124). -/
def execDwellExpiry (c : Fin 4) (s : State) : Host.Outcome State Fault Refusal :=
  .next (if ((s.channel c).state = .spraying ∨ (s.channel c).state = .dry) ∧ (s.channel c).dwellTimer.isSome
    then s.stepEnd c else s)

end Sys2Proof.Machine
end

