-- ==== Sys2Proof/Machine/Water.lean ====
section
/-! DEFINITION. The water share unit (chapter 7): the pond record, the share computation, claims and daily volumes; with it the flow
pulses (R136), which feed the volumes and the moisture credit (R52). -/

namespace Sys2Proof.Machine

/-! ## The share computation (R99 to R105) -/

/-- The claim sum of the peer table (R89). -/
def State.claimSum (s : State) : Nat := (s.peers.list.map (fun p => p.claimR + p.claimF)).sum

/-- The W sum of the peer table (R89). -/
def State.wSum (s : State) : Nat := (s.peers.list.map Peer.w).sum

/-- The H_w sum of the peer table (R89). -/
def State.hwSum (s : State) : Nat := (s.peers.list.map Peer.hw).sum

/-- Step 1, usable reuse U_r (R100). -/
def State.usableReuse (s : State) : Nat :=
  if s.cfg.turbidityLimit < s.water.turbidity ∨ s.water.lowLow then 0 else s.water.cR

/-- Step 2, believed draw B (R101). -/
def State.believedDraw (s : State) : Nat := s.claimSum + s.granted

/-- Step 2, unaccounted draw X: D_m - B, and 0 when B is the greater (R101). -/
def State.unaccounted (s : State) : Nat := s.water.dM - s.believedDraw

/-- Step 3, available reuse A_r: the reserve is taken off, then X (R102). -/
def State.availableReuse (s : State) : Nat := s.usableReuse * (100 - s.cfg.reserve) / 100 - s.unaccounted

/-- A share by weight: 0 for a weight of 0, else the amount times the weight over the sum of weights (R103, R104). -/
def shareByWeight (amount own others : Nat) : Nat := if own = 0 then 0 else amount * own / (own + others)

/-- Step 4, the reuse share S_r (R103). -/
def State.reuseShare (s : State) : Nat := shareByWeight s.availableReuse s.risk.w s.wSum

/-- Step 5, the fresh share S_f (R104). -/
def State.freshShare (s : State) : Nat := shareByWeight s.water.cF s.risk.hw s.hwSum

/-- The share computation with its hand-over (R99, R105), one event. -/
def State.shareComputation (s : State) : State :=
  (s.setWater { s.water with sR := s.reuseShare, sF := s.freshShare }).handOver s.reuseShare s.freshShare

/-! ## Claims (R108) -/

/-- claim_r, the smaller of G_t and S_r (R108). -/
def State.claimReuse (s : State) : Nat := min s.granted s.water.sR

/-- claim_f, G_t less claim_r (R108). -/
def State.claimFresh (s : State) : Nat := s.granted - s.claimReuse

/-! ## The pond record (R96, R97) -/

/-- The store of a Pond frame from the followed pond, with its computation; a frame from another sender is dropped (R96). -/
def State.takePond (s : State) (f : Frame) : State :=
  if f.sender = s.cfg.pond then
    (s.setWater { s.water with
      cR := f.payload 0 2, cF := f.payload 2 2, dM := f.payload 4 2, turbidity := min 1000 (f.payload 6 2),
      pondLevel := min 100 (f.payload 8 1), lowLow := decide (f.payload 9 1 ≠ 0), silent := false,
      timer := some (seconds s.cfg.pondSilence) }).shareComputation
  else s

/-- An expiry of the silence timer: C_r and C_f are halved, the pond is SILENT, the timer restarts, and the shares are computed (R97). -/
def State.pondFallsSilent (s : State) : State :=
  (s.setWater { s.water with
    cR := s.water.cR / 2, cF := s.water.cF / 2, silent := true,
    timer := some (seconds s.cfg.pondSilence) }).shareComputation

/-! ## Daily volumes (R109 to R111) -/

/-- The largest volume in litres (R109). -/
def volumeCeiling : Nat := 4294967295

/-- A weight in tenths of a litre added to a volume and its remainder; a volume at its ceiling takes no more (R109, log 19). -/
def addVolume (litres remainder weight : Nat) : Nat × Nat :=
  if volumeCeiling ≤ litres then (litres, remainder)
  else (min volumeCeiling (litres + (remainder + weight) / 10), (remainder + weight) % 10)

/-- A volume notice (R109). -/
def State.volumeNotice (s : State) (weight : Nat) (fund : Fund) : State :=
  match fund with
  | .reuse =>
    let v := addVolume s.water.reuse s.water.reuseRem weight
    s.setWater { s.water with reuse := v.1, reuseRem := v.2 }
  | .fresh =>
    let v := addVolume s.water.fresh s.water.freshRem weight
    s.setWater { s.water with fresh := v.1, freshRem := v.2 }

/-- Both volumes and both remainders become 0, at a day roll and at a ZERO order (R110, R111). -/
def State.zeroVolumes (s : State) : State :=
  s.setWater { s.water with reuse := 0, reuseRem := 0, fresh := 0, freshRem := 0 }

/-! ## Flow pulses (R136) and moisture credit (R52) -/

/-- The fund of a pulse: the present grant's, else the last grant's, else REUSE (R136). -/
def State.pulseFund (s : State) (c : Nat) : Fund :=
  match s.sweep.grants.find? (fun g => g.channel == c) with
  | some g => g.fund
  | none => (s.channel c).lastFund.getD .reuse

/-- A credit notice: trunc(weight × g_f / 10) is added to the face's moisture, capped at 4095 (R52). -/
def State.creditNotice (s : State) (weight face : Nat) : State :=
  s.setRisk { s.risk with
    faces := s.risk.faces.modify (face - 1)
      (fun r => { r with moisture := min 4095 (r.moisture + weight * (s.faceCfg face).gain / 10) }) }

/-- A flow pulse of channel `c` (R136): a volume notice, and a credit notice when the channel has a last spray face. -/
def State.takePulse (s : State) (c : Nat) : State :=
  let weight := (s.channelCfg c).weight
  let s1 := s.volumeNotice weight (s.pulseFund c)
  match (s.channel c).lastFace with
  | none => s1
  | some face => s1.creditNotice weight face

/-! ## The commands -/

/-- POND_SILENCE_EXPIRY (R97): of the silence timer at 0; a store before it restarts the timer, and that expiry does not occur (R98). -/
def execPondSilenceExpiry (s : State) : Host.Outcome State Fault Refusal :=
  .next (if s.water.timer = some 0 then s.pondFallsSilent else s)

/-- G_T_NOTICE (R105): a notice sent and not yet taken causes a computation of its own. -/
def execGtNotice (s : State) : Host.Outcome State Fault Refusal :=
  .next (if 0 < s.water.gtNotices
    then (s.setWater { s.water with gtNotices := s.water.gtNotices - 1 }).shareComputation else s)

/-- FLOW_PULSE (R136): counted from entry to LISTENING onward, in every mode and channel state. -/
def execFlowPulse (c : Fin 4) (s : State) : Host.Outcome State Fault Refusal :=
  .next (if s.works ∧ c.val < s.channelCount then s.takePulse c else s)

end Sys2Proof.Machine
end

