-- ==== Sys2Proof/Machine/Forecast.lean ====
section
/-! DEFINITION. The forecast store and the yard clock (chapter 2): coverage, expiry, selection and the lock, storing, clock setting and
the day roll. -/

namespace Sys2Proof.Machine

/-! ## Coverage and expiry (R24, R25) -/

/-- The span of a window in seconds (2.1). -/
def Window.span (w : Window) : Nat := w.slots.length * w.slotLength * 60

/-- A window covers a yard time (R24). -/
def Window.covers (w : Window) (t : Nat) : Bool := decide (yardDiff t w.validFrom < w.span)

/-- The slot covering a yard time, when the window covers it (R24). -/
def Window.slotAt (w : Window) (t : Nat) : Option Slot :=
  if w.covers t then w.slots[yardDiff t w.validFrom / (w.slotLength * 60)]? else none

/-- The issue age of a window (R25). -/
def Window.issueAge (w : Window) (now : Nat) : Nat := yardDiff now w.issue

/-- A window is expired (R25). -/
def Window.expired (w : Window) (now : Nat) : Bool :=
  decide (43200 < w.issueAge now) || (!w.covers now && decide (yardDiff now w.validFrom ≤ 43200))

/-! ## The places and the recency order (R20) -/

/-- The window in a place. -/
def Forecast.window (f : Forecast) (p : Nat) : Option Window := (f.places[p]?).join

/-- A place moved to the most recent end of the recency order (R20). -/
def touch (p : Nat) (order : List Nat) : List Nat := p :: order.filter (fun q => q ≠ p)

/-! ## Selection (R26 to R28) -/

/-- The place holds a window that covers the present and is not expired (R26). -/
def Forecast.candidate (f : Forecast) (now p : Nat) : Bool :=
  match f.window p with
  | some w => w.covers now && !w.expired now
  | none => false

/-- The window in the place is the gateway's. -/
def Forecast.fromGateway (f : Forecast) (gateway p : Nat) : Bool :=
  match f.window p with
  | some w => decide (w.gateway = gateway)
  | none => false

/-- The issue age of the window in a place. -/
def Forecast.ageAt (f : Forecast) (now p : Nat) : Nat :=
  match f.window p with
  | some w => w.issueAge now
  | none => 0

/-- The first place of a list with the smallest issue age; the list runs from the most recent end (R26). -/
def Forecast.youngest (f : Forecast) (now : Nat) : List Nat → Option Nat
  | [] => none
  | p :: rest =>
    match f.youngest now rest with
    | none => some p
    | some q => if f.ageAt now q < f.ageAt now p then some q else some p

/-- The place that a selection selects (R26). -/
def Forecast.choice (f : Forecast) (gateway : Nat) : Option Nat :=
  match f.clock with
  | none => none
  | some now =>
    let candidates := f.recency.filter (f.candidate now)
    let primary := candidates.filter (f.fromGateway gateway)
    f.youngest now (if primary = [] then candidates else primary)

/-- A selection: the chosen place is touched and its window locked, or no window is (R26, R27). -/
def State.selectForecast (s : State) : State :=
  match s.forecast.choice s.cfg.gateway with
  | none => s.setForecast { s.forecast with selected := none }
  | some p => s.setForecast { s.forecast with selected := some p, recency := touch p s.forecast.recency }

/-- The selected window with the present yard time. -/
def Forecast.inUse (f : Forecast) : Option (Window × Nat) :=
  match f.selected, f.clock with
  | some p, some now => (f.window p).map (fun w => (w, now))
  | _, _ => none

/-- The current slot that a selection gives its reader (R28). -/
def State.currentSlot (s : State) : Option Slot :=
  match s.forecast.inUse with
  | some (w, now) => w.slotAt now
  | none => none

/-- The look-ahead slot that a selection gives its reader (R28). -/
def State.lookAheadSlot (s : State) : Option Slot :=
  match s.forecast.inUse with
  | some (w, now) => w.slotAt ((now + s.cfg.lead * 60) % 86400)
  | none => none

/-! ## Storing (R19, R22, R23) -/

/-- The store's own checks of a Forecast frame's fields (R19). -/
def forecastAccepted (f : Frame) : Bool :=
  decide (1 ≤ f.payload 0 1) && decide (f.payload 0 1 ≤ 239) && decide (f.payload 1 3 < 86400)
    && decide (f.payload 4 3 < 86400) && decide (f.payload 9 3 < 86400)
    && decide (5 ≤ f.payload 7 1) && decide (f.payload 7 1 ≤ 60)

/-- Slot `k` of a Forecast frame, clamped (R19). -/
def forecastSlot (f : Frame) (k : Nat) : Slot where
  mean := min 600 (f.payload (12 + 6 * k) 2)
  gust := min 600 (f.payload (14 + 6 * k) 2)
  sector := if f.payload (16 + 6 * k) 1 = 255 then 255 else min 15 (f.payload (16 + 6 * k) 1)
  rh := min 100 (f.payload (17 + 6 * k) 1)

/-- The window of a Forecast frame (R19). -/
def forecastWindow (f : Frame) : Window where
  gateway := f.payload 0 1
  issue := f.payload 1 3
  validFrom := f.payload 4 3
  slotLength := f.payload 7 1
  slots := (List.range (f.payload 8 1)).map (forecastSlot f)

/-- The place that holds a window of the same gateway and issue time (R22). -/
def Forecast.sameKey (f : Forecast) (w : Window) : Option Nat :=
  f.recency.find? (fun p =>
    match f.window p with
    | some v => decide (v.gateway = w.gateway) && decide (v.issue = w.issue)
    | none => false)

/-- The place for a new window (R23), looked for from the least recent end: empty, else expired and unlocked, else unlocked. -/
def Forecast.placeFor (f : Forecast) (now : Nat) : Option Nat :=
  let byAge := f.recency.reverse
  let unlocked := byAge.filter (fun p => decide (f.selected ≠ some p))
  match byAge.find? (fun p => (f.window p).isNone) with
  | some p => some p
  | none =>
    match unlocked.find? (fun p => match f.window p with | some w => w.expired now | none => false) with
    | some p => some p
    | none => unlocked.head?

/-- A window put into a place, which is touched (R20). -/
def Forecast.put (f : Forecast) (p : Nat) (w : Window) : Forecast :=
  { f with places := f.places.set p (some w), recency := touch p f.recency }

/-- The clock set to a yard time, its advance timer restarted (R31). -/
def Forecast.setClock (f : Forecast) (t : Nat) : Forecast :=
  { f with clock := some t, advanceTimer := some (seconds 1) }

/-- A window stored, rewritten in place, or discarded because its like is locked (R22, R23). -/
def Forecast.store (f : Forecast) (now : Nat) (w : Window) : Forecast :=
  match f.sameKey w with
  | some p => if f.selected = some p then f else f.put p w
  | none =>
    match f.placeFor now with
    | some p => f.put p w
    | none => f

/-- A Forecast frame handed to the store (R19): discarded whole, or the clock is set and the window stored, one event. -/
def State.takeForecast (s : State) (f : Frame) : State :=
  if forecastAccepted f then
    s.setForecast ((s.forecast.setClock (f.payload 9 3)).store (f.payload 9 3) (forecastWindow f))
  else s

/-! ## The yard clock (R30 to R33) -/

/-- An advance of the set clock by one second; from 86399 it gives 0, which is the day roll (R32, R33). -/
def State.advanceClock (s : State) (now : Nat) : State :=
  let s1 := s.setForecast (s.forecast.setClock ((now + 1) % 86400))
  if now = 86399 then s1.zeroVolumes else s1

/-- YARD_CLOCK_ADVANCE (R32): while the clock is SET, of the advance timer at 0; a setting before it restarts the timer, and that expiry
does not occur. -/
def execYardClockAdvance (s : State) : Host.Outcome State Fault Refusal :=
  .next (match s.forecast.clock with
    | some now => if s.forecast.advanceTimer = some 0 then s.advanceClock now else s
    | none => s)

end Sys2Proof.Machine
end

