-- ==== Sys2Proof/Machine/Machines.lean ====
section
/-! DEFINITION. The machine unit (chapter 5): the machine list, disturbance factors, shadow arc states and activation notices. -/

namespace Sys2Proof.Machine

/-! ## The recomputation (R73 to R77) -/

/-- The face index that a pile and face reference maps to (R74). -/
def State.mappedFace (s : State) (m : MachineRecord) : Option Nat :=
  (s.cfg.faceMap.find? (fun e => decide (e.pile = m.pile) && decide (e.face = m.face))).map MapEntry.index

/-- The factor an activity offers (R74). -/
def State.factorOf (s : State) : Activity → Nat
  | .reclaiming => s.cfg.kReclaim
  | .stacking => s.cfg.kStack
  | .travelling | .parked => 64

/-- K_f of a face: the largest factor any record offers it, 64 when none maps to it (R74). -/
def State.disturbance (s : State) (face : Nat) : Nat :=
  ((s.machines.list.filter (fun m => decide (s.mappedFace m = some face))).map (fun m => s.factorOf m.activity)).foldl max 64

/-- A shadow entry's arc is ACTIVE: some record occupies its cell (R76). -/
def State.occupied (s : State) (e : Shadow) : Bool :=
  s.machines.list.any (fun m => decide (m.x = e.x) && decide (m.y = e.y))

/-- An arc went from INACTIVE to ACTIVE (R77). -/
def activated (before after : List Bool) : Bool := (before.zip after).any (fun e => !e.1 && e.2)

/-- The shadow arc states derived from the list (R76). -/
def State.derivedArcs (s : State) : List (List Bool) := s.cfg.channels.map (fun ch => ch.shadow.map s.occupied)

/-- The channels on which an arc has become ACTIVE (R77). -/
def State.activatedChannels (s : State) (arcs : List (List Bool)) : List Nat :=
  (List.range s.cfg.channels.length).filter (fun c => activated (s.machines.arcs.getD c []) (arcs.getD c []))

/-- A recomputation: K_f of every face, every shadow arc, then one activation notice for each channel that gained an arc (R73, R77). -/
def State.recomputeMachines (s : State) : State :=
  let arcs := s.derivedArcs
  (s.activatedChannels arcs).foldl State.activationNotice
    (s.setMachines { s.machines with
      kf := (List.range s.faceCount).map (fun i => s.disturbance (i + 1)), arcs := arcs })

/-! ## The list (R69 to R71) -/

/-- A record put in its place by id, over the record of the same id if there is one. -/
def putMachine (r : MachineRecord) : List MachineRecord → List MachineRecord
  | [] => [r]
  | m :: rest =>
    if r.id < m.id then r :: m :: rest
    else if r.id = m.id then r :: rest
    else m :: putMachine r rest

/-- The machine kind of a code (5.1); codes above 2 are discarded before. -/
def machineKind : Nat → MachineKind
  | 0 => .stacker
  | 1 => .reclaimer
  | _ => .loader

/-- The activity of a code (5.1); codes above 3 are discarded before. -/
def activityOf : Nat → Activity
  | 0 => .parked
  | 1 => .travelling
  | 2 => .stacking
  | _ => .reclaiming

/-- A Machine frame's fields suit one another (R69). -/
def machineAccepted (f : Frame) : Bool :=
  decide (f.payload 0 1 ≤ 2) && decide (f.payload 3 1 ≤ 3)
    && !(decide (f.payload 0 1 = 0) && decide (f.payload 3 1 = 3))
    && !(decide (f.payload 0 1 = 1) && decide (f.payload 3 1 = 2))

/-- The record of a Machine frame, FRESH with age 0 (R69). -/
def machineRecord (f : Frame) : MachineRecord where
  id := f.sender
  kind := machineKind (f.payload 0 1)
  x := f.payload 1 1
  y := f.payload 2 1
  activity := activityOf (f.payload 3 1)
  pile := f.payload 4 1
  face := f.payload 5 1
  age := 0
  stale := false

/-- A record's age in whole seconds, 0 to 59 (5.1): a record due for removal and still in the list has not reached age 60 (R71, R72). -/
def MachineRecord.wholeAge (m : MachineRecord) : Nat := min 59 (m.age / 1000)

/-- The STALE record of greatest age, and of the lowest id among equals; the list is in ascending id (R70). -/
def oldestMachine : List MachineRecord → Option MachineRecord
  | [] => none
  | m :: rest =>
    match oldestMachine rest with
    | none => if m.stale then some m else none
    | some v => if m.stale && decide (v.wholeAge ≤ m.wholeAge) then some m else some v

/-- The list with a record in it. -/
def State.withMachine (s : State) (r : MachineRecord) (l : List MachineRecord) : State :=
  (s.setMachines { s.machines with list := putMachine r l }).recomputeMachines

/-- A Machine frame handed to the unit: discarded (R69), an update (R69), a newcomer entering, replacing or refused (R70). -/
def State.takeMachine (s : State) (f : Frame) : State :=
  if machineAccepted f then
    let r := machineRecord f
    if s.machines.list.any (fun m => m.id == r.id) ∨ s.machines.list.length < 8 then s.withMachine r s.machines.list
    else
      match oldestMachine s.machines.list with
      | some v => s.withMachine r (s.machines.list.filter (fun m => m.id ≠ v.id))
      | none => s.setMachines { s.machines with refused := bump s.machines.refused }
  else s

/-- A record becomes STALE, which leaves its other fields as they are (R71). -/
def MachineRecord.cross (m : MachineRecord) : MachineRecord := { m with stale := true }

/-- A FRESH record whose age has reached 10 seconds (R71); an update before its crossing puts the age back to 0 (R72). -/
def MachineRecord.dueStale (m : MachineRecord) : Bool := !m.stale && decide (seconds 10 ≤ m.age)

/-- A record whose age has reached 60 seconds (R71); an update before its removal puts the age back to 0 (R72). -/
def MachineRecord.dueRemoval (m : MachineRecord) : Bool := decide (seconds 60 ≤ m.age)

/-- MACHINE_STALE_CROSSING (R71): of a FRESH record whose age has reached 10 seconds. -/
def execMachineStaleCrossing (id : Nat) (s : State) : Host.Outcome State Fault Refusal :=
  .next (if s.machines.list.any (fun m => m.id == id && m.dueStale) then
      (s.setMachines { s.machines with
        list := s.machines.list.map (fun m => if m.id = id then m.cross else m) }).recomputeMachines
    else s)

/-- MACHINE_REMOVAL (R71): of a record whose age has reached 60 seconds. -/
def execMachineRemoval (id : Nat) (s : State) : Host.Outcome State Fault Refusal :=
  .next (if s.machines.list.any (fun m => m.id == id && m.dueRemoval) then
      (s.setMachines { s.machines with list := s.machines.list.filter (fun m => m.id ≠ id) }).recomputeMachines
    else s)

end Sys2Proof.Machine
end

