-- ==== Sys2Proof/WellFormed.lean ====
section
/-! DEFINITION. Which operands the outside can present: the ranges the manual gives the quantities that the commands carry. -/

namespace Sys2Proof

/-- A complete frame as the receiver can hand it over: 5 + n characters, the length character n at most 96 (R159). -/
def Frame.shaped (f : Frame) : Bool :=
  match f with
  | _ :: _ :: n :: _ => decide (n.toNat ≤ 96) && decide (f.length = 5 + n.toNat)
  | _ => false

/-- The operands of a command lie in the ranges the manual gives them. -/
def Instr.wellFormed : Instr → Bool
  | .overrideExpiry face => decide (1 ≤ face) && decide (face ≤ 6)
  | .holdExpiry face => decide (1 ≤ face) && decide (face ≤ 6)
  | .monitorSilenceCrossing id => decide (1 ≤ id) && decide (id ≤ 239)
  | .machineStaleCrossing id => decide (1 ≤ id) && decide (id ≤ 239)
  | .machineRemoval id => decide (1 ≤ id) && decide (id ≤ 239)
  | .peerStaleCrossing id => decide (1 ≤ id) && decide (id ≤ 239)
  | .peerRemoval id => decide (1 ≤ id) && decide (id ≤ 239)
  | .pressureSample reading => decide (reading ≤ 1000)
  | .frameReceived frame => frame.shaped
  | .arbitrationLost char bit _ => decide (char < 2) && decide (1 ≤ bit) && decide (bit ≤ 10)
  | .clash char bit _ => decide (char < 101) && decide (bit ≤ 10)
  | .startEdge measure => decide (measure ≤ 192)
  | .reset | .resetRelease | .loadSuccess _ | .loadFailure _ | .sampleClose _ | .anemometerPulse | .heldTimerExpiry
  | .dispatchForecast | .yardClockAdvance | .evaluationTimerExpiry | .evaluationCompletion _ | .dispatchMonitor
  | .dispatchMachine | .dispatchReport | .dispatchPond | .pondSilenceExpiry | .gtNotice | .onAim _ | .slewTimeout _
  | .valveOpenReport _ | .valveTimeout _ | .dwellExpiry _ | .flowPulse _ | .breakSendEnd | .idleGapComplete | .breakHeard
  | .frameStart | .frameSent | .selfSilenceExpiry | .dispatchOrderMode | .dispatchOrderBank | .dispatchOrderForce
  | .dispatchOrderResume | .dispatchOrderZero | .listeningTimerExpiry | .hushHoldExpiry | .reportTimerExpiry
  | .faultPatternTick | .bitRead _ | .dominantRunEnd | .frameDiscardedAtDispatch | .orderIgnored => true

end Sys2Proof
end

