-- ==== Sys2Proof/Machine/Line.lean ====
section
/-! DEFINITION. The line interface (chapter 9): the receiver bit by bit, arbitration and clash watch, the transmit slot, breaks, the
idle gap, the line counts and the self-silence; and the receive queue that takes the complete frames (R160, R161). -/

namespace Sys2Proof

/-! ## Bits (R143, R144) -/

/-- The value of a bit: the majority of its three samples (R143). -/
def Samples.majority (x : Samples) : Bool := (x.t7 && x.t8) || (x.t7 && x.t9) || (x.t8 && x.t9)

/-- The three samples agree (R143). -/
def Samples.agree (x : Samples) : Bool := x.t7 == x.t8 && x.t8 == x.t9

/-- Some sample reads dominant (R145). -/
def Samples.anyDominant (x : Samples) : Bool := !(x.t7 && x.t8 && x.t9)

/-- The bit sent at position `bit` of character `char` of a frame, `true` recessive (R144). -/
def Frame.sentBit (f : Frame) (char bit : Nat) : Bool :=
  if bit = 0 then false
  else if bit ≤ 8 then (f.getD char 0).getLsbD (bit - 1)
  else if bit = 9 then decide (char = 0)
  else true

/-- The character whose bits, start bit first, have been read (R144). -/
def charOf (bits : List Bool) : Byte :=
  BitVec.ofNat 8 ((List.range 8).map (fun k => if bits.getD (k + 1) false then 2 ^ k else 0)).sum

end Sys2Proof

namespace Sys2Proof.Machine

/-! ## Clashes and the slot (R151, R152, R155, R156) -/

/-- A counted clash: the count and the run rise; at a run of 8 the self-silence of eight report periods begins and the run returns
to 0 (R151, R152). -/
def Line.countClash (period : Nat) (l : Line) : Line :=
  if 8 ≤ l.clashRun + 1 then
    { l with clashes := bump l.clashes, clashRun := 0, silence := some (seconds (8 * period)) }
  else { l with clashes := bump l.clashes, clashRun := l.clashRun + 1 }

/-- A frame discarded for a framing error: counted, and the receiver in AWAIT GAP (R147). -/
def Line.discard (l : Line) : Line := { l with rx := .awaitGap, framing := bump l.framing }

/-- The line reads recessive after a dominant run short of a break: the counts that waited for it are made (R147, R151). -/
def Line.resolve (period : Nat) (l : Line) : Line :=
  let l1 := if l.deferredFraming then { l with framing := bump l.framing, deferredFraming := false } else l
  if l.deferredClash then Line.countClash period { l1 with deferredClash := false } else l1

/-- The frame on the line returns to the slot; with a newer report pending it is dropped and counted superseded (R156). -/
def Line.returnToSlot (l : Line) : Line :=
  match l.sending, l.slot with
  | none, _ => l
  | some f, none => { l with sending := none, slot := some f }
  | some _, some _ => { l with sending := none, superseded := bump l.superseded }

/-- A report placed in the slot, over a pending one if there is one (R155). -/
def Line.place (f : Frame) (l : Line) : Line :=
  match l.slot with
  | none => { l with slot := some f }
  | some _ => { l with slot := some f, superseded := bump l.superseded }

/-- The station's own frame completes (R146, R156). -/
def Line.sent (l : Line) : Line :=
  { l with rx := .awaitGap, sending := none, clashRun := 0, gap := some 0, joinOpen := false }

/-! ## Reading a bit back (R150, R151) -/

/-- What a sender makes of a bit read back. -/
inductive ReadBack where
  /-- As sent. -/
  | same
  /-- Recessive sent, dominant read under arbitration: lost (R150). -/
  | lost
  /-- Dominant sent, recessive read: a clash counted at once (R151). -/
  | clashed
  /-- Recessive sent, dominant read after arbitration: a clash that waits for the end of the dominant run (R151). -/
  | clashing
  deriving DecidableEq, Repr

/-- The reading of bit `bit` of character `char`, sent from frame `f` and read back as `v` (R150, R151; the mark and stop bits of the
first character: log 14). -/
def readBack (f : Frame) (char bit : Nat) (v : Bool) : ReadBack :=
  if f.sentBit char bit = v then .same
  else if v then .clashed
  else if char = 0 ∨ (char = 1 ∧ bit ≤ 8) then .lost
  else .clashing

/-- The transmitter after a bit read back (R150, R151, R156). -/
def Line.heed (period : Nat) (l : Line) : ReadBack → Line
  | .same => l
  | .lost => l.returnToSlot
  | .clashed => Line.countClash period l.returnToSlot
  | .clashing => { l.returnToSlot with deferredClash := true }

/-! ## The receiver (R146 to R148) -/

/-- The station receives frames of this kind (R148). -/
def StationCfg.hears (cfg : StationCfg) (kind : Nat) : Bool :=
  if kind = kindMonitor then cfg.hearMonitor
  else if kind = kindMachine then cfg.hearMachine
  else if kind = kindForecast then cfg.hearForecast
  else true

/-- A character accepted at its stop bit, with the frame when it is the last (R146 to R148). -/
def Line.accept (cfg : StationCfg) (l : Line) (fromReady : Bool) (chars : Frame) : Line × Option Frame :=
  if chars.length = 1 ∧ cfg.hears chars.kind = false then ({ l with rx := .awaitGap }, none)
  else if chars.length = 3 ∧ 96 < chars.payloadLength then (l.discard, none)
  else if 3 ≤ chars.length ∧ chars.length = 5 + chars.payloadLength then ({ l with rx := .awaitGap }, some chars)
  else ({ l with rx := .inFrame fromReady chars [] }, none)

/-- One bit of value `v` at the receiver, with the frame when it completes one (R146, R147). A mark bit is judged where it stands, and a
dominant one on a first character is counted as a dominant stop bit is, at the end of its dominant run (log 11); a false start goes
back to the state it came from (log 12) and is noise only in READY (R157). -/
def Line.receive (cfg : StationCfg) (v : Bool) (l : Line) : Line × Option Frame :=
  match l.rx with
  | .inFrame fromReady chars bits =>
    if bits.length = 0 ∧ v = true then
      if chars = [] then (if fromReady then { l with rx := .ready, noise := bump l.noise } else { l with rx := .awaitGap }, none)
      else (l.discard, none)
    else if bits.length ≤ 8 then ({ l with rx := .inFrame fromReady chars (bits ++ [v]) }, none)
    else if bits.length = 9 then
      if v = decide (chars = []) then ({ l with rx := .inFrame fromReady chars (bits ++ [v]) }, none)
      else if v then (l.discard, none)
      else ({ l with rx := .awaitGap, deferredFraming := true }, none)
    else if v then l.accept cfg fromReady (chars ++ [charOf bits])
    else ({ l with rx := .awaitGap, deferredFraming := true }, none)
  | .stopped | .awaitGap | .ready => (l, none)

/-- The samples of a bit taken: noise when they disagree, the gap measure from zero at a dominant sample, and the end of a dominant run
at a recessive bit (R143, R145, R151). -/
def Line.sample (period : Nat) (x : Samples) (l : Line) : Line :=
  let l1 := { l with
    noise := if x.agree then l.noise else bump l.noise,
    gap := if x.anyDominant then some 0 else l.gap, joinOpen := false }
  if x.majority then { l1.resolve period with run := .absent } else l1

/-! ## The receive queue (R160, R161) -/

/-- A complete frame handed to the dispatcher: queued when its checks match and there is room, else counted (R160, R161). -/
def Dispatcher.take (d : Dispatcher) (f : Frame) : Dispatcher :=
  if f.verified then
    if d.queue.length < 8 then { d with queue := d.queue ++ [f] } else { d with overrun := bump d.overrun }
  else { d with checkFail := bump d.checkFail }

/-- A complete frame from another sender (R146, R160). -/
def State.deliver (s : State) (f : Frame) : State := s.setDispatcher (s.dispatcher.take f)

/-! ## One bit, whole -/

/-- A bit read while IN FRAME: the samples, the transmitter's watch, the receiver, and the completion of a frame, the station's own or
another's (R143, R146, R150, R151). The start bit of the station's own first character read recessive is both a clash and a false
start (DESIGN CHOICE, log 35). -/
def State.readBit (s : State) (x : Samples) : State :=
  match s.line.rx with
  | .inFrame _ chars bits =>
    let l1 := s.line.sample s.cfg.period x
    let l2 := match l1.sending with
      | some f => l1.heed s.cfg.period (readBack f chars.length bits.length x.majority)
      | none => l1
    let r := l2.receive s.cfg x.majority
    match r.2 with
    | none => s.setLine r.1
    | some f => if r.1.sending.isSome then s.setLine r.1.sent else (s.setLine r.1).deliver f
  | .stopped | .awaitGap | .ready => s

/-! ## Edges, gaps, breaks (R145, R146, R149, R153, R154) -/

/-- The idle gap measure at a start edge: 192 sample ticks on a line that counts as idle, else as measured (R145). -/
def Line.measureAt (l : Line) (measure : Nat) : Nat := if l.gap = some 192 then 192 else measure

/-- A recessive-to-dominant edge: it opens the first character in READY, or in AWAIT GAP within 8 sample ticks of a completed gap
(R146); a station whose start conditions are otherwise met may join it (R149), which a station in self-silence may not (R152). -/
def Line.edge (period measure : Nat) (l : Line) : Line :=
  let near := decide (184 ≤ l.measureAt measure)
  let l1 := l.resolve period
  { l1 with
    rx := match l.rx with
      | .ready => .inFrame true [] []
      | .awaitGap => if near then .inFrame false [] [] else .awaitGap
      | other => other,
    gap := some 0, run := .inProgress,
    joinOpen := match l.rx with
      | .ready | .awaitGap =>
        l.silence.isNone && !l.breakDriving && (decide (l.measureAt measure = 192) || (near && l.slot.isSome))
      | .stopped | .inFrame _ _ _ => false }

/-- An idle gap completes: READY from AWAIT GAP, and a framing error in a frame (R145, R146, R147; log 10). -/
def Line.gapComplete (period : Nat) (l : Line) : Line :=
  let l1 := l.resolve period
  let l2 := match l.rx with
    | .inFrame _ _ _ => l1.discard
    | .stopped | .awaitGap | .ready => l1
  { l2 with rx := if l.rx = .stopped then .stopped else .ready, gap := some 192, run := .absent, joinOpen := false }

/-- The transmitter takes the pending report out of the slot and drives its start bit; its own receiver is IN FRAME (R149). The idle gap
measure starts again at the first dominant sample, and not at the driver (R145). -/
def Line.start (l : Line) : Line :=
  match l.slot with
  | none => l
  | some f =>
    { l with slot := none, sending := some f, run := .inProgress, joinOpen := false,
             rx := match l.rx with
               | .inFrame fromReady _ _ => .inFrame fromReady [] []
               | .stopped | .awaitGap | .ready => .inFrame true [] [] }

/-- The receiver stands at the very start of a frame. -/
def Receiver.opening : Receiver → Bool
  | .inFrame _ [] [] => true
  | _ => false

/-- The start conditions of R149 hold: a pending report, no silence, no break driven, nothing being sent, and the line idle or another
sender's edge within the window. -/
def Line.mayStart (l : Line) : Bool :=
  l.slot.isSome && l.silence.isNone && !l.breakDriving && l.sending.isNone
    && (decide (l.gap = some 192) || (l.joinOpen && l.rx.opening))

/-- A break reaches the receiver and the transmitter (R153). -/
def Line.broken (l : Line) : Line :=
  { l.returnToSlot with
    rx := .awaitGap, gap := some 0, run := .heard, joinOpen := false, deferredFraming := false, deferredClash := false }

/-- A dominant run goes on, or begins when none is. -/
def DominantRun.hold : DominantRun → DominantRun
  | .absent | .inProgress => .inProgress
  | .heard => .heard
  | .stopped => .stopped

/-- A break request: the line is driven dominant at once and a frame being sent ends; nothing while a break is driven already (R154). The
idle gap measure starts again at the first dominant sample, and not at the driver (R145). -/
def Line.requestBreak (l : Line) : Line :=
  if l.breakDriving then l
  else { l.returnToSlot with breakDriving := true, run := l.run.hold, joinOpen := false }

/-! ## Places in the station's own frame (log 15) -/

/-- The place (character, bit) has not been passed. -/
def ahead (chars : Frame) (bits : List Bool) (char bit : Nat) : Bool :=
  decide (chars.length < char) || (decide (chars.length = char) && decide (bits.length ≤ bit))

/-- The receiver with every bit before the place read back as sent, the dominant start bit of the first character among them. -/
def Line.caughtUp (l : Line) (f : Frame) (fromReady : Bool) (char bit : Nat) : Line :=
  { l with
    rx := .inFrame fromReady (f.take char) ((List.range bit).map (f.sentBit char)),
    gap := if char = 0 ∧ bit = 0 then l.gap else some 0 }

/-- The bit at a place of the frame being sent, read back as `x`, when the place lies ahead and the reading is of the kinds asked. -/
def State.readPlace (s : State) (char bit : Nat) (x : Samples) (kinds : List ReadBack) : State :=
  match s.line.rx, s.line.sending with
  | .inFrame fromReady chars bits, some f =>
    if ahead chars bits char bit ∧ char < f.length ∧ bit ≤ 10 ∧ kinds.contains (readBack f char bit x.majority) = true then
      (s.setLine (s.line.caughtUp f fromReady char bit)).readBit x
    else s
  | _, _ => s

/-! ## The commands -/

/-- IDLE_GAP_COMPLETE (R145): not while the station's own frame is on the line. -/
def execIdleGapComplete (s : State) : Host.Outcome State Fault Refusal :=
  .next (if s.works ∧ s.line.sending = none then s.setLine (s.line.gapComplete s.cfg.period) else s)

/-- START_EDGE (R146). -/
def execStartEdge (measure : Nat) (s : State) : Host.Outcome State Fault Refusal :=
  .next (if s.works then s.setLine (s.line.edge s.cfg.period measure) else s)

/-- BIT_READ (R143): while IN FRAME. -/
def execBitRead (x : Samples) (s : State) : Host.Outcome State Fault Refusal :=
  .next (if s.works then s.readBit x else s)

/-- FRAME_RECEIVED (R160): the frame in receipt completes with these characters (log 15). -/
def execFrameReceived (f : Frame) (s : State) : Host.Outcome State Fault Refusal :=
  .next (match s.line.rx, s.line.sending with
    | .inFrame _ chars bits, none =>
      if s.works ∧ Frame.shaped f = true ∧ s.cfg.hears f.kind = true ∧ chars.length < f.length ∧ f.take chars.length = chars
          ∧ (List.range bits.length).map (f.sentBit chars.length) = bits then
        (s.setLine { s.line.resolve s.cfg.period with
          rx := .awaitGap, gap := some 0, run := .absent, joinOpen := false }).deliver f
      else s
    | _, _ => s)

/-- FRAME_START (R149). -/
def execFrameStart (s : State) : Host.Outcome State Fault Refusal :=
  .next (if s.works ∧ s.line.mayStart = true then s.setLine s.line.start else s)

/-- ARBITRATION_LOST (R150). -/
def execArbitrationLost (char bit : Nat) (x : Samples) (s : State) : Host.Outcome State Fault Refusal :=
  .next (if s.works then s.readPlace char bit x [.lost] else s)

/-- CLASH (R151). -/
def execClash (char bit : Nat) (x : Samples) (s : State) : Host.Outcome State Fault Refusal :=
  .next (if s.works then s.readPlace char bit x [.clashed, .clashing] else s)

/-- FRAME_SENT (R156): every bit of the station's frame was read back as sent. -/
def execFrameSent (s : State) : Host.Outcome State Fault Refusal :=
  .next (match s.line.rx, s.line.sending with
    | .inFrame _ _ _, some _ => if s.works then s.setLine s.line.sent else s
    | _, _ => s)

/-- SELF_SILENCE_EXPIRY (R152): while the self-silence timer runs. -/
def execSelfSilenceExpiry (s : State) : Host.Outcome State Fault Refusal :=
  .next (if s.line.silence.isSome then s.setLine { s.line with silence := none } else s)

/-- DOMINANT_RUN_END (R151): the deferred counts are made and the break detector rearms. -/
def execDominantRunEnd (s : State) : Host.Outcome State Fault Refusal :=
  .next (if s.works then s.setLine { s.line.resolve s.cfg.period with run := .absent, joinOpen := false } else s)

end Sys2Proof.Machine
end

