-- ==== Sys2Proof/Machine/Flags.lean ====
section
/-! DEFINITION. The flags and the output pins that are computed from the state: the faults byte of a report (10.3, R175), the fault
output (R176), the line driver (R141) and the valve outputs (8.3). -/

namespace Sys2Proof.Machine

/-- Some channel is FAULTED (R126). -/
def State.anyFaulted (s : State) : Bool := s.sweep.channels.any (fun ch => decide (ch.state = .faulted))

/-- Some channel's valve is commanded open, that is, some channel is in OPENING or SPRAYING (R137). -/
def State.anyValveOpen (s : State) : Bool :=
  s.sweep.channels.any (fun ch => decide (ch.state = .opening) || decide (ch.state = .spraying))

/-- A flag's worth in a byte. -/
def bit (b : Bool) (weight : Nat) : Nat := if b then weight else 0

/-- The faults byte of a report: bits 0 to 5 by the table of R175, bits 6 and 7 the count page (10.3). -/
def State.faultsByte (s : State) : Nat :=
  bit (decide (s.wind.health = .stuck)) 1 + bit s.anyFaulted 2 + bit s.line.silence.isSome 4
    + bit (decide (0 < s.dispatcher.idConflict)) 8 + bit s.water.silent 16 + bit (decide (s.wind.source = .failsafe)) 32
    + 64 * (s.station.page % 4)

/-- The fault output is asserted (R176): in FAULT in the pattern's even phases but the last, outside it while a cause stands. -/
def State.faultOutput (s : State) : Bool :=
  match s.station.mode with
  | .starting => false
  | .fault =>
    match s.station.faultCode with
    | some n => decide (s.station.patternPhase < 2 * n) && decide (s.station.patternPhase % 2 = 0)
    | none => false
  | .listening | .auto | .standby | .hushed =>
    s.anyFaulted || decide (s.wind.health = .stuck) || s.line.silence.isSome

/-- The yard line is driven dominant by this station (R141): during its breaks, and during the dominant bits of its frames. -/
def State.lineDriver (s : State) : Bool :=
  s.line.breakDriving ||
    match s.line.rx, s.line.sending with
    | .inFrame _ chars bits, some f => !f.sentBit chars.length bits.length
    | _, _ => false

/-- The valve output of channel `c` is commanded open. -/
def State.valveOutput (s : State) (c : Nat) : Bool := ((s.sweep.channels[c]?).map Channel.valve).getD false

end Sys2Proof.Machine
end

