-- ==== Sys2Proof/Machine/Station.lean ====
section
/-! DEFINITION. Station control (chapter 11): mode changes, orders of mode, hush and resume, listening, the report, the fault pattern,
the pressure watch's collapse notice, and the breaks that station control asks for and hears. -/

namespace Sys2Proof.Machine

/-! ## Mode changes (R138, R172) -/

/-- The mode that a listening target names (R170). -/
def Target.mode : Target → Mode
  | .auto => .auto
  | .standby => .standby

/-- The mode that a hush remembered (R173). -/
def Remembered.mode : Remembered → Mode
  | .listening => .listening
  | .auto => .auto
  | .standby => .standby

/-- What a hush remembers of a listening target (R174). -/
def Target.remembered : Target → Remembered
  | .auto => .auto
  | .standby => .standby

/-- The station mode changes and the sweep engine is told (R138). -/
def State.changeMode (s : State) (m : Mode) : State :=
  let s1 := s.setStation { s.station with mode := m }
  if m = .auto then s1.sweepWake else s1.sweepHush

/-! ## Hush (R173, R174) -/

/-- The hush hold timer at its full time (R173). -/
def State.fullHush (s : State) : Option Nat := some (seconds s.cfg.hushHold)

/-- The change to HUSHED, the mode being left remembered (R173). -/
def State.enterHush (s : State) (r : Remembered) : State :=
  (s.setStation { s.station with remembered := some r, hushTimer := s.fullHush }).changeMode .hushed

/-- A break at station control (R173): the hush begins, or its timer restarts. -/
def State.hush (s : State) : State :=
  match s.station.mode with
  | .listening => s.enterHush .listening
  | .auto => s.enterHush .auto
  | .standby => s.enterHush .standby
  | .hushed => s.setStation { s.station with hushTimer := s.fullHush }
  | .starting | .fault => s

/-- A break told to station control: the break request flag is cleared and the station hushes (R173). -/
def State.toldOfBreak (s : State) : State := (s.setStation { s.station with breakRequest := false }).hush

/-- The end of a hush (R174): back to the remembered mode. -/
def State.endHush (s : State) : State :=
  match s.station.remembered with
  | some r => (s.setStation { s.station with remembered := none, hushTimer := none }).changeMode r.mode
  | none => s

/-- A RESUME order (R174): without effect outside HUSHED. -/
def State.resume (s : State) : State := if s.station.mode = .hushed then s.endHush else s

/-! ## MODE orders (R170, R172, R174) -/

/-- A MODE order with its target, by the present mode. -/
def State.modeOrder (s : State) (t : Target) : State :=
  match s.station.mode with
  | .listening => s.setStation { s.station with target := t }
  | .auto => if t = .standby then s.changeMode .standby else s
  | .standby => if t = .auto then s.changeMode .auto else s
  | .hushed =>
    match s.station.remembered with
    | some .listening => s.setStation { s.station with target := t }
    | some .auto | some .standby => s.setStation { s.station with remembered := some t.remembered }
    | none => s
  | .starting | .fault => s

/-! ## The listening timer (R170, R174) -/

/-- The listening timer expires: LISTENING leads to the target, and a hush that remembers LISTENING remembers the target instead. -/
def State.listeningEnds (s : State) : State :=
  let s1 := s.setStation { s.station with listeningTimer := none }
  match s.station.mode, s.station.remembered with
  | .listening, _ => s1.changeMode s.station.target.mode
  | .hushed, some .listening => s1.setStation { s1.station with remembered := some s.station.target.remembered }
  | _, _ => s1

/-! ## Reports (R164, R175) -/

/-- The mode's code in a report (R175). -/
def Mode.code : Mode → Nat
  | .listening => 0
  | .auto => 1
  | .standby => 2
  | .hushed => 3
  | .starting | .fault => 0

/-- The wind source's code in a report (10.3). -/
def WindSource.code : WindSource → Nat
  | .localWind => 0
  | .peer => 1
  | .forecast => 2
  | .held => 3
  | .failsafe => 4

/-- The largest last ERI over the configured faces (R55). -/
def State.maxEri (s : State) : Nat := (s.risk.faces.map FaceRecord.eri).foldl max 0

/-- The sum of the channels' lap counts (R164). -/
def State.lapSum (s : State) : Nat := (s.sweep.channels.map Channel.laps).sum

/-- The three count characters of a page (10.3). -/
def State.countBytes (s : State) : List Byte :=
  match s.station.page % 4 with
  | 0 => bytesOf 1 s.dispatcher.overrun ++ bytesOf 1 s.dispatcher.checkFail ++ bytesOf 1 s.line.clashes
  | 1 => bytesOf 1 s.line.noise ++ bytesOf 1 s.line.framing ++ bytesOf 1 s.line.superseded
  | 2 => bytesOf 1 s.machines.refused ++ bytesOf 1 s.peers.refused ++ bytesOf 1 s.dispatcher.idConflict
  | _ => bytesOf 3 s.lapSum

/-- A character with the levels of two faces, the first in its high half (10.3). -/
def State.levelPair (s : State) (f : Nat) : List Byte :=
  bytesOf 1 (16 * (s.finalLevel f).num + (s.finalLevel (f + 1)).num)

/-- The payload of a report, field by field in the order of 10.3. -/
def State.reportPayload (s : State) : List Byte :=
  bytesOf 1 s.cfg.period ++ bytesOf 1 s.station.mode.code ++ bytesOf 2 s.cfg.gridX ++ bytesOf 2 s.cfg.gridY
    ++ bytesOf 2 s.wind.uEff ++ bytesOf 1 s.wind.sector ++ bytesOf 1 s.wind.source.code
    ++ bytesOf 2 s.maxEri ++ bytesOf 2 s.risk.w ++ bytesOf 2 s.risk.hw
    ++ s.levelPair 1 ++ s.levelPair 3 ++ s.levelPair 5 ++ bytesOf 1 s.faceCount
    ++ bytesOf 2 s.claimReuse ++ bytesOf 2 s.claimFresh ++ bytesOf 4 s.water.reuse ++ bytesOf 4 s.water.fresh
    ++ bytesOf 1 s.faultsByte ++ s.countBytes

/-- The report as assembled now: own id, kind 5, length 36, and the checks (R164). -/
def State.report (s : State) : Frame :=
  Frame.sealed (bytesOf 1 kindReport ++ bytesOf 1 s.cfg.id ++ bytesOf 1 36 ++ s.reportPayload)

/-- A report assembled and placed in the slot; the page advances and the timer restarts (R155, R164, R175). -/
def State.assembleReport (s : State) : State :=
  (s.setLine (s.line.place s.report)).setStation
    { s.station with page := (s.station.page + 1) % 4, reportTimer := some (seconds s.cfg.period) }

/-! ## Header pressure (R137, R154, R173) -/

/-- The low run after a sample (R137). -/
def State.lowRunAfter (s : State) (reading : Nat) : Nat :=
  if reading < s.cfg.collapse ∧ s.anyValveOpen = true then s.sweep.lowRun + 1 else 0

/-- A collapse notice: the break request flag is set and a break is asked of the transmitter (R154, R173). -/
def State.collapse (s : State) : State :=
  (s.setStation { s.station with breakRequest := true }).setLine s.line.requestBreak

/-- A pressure sample (R137): at a low run of 3 one collapse notice, the run back to 0. -/
def State.samplePressure (s : State) (reading : Nat) : State :=
  let run := s.lowRunAfter reading
  let s1 := s.setSweep { s.sweep with lowRun := if 3 ≤ run then 0 else run, pressureTimer := some (seconds 1) }
  if 3 ≤ run then s1.collapse else s1

/-! ## The fault pattern (R176) -/

/-- The length of a phase of code `n`'s pattern in milliseconds: 200, and 1600 for the last. -/
def patternTime (n phase : Nat) : Nat := if phase = 2 * n then 1600 else 200

/-- The next phase of the pattern: n pairs of 200 ms asserted and released, then 1.6 s released (R176). -/
def Station.nextPhase (st : Station) (n : Nat) : Station :=
  let phase := if 2 * n ≤ st.patternPhase then 0 else st.patternPhase + 1
  { st with patternPhase := phase, patternTimer := some (patternTime n phase) }

/-! ## The commands -/

/-- PRESSURE_SAMPLE (R137): while the pressure watch's timer runs. -/
def execPressureSample (reading : Nat) (s : State) : Host.Outcome State Fault Refusal :=
  .next (if s.sweep.pressureTimer.isSome then s.samplePressure reading else s)

/-- BREAK_SEND_END (R154, R173): the line is released; with the break request flag still set the release is taken as a break heard. -/
def execBreakSendEnd (s : State) : Host.Outcome State Fault Refusal :=
  .next (if s.line.breakDriving then
      let s1 := s.setLine { s.line with breakDriving := false }
      if s.station.breakRequest then s1.toldOfBreak else s1
    else s)

/-- BREAK_HEARD (R153): once for each dominant run. -/
def execBreakHeard (s : State) : Host.Outcome State Fault Refusal :=
  .next (if s.works ∧ s.line.run ≠ .heard then (s.setLine s.line.broken).toldOfBreak else s)

/-- LISTENING_TIMER_EXPIRY (R170, R174): while the listening timer runs. -/
def execListeningTimerExpiry (s : State) : Host.Outcome State Fault Refusal :=
  .next (if s.station.listeningTimer.isSome then s.listeningEnds else s)

/-- HUSH_HOLD_EXPIRY (R174): while HUSHED, of the hush hold timer at 0; a break before it restarts the timer, and that expiry does not
occur (R173). -/
def execHushHoldExpiry (s : State) : Host.Outcome State Fault Refusal :=
  .next (if s.station.mode = .hushed ∧ s.station.hushTimer = some 0 then s.endHush else s)

/-- REPORT_TIMER_EXPIRY (R175): while the report timer runs. -/
def execReportTimerExpiry (s : State) : Host.Outcome State Fault Refusal :=
  .next (if s.station.reportTimer.isSome then s.assembleReport else s)

/-- FAULT_PATTERN_TICK (R176): in FAULT. -/
def execFaultPatternTick (s : State) : Host.Outcome State Fault Refusal :=
  .next (match s.station.mode, s.station.faultCode with
    | .fault, some n => s.setStation (s.station.nextPhase n)
    | _, _ => s)

end Sys2Proof.Machine
end

