-- ==== Sys2Proof/Machine/Fence.lean ====
section
/-! DEFINITION. The fence response unit (chapter 4): monitor records, contributions, held escalation and hold timers. -/

namespace Sys2Proof.Machine

/-- Bit `k` of a mask is set (10.5). -/
def maskHas (mask k : Nat) : Bool := decide (mask / 2 ^ k % 2 = 1)

/-- What a monitor's state contributes (R59). -/
def MonitorState.contribution : MonitorState → Nat
  | .normal => 0
  | .alert => 1
  | .alarm => 2

/-- A monitor's contribution to a face under a wind sector (R59). -/
def contributionOf (e : Relation) (r : Option MonitorRecord) (sector face : Nat) : Nat :=
  match r with
  | some m =>
    if !m.silent && maskHas e.faces (face - 1) && maskHas e.upwind sector then m.state.contribution else 0
  | none => 0

/-- The raw escalation of a face: the largest contribution any monitor makes to it (R60). -/
def State.rawEscalation (s : State) (face : Nat) : Nat :=
  ((s.cfg.relations.zip s.fence.records).map (fun e => contributionOf e.1 e.2 s.wind.sector face)).foldl max 0

/-- The comparison of raw and held escalation (R61). -/
def Held.compare (holdTime : Nat) (h : Held) (r : Nat) : Held :=
  if h.value < r then ⟨r, none⟩
  else if r = h.value then ⟨h.value, none⟩
  else
    match h.timer with
    | none => ⟨h.value, some (seconds holdTime)⟩
    | some t => ⟨h.value, some t⟩

/-- A recomputation of every configured face (R63); `expiring` is the face whose hold timer expired, which takes its newly computed raw
value (R62). -/
def State.recomputeEscalation (s : State) (expiring : Option Nat) : State :=
  s.setFence { s.fence with
    held := s.fence.held.mapIdx (fun i h =>
      if expiring = some (i + 1) then ⟨s.rawEscalation (i + 1), none⟩
      else h.compare s.cfg.holdTime (s.rawEscalation (i + 1))) }

/-- A monitor's reported state (R57). -/
def monitorState : Nat → MonitorState
  | 0 => .normal
  | 1 => .alert
  | _ => .alarm

/-- A Monitor frame stored in its entry's record (R57). -/
def storedMonitor (f : Frame) : MonitorRecord where
  state := monitorState (f.payload 2 1)
  pm10 := min 9999 (f.payload 0 2)
  age := 0
  silent := false

/-- A Monitor frame handed to the unit (R57): dropped without an entry, discarded with a state above 2, else stored with a
recomputation. -/
def State.takeMonitor (s : State) (f : Frame) : State :=
  match s.cfg.relations.findIdx? (fun e => decide (e.monitor = f.sender)) with
  | none => s
  | some i =>
    if 2 < f.payload 2 1 then s
    else (s.setFence { s.fence with records := s.fence.records.set i (some (storedMonitor f)) }).recomputeEscalation none

/-- The silence crossing of a record (R58): it becomes SILENT, keeping its state and PM10 mean, and the unit recomputes. -/
def State.monitorFallsSilent (s : State) (i : Nat) (m : MonitorRecord) : State :=
  (s.setFence { s.fence with
    records := s.fence.records.set i (some { m with silent := true }) }).recomputeEscalation none

/-- The present and CURRENT record of a monitor whose age has reached the silence limit, with its entry's place (R58); a store before
its crossing puts the age back to 0. -/
def State.crossingMonitor (s : State) (id : Nat) : Option (Nat × MonitorRecord) :=
  match s.cfg.relations.findIdx? (fun e => decide (e.monitor = id)) with
  | none => none
  | some i =>
    match (s.fence.records[i]?).join with
    | some m => if m.silent || decide (m.age < seconds s.cfg.monitorSilence) then none else some (i, m)
    | none => none

/-- The hold timer of a face has run out; one stopped or started again by another event first has not, and its expiry does not occur
(R62). -/
def State.holdDue (s : State) (face : Nat) : Bool :=
  decide (1 ≤ face) && decide ((s.fence.held[face - 1]?).bind Held.timer = some 0)

/-- MONITOR_SILENCE_CROSSING (R58): of a present record that is CURRENT, at the silence limit. -/
def execMonitorSilenceCrossing (id : Nat) (s : State) : Host.Outcome State Fault Refusal :=
  .next (match s.crossingMonitor id with
    | some (i, m) => s.monitorFallsSilent i m
    | none => s)

/-- HOLD_EXPIRY (R62): of a face whose hold timer has run out. -/
def execHoldExpiry (face : Nat) (s : State) : Host.Outcome State Fault Refusal :=
  .next (if s.holdDue face then s.recomputeEscalation (some face) else s)

end Sys2Proof.Machine
end

