-- ==== Sys2Proof/Machine/Peers.lean ====
section
/-! DEFINITION. The peer table (chapter 6): reading Report frames, updates and newcomers, ageing, and the wind views. -/

namespace Sys2Proof.Machine

/-! ## Reading a Report frame (R81) -/

/-- The mode of a Report's code; codes above 3 are discarded before. -/
def reportMode : Nat → Mode
  | 0 => .listening
  | 1 => .auto
  | 2 => .standby
  | _ => .hushed

/-- The wind source of a Report's code; codes above 4 are discarded before. -/
def reportSource : Nat → WindSource
  | 0 => .localWind
  | 1 => .peer
  | 2 => .forecast
  | 3 => .held
  | _ => .failsafe

/-- The table's own checks of a Report frame (R81). -/
def reportAccepted (f : Frame) : Bool :=
  decide (f.payload 0 1 ≠ 0) && decide (f.payload 1 1 ≤ 3) && decide (f.payload 9 1 ≤ 4)

/-- The level of face `i`, from 0, in a Report's level field: four bits each, the first of a character in its high half (10.3). -/
def reportLevel (f : Frame) (i : Nat) : Level :=
  Level.ofNum (if i % 2 = 0 then f.payload (16 + i / 2) 1 / 16 else f.payload (16 + i / 2) 1 % 16)

/-- The highest of the levels of faces 1 up to the face count, clamped to 6, and QUIET for a count of 0 (R81). -/
def reportHighest (f : Frame) : Level :=
  Level.ofNum (((List.range (min 6 (f.payload 19 1))).map (fun i => (reportLevel f i).num)).foldl max 0)

/-- The record of a Report frame, FRESH with age 0 (R81). -/
def peerRecord (f : Frame) : Peer where
  id := f.sender
  x := f.payload 2 2
  y := f.payload 4 2
  period := f.payload 0 1
  mode := reportMode (f.payload 1 1)
  speed := min 600 (f.payload 6 2)
  sector := min 15 (f.payload 8 1)
  source := reportSource (f.payload 9 1)
  maxEri := min 992 (f.payload 10 2)
  w := min 992 (f.payload 12 2)
  hw := min 992 (f.payload 14 2)
  highest := reportHighest f
  claimR := f.payload 20 2
  claimF := f.payload 22 2
  stale := false
  age := 0

/-! ## The table (R82 to R85) -/

/-- A record put in its place by id, over the record of the same id if there is one (6.1). -/
def putPeer (r : Peer) : List Peer → List Peer
  | [] => [r]
  | p :: rest =>
    if r.id < p.id then r :: p :: rest
    else if r.id = p.id then r :: rest
    else p :: putPeer r rest

/-- The STALE record of greatest age in seconds, and of the lowest id among equals; the table is in ascending id (R84). -/
def oldestPeer : List Peer → Option Peer
  | [] => none
  | p :: rest =>
    match oldestPeer rest with
    | none => if p.stale then some p else none
    | some v => if p.stale && decide (v.age / 1000 ≤ p.age / 1000) then some p else some v

/-- The table with another list of records. -/
def State.setPeerList (s : State) (l : List Peer) : State := s.setPeers { s.peers with list := l }

/-- An update sends a change notice: one of claim_r, claim_f, W and H_w differs, or the record was STALE (R82). -/
def Peer.changes (before after : Peer) : Bool :=
  before.stale || decide (before.claimR ≠ after.claimR) || decide (before.claimF ≠ after.claimF)
    || decide (before.w ≠ after.w) || decide (before.hw ≠ after.hw)

/-- A Report frame handed to the table: discarded (R81), an update (R82), a newcomer entering (R83), replacing or refused (R84). Each
change notice runs the share computation in the same event (R88). -/
def State.takeReport (s : State) (f : Frame) : State :=
  if reportAccepted f then
    let r := peerRecord f
    match s.peers.list.find? (fun p => p.id == r.id) with
    | some before =>
      let s1 := s.setPeerList (putPeer r s.peers.list)
      if before.changes r then s1.shareComputation else s1
    | none =>
      if s.peers.list.length < 32 then (s.setPeerList (putPeer r s.peers.list)).shareComputation
      else
        match oldestPeer s.peers.list with
        | some v => (s.setPeerList (putPeer r (s.peers.list.filter (fun p => p.id ≠ v.id)))).shareComputation
        | none => s.setPeers { s.peers with refused := bump s.peers.refused }
  else s

/-- A record becomes STALE, which leaves its other fields as they are (R85). -/
def Peer.cross (p : Peer) : Peer := { p with stale := true }

/-- A FRESH record whose age has reached three of its report periods (R85); an update before its crossing puts the age back to 0
(R86). -/
def Peer.dueStale (p : Peer) : Bool := !p.stale && decide (seconds (3 * p.period) ≤ p.age)

/-- A record whose age has reached six of its report periods (R85); an update before its removal puts the age back to 0 (R86). -/
def Peer.dueRemoval (p : Peer) : Bool := decide (seconds (6 * p.period) ≤ p.age)

/-! ## The wind views (R90) -/

/-- A record lies within the neighbourhood radius (R11), the squares and their sum exact. -/
def State.nearby (s : State) (p : Peer) : Bool :=
  decide (((p.x : Int) - (s.cfg.gridX : Int)) ^ 2 + ((p.y : Int) - (s.cfg.gridY : Int)) ^ 2 ≤ (s.cfg.radius : Int) ^ 2)

/-- The neighbour test (R8). -/
def State.windyNeighbour (s : State) : Bool := s.peers.list.any (fun p => !p.stale && s.nearby p && decide (30 ≤ p.speed))

/-- The speeds of the qualifying neighbours (R11). -/
def State.neighbourSpeeds (s : State) : List Nat :=
  (s.peers.list.filter (fun p => !p.stale && decide (p.source = .localWind) && s.nearby p)).map Peer.speed

/-! ## The commands -/

/-- PEER_STALE_CROSSING (R85): of a FRESH record whose age has reached three report periods. -/
def execPeerStaleCrossing (id : Nat) (s : State) : Host.Outcome State Fault Refusal :=
  .next (if s.peers.list.any (fun p => p.id == id && p.dueStale) then
      (s.setPeerList (s.peers.list.map (fun p => if p.id = id then p.cross else p))).shareComputation
    else s)

/-- PEER_REMOVAL (R85): of a record whose age has reached six report periods. -/
def execPeerRemoval (id : Nat) (s : State) : Host.Outcome State Fault Refusal :=
  .next (if s.peers.list.any (fun p => p.id == id && p.dueRemoval) then
      (s.setPeerList (s.peers.list.filter (fun p => p.id ≠ id))).shareComputation
    else s)

end Sys2Proof.Machine
end

