-- ==== Sys2Proof/Machine/Risk.lean ====
section
/-! DEFINITION. The risk engine (chapter 3): the evaluation's snapshot, the ERI, levels, overrides, decay and weights. -/

namespace Sys2Proof.Machine

/-! ## The emission risk index (R39 to R41) -/

/-- The excess stage (R39). -/
def excess (u threshold : Nat) : Nat := if u ≤ threshold then 0 else u * (u * u - threshold * threshold)

/-- The dryness D of the second weighting stage (R40). -/
def dryness (moisture : Nat) : Nat := (4095 - moisture) / 16

/-- The three products of R40, each truncated before the next is formed. -/
def weighted (q exposure moisture kf : Nat) : Nat := q * exposure / 256 * dryness moisture / 256 * kf / 64

/-- The shifts of R41: one place at a time, at most `n`, until bit 30 is 1; the shifted value and the number of shifts. -/
def shiftUp : Nat → Nat → Nat × Nat
  | 0, v => (v, 0)
  | n + 1, v => if 2 ^ 30 ≤ v then (v, 0) else ((shiftUp n (2 * v)).1, (shiftUp n (2 * v)).2 + 1)

/-- The scaling stage (R41): p × 32 + m + 1 with p = 30 - s and m the five bits below bit 30 of the shifted value. -/
def scaled (p3 : Nat) : Nat :=
  if p3 = 0 then 0
  else
    let up := shiftUp 30 p3
    (30 - up.2) * 32 + up.1 / 2 ^ 25 % 32 + 1

/-- The ERI of a face under wind `u` from `sector` with moisture and disturbance factor as given (R39 to R41). -/
def FaceCfg.eri (f : FaceCfg) (u sector moisture kf : Nat) : Nat :=
  scaled (weighted (excess u f.threshold) (f.exposure.getD (sectorDiff sector f.orientation) 0) moisture kf)

/-! ## Levels (R42 to R46) -/

/-- The band of an ERI (R42). -/
def StationCfg.band (cfg : StationCfg) (eri : Nat) : Level :=
  if cfg.tHeavy ≤ eri then .heavy else if cfg.tSpray ≤ eri then .spray else if cfg.tWatch ≤ eri then .watch else .quiet

/-- The falling threshold of a base level (R42); QUIET has none. -/
def StationCfg.falling (cfg : StationCfg) : Level → Nat
  | .heavy => cfg.tHeavy - cfg.hysteresis
  | .spray => cfg.tSpray - cfg.hysteresis
  | .watch => cfg.tWatch - cfg.hysteresis
  | .prewet | .quiet => 0

/-- The base level from the new ERI and the base level before (R42). -/
def StationCfg.baseLevel (cfg : StationCfg) (eri : Nat) (before : Level) : Level :=
  if before.num ≤ (cfg.band eri).num then cfg.band eri
  else if cfg.falling before ≤ eri then before
  else cfg.band eri

/-- The look-ahead ERI of a face, when the snapshot holds a look-ahead slot (R43). -/
def Snapshot.lookAheadEri (snap : Snapshot) (f : FaceCfg) (fs : FaceSnapshot) : Option Nat :=
  snap.lookAhead.map (fun slot =>
    f.eri ((3 * slot.mean + slot.gust) / 4) (if slot.sector = 255 then snap.sector else slot.sector) fs.moisture fs.kf)

/-- The PREWET flag (R43): computed only below SPRAY and with a look-ahead slot, held with the hysteresis. -/
def StationCfg.prewetFlag (cfg : StationCfg) (base : Level) (before : Bool) (ahead : Option Nat) : Bool :=
  match ahead with
  | none => false
  | some e =>
    decide (base.num < Level.spray.num) &&
      (decide (cfg.tSpray ≤ e) || (before && decide (cfg.tSpray - cfg.hysteresis ≤ e)))

/-- The escalated level (R44): raised by e_f, at most HEAVY, and never PREWET when e_f is above 0. -/
def escalated (interim : Level) (e : Nat) : Level :=
  if e = 0 then interim
  else if interim.num + e = Level.prewet.num then .spray
  else Level.ofNum (interim.num + e)

/-- The decay of a face at a completion (R49). -/
def decayOf (evaporation rh u : Nat) : Nat := evaporation * (100 - rh) / 100 + u / 32

/-- One face at completion, in the order of R48. -/
def completeFace (cfg : StationCfg) (snap : Snapshot) (f : FaceCfg) (fs : FaceSnapshot) (r : FaceRecord) : FaceRecord :=
  let eri := f.eri snap.uEff snap.sector fs.moisture fs.kf
  let base := cfg.baseLevel eri r.base
  let prewet := cfg.prewetFlag base r.prewet (snap.lookAheadEri f fs)
  let interim := if prewet then .prewet else base
  { r with
    eri := eri, base := base, prewet := prewet,
    level := fs.override.getD (escalated interim fs.escalation),
    moisture := r.moisture - decayOf f.evaporation snap.rh snap.uEff }

/-! ## The start of an evaluation (R36, R37) -/

/-- An expired override, its countdown at 0, leaves the face record (R37, R47). -/
def FaceRecord.dropExpired (r : FaceRecord) : FaceRecord :=
  { r with override := r.override.filter (fun o => o.left.isSome) }

/-- The expired overrides removed from every face (R37). -/
def State.dropExpiredOverrides (s : State) : State :=
  s.setRisk { s.risk with faces := s.risk.faces.map FaceRecord.dropExpired }

/-- What the snapshot copies of face `i`, from 0 (R37). -/
def State.faceSnapshot (s : State) (i : Nat) (r : FaceRecord) : FaceSnapshot where
  moisture := r.moisture
  kf := s.machines.kf.getD i 64
  escalation := ((s.fence.held[i]?).map Held.value).getD 0
  override := r.override.map Override.level

/-- The snapshot as the state stands, after the selection (R37). -/
def State.snapshot (s : State) : Snapshot where
  uEff := s.wind.uEff
  sector := s.wind.sector
  faces := s.risk.faces.mapIdx s.faceSnapshot
  current := s.currentSlot
  lookAhead := s.lookAheadSlot
  rh := (s.currentSlot.map Slot.rh).getD s.cfg.defaultRh

/-- The start of an evaluation (R37): expired overrides go, the store selects, the snapshot is taken whole. -/
def State.startEvaluation (s : State) : State :=
  let s1 := s.dropExpiredOverrides.selectForecast
  s1.setRisk { s1.risk with flight := some s1.snapshot }

/-! ## Completion (R48 to R51) -/

/-- The faces as a completion leaves them. -/
def State.completedFaces (s : State) (snap : Snapshot) : List FaceRecord :=
  s.risk.faces.mapIdx (fun i r =>
    completeFace s.cfg snap (s.cfg.faces.getD i FaceCfg.absent) (snap.faces.getD i ⟨0, 64, 0, none⟩) r)

/-- The largest last ERI among faces at or above a level, 0 when there is none (R50). -/
def weightAt (threshold : Level) (faces : List FaceRecord) : Nat :=
  ((faces.filter (fun r => decide (threshold.num ≤ r.level.num))).map FaceRecord.eri).foldl max 0

/-- The weight notice of R50: only when W or H_w differs from the previous completion. -/
def State.weightNotice (old s : State) : State :=
  if s.risk.w = old.risk.w ∧ s.risk.hw = old.risk.hw then s else s.shareComputation

/-- The last ERIs, the final levels, W and H_w published as one set, no evaluation in flight any more (R48). -/
def State.publish (s : State) (faces : List FaceRecord) : State :=
  s.setRisk { s.risk with faces := faces, w := weightAt .prewet faces, hw := weightAt .heavy faces, flight := none }

/-- The two lists of the sweep engine in the order of the levels now published; `old` is the state before (R119, R127). -/
def State.settleLists (old s : State) : State := State.settleGrants old (State.settleWaiting old s)

/-- A completion (R48): the whole set published, then the notices of R50 and R51 in either order, every reader with the new set (log 6).
With the weight notice first the lists are put in order before it. -/
def State.complete (s : State) (snap : Snapshot) (weightsFirst : Bool) : State :=
  let s1 := s.publish (s.completedFaces snap)
  if weightsFirst then
    let s2 := State.weightNotice s (State.settleLists s s1)
    State.levelNotice s2 s2
  else
    State.weightNotice s (State.levelNotice s s1)

/-! ## FORCE orders (R45) -/

/-- A FORCE order taken by the engine (R45): set or replace an override, remove it with level 255, or ignore. -/
def State.forceOrder (s : State) (face level minutes : Nat) : State :=
  if face = 0 ∨ s.faceCount < face then s
  else if level = 255 then
    s.setRisk { s.risk with faces := s.risk.faces.modify (face - 1) (fun r => { r with override := none }) }
  else if level ≤ 4 ∧ 1 ≤ minutes ∧ minutes ≤ 240 then
    s.setRisk { s.risk with
      faces := s.risk.faces.modify (face - 1)
        (fun r => { r with override := some ⟨Level.ofNum level, some (seconds (minutes * 60))⟩ }) }
  else s

/-! ## The commands -/

/-- EVALUATION_TIMER_EXPIRY (R36): the timer restarts, and an evaluation starts unless one is in flight. -/
def execEvaluationTimerExpiry (s : State) : Host.Outcome State Fault Refusal :=
  .next (if s.risk.timer.isSome then
      let s1 := s.setRisk { s.risk with timer := some (seconds s.cfg.interval) }
      if s.risk.flight.isSome then s1 else s1.startEvaluation
    else s)

/-- EVALUATION_COMPLETION (R48): of the evaluation in flight. -/
def execEvaluationCompletion (weightsFirst : Bool) (s : State) : Host.Outcome State Fault Refusal :=
  .next (match s.risk.flight with
    | some snap => s.complete snap weightsFirst
    | none => s)

/-- An override whose countdown has run out is expired; one set anew by another event first has time left and stands (R45, R47). -/
def Override.expire (o : Override) : Override := if o.left = some 0 then { o with left := none } else o

/-- OVERRIDE_EXPIRY (R47): the countdown of a face's override reaches 0; the override is removed at the next evaluation start. -/
def execOverrideExpiry (face : Nat) (s : State) : Host.Outcome State Fault Refusal :=
  .next (if face = 0 then s
    else s.setRisk { s.risk with
      faces := s.risk.faces.modify (face - 1)
        (fun r => { r with override := r.override.map Override.expire }) })

end Sys2Proof.Machine
end

