-- ==== Sys2Proof/Machine/Wind.lean ====
section
/-! DEFINITION. The wind unit (chapter 1): sampling, the ring, health, the fallback cascade and the sample close. -/

namespace Sys2Proof.Machine

/-! ## Sampling (R2, R3) -/

/-- The speed of a period count (R2). -/
def StationCfg.speedOf (cfg : StationCfg) (n : Nat) : Nat :=
  if n = 0 then 0 else min 600 (n * cfg.aFactor / 256 + cfg.aOffset)

/-- The sector of a vane code, by the table of R3. -/
def vaneSector (code : BitVec 4) : Nat := [0, 1, 3, 2, 7, 6, 4, 5, 15, 14, 12, 13, 8, 9, 11, 10].getD code.toNat 0

/-! ## The ring (R4 to R6) -/

/-- A sample written at the write index, which advances; the wrap from 29 to 0 makes the ring FULL (R4). -/
def Wind.write (w : Wind) (x : Sample) : Wind :=
  { w with
    ring := if w.writeIndex < w.ring.length then w.ring.set w.writeIndex x else w.ring ++ [x],
    writeIndex := (w.writeIndex + 1) % 30,
    full := w.full || decide (w.writeIndex = 29) }

/-- The samples present from oldest to newest (R4). -/
def Wind.present (w : Wind) : List Sample :=
  if w.full then w.ring.drop w.writeIndex ++ w.ring.take w.writeIndex else w.ring

/-- U_mean of the samples present (R5). -/
def meanSpeed (l : List Sample) : Nat := (l.map Sample.speed).sum / l.length

/-- U_gust of the samples present (R5). -/
def gustSpeed (l : List Sample) : Nat := (l.map Sample.speed).foldl max 0

/-- trunc((3 × mean + gust) / 4), as in U_local (R5) and the FORECAST source (R13). -/
def blend (mean gust : Nat) : Nat := (3 * mean + gust) / 4

/-- How often a sector occurs among samples (R6). -/
def occurrences (l : List Sample) (sector : Nat) : Nat := l.countP (fun x => decide (x.sector = sector))

/-- The sector that occurs most often, the most recent sample's among ties (R6). -/
def prevailing (l : List Sample) : Nat :=
  let most := (l.map (fun x => occurrences l x.sector)).foldl max 0
  ((l.reverse.find? (fun x => decide (occurrences l x.sector = most))).map Sample.sector).getD 0

/-- The figures computed from the samples present (R5, R6). -/
def Wind.figures (w : Wind) : Wind :=
  { w with mean := meanSpeed w.present, gust := gustSpeed w.present,
           localSpeed := blend (meanSpeed w.present) (gustSpeed w.present), sector := prevailing w.present }

/-! ## Health (R7 to R9) -/

/-- The zero run after a close with period count `n` (R7). -/
def zeroRunAfter (run n : Nat) : Nat := if n = 0 then min 150 (run + 1) else 0

/-- The health after a close with period count `n` (R8, R9); `windy` is the neighbour test. -/
def healthAfter (health : Health) (run n : Nat) (windy : Bool) : Health :=
  if n ≠ 0 then .healthy
  else if run = 150 ∧ windy then .stuck
  else health

/-! ## The cascade (R10 to R15) -/

/-- The value in position trunc((k + 1) / 2) of k values sorted from lowest to highest (R12). -/
def median (l : List Nat) : Nat := (l.insertionSort (· ≤ ·)).getD ((l.length + 1) / 2 - 1) 0

/-- A close decided by rows 1 to 3: the held timer becomes IDLE (R10). -/
def State.windFrom (s : State) (source : WindSource) (uEff : Nat) : State :=
  s.setWind { s.wind with source := source, uEff := uEff, heldTimer := .idle }

/-- The FAILSAFE rows 6 and 7 (R10). -/
def State.windFailsafe (s : State) : State :=
  s.setWind { s.wind with source := .failsafe, uEff := s.cfg.failsafe }

/-- Rows 4 to 7 of the cascade, by the previous source (R10, R14, R15). -/
def State.windHeld (s : State) : State :=
  match s.wind.source, s.wind.heldTimer with
  | .localWind, _ | .peer, _ | .forecast, _ =>
    s.setWind { s.wind with source := .held, heldValue := s.wind.uEff, heldTimer := .running (seconds 600) }
  | .held, .running _ => s.setWind { s.wind with uEff := s.wind.heldValue }
  | .held, _ | .failsafe, _ => s.windFailsafe

/-- Rows 2 to 7 of the cascade, under STUCK (R10 to R13). -/
def State.windBorrowed (s : State) : State :=
  if s.neighbourSpeeds ≠ [] then s.windFrom .peer (median s.neighbourSpeeds)
  else
    let s1 := s.selectForecast
    match s1.currentSlot with
    | some slot => s1.windFrom .forecast (blend slot.mean slot.gust)
    | none => s1.windHeld

/-- Stage 6 of a close: the wind source and U_eff (R10). -/
def State.decideWind (s : State) : State :=
  match s.wind.health with
  | .healthy => s.windFrom .localWind s.wind.localSpeed
  | .stuck => s.windBorrowed

/-! ## The sample close (R1, R16) -/

/-- Stages 1 to 5 of a close: the count, the vane, the ring, the figures, the zero run and the health (R1). -/
def State.takeSample (s : State) (vane : BitVec 4) : State :=
  let n := s.wind.count
  let run := zeroRunAfter s.wind.zeroRun n
  let w := ({ s.wind with count := 0, sampleTimer := some (seconds 2) }.write
    ⟨s.cfg.speedOf n, vaneSector vane⟩).figures
  s.setWind { w with zeroRun := run, health := healthAfter s.wind.health run n s.windyNeighbour }

/-- A sample close, whole: the stages, then the notices of R16. -/
def State.closeSample (s : State) (vane : BitVec 4) : State :=
  let s1 := (s.takeSample vane).decideWind
  (if s1.wind.sector = s.wind.sector then s1 else s1.recomputeEscalation none).windHold

/-- SAMPLE_CLOSE (R1): while the sample timer runs. -/
def execSampleClose (vane : BitVec 4) (s : State) : Host.Outcome State Fault Refusal :=
  .next (if s.wind.sampleTimer.isSome then s.closeSample vane else s)

/-- ANEMOMETER_PULSE (R2, R18): counted from reset onward, not while reset is asserted, nor in FAULT, where no block runs (R169; log 21). -/
def execAnemometerPulse (s : State) : Host.Outcome State Fault Refusal :=
  .next (if s.station.resetAsserted ∨ s.station.mode = .fault then s
    else s.setWind { s.wind with count := min 65535 (s.wind.count + 1) })

/-- HELD_TIMER_EXPIRY (R15): the running held timer becomes EXPIRED; the source and U_eff stay. -/
def execHeldTimerExpiry (s : State) : Host.Outcome State Fault Refusal :=
  .next (match s.wind.heldTimer with
    | .running _ => s.setWind { s.wind with heldTimer := .expired }
    | .idle | .expired => s)

end Sys2Proof.Machine
end

