-- ==== Sys2Proof/Machine/Dispatcher.lean ====
section
/-! DEFINITION. The frame dispatcher (10.2): held and free frames, the tests of R163, and the handing of each frame to its owner; with it
station control's reading of orders (R171). -/

namespace Sys2Proof.Machine

/-! ## The queue (R162) -/

/-- A frame is held: an evaluation is in flight and its kind is Monitor, Machine or Order (R162). -/
def State.holds (s : State) (f : Frame) : Bool :=
  s.risk.flight.isSome && (decide (f.kind = kindMonitor) || decide (f.kind = kindMachine) || decide (f.kind = kindOrder))

/-- The oldest free frame (R162). -/
def State.oldestFree (s : State) : Option Frame := s.dispatcher.queue.find? (fun f => !s.holds f)

/-- The queue without its oldest free frame. -/
def State.takeFree (s : State) : State :=
  s.setDispatcher { s.dispatcher with queue := s.dispatcher.queue.eraseP (fun f => !s.holds f) }

/-- The id conflict count rises (R163). -/
def State.idConflict (s : State) : State :=
  s.setDispatcher { s.dispatcher with idConflict := bump s.dispatcher.idConflict }

/-- A dispatch, one event (R162, R163): when the oldest free frame passes tests 1 to 3 and is one of `mine`, it leaves the queue, and it
is counted as an id conflict or handled by its owner. -/
def State.dispatch (s : State) (mine : Frame → Bool) (owner : State → Frame → State) : State :=
  match s.oldestFree with
  | some f =>
    if s.works && f.valid && mine f then
      if f.sender = s.cfg.id then s.takeFree.idConflict else owner s.takeFree f
    else s
  | none => s

/-- A frame of one kind. -/
def ofKind (kind : Nat) (f : Frame) : Bool := decide (f.kind = kind)

/-- An Order frame with one order code (10.3). -/
def ofOrder (code : Nat) (f : Frame) : Bool := decide (f.kind = kindOrder) && decide (f.orderCode = code)

/-- An order acted on when its target is this station or all stations, and ignored otherwise (R171). -/
def State.obey (s : State) (f : Frame) (act : State → Frame → State) : State := if s.targeted f then act s f else s

/-! ## What each order does once obeyed (R171) -/

/-- A MODE order: arg1 must be 1 or 2 (R171). -/
def State.obeyMode (s : State) (f : Frame) : State :=
  match f.arg1 with
  | 1 => s.modeOrder .auto
  | 2 => s.modeOrder .standby
  | _ => s

/-- A BANK order: arg1 must be 0 or 1 (R171). -/
def State.obeyBank (s : State) (f : Frame) : State :=
  match f.arg1 with
  | 0 => s.bankOrder .a
  | 1 => s.bankOrder .b
  | _ => s

/-- A FORCE order, with the checks that remain made by the risk engine (R45, R171). -/
def State.obeyForce (s : State) (f : Frame) : State := s.forceOrder f.arg1 f.arg2 f.arg3

/-! ## The commands -/

/-- DISPATCH_FORECAST (R19). -/
def execDispatchForecast (s : State) : Host.Outcome State Fault Refusal :=
  .next (s.dispatch (ofKind kindForecast) State.takeForecast)

/-- DISPATCH_MONITOR (R57). -/
def execDispatchMonitor (s : State) : Host.Outcome State Fault Refusal :=
  .next (s.dispatch (ofKind kindMonitor) State.takeMonitor)

/-- DISPATCH_MACHINE (R69). -/
def execDispatchMachine (s : State) : Host.Outcome State Fault Refusal :=
  .next (s.dispatch (ofKind kindMachine) State.takeMachine)

/-- DISPATCH_REPORT (R81). -/
def execDispatchReport (s : State) : Host.Outcome State Fault Refusal :=
  .next (s.dispatch (ofKind kindReport) State.takeReport)

/-- DISPATCH_POND (R96). -/
def execDispatchPond (s : State) : Host.Outcome State Fault Refusal :=
  .next (s.dispatch (ofKind kindPond) State.takePond)

/-- DISPATCH_ORDER_MODE (R171, R172). -/
def execDispatchOrderMode (s : State) : Host.Outcome State Fault Refusal :=
  .next (s.dispatch (ofOrder 1) (fun t f => t.obey f State.obeyMode))

/-- DISPATCH_ORDER_BANK (R135, R171). -/
def execDispatchOrderBank (s : State) : Host.Outcome State Fault Refusal :=
  .next (s.dispatch (ofOrder 2) (fun t f => t.obey f State.obeyBank))

/-- DISPATCH_ORDER_FORCE (R45, R171). -/
def execDispatchOrderForce (s : State) : Host.Outcome State Fault Refusal :=
  .next (s.dispatch (ofOrder 3) (fun t f => t.obey f State.obeyForce))

/-- DISPATCH_ORDER_RESUME (R171, R174). -/
def execDispatchOrderResume (s : State) : Host.Outcome State Fault Refusal :=
  .next (s.dispatch (ofOrder 4) (fun t f => t.obey f (fun u _ => u.resume)))

/-- DISPATCH_ORDER_ZERO (R111, R171). -/
def execDispatchOrderZero (s : State) : Host.Outcome State Fault Refusal :=
  .next (s.dispatch (ofOrder 5) (fun t f => t.obey f (fun u _ => u.zeroVolumes)))

/-- ORDER_IGNORED (R171): an order for another station, or with an unknown code, leaves the queue and changes nothing else. -/
def execOrderIgnored (s : State) : Host.Outcome State Fault Refusal :=
  .next (s.dispatch
    (fun f => ofKind kindOrder f && decide (f.sender ≠ s.cfg.id)
      && (!s.targeted f || decide (f.orderCode = 0) || decide (5 < f.orderCode)))
    (fun t _ => t))

/-- FRAME_DISCARDED_AT_DISPATCH (R163): the oldest free frame fails a test; only the failure of test 4 is counted. -/
def execFrameDiscardedAtDispatch (s : State) : Host.Outcome State Fault Refusal :=
  .next (match s.oldestFree with
    | some f =>
      if s.works = false then s
      else if f.valid = false then s.takeFree
      else if f.sender = s.cfg.id then s.takeFree.idConflict
      else s
    | none => s)

end Sys2Proof.Machine
end

