-- ==== Sys2Proof/Config.lean ====
section
/-! DEFINITION. What the manual leaves to the board and never fixes: one free value, opaque so that no proof can see it. -/

namespace Sys2Proof

/-- The level that the serial memory's data line idles at (R169: "A memory that does not answer gives the data line's idle
level"; the manual does not say which). A byte clocked from a silent memory is eight times this bit. Log 3. -/
opaque Config.dataLineIdle : Bool
end Sys2Proof
end

