-- ==== Sys2Proof/Machine/Image.lean ====
section
/-! DEFINITION. The configuration image (10.5): what the load reads from the serial memory, the nine stages of R165 with the tests of R35,
R56, R68, R95, R116, R118, R142 and R166, and the values the blocks take from an image that passes. -/

namespace Sys2Proof.Machine

/-! ## The serial memory's wires (R169) -/

/-- The bits of a byte in the order they go over the wires, most significant first (R169). -/
def msbFirst (b : Byte) : List Bool := (List.range 8).map (fun k => b.getLsbD (7 - k))

/-- The byte whose bits came over the wires, most significant first (R169). -/
def byteOfBits (bits : List Bool) : Byte := BitVec.ofNat 8 (bits.foldl (fun a b => 2 * a + b.toNat) 0)

/-- The levels of the clock and of the data line during half a clock period. -/
structure SpiLevel where
  clock : Bool
  data : Bool
  deriving DecidableEq, Repr

/-- Bits sent over the wires, half a clock period by half: each is driven with the clock low, from the falling edge on, and stands
through the rising edge that samples it; before and after them the clock stands low (R169). -/
def spiWave (bits : List Bool) : List SpiLevel := bits.flatMap (fun b => [⟨false, b⟩, ⟨true, b⟩])

/-- What is sampled from the wires: the data level at each rising edge of the clock, which stood at `before` (R169). -/
def spiSampled : Bool → List SpiLevel → List Bool
  | _, [] => []
  | before, x :: rest => if !before && x.clock then x.data :: spiSampled x.clock rest else spiSampled x.clock rest

/-- The level of the memory's data line at rising edge `k` after the read command: the bits of its bytes in address order, and past
the bytes it answers with the line's idle level (R169, log 3). -/
def memoryLevel (memory : List Byte) (k : Nat) : Bool :=
  match memory[k / 8]? with
  | some b => (msbFirst b).getD (k % 8) false
  | none => Config.dataLineIdle

/-! ## Reading (R167, R169) -/

/-- The first `n` bytes of the serial memory, each from eight samples of its data line (R169). -/
def readMemory (memory : List Byte) (n : Nat) : List Byte :=
  (List.range n).map (fun i => byteOfBits ((List.range 8).map (fun k => memoryLevel memory (8 * i + k))))

/-- The image length in the header (10.5). -/
def imageLength (memory : List Byte) : Nat := field (readMemory memory 2) 0 2

/-! ## Measuring the sections (stage 5 of R165) -/

/-- `count` blocks of `size` bytes, with the bytes after them; none when the bytes run out. -/
def takeBlocks (size : Nat) : Nat → List Byte → Option (List (List Byte) × List Byte)
  | 0, b => some ([], b)
  | count + 1, b =>
    if b.length < size then none
    else
      match takeBlocks size count (b.drop size) with
      | some r => some (b.take size :: r.1, r.2)
      | none => none

/-- A count of `least` to `most`, then that many blocks (R165). -/
def takeTable (size least most : Nat) (b : List Byte) : Option (List (List Byte) × List Byte) :=
  match b with
  | [] => none
  | n :: rest => if n.toNat < least ∨ most < n.toNat then none else takeBlocks size n.toNat rest

/-- A channel's part of the image, measured. -/
structure RawChannel where
  values : List Byte
  shadow : List (List Byte)
  arcs : List (List Byte)
  planA : List (List Byte)
  planB : List (List Byte)
  deriving DecidableEq, Repr

/-- The image, measured. -/
structure RawImage where
  station : List Byte
  faces : List (List Byte)
  faceMap : List (List Byte)
  relations : List (List Byte)
  channels : List RawChannel
  deriving DecidableEq, Repr

/-- One channel's part (10.5). -/
def takeChannel (b : List Byte) : Option (RawChannel × List Byte) :=
  (takeBlocks 8 1 b).bind fun v =>
  (takeTable 6 0 16 v.2).bind fun sh =>
  (takeTable 4 0 2 sh.2).bind fun ar =>
  (takeTable 21 1 8 ar.2).bind fun pa =>
  (takeTable 21 1 8 pa.2).map fun pb =>
    (⟨v.1.getD 0 [], sh.1, ar.1, pa.1, pb.1⟩, pb.2)

/-- The channels, C0 first. -/
def takeChannels : Nat → List Byte → Option (List RawChannel × List Byte)
  | 0, b => some ([], b)
  | n + 1, b =>
    (takeChannel b).bind fun c =>
    (takeChannels n c.2).map fun r => (c.1 :: r.1, r.2)

/-- The sections after the station section, which must end exactly at the image length (stage 5 of R165). -/
def measureImage (image : List Byte) : Option RawImage :=
  (takeBlocks 39 (field image 48 1) (image.drop 52)).bind fun fs =>
  (takeTable 3 0 12 fs.2).bind fun fm =>
  (takeTable 4 0 8 fm.2).bind fun rl =>
  (takeChannels (field image 49 1) rl.2).bind fun ch =>
    if ch.2 = [] then some ⟨image.take 52, fs.1, fm.1, rl.1, ch.1⟩ else none

/-! ## Tests (R35, R56, R68, R95, R116, R118, R142, R166) -/

/-- A value lies in a range, bounds included. -/
def within (lo hi n : Nat) : Bool := decide (lo ≤ n) && decide (n ≤ hi)

/-- A signed value lies in a range, bounds included. -/
def withinInt (lo hi n : Int) : Bool := decide (lo ≤ n) && decide (n ≤ hi)

/-- Stage 4, the station section. -/
def stationPasses (b : List Byte) : Bool :=
  within 1 239 (field b 5 1) && within 1 8191 (field b 10 2) && decide (field b 12 1 ≠ 0)
    && within 1 239 (field b 14 1) && decide (field b 14 1 ≠ field b 5 1) && within 1 239 (field b 15 1)
    && within 1 992 (field b 16 2) && within 1 992 (field b 18 2) && within 1 992 (field b 20 2)
    && decide (field b 16 2 < field b 18 2) && decide (field b 18 2 < field b 20 2)
    && decide (field b 22 1 ≤ 63) && decide (field b 22 1 < field b 16 2)
    && decide (field b 23 1 ≤ 50) && decide (field b 27 2 ≤ 600) && decide (field b 29 1 ≤ 100)
    && within 5 60 (field b 30 1) && within 15 120 (field b 31 1)
    && within 30 300 (field b 32 2) && within 60 1800 (field b 34 2) && within 10 120 (field b 36 1)
    && within 60 900 (field b 37 2) && decide (64 ≤ field b 39 1) && decide (64 ≤ field b 40 1)
    && decide (field b 41 1 ≤ 1) && decide (field b 42 1 ≤ 1) && decide (field b 43 2 ≤ 1000)
    && decide (field b 45 2 ≠ 0) && decide (field b 47 1 ≤ 20)
    && within 1 6 (field b 48 1) && within 1 4 (field b 49 1) && decide (field b 50 2 ≤ 1000)

/-- Stage 6, one face (R35). -/
def facePasses (b : List Byte) : Bool :=
  decide (field b 0 1 ≤ 15) && (List.range 16).all (fun k => decide (field b (1 + 2 * k) 2 ≤ 256))
    && within 10 300 (field b 33 2) && decide (field b 37 2 ≤ 4095)

/-- Stage 7, the face map (R68). -/
def mapPasses (faceCount : Nat) (l : List (List Byte)) : Bool :=
  l.all (fun b => within 1 faceCount (field b 2 1)) && decide ((l.map (fun b => b.take 2)).Nodup)

/-- Stage 7, the arcs of one channel (R68). -/
def arcsPass (c : RawChannel) : Bool :=
  c.shadow.all (fun b => decide (field b 2 2 ≤ 3599) && decide (field b 4 2 ≤ 3599))
    && c.arcs.all (fun b => decide (field b 0 2 ≤ 3599) && decide (field b 2 2 ≤ 3599))

/-- Stage 8, the relation table (R56). -/
def relationsPass (own faceCount : Nat) (l : List (List Byte)) : Bool :=
  l.all (fun b => within 1 239 (field b 0 1) && decide (field b 0 1 ≠ own) && decide (field b 3 1 < 2 ^ faceCount))
    && decide ((l.map (fun b => b.take 1)).Nodup)

/-- The pattern of a code (10.5). -/
def patternOf : Nat → Pattern
  | 0 => .hold
  | 1 => .arc
  | 2 => .raster
  | _ => .ring

/-- A leg of the image (10.5). -/
def legOf (b : List Byte) : Leg where
  face := field b 0 1
  minimum := field b 1 1
  pattern := patternOf (field b 2 1)
  dwell := field b 3 1
  count := field b 4 1
  a0 := field b 5 2
  aStep := signed16 (field b 7 2)
  rows := field b 9 1
  columns := field b 10 1
  e0 := field b 11 2
  eStep := signed16 (field b 13 2)
  ringBase := field b 15 2
  ringLength := field b 17 2
  ringStride := signed16 (field b 19 2)

/-- The ranges of the parameters that a leg's pattern uses (8.2, R118); the others are not examined. -/
def Leg.parametersPass (g : Leg) : Bool :=
  match g.pattern with
  | .hold => decide (1 ≤ g.count) && decide (g.a0 ≤ 3599)
  | .arc => decide (1 ≤ g.count) && decide (g.a0 ≤ 3599) && withinInt (-900) 900 g.aStep
  | .raster =>
    decide (g.a0 ≤ 3599) && withinInt (-900) 900 g.aStep && within 1 15 g.rows && within 1 17 g.columns
      && withinInt (-600) 600 g.eStep
  | .ring =>
    decide (1 ≤ g.count) && decide (g.ringBase ≤ 3599) && within 1 3600 g.ringLength
      && withinInt (-3599) 3599 g.ringStride && decide (0 < g.ringStride.natAbs)
      && decide (g.ringStride.natAbs < g.ringLength) && decide (g.ringBase ≤ g.a0)
      && decide (g.a0 < g.ringBase + g.ringLength)

/-- Stage 9, one leg (R116). -/
def legPasses (faceCount : Nat) (b : List Byte) : Bool :=
  within 1 faceCount (field b 0 1) && within 2 4 (field b 1 1) && decide (field b 2 1 ≤ 3) && within 1 60 (field b 3 1)
    && decide (field b 11 2 ≤ 600) && (legOf b).parametersPass

/-- Stage 9, one channel (R116). -/
def channelPasses (faceCount : Nat) (c : RawChannel) : Bool :=
  decide (1 ≤ field c.values 0 2) && within 20 600 (field c.values 2 2) && decide (field c.values 4 1 ≤ 100)
    && decide (1 ≤ field c.values 5 1) && within 1 10 (field c.values 6 1) && within 2 30 (field c.values 7 1)
    && c.planA.all (legPasses faceCount) && c.planB.all (legPasses faceCount)

/-! ## The values (10.5) -/

/-- A face of the image. -/
def faceOf (b : List Byte) : FaceCfg where
  orientation := field b 0 1
  exposure := (List.range 16).map (fun k => field b (1 + 2 * k) 2)
  threshold := field b 33 2
  gain := field b 35 1
  evaporation := field b 36 1
  moisture := field b 37 2

/-- A face map entry of the image. -/
def mapEntryOf (b : List Byte) : MapEntry := ⟨field b 0 1, field b 1 1, field b 2 1⟩

/-- A relation table entry of the image. -/
def relationOf (b : List Byte) : Relation := ⟨field b 0 1, field b 1 2, field b 3 1⟩

/-- A shadow table entry of the image. -/
def shadowOf (b : List Byte) : Shadow := ⟨field b 0 1, field b 1 1, ⟨field b 2 2, field b 4 2⟩⟩

/-- A fixed arc of the image. -/
def arcOf (b : List Byte) : Arc := ⟨field b 0 2, field b 2 2⟩

/-- A channel of the image. -/
def channelOf (c : RawChannel) : ChannelCfg where
  flow := field c.values 0 2
  cutoff := field c.values 2 2
  gain := field c.values 4 1
  weight := field c.values 5 1
  valveTimeout := field c.values 6 1
  slewTimeout := field c.values 7 1
  shadow := c.shadow.map shadowOf
  fixed := c.arcs.map arcOf
  planA := c.planA.map legOf
  planB := c.planB.map legOf

/-- The values of an image. -/
def configOf (r : RawImage) : StationCfg :=
  let b := r.station
  { id := field b 5 1
    gridX := field b 6 2
    gridY := field b 8 2
    divisor := field b 10 2
    period := field b 12 1
    hearMonitor := decide (field b 13 1 % 2 = 1)
    hearMachine := decide (field b 13 1 / 2 % 2 = 1)
    hearForecast := decide (field b 13 1 / 4 % 2 = 1)
    pond := field b 14 1
    gateway := field b 15 1
    tWatch := field b 16 2
    tSpray := field b 18 2
    tHeavy := field b 20 2
    hysteresis := field b 22 1
    reserve := field b 23 1
    radius := field b 25 2
    failsafe := field b 27 2
    defaultRh := field b 29 1
    interval := field b 30 1
    lead := field b 31 1
    monitorSilence := field b 32 2
    holdTime := field b 34 2
    pondSilence := field b 36 1
    hushHold := field b 37 2
    kReclaim := field b 39 1
    kStack := field b 40 1
    policy := if field b 41 1 = 0 then .keep else .rotate
    bank := if field b 42 1 = 0 then .a else .b
    collapse := field b 43 2
    aFactor := field b 45 2
    aOffset := field b 47 1
    turbidityLimit := field b 50 2
    faces := r.faces.map faceOf
    faceMap := r.faceMap.map mapEntryOf
    relations := r.relations.map relationOf
    channels := r.channels.map channelOf }

/-! ## The nine stages (R165) -/

/-- What a load ends with. -/
inductive LoadResult where
  | fails (stage : Nat)
  | passes (cfg : StationCfg)
  deriving DecidableEq, Repr

/-- Stages 6 to 9 on a measured image. -/
def testSections (r : RawImage) : LoadResult :=
  if r.faces.all facePasses = false then .fails 6
  else if (mapPasses r.faces.length r.faceMap && r.channels.all arcsPass) = false then .fails 7
  else if relationsPass (field r.station 5 1) r.faces.length r.relations = false then .fails 8
  else if r.channels.all (channelPasses r.faces.length) = false then .fails 9
  else .passes (configOf r)

/-- Stage 3: the two sums over the image but for offsets 3 and 4 match the header. -/
def imageVerified (image : List Byte) : Bool :=
  let sums := checkSums (image.take 3 ++ image.drop 5)
  decide (sums.1 = field image 3 1) && decide (sums.2 = field image 4 1)

/-- Stages 2 to 9 on the whole image. -/
def testImage (image : List Byte) : LoadResult :=
  if field image 2 1 ≠ 3 then .fails 2
  else if imageVerified image = false then .fails 3
  else if stationPasses image = false then .fails 4
  else
    match measureImage image with
    | none => .fails 5
    | some r => testSections r

/-- The configuration load (R165, R169): stage 1 on the length, then the image read whole and tested. -/
def loadImage (memory : List Byte) : LoadResult :=
  if imageLength memory < 52 ∨ 2200 < imageLength memory then .fails 1
  else testImage (readMemory memory (imageLength memory))

end Sys2Proof.Machine
end

