-- ==== Sys2Proof/Machine/Load.lean ====
section
/-! DEFINITION. Reset and the configuration load (R168, R169), the values each block takes at a successful load, and the entry to LISTENING
(R170). -/

namespace Sys2Proof.Machine

/-! ## Reset (R168) -/

/-- The whole part in reset, the reset input asserted; the commands still waiting are the outside's, not the part's (log 5). -/
def State.inReset (s : State) : State := { State.reset with pending := s.pending }

/-- The bytes sent to the serial memory to read from address 0: the read command 3 and a two-byte address of 0 (R169). -/
def readCommand : List Byte := [3#8, 0#8, 0#8]

/-- The release of reset: the load begins with the serial memory selected (R169). -/
def State.beginLoad (s : State) : State :=
  s.setStation { s.station with resetAsserted := false, spiSelect := true, spiSent := readCommand }

/-- What the load sends over the wires to the memory: the bytes sent, most significant bit first (R169). -/
def State.spiOut (s : State) : List SpiLevel := spiWave (s.station.spiSent.flatMap msbFirst)

/-- A configuration load is in progress (R169). -/
def State.loading (s : State) : Bool := decide (s.station.mode = .starting) && s.station.spiSelect

/-! ## What the blocks take from the image (R54, R66, R79, R139) -/

/-- A face record at a successful load (R54). -/
def FaceCfg.record (f : FaceCfg) : FaceRecord where
  moisture := f.moisture
  eri := 0
  base := .quiet
  prewet := false
  level := .quiet
  override := none

/-- A channel at a successful load, before the entry to LISTENING (R139). -/
def initialChannel (bank : Bank) : Channel := { Channel.absent with bank := bank }

/-- Every block with its values from the image and its state of the successful load. -/
def State.configured (s : State) (cfg : StationCfg) : State :=
  { s with
    cfg := cfg,
    risk := { s.risk with faces := cfg.faces.map FaceCfg.record },
    fence := { s.fence with records := cfg.relations.map (fun _ => none), held := cfg.faces.map (fun _ => ⟨0, none⟩) },
    machines := { s.machines with
      kf := cfg.faces.map (fun _ => 64), arcs := cfg.channels.map (fun c => c.shadow.map (fun _ => false)) },
    sweep := { s.sweep with channels := cfg.channels.map (fun _ => initialChannel cfg.bank), requested := cfg.bank } }

/-! ## Entry to LISTENING (R170) -/

/-- The line interface starts: AWAIT GAP, the idle gap and break measures from zero (R158, R170). -/
def Line.starts (l : Line) : Line := { l with rx := .awaitGap, gap := some 0, run := .absent }

/-- The timers of the blocks start (R1, R36, R97, R137, R170); the period count is zeroed (R18). -/
def State.startTimers (s : State) : State :=
  { s with
    wind := { s.wind with count := 0, sampleTimer := some (seconds 2) },
    risk := { s.risk with timer := some (seconds s.cfg.interval) },
    water := { s.water with timer := some (seconds s.cfg.pondSilence) },
    sweep := { s.sweep with pressureTimer := some (seconds 1) },
    line := s.line.starts,
    station := { s.station with
      spiSelect := false, target := .auto, listeningTimer := some (seconds (2 * s.cfg.period)),
      reportTimer := some (s.cfg.id * 40) } }

/-- A load that passes all nine stages (R169, R170). -/
def State.loadSucceeds (s : State) (cfg : StationCfg) : State := (s.configured cfg).startTimers.changeMode .listening

/-- A load that fails at a stage: FAULT with the stage's code latched and its pattern begun (R169, R176); the memory's selection ends
with the load at every stage, the first included (DESIGN CHOICE, log 36). -/
def State.loadFails (s : State) (stage : Nat) : State :=
  s.setStation { s.station with
    mode := .fault, spiSelect := false, faultCode := some stage, patternPhase := 0,
    patternTimer := some (patternTime stage 0) }

/-! ## The commands -/

/-- RESET (R168). -/
def execReset (s : State) : Host.Outcome State Fault Refusal := .next s.inReset

/-- RESET_RELEASE (R169): while reset is asserted. -/
def execResetRelease (s : State) : Host.Outcome State Fault Refusal :=
  .next (if s.station.resetAsserted then s.beginLoad else s)

/-- LOAD_SUCCESS (R170): the load in progress reads this memory and passes all nine stages. -/
def execLoadSuccess (memory : List Byte) (s : State) : Host.Outcome State Fault Refusal :=
  .next (if s.loading then
      match loadImage memory with
      | .passes cfg => s.loadSucceeds cfg
      | .fails _ => s
    else s)

/-- LOAD_FAILURE (R169): the load in progress reads this memory and fails a stage. -/
def execLoadFailure (memory : List Byte) (s : State) : Host.Outcome State Fault Refusal :=
  .next (if s.loading then
      match loadImage memory with
      | .passes _ => s
      | .fails stage => s.loadFails stage
    else s)

end Sys2Proof.Machine
end

