-- ==== Sys2Proof/Machine/Dispatch.lean ====
section
/-! DEFINITION. The dispatch: one arm per command, each one direct call of its meaning. -/

namespace Sys2Proof.Machine

def exec (i : Instr) (s : State) : Host.Outcome State Fault Refusal :=
  match i with
  | .reset => Sys2Proof.Machine.execReset s
  | .resetRelease => Sys2Proof.Machine.execResetRelease s
  | .loadSuccess memory => Sys2Proof.Machine.execLoadSuccess memory s
  | .loadFailure memory => Sys2Proof.Machine.execLoadFailure memory s
  | .sampleClose vane => Sys2Proof.Machine.execSampleClose vane s
  | .anemometerPulse => Sys2Proof.Machine.execAnemometerPulse s
  | .heldTimerExpiry => Sys2Proof.Machine.execHeldTimerExpiry s
  | .dispatchForecast => Sys2Proof.Machine.execDispatchForecast s
  | .yardClockAdvance => Sys2Proof.Machine.execYardClockAdvance s
  | .evaluationTimerExpiry => Sys2Proof.Machine.execEvaluationTimerExpiry s
  | .evaluationCompletion weightsFirst => Sys2Proof.Machine.execEvaluationCompletion weightsFirst s
  | .overrideExpiry face => Sys2Proof.Machine.execOverrideExpiry face s
  | .dispatchMonitor => Sys2Proof.Machine.execDispatchMonitor s
  | .monitorSilenceCrossing id => Sys2Proof.Machine.execMonitorSilenceCrossing id s
  | .holdExpiry face => Sys2Proof.Machine.execHoldExpiry face s
  | .dispatchMachine => Sys2Proof.Machine.execDispatchMachine s
  | .machineStaleCrossing id => Sys2Proof.Machine.execMachineStaleCrossing id s
  | .machineRemoval id => Sys2Proof.Machine.execMachineRemoval id s
  | .dispatchReport => Sys2Proof.Machine.execDispatchReport s
  | .peerStaleCrossing id => Sys2Proof.Machine.execPeerStaleCrossing id s
  | .peerRemoval id => Sys2Proof.Machine.execPeerRemoval id s
  | .dispatchPond => Sys2Proof.Machine.execDispatchPond s
  | .pondSilenceExpiry => Sys2Proof.Machine.execPondSilenceExpiry s
  | .gtNotice => Sys2Proof.Machine.execGtNotice s
  | .onAim c => Sys2Proof.Machine.execOnAim c s
  | .slewTimeout c => Sys2Proof.Machine.execSlewTimeout c s
  | .valveOpenReport c => Sys2Proof.Machine.execValveOpenReport c s
  | .valveTimeout c => Sys2Proof.Machine.execValveTimeout c s
  | .dwellExpiry c => Sys2Proof.Machine.execDwellExpiry c s
  | .flowPulse c => Sys2Proof.Machine.execFlowPulse c s
  | .pressureSample reading => Sys2Proof.Machine.execPressureSample reading s
  | .breakSendEnd => Sys2Proof.Machine.execBreakSendEnd s
  | .idleGapComplete => Sys2Proof.Machine.execIdleGapComplete s
  | .breakHeard => Sys2Proof.Machine.execBreakHeard s
  | .frameReceived frame => Sys2Proof.Machine.execFrameReceived frame s
  | .frameStart => Sys2Proof.Machine.execFrameStart s
  | .arbitrationLost char bit samples => Sys2Proof.Machine.execArbitrationLost char bit samples s
  | .clash char bit samples => Sys2Proof.Machine.execClash char bit samples s
  | .frameSent => Sys2Proof.Machine.execFrameSent s
  | .selfSilenceExpiry => Sys2Proof.Machine.execSelfSilenceExpiry s
  | .dispatchOrderMode => Sys2Proof.Machine.execDispatchOrderMode s
  | .dispatchOrderBank => Sys2Proof.Machine.execDispatchOrderBank s
  | .dispatchOrderForce => Sys2Proof.Machine.execDispatchOrderForce s
  | .dispatchOrderResume => Sys2Proof.Machine.execDispatchOrderResume s
  | .dispatchOrderZero => Sys2Proof.Machine.execDispatchOrderZero s
  | .listeningTimerExpiry => Sys2Proof.Machine.execListeningTimerExpiry s
  | .hushHoldExpiry => Sys2Proof.Machine.execHushHoldExpiry s
  | .reportTimerExpiry => Sys2Proof.Machine.execReportTimerExpiry s
  | .faultPatternTick => Sys2Proof.Machine.execFaultPatternTick s
  | .startEdge measure => Sys2Proof.Machine.execStartEdge measure s
  | .bitRead samples => Sys2Proof.Machine.execBitRead samples s
  | .dominantRunEnd => Sys2Proof.Machine.execDominantRunEnd s
  | .frameDiscardedAtDispatch => Sys2Proof.Machine.execFrameDiscardedAtDispatch s
  | .orderIgnored => Sys2Proof.Machine.execOrderIgnored s

end Sys2Proof.Machine
end

