-- ==== Sys2Proof/Machine/Time.lean ====
section
/-! DEFINITION. The passage of time: what a millisecond without a command does (log 1). Timers run down to 0 and stay there, ages rise to
their limits; what an expiry or a crossing does is a command's. -/

namespace Sys2Proof.Machine

/-- A timer a millisecond later. -/
def countDown (t : Option Nat) : Option Nat := t.map (fun n => n - 1)

/-- The held timer a millisecond later (R15). -/
def HeldTimer.countDown : HeldTimer → HeldTimer
  | .idle => .idle
  | .running n => .running (n - 1)
  | .expired => .expired

/-- A channel's timers a millisecond later. -/
def Channel.passTime (ch : Channel) : Channel :=
  { ch with slewTimer := countDown ch.slewTimer, valveTimer := countDown ch.valveTimer, dwellTimer := countDown ch.dwellTimer }

/-- A face's override countdown a millisecond later (R45, R47); one run out waits for its expiry. -/
def FaceRecord.passTime (r : FaceRecord) : FaceRecord :=
  { r with override := r.override.map (fun o => { o with left := countDown o.left }) }

/-- A monitor record's age a millisecond later, up to the silence limit (4.2). -/
def MonitorRecord.passTime (limit : Nat) (m : MonitorRecord) : MonitorRecord := { m with age := min limit (m.age + 1) }

/-- The age at which a machine record's next ageing event falls due, where the age waits for it: 10 s while FRESH, 60 s while STALE
(R71). -/
def MachineRecord.ageLimit (m : MachineRecord) : Nat := if m.stale then seconds 60 else seconds 10

/-- A machine record's age a millisecond later (R71). -/
def MachineRecord.passTime (m : MachineRecord) : MachineRecord := { m with age := min m.ageLimit (m.age + 1) }

/-- The age at which a peer record's next ageing event falls due, where the age waits for it: three of its report periods while FRESH,
six while STALE (R85). -/
def Peer.ageLimit (p : Peer) : Nat := if p.stale then seconds (6 * p.period) else seconds (3 * p.period)

/-- A peer record's age a millisecond later (R85). -/
def Peer.passTime (p : Peer) : Peer := { p with age := min p.ageLimit (p.age + 1) }

/-- A millisecond in a mode in which the blocks work. -/
def State.blocksPassTime (s : State) : State :=
  { s with
    station := { s.station with
      listeningTimer := countDown s.station.listeningTimer, hushTimer := countDown s.station.hushTimer,
      reportTimer := countDown s.station.reportTimer },
    wind := { s.wind with sampleTimer := countDown s.wind.sampleTimer, heldTimer := s.wind.heldTimer.countDown },
    forecast := { s.forecast with advanceTimer := countDown s.forecast.advanceTimer },
    risk := { s.risk with timer := countDown s.risk.timer, faces := s.risk.faces.map FaceRecord.passTime },
    fence := { s.fence with
      records := s.fence.records.map (fun r => r.map (MonitorRecord.passTime (seconds s.cfg.monitorSilence))),
      held := s.fence.held.map (fun h => { h with timer := countDown h.timer }) },
    machines := { s.machines with list := s.machines.list.map MachineRecord.passTime },
    peers := { s.peers with list := s.peers.list.map Peer.passTime },
    water := { s.water with timer := countDown s.water.timer },
    sweep := { s.sweep with
      channels := s.sweep.channels.map Channel.passTime, pressureTimer := countDown s.sweep.pressureTimer },
    line := { s.line with silence := countDown s.line.silence, joinOpen := false } }

/-- A millisecond in FAULT: the fault pattern's phase runs (R176). -/
def State.patternPassesTime (s : State) : State :=
  { s with station := { s.station with patternTimer := countDown s.station.patternTimer } }

/-- A millisecond: in STARTING no timer of any block runs (R168). -/
def State.timePasses (s : State) : State :=
  match s.station.mode with
  | .starting => s
  | .fault => s.patternPassesTime
  | .listening | .auto | .standby | .hushed => s.blocksPassTime

end Sys2Proof.Machine
end

