-- ==== Sys2Proof/Safety.lean ====
section
/-! DEFINITION. What counts as a safe station, in the terms the claims use: the invariants that the manual states of the counts, the
lists, the valves, the grants and the figures, and the blocks at rest before a load. -/

namespace Sys2Proof.Machine

/-- Every count stands within its range (R2, R7, R118, R137, R151, R157, R161, R163, R164, R70, R84). -/
abbrev State.CountsHold (s : State) : Prop :=
  s.line.noise ≤ 255 ∧ s.line.framing ≤ 255 ∧ s.line.clashes ≤ 255 ∧ s.line.superseded ≤ 255 ∧
  s.dispatcher.checkFail ≤ 255 ∧ s.dispatcher.overrun ≤ 255 ∧ s.dispatcher.idConflict ≤ 255 ∧
  s.machines.refused ≤ 255 ∧ s.peers.refused ≤ 255 ∧
  s.wind.count ≤ 65535 ∧ s.wind.zeroRun ≤ 150 ∧ s.line.clashRun ≤ 7 ∧ s.sweep.lowRun ≤ 2 ∧ s.station.page ≤ 3 ∧
  ∀ ch ∈ s.sweep.channels, ch.laps ≤ 65535

/-- Every list stands within its capacity and in its order: the receive queue (R161), the peer table (6.1, R83, R84), the machine list
(R70), the sample ring (R4). -/
abbrev State.ListsHold (s : State) : Prop :=
  s.dispatcher.queue.length ≤ 8 ∧
  (s.peers.list.length ≤ 32 ∧ s.peers.list.Pairwise (fun p q => p.id < q.id)) ∧
  (s.machines.list.length ≤ 8 ∧ s.machines.list.Pairwise (fun m n => m.id < n.id)) ∧
  (s.wind.writeIndex < 30 ∧ s.wind.ring.length = if s.wind.full then 30 else s.wind.writeIndex)

/-- The forecast store keeps its six places, its recency order names each of them once, and the selected place holds a window
(R20, R26, R27). -/
abbrev State.StoreHolds (s : State) : Prop :=
  s.forecast.places.length = 6 ∧ List.Perm s.forecast.recency [0, 1, 2, 3, 4, 5] ∧
  ∀ p ∈ s.forecast.selected, (s.forecast.window p).isSome = true

/-- Every speed, moisture, ERI and weight stands within its range (1.1, 2.1, 3.1, R5, R41, R50, R81). -/
abbrev State.FiguresHold (s : State) : Prop :=
  s.cfg.failsafe ≤ 600 ∧ (∀ x ∈ s.wind.ring, x.speed ≤ 600) ∧
  (s.wind.mean ≤ s.wind.localSpeed ∧ s.wind.localSpeed ≤ s.wind.gust ∧ s.wind.gust ≤ 600) ∧
  s.wind.heldValue ≤ 600 ∧ s.wind.uEff ≤ 600 ∧
  (∀ p ∈ s.peers.list, p.speed ≤ 600) ∧
  (∀ o ∈ s.forecast.places, ∀ w ∈ o, ∀ slot ∈ w.slots, slot.mean ≤ 600 ∧ slot.gust ≤ 600) ∧
  (∀ r ∈ s.risk.faces, r.moisture ≤ 4095 ∧ r.eri ≤ 992 ∧ r.base ≠ .prewet) ∧
  s.risk.hw ≤ s.risk.w ∧ s.risk.w ≤ 992

/-- A channel's valve is commanded open in OPENING and SPRAYING and in no other state (8.3). -/
abbrev State.ValvesTell (s : State) : Prop :=
  ∀ ch ∈ s.sweep.channels, ch.valve = true ↔ ch.state = .opening ∨ ch.state = .spraying

/-- The grant list holds exactly the channels in SLEWING, OPENING, SPRAYING and DRY, and the waiting order exactly those in WAITING and
DENIED, each once (8.3, R119, R127). -/
abbrev State.OrdersTell (s : State) : Prop :=
  (s.sweep.grants.map Grant.channel).Nodup ∧ s.sweep.waiting.Nodup ∧
  (∀ g ∈ s.sweep.grants, (s.channel g.channel).state.runs = true) ∧
  (∀ c ∈ s.sweep.waiting, (s.channel c).state.waits = true) ∧
  (∀ c ∈ s.channelNumbers, (s.channel c).state.runs = true → c ∈ s.sweep.grants.map Grant.channel) ∧
  (∀ c ∈ s.channelNumbers, (s.channel c).state.waits = true → c ∈ s.sweep.waiting)

/-- The grant list and the waiting order stand in order of priority, highest first (R119, R127). -/
abbrev State.PriorityOrders (s : State) : Prop :=
  s.sweep.grants.Pairwise (fun g h => (s.priority h.channel).num ≤ (s.priority g.channel).num) ∧
  s.sweep.waiting.Pairwise (fun c d => (s.priority d).num ≤ (s.priority c).num)

/-- The grants stand within the shares: G_t ≤ S_r + S_f, and G_t ≤ S_r while any granted channel is below HEAVY (R127). -/
abbrev State.GrantsHold (s : State) : Prop :=
  s.granted ≤ s.sweep.sR + s.sweep.sF ∧
  ((∃ g ∈ s.sweep.grants, s.priority g.channel ≠ .heavy) → s.granted ≤ s.sweep.sR)

/-- Outside AUTO no channel is granted or waits, and every channel is HUSHED or FAULTED (R138). -/
abbrev State.ClosedOutsideAuto (s : State) : Prop :=
  s.station.mode ≠ .auto →
    s.sweep.grants = [] ∧ s.sweep.waiting = [] ∧ ∀ ch ∈ s.sweep.channels, ch.state = .hushed ∨ ch.state = .faulted

/-- The sweep engine from `s` to `t` by a change to a mode other than AUTO (R138): every channel that is not FAULTED goes to HUSHED with
its valve closed, its timers stopped, its cursor none, its mark cleared and a pending swap taken, no channel is granted or waits, and
one G_t notice is sent when G_t has changed. The last grant funds stand (log 32). -/
abbrev State.Hushes (s t : State) : Prop :=
  t.sweep = { s.sweep with channels := t.sweep.channels, grants := [], waiting := [] } ∧
  t.sweep.channels.length = s.sweep.channels.length ∧
  t.water.gtNotices = s.water.gtNotices + (if s.granted = 0 then 0 else 1) ∧
  ∀ c ∈ s.channelNumbers,
    ((s.channel c).state = .faulted → t.channel c = s.channel c) ∧
    ((s.channel c).state ≠ .faulted → t.channel c = { s.channel c with
      state := .hushed, valve := false, slewTimer := none, valveTimer := none, dwellTimer := none, cursor := none, mark := false,
      bank := if (s.channel c).swapPending then s.sweep.requested else (s.channel c).bank, swapPending := false })

/-- The channels from `s` to `t` by the change to AUTO (R138): a HUSHED channel with an eligible leg goes WIND-HELD when U_eff is above its
cutoff, and else WAITING, where the grant scan of the same event may take it; one without goes IDLE; a FAULTED one stays. -/
abbrev State.Wakes (s t : State) : Prop :=
  ∀ c ∈ s.channelNumbers,
    let before := s.channel c
    let after := t.channel c
    let work := ∃ g ∈ s.plan c, g.minimum ≤ (s.finalLevel g.face).num
    let cutoff := (s.channelCfg c).cutoff
    (before.state = .hushed → ¬ work → after.state = .idle ∧ after.cursor = before.cursor) ∧
    (before.state = .hushed → work → cutoff < s.wind.uEff → after.state = .windHeld ∧ after.cursor = before.cursor) ∧
    (before.state = .hushed → work → s.wind.uEff ≤ cutoff →
      (after.state = .waiting ∧ after.cursor = before.cursor ∧ c ∈ t.sweep.waiting) ∨
      (after.state = .slewing ∧ after.cursor.isSome = true ∧ c ∈ t.sweep.grants.map Grant.channel)) ∧
    (before.state = .faulted → after.state = .faulted ∧ after.cursor = before.cursor ∧ after.bank = before.bank)

/-- No channel sprays, or is about to, at an aim inside an active arc (R122, R123, R134). -/
abbrev State.SprayClear (s : State) : Prop :=
  s.machines.arcs.map List.length = s.cfg.channels.map (fun ch => ch.shadow.length) ∧
  ∀ c ∈ s.channelNumbers,
    (s.channel c).state = .opening ∨ (s.channel c).state = .spraying
        ∨ ((s.channel c).state = .slewing ∧ (s.channel c).dryFlag = false) →
      ∀ a ∈ (s.channel c).aim, s.inActiveArc c a.1 = false

/-- The modes' own items: the remembered mode and the hush hold timer stand exactly while the mode is HUSHED (R173, R174). -/
abbrev State.HushTells (s : State) : Prop :=
  (s.station.remembered.isSome = true ↔ s.station.mode = .hushed) ∧
  (s.station.hushTimer.isSome = true ↔ s.station.mode = .hushed)

/-- No block has taken a value or started a timer since reset but for the period count: how the part stands through STARTING and in
FAULT (R18, R34, R54, R66, R79, R93, R114, R139, R158, R161, R168, R169). -/
abbrev State.BlocksAtRest (s : State) : Prop :=
  s.cfg = StationCfg.unloaded ∧ { s.wind with count := 0 } = Wind.reset ∧ s.forecast = Forecast.reset ∧
  s.risk = Risk.reset ∧ s.fence = Fence.reset ∧ s.machines = Machines.reset ∧ s.peers = Peers.reset ∧
  s.water = Water.reset ∧ s.sweep = Sweep.reset ∧ s.line = Line.reset ∧ s.dispatcher = Dispatcher.reset ∧
  s.station.listeningTimer = none ∧ s.station.hushTimer = none ∧ s.station.reportTimer = none

/-- `t` differs from `s` in the sweep engine and in the number of G_t notices waiting only: the reach of the sweep engine's events. -/
abbrev State.SweepOnly (s t : State) : Prop :=
  t = { s with sweep := t.sweep, water := { s.water with gtNotices := t.water.gtNotices } }

end Sys2Proof.Machine
end

