-- ==== Sys2Proof/Certificates/Slice0/Obligations.lean ====
section
/-! DEFINITION. The statements for the provers: what each command does, what it leaves, the rules of computation, and the invariants that
every step keeps. -/

open Sys2Proof Sys2Proof.Machine

/-! ## The step -/

/-- A step takes the command at the front of the queue and runs it on the state with the rest of the queue. -/
def Obligations.StepRunsFrontCommand : Prop :=
  ∀ (c : Instr) (rest : List Instr) (s : State),
    step { s with pending := c :: rest } = exec c { s with pending := rest }

/-- Every command completes in every state, and none touches the queue of waiting commands (00_scope.md; log 2). -/
def Obligations.EveryCommandCompletes : Prop :=
  ∀ (c : Instr) (s : State), ∃ t, exec c s = .next t ∧ t.pending = s.pending

/-! ## Reset, the load and FAULT (chapter 11) -/

/-- RESET, in every state: every block in its reset state with the mode STARTING, the outputs released and closed (R168, and the reset
tables of R18, R34, R54, R66, R79, R93, R114, R139, R158, R161; the reset values of log 4 are the model's choice and are not stated).
RESET_RELEASE, while reset is asserted: the load begins, with the memory selected and the read command 3 and a two-byte address of 0
sent (R169), each bit driven with the clock low and standing through its rising edge, most significant first; nothing else moves. -/
def Obligations.ResetAndItsRelease : Prop :=
  (∀ s : State, ∃ t, exec .reset s = .next t ∧ t.pending = s.pending ∧
    t.station.mode = .starting ∧ t.station.listeningTimer = none ∧ t.station.hushTimer = none ∧ t.station.reportTimer = none ∧
    t.station.target = .auto ∧ t.station.remembered = none ∧ t.station.page = 0 ∧ t.station.faultCode = none ∧
    t.station.breakRequest = false ∧ t.station.spiSelect = false ∧ t.faultOutput = false ∧ t.lineDriver = false ∧
    (∀ c, t.valveOutput c = false) ∧
    t.wind = ⟨0, none, [], 0, false, 0, 0, 0, 0, 0, .healthy, .failsafe, 0, .expired, 0⟩ ∧
    t.forecast = ⟨[none, none, none, none, none, none], [5, 4, 3, 2, 1, 0], none, none, none⟩ ∧
    t.risk.faces = [] ∧ t.risk.w = 0 ∧ t.risk.hw = 0 ∧ t.risk.flight = none ∧ t.risk.timer = none ∧ t.fence = ⟨[], []⟩ ∧
    t.machines.list = [] ∧ t.machines.refused = 0 ∧ t.peers = ⟨[], 0⟩ ∧
    t.water = ⟨0, 0, 0, 0, 0, false, true, none, 0, 0, 0, 0, 0, 0, 0⟩ ∧
    t.sweep.channels = [] ∧ t.sweep.grants = [] ∧ t.sweep.waiting = [] ∧ t.sweep.sR = 0 ∧ t.sweep.sF = 0 ∧
    t.sweep.lowRun = 0 ∧ t.sweep.pressureTimer = none ∧
    t.line.rx = .stopped ∧ t.line.gap = none ∧ t.line.run = .stopped ∧ t.line.slot = none ∧ t.line.sending = none ∧
    t.line.breakDriving = false ∧ t.line.noise = 0 ∧
    t.line.framing = 0 ∧ t.line.clashes = 0 ∧ t.line.superseded = 0 ∧ t.line.clashRun = 0 ∧ t.line.silence = none ∧
    t.dispatcher = ⟨[], 0, 0, 0⟩) ∧
  (∀ s : State, s.station.resetAsserted = true →
    exec .resetRelease s = .next { s with
      station := { s.station with resetAsserted := false, spiSelect := true, spiSent := [3#8, 0#8, 0#8] } }) ∧
  (∀ s : State, s.station.spiSent = [3#8, 0#8, 0#8] →
    s.spiOut = (List.replicate 6 false ++ [true, true] ++ List.replicate 16 false).flatMap
      (fun level => [⟨false, level⟩, ⟨true, level⟩]))

/-- LOAD_SUCCESS of a load in progress whose memory passes the nine stages: each block takes its values and the station enters LISTENING
(R54, R66, R79, R139, R158, R170); the forecast store, the peer table and the dispatcher are as they were, and so are W and H_w, which
stand at 0 with the blocks at rest (R54). -/
def Obligations.LoadSuccessEntersListening : Prop :=
  ∀ (memory : List Byte) (cfg : StationCfg) (s : State),
    s.station.mode = .starting → s.station.spiSelect = true → loadImage memory = .passes cfg →
    ∃ t, exec (.loadSuccess memory) s = .next t ∧ t.pending = s.pending ∧ t.cfg = cfg ∧
      t.station = { s.station with
        mode := .listening, spiSelect := false, target := .auto, listeningTimer := some (2 * cfg.period * 1000),
        reportTimer := some (cfg.id * 40) } ∧
      t.wind = { s.wind with count := 0, sampleTimer := some 2000 } ∧
      t.forecast = s.forecast ∧
      t.risk = { s.risk with
        faces := cfg.faces.map (fun f => ⟨f.moisture, 0, .quiet, false, .quiet, none⟩), timer := some (cfg.interval * 1000) } ∧
      (s.BlocksAtRest → t.risk.w = 0 ∧ t.risk.hw = 0 ∧ t.risk.flight = none) ∧
      t.fence = ⟨cfg.relations.map (fun _ => none), cfg.faces.map (fun _ => ⟨0, none⟩)⟩ ∧
      t.machines = { s.machines with
        kf := cfg.faces.map (fun _ => 64), arcs := cfg.channels.map (fun c => c.shadow.map (fun _ => false)) } ∧
      t.peers = s.peers ∧
      t.water = { s.water with timer := some (cfg.pondSilence * 1000), gtNotices := t.water.gtNotices } ∧
      t.sweep = { s.sweep with
        channels := cfg.channels.map (fun _ => { Channel.absent with state := .hushed, bank := cfg.bank }),
        grants := [], waiting := [], requested := cfg.bank, pressureTimer := some 1000 } ∧
      t.line = { s.line with rx := .awaitGap, gap := some 0, run := .absent } ∧
      t.dispatcher = s.dispatcher

/-- LOAD_FAILURE of a load in progress whose memory fails a stage: FAULT with the stage's code, one of 1 to 9, latched and its pattern
begun (R165, R169, R176); nothing else moves. That the pattern begins with an assertion is the model's reading of R176 (log 22), and
that the memory's select is released after stage 1 too is its choice (log 36). An image length below 52 or above 2200 fails stage 1, and so does a memory that does
not answer, whatever level its line idles at (R167, R169). -/
def Obligations.LoadFailureLatchesCode : Prop :=
  (∀ (memory : List Byte) (n : Nat) (s : State),
    s.station.mode = .starting → s.station.spiSelect = true → loadImage memory = .fails n →
    1 ≤ n ∧ n ≤ 9 ∧
    exec (.loadFailure memory) s = .next { s with
      station := { s.station with
        mode := .fault, spiSelect := false, faultCode := some n, patternPhase := 0, patternTimer := some 200 } }) ∧
  (∀ memory : List Byte, imageLength memory < 52 ∨ 2200 < imageLength memory → loadImage memory = .fails 1) ∧
  loadImage [] = .fails 1

/-- An image that passes the nine stages gives values in the ranges of R35, R56, R68, R95, R116, R118, R142 and R166: the station's, each
face's, each face map entry's with no reference twice, each relation's, each channel's with the bounds of its arcs, and each leg's
with the parameters that its pattern uses (8.2). -/
def Obligations.PassedImageIsInRange : Prop :=
  ∀ (memory : List Byte) (cfg : StationCfg), loadImage memory = .passes cfg →
    (1 ≤ cfg.id ∧ cfg.id ≤ 239) ∧ (1 ≤ cfg.divisor ∧ cfg.divisor ≤ 8191) ∧ 1 ≤ cfg.period ∧
    (1 ≤ cfg.pond ∧ cfg.pond ≤ 239 ∧ cfg.pond ≠ cfg.id) ∧ (1 ≤ cfg.gateway ∧ cfg.gateway ≤ 239) ∧
    (1 ≤ cfg.tWatch ∧ cfg.tWatch < cfg.tSpray ∧ cfg.tSpray < cfg.tHeavy ∧ cfg.tHeavy ≤ 992) ∧
    (cfg.hysteresis ≤ 63 ∧ cfg.hysteresis < cfg.tWatch) ∧ cfg.reserve ≤ 50 ∧ cfg.failsafe ≤ 600 ∧ cfg.defaultRh ≤ 100 ∧
    (5 ≤ cfg.interval ∧ cfg.interval ≤ 60) ∧ (15 ≤ cfg.lead ∧ cfg.lead ≤ 120) ∧
    (30 ≤ cfg.monitorSilence ∧ cfg.monitorSilence ≤ 300) ∧ (60 ≤ cfg.holdTime ∧ cfg.holdTime ≤ 1800) ∧
    (10 ≤ cfg.pondSilence ∧ cfg.pondSilence ≤ 120) ∧ (60 ≤ cfg.hushHold ∧ cfg.hushHold ≤ 900) ∧
    64 ≤ cfg.kReclaim ∧ 64 ≤ cfg.kStack ∧ cfg.collapse ≤ 1000 ∧ 1 ≤ cfg.aFactor ∧ cfg.aOffset ≤ 20 ∧
    cfg.turbidityLimit ≤ 1000 ∧ (1 ≤ cfg.faces.length ∧ cfg.faces.length ≤ 6) ∧
    (1 ≤ cfg.channels.length ∧ cfg.channels.length ≤ 4) ∧ cfg.faceMap.length ≤ 12 ∧ cfg.relations.length ≤ 8 ∧
    (∀ f ∈ cfg.faces, f.orientation ≤ 15 ∧ f.exposure.length = 16 ∧ (∀ e ∈ f.exposure, e ≤ 256) ∧
      10 ≤ f.threshold ∧ f.threshold ≤ 300 ∧ f.moisture ≤ 4095) ∧
    (∀ e ∈ cfg.faceMap, 1 ≤ e.index ∧ e.index ≤ cfg.faces.length) ∧
    (cfg.faceMap.map (fun e => (e.pile, e.face))).Nodup ∧
    (∀ e ∈ cfg.relations, 1 ≤ e.monitor ∧ e.monitor ≤ 239 ∧ e.monitor ≠ cfg.id ∧ e.faces < 2 ^ cfg.faces.length) ∧
    (cfg.relations.map Relation.monitor).Nodup ∧
    (∀ ch ∈ cfg.channels, 1 ≤ ch.flow ∧ 20 ≤ ch.cutoff ∧ ch.cutoff ≤ 600 ∧ ch.gain ≤ 100 ∧ 1 ≤ ch.weight ∧
      1 ≤ ch.valveTimeout ∧ ch.valveTimeout ≤ 10 ∧ 2 ≤ ch.slewTimeout ∧ ch.slewTimeout ≤ 30 ∧
      ch.shadow.length ≤ 16 ∧ ch.fixed.length ≤ 2 ∧
      (∀ e ∈ ch.shadow, e.arc.lo ≤ 3599 ∧ e.arc.hi ≤ 3599) ∧ (∀ r ∈ ch.fixed, r.lo ≤ 3599 ∧ r.hi ≤ 3599) ∧
      (1 ≤ ch.planA.length ∧ ch.planA.length ≤ 8) ∧ (1 ≤ ch.planB.length ∧ ch.planB.length ≤ 8) ∧
      ∀ g ∈ ch.planA ++ ch.planB, 1 ≤ g.face ∧ g.face ≤ cfg.faces.length ∧ 2 ≤ g.minimum ∧ g.minimum ≤ 4 ∧
        1 ≤ g.dwell ∧ g.dwell ≤ 60 ∧ g.e0 ≤ 600 ∧ 1 ≤ g.steps ∧
        (g.pattern = .hold → 1 ≤ g.count ∧ g.a0 ≤ 3599) ∧
        (g.pattern = .arc → 1 ≤ g.count ∧ g.a0 ≤ 3599 ∧ -900 ≤ g.aStep ∧ g.aStep ≤ 900) ∧
        (g.pattern = .raster → g.a0 ≤ 3599 ∧ -900 ≤ g.aStep ∧ g.aStep ≤ 900 ∧ 1 ≤ g.rows ∧ g.rows ≤ 15 ∧
          1 ≤ g.columns ∧ g.columns ≤ 17 ∧ -600 ≤ g.eStep ∧ g.eStep ≤ 600) ∧
        (g.pattern = .ring → 1 ≤ g.count ∧ g.ringBase ≤ 3599 ∧ 1 ≤ g.ringLength ∧ g.ringLength ≤ 3600 ∧
          -3599 ≤ g.ringStride ∧ g.ringStride ≤ 3599 ∧ 0 < g.ringStride.natAbs ∧ g.ringStride.natAbs < g.ringLength ∧
          g.ringBase ≤ g.a0 ∧ g.a0 < g.ringBase + g.ringLength))

/-- While the blocks stand at rest, in STARTING and in FAULT, every command leaves the part as it is but those of the reset input, the
load, the pulse input and the fault pattern: no timer runs, no frame is received or sent, no order is taken (R168, R169). In every
state, in FAULT no command but RESET changes the mode: "FAULT is left by reset alone" (R169). And on an empty queue a step is the
model's millisecond (log 1): n of them, from every state, leave STARTING as it is, run the fault pattern's phase down in FAULT, and in
the modes in which the blocks work run each timer down to 0, where it stays, and each age up to the age at which its next ageing event
falls due, where it stays; no command's effect comes of time alone. -/
def Obligations.RestAndFaultStandStill : Prop :=
  (∀ (c : Instr) (s : State), s.BlocksAtRest → s.station.mode = .starting ∨ s.station.mode = .fault →
    (match c with
      | .reset | .resetRelease | .loadSuccess _ | .loadFailure _ | .anemometerPulse | .faultPatternTick => True
      | _ => exec c s = .next s)) ∧
  (∀ (c : Instr) (s t : State), s.station.mode = .fault → c ≠ .reset → exec c s = .next t → t.station.mode = .fault) ∧
  (∀ s : State, s.pending = [] → step s = .next s.timePasses ∧ s.timePasses.pending = []) ∧
  (∀ (n : Nat) (s : State), s.station.mode = .starting → State.timePasses^[n] s = s) ∧
  (∀ (n : Nat) (s : State), s.station.mode = .fault →
    State.timePasses^[n] s = { s with station := { s.station with
      patternTimer := s.station.patternTimer.map (fun t => t - n) } }) ∧
  (∀ (n : Nat) (s : State), s.works = true → 1 ≤ n →
    let down (timer : Option Nat) : Option Nat := timer.map (fun t => t - n)
    State.timePasses^[n] s = { s with
      station := { s.station with
        listeningTimer := down s.station.listeningTimer, hushTimer := down s.station.hushTimer,
        reportTimer := down s.station.reportTimer },
      wind := { s.wind with
        sampleTimer := down s.wind.sampleTimer,
        heldTimer := match s.wind.heldTimer with | .running t => .running (t - n) | other => other },
      forecast := { s.forecast with advanceTimer := down s.forecast.advanceTimer },
      risk := { s.risk with
        timer := down s.risk.timer,
        faces := s.risk.faces.map (fun r => { r with override := r.override.map (fun o => ⟨o.level, down o.left⟩) }) },
      fence := {
        records := s.fence.records.map (fun r => r.map (fun m =>
          { m with age := min (s.cfg.monitorSilence * 1000) (m.age + n) })),
        held := s.fence.held.map (fun h => ⟨h.value, down h.timer⟩) },
      machines := { s.machines with
        list := s.machines.list.map (fun m => { m with age := min (if m.stale then 60000 else 10000) (m.age + n) }) },
      peers := { s.peers with
        list := s.peers.list.map (fun p =>
          { p with age := min (if p.stale then 6 * p.period * 1000 else 3 * p.period * 1000) (p.age + n) }) },
      water := { s.water with timer := down s.water.timer },
      sweep := { s.sweep with
        channels := s.sweep.channels.map (fun ch => { ch with
          slewTimer := down ch.slewTimer, valveTimer := down ch.valveTimer, dwellTimer := down ch.dwellTimer }),
        pressureTimer := down s.sweep.pressureTimer },
      line := { s.line with silence := down s.line.silence, joinOpen := false } })

/-! ## The wind unit (chapter 1) -/

/-- SAMPLE_CLOSE while the sample timer runs: the new sample is the count's speed (R2) with the vane's sector (R3), it joins the samples
present and replaces the oldest of a full ring (R4); mean, gust, local speed and sector are those of the samples present (R5, R6); the
zero run counts (R7). The sector notice (R16, R63): with another sector published every face's held escalation is compared with its
raw value under the new sector, by R61, and with the same sector the held escalations stand. Outside the wind unit only they, the
selection, the sweep engine and the G_t notices may move. -/
def Obligations.SampleCloseTakesSample : Prop :=
  ∀ (vane : BitVec 4) (s : State), s.wind.sampleTimer.isSome = true → s.wind.writeIndex < 30 →
    s.wind.ring.length = (if s.wind.full then 30 else s.wind.writeIndex) →
    ∃ t, exec (.sampleClose vane) s = .next t ∧
      t = { s with
        wind := t.wind, forecast := { s.forecast with selected := t.forecast.selected, recency := t.forecast.recency },
        fence := { s.fence with held := t.fence.held }, sweep := t.sweep,
        water := { s.water with gtNotices := t.water.gtNotices } } ∧
      t.wind.count = 0 ∧ t.wind.sampleTimer = some 2000 ∧
      t.wind.present = (if s.wind.full then s.wind.present.drop 1 else s.wind.present) ++
        [⟨if s.wind.count = 0 then 0 else min 600 (s.wind.count * s.cfg.aFactor / 256 + s.cfg.aOffset),
          [0, 1, 3, 2, 7, 6, 4, 5, 15, 14, 12, 13, 8, 9, 11, 10].getD vane.toNat 0⟩] ∧
      t.wind.writeIndex = (s.wind.writeIndex + 1) % 30 ∧
      t.wind.full = (s.wind.full || decide (s.wind.writeIndex = 29)) ∧
      t.wind.mean = (t.wind.present.map Sample.speed).sum / t.wind.present.length ∧
      (∀ x ∈ t.wind.present, x.speed ≤ t.wind.gust) ∧ (∃ x ∈ t.wind.present, x.speed = t.wind.gust) ∧
      t.wind.localSpeed = (3 * t.wind.mean + t.wind.gust) / 4 ∧
      t.wind.mean ≤ t.wind.localSpeed ∧ t.wind.localSpeed ≤ t.wind.gust ∧
      (∀ k, t.wind.present.countP (fun x => decide (x.sector = k)) ≤
        t.wind.present.countP (fun x => decide (x.sector = t.wind.sector))) ∧
      (∃ older x newer, t.wind.present = older ++ x :: newer ∧ x.sector = t.wind.sector ∧
        ∀ y ∈ newer, t.wind.present.countP (fun z => decide (z.sector = y.sector)) <
          t.wind.present.countP (fun z => decide (z.sector = t.wind.sector))) ∧
      t.wind.zeroRun = (if s.wind.count = 0 then min 150 (s.wind.zeroRun + 1) else 0) ∧
      (t.wind.sector = s.wind.sector → t.fence.held = s.fence.held) ∧
      (t.wind.sector ≠ s.wind.sector →
        t.fence.held = s.fence.held.mapIdx (fun k h => h.compare s.cfg.holdTime (t.rawEscalation (k + 1))))

/-- The health and the source that a SAMPLE_CLOSE publishes, by R8, R9 and the seven rows of R10 (R11 to R15), with the median of R12. The
neighbours within the radius and their speeds are those of the peer table at the close (R11). Row 3 and the rows after it come with a
selection of the forecast store, and at a close that row 1 or row 2 decides the store stays as it was (R13). A HELD source with an IDLE timer (log 24) is not stated. -/
def Obligations.SampleCloseDecidesSource : Prop :=
  (∀ l : List Nat, l ≠ [] →
    ∃ m : List Nat, List.Perm m l ∧ m.Pairwise (· ≤ ·) ∧ m[(l.length + 1) / 2 - 1]? = some (median l)) ∧
  (∀ (p : Peer) (s : State), s.nearby p = true ↔
    ((p.x : Int) - s.cfg.gridX) ^ 2 + ((p.y : Int) - s.cfg.gridY) ^ 2 ≤ (s.cfg.radius : Int) ^ 2) ∧
  (∀ s : State, s.neighbourSpeeds =
    (s.peers.list.filter (fun p => decide (p.stale = false ∧ p.source = .localWind) && s.nearby p)).map Peer.speed) ∧
  ∀ (vane : BitVec 4) (s : State), s.wind.sampleTimer.isSome = true →
    ∃ t, exec (.sampleClose vane) s = .next t ∧
      t.wind.health = (if s.wind.count ≠ 0 then .healthy
        else if t.wind.zeroRun = 150 ∧ (∃ p ∈ s.peers.list, p.stale = false ∧ s.nearby p = true ∧ 30 ≤ p.speed) then .stuck
        else s.wind.health) ∧
      t.forecast = (if t.wind.health = .stuck ∧ s.neighbourSpeeds = [] then s.selectForecast.forecast else s.forecast) ∧
      (t.wind.health = .healthy →
        t.wind.source = .localWind ∧ t.wind.uEff = t.wind.localSpeed ∧ t.wind.heldTimer = .idle) ∧
      (t.wind.health = .stuck → s.neighbourSpeeds ≠ [] →
        t.wind.source = .peer ∧ t.wind.uEff = median s.neighbourSpeeds ∧ t.wind.heldTimer = .idle) ∧
      (t.wind.health = .stuck → s.neighbourSpeeds = [] → ∀ slot, s.selectForecast.currentSlot = some slot →
        t.wind.source = .forecast ∧ t.wind.uEff = (3 * slot.mean + slot.gust) / 4 ∧ t.wind.heldTimer = .idle) ∧
      (t.wind.health = .stuck → s.neighbourSpeeds = [] → s.selectForecast.currentSlot = none →
        (s.wind.source = .localWind ∨ s.wind.source = .peer ∨ s.wind.source = .forecast →
          t.wind.source = .held ∧ t.wind.heldValue = s.wind.uEff ∧ t.wind.uEff = s.wind.uEff ∧
            t.wind.heldTimer = .running 600000) ∧
        (∀ n, s.wind.source = .held → s.wind.heldTimer = .running n →
          t.wind.source = .held ∧ t.wind.uEff = s.wind.heldValue ∧ t.wind.heldTimer = .running n) ∧
        (s.wind.source = .held → s.wind.heldTimer = .expired → t.wind.source = .failsafe ∧ t.wind.uEff = s.cfg.failsafe) ∧
        (s.wind.source = .failsafe → t.wind.source = .failsafe ∧ t.wind.uEff = s.cfg.failsafe))

/-- SAMPLE_CLOSE at the sweep engine (R133): a channel that waits or holds a grant goes WIND-HELD when the U_eff just published is above
its cutoff, with its valve closed, its timers stopped and its cursor kept, out of both lists; a WIND-HELD channel leaves only with
U_eff 10 or more below its cutoff, to wait or be granted with an eligible leg and to IDLE without; in every other state, and at or
below its cutoff without the scan granting it, a channel stays. -/
def Obligations.SampleCloseHoldsForWind : Prop :=
  ∀ (vane : BitVec 4) (s : State), s.wind.sampleTimer.isSome = true → s.OrdersTell →
    ∃ t, exec (.sampleClose vane) s = .next t ∧ ∀ c, c < s.sweep.channels.length →
      let before := s.channel c
      let after := t.channel c
      let cutoff := (s.channelCfg c).cutoff
      (before.state.waits = true ∨ before.state.runs = true → cutoff < t.wind.uEff →
        after.state = .windHeld ∧ after.valve = false ∧ after.slewTimer = none ∧ after.valveTimer = none ∧
        after.dwellTimer = none ∧ after.cursor = before.cursor ∧ c ∉ t.sweep.waiting ∧
        ∀ g ∈ t.sweep.grants, g.channel ≠ c) ∧
      (before.state.runs = true → t.wind.uEff ≤ cutoff →
        after.state = before.state ∧ after.cursor = before.cursor ∧ after.aim = before.aim ∧
        c ∈ t.sweep.grants.map Grant.channel) ∧
      (before.state.waits = true → t.wind.uEff ≤ cutoff → after.state = before.state ∨ after.state = .slewing) ∧
      (before.state = .windHeld → cutoff < t.wind.uEff + 10 → after.state = .windHeld ∧ after.cursor = before.cursor) ∧
      (before.state = .windHeld → t.wind.uEff + 10 ≤ cutoff →
        (s.hasWork c = true → after.state = .waiting ∨ after.state = .slewing) ∧
        (s.hasWork c = false → after.state = .idle)) ∧
      (before.state = .idle ∨ before.state = .faulted ∨ before.state = .hushed →
        after.state = before.state ∧ after.cursor = before.cursor)

/-- Four commands that only mark: ANEMOMETER_PULSE raises the period count by one, saturating at 65535 (R2; that it counts in every mode
but FAULT and not while reset is asserted is the model's reading of R18, log 21); HELD_TIMER_EXPIRY makes the running held timer
EXPIRED (R15); OVERRIDE_EXPIRY makes a face's override whose countdown has run out expired,
with no time left, and leaves one with time left as it is, as after a FORCE order (R45, R47); SELF_SILENCE_EXPIRY ends the self-silence
(R152). Nothing else moves. -/
def Obligations.PulsesAndExpiriesMark : Prop :=
  (∀ s : State, s.station.resetAsserted = false → s.station.mode ≠ .fault →
    exec .anemometerPulse s = .next { s with wind := { s.wind with count := min 65535 (s.wind.count + 1) } }) ∧
  (∀ (n : Nat) (s : State), s.wind.heldTimer = .running n →
    exec .heldTimerExpiry s = .next { s with wind := { s.wind with heldTimer := .expired } }) ∧
  (∀ (face : Nat) (s : State), 1 ≤ face → face ≤ s.risk.faces.length →
    ∃ t, exec (.overrideExpiry face) s = .next t ∧ t = { s with risk := { s.risk with faces := t.risk.faces } } ∧
      t.risk.faces.length = s.risk.faces.length ∧
      ∀ (i : Nat) (r : FaceRecord), s.risk.faces[i]? = some r → t.risk.faces[i]? = some
        (if i + 1 = face then { r with override := r.override.map (fun o => if o.left = some 0 then ⟨o.level, none⟩ else o) }
          else r)) ∧
  (∀ s : State, s.line.silence.isSome = true →
    exec .selfSilenceExpiry s = .next { s with line := { s.line with silence := none } })

/-! ## The forecast store and the yard clock (chapter 2) -/

/-- DISPATCH_FORECAST of a frame with its fields in range: the clock is set and its timer restarted whatever becomes of the window (R31),
and the window, its slots clamped (R19), goes into one place, which takes the front of the recency order with the rest of the order
and the other five places as they were (R20). That place is the one that holds a window of the same gateway and issue time (R22), and
while that window is the locked one the store stays as it is (R21). Without one it is the least recent empty place, else the least
recent of the unlocked that hold an expired window, else the least recent of the unlocked (R23). The selection stays. A frame out of
range changes nothing but the queue (R19). -/
def Obligations.DispatchForecastStores : Prop :=
  ∀ (f : Frame) (s : State), s.works = true → s.oldestFree = some f → f.valid = true → f.kind = 6 → f.sender ≠ s.cfg.id →
    s.StoreHolds →
    let now := f.payload 9 3
    let w : Window := ⟨f.payload 0 1, f.payload 1 3, f.payload 4 3, f.payload 7 1,
      (List.range (f.payload 8 1)).map (fun k =>
        ⟨min 600 (f.payload (12 + 6 * k) 2), min 600 (f.payload (14 + 6 * k) 2),
          if f.payload (16 + 6 * k) 1 = 255 then 255 else min 15 (f.payload (16 + 6 * k) 1),
          min 100 (f.payload (17 + 6 * k) 1)⟩)⟩
    let clocked : Forecast := { s.forecast with clock := some now, advanceTimer := some 1000 }
    let put (p : Nat) : Forecast := { clocked with
      places := s.forecast.places.set p (some w), recency := p :: s.forecast.recency.filter (fun q => q ≠ p) }
    let place (q : Nat) : Option Window := (s.forecast.places[q]?).join
    let like (q : Nat) : Prop := ∃ v, place q = some v ∧ v.gateway = w.gateway ∧ v.issue = w.issue
    let empty (q : Nat) : Prop := q < 6 ∧ place q = none
    let unlocked (q : Nat) : Prop := q < 6 ∧ s.forecast.selected ≠ some q
    let spent (q : Nat) : Prop := unlocked q ∧ ∃ v, place q = some v ∧ v.expired now = true
    let leastRecent (kind : Nat → Prop) (p : Nat) : Prop :=
      kind p ∧ ∀ q, kind q → s.forecast.recency.idxOf q ≤ s.forecast.recency.idxOf p
    ∃ t, exec .dispatchForecast s = .next t ∧
      t = { s with
        forecast := t.forecast,
        dispatcher := { s.dispatcher with queue := s.dispatcher.queue.eraseP (fun g => !s.holds g) } } ∧
      (1 ≤ f.payload 0 1 ∧ f.payload 0 1 ≤ 239 ∧ f.payload 1 3 < 86400 ∧ f.payload 4 3 < 86400 ∧ f.payload 9 3 < 86400 ∧
          5 ≤ f.payload 7 1 ∧ f.payload 7 1 ≤ 60 →
        (∀ p, like p → (∀ q, like q → s.forecast.recency.idxOf p ≤ s.forecast.recency.idxOf q) →
          (s.forecast.selected = some p → t.forecast = clocked) ∧ (s.forecast.selected ≠ some p → t.forecast = put p)) ∧
        ((∀ q, ¬ like q) →
          (∃ p, t.forecast = put p ∧
            (leastRecent empty p ∨ ((∀ q, ¬ empty q) ∧ leastRecent spent p) ∨
              ((∀ q, ¬ empty q) ∧ (∀ q, ¬ spent q) ∧ leastRecent unlocked p)))) ∧
        t.forecast.clock = some now ∧ t.forecast.advanceTimer = some 1000 ∧ t.forecast.selected = s.forecast.selected ∧
        (∀ p ∈ s.forecast.selected, t.forecast.window p = s.forecast.window p)) ∧
      (f.payload 0 1 = 0 ∨ 239 < f.payload 0 1 ∨ 86400 ≤ f.payload 1 3 ∨ 86400 ≤ f.payload 4 3 ∨ 86400 ≤ f.payload 9 3 ∨
          f.payload 7 1 < 5 ∨ 60 < f.payload 7 1 →
        t.forecast = s.forecast)

/-- YARD_CLOCK_ADVANCE of a set clock, its advance timer expired: one second on, modulo 86400, with the timer restarted (R32); the advance
from 86399 is the day roll, which zeroes both volumes and remainders and touches nothing else of the water share unit (R33, R110).
While the clock is UNSET, and with the timer not expired, as after a setting at the same instant, there is no advance. -/
def Obligations.YardClockAdvances : Prop :=
  (∀ s : State, s.forecast.clock = none ∨ s.forecast.advanceTimer ≠ some 0 → exec .yardClockAdvance s = .next s) ∧
  ∀ (now : Nat) (s : State), s.forecast.clock = some now → s.forecast.advanceTimer = some 0 →
    exec .yardClockAdvance s = .next { s with
      forecast := { s.forecast with clock := some ((now + 1) % 86400), advanceTimer := some 1000 },
      water := if now = 86399 then { s.water with reuse := 0, reuseRem := 0, fresh := 0, freshRem := 0 } else s.water }

/-- A selection (R26, R27): the window selected covers the present and is not expired; it is the primary gateway's unless no such window
is; none of its class is younger, and those as young stood behind it in the recency order, whose front it takes. With nothing
selected no window covers the present unexpired, and while the clock is UNSET a selection selects nothing (R26, R30). A window covers the times less than its span after its valid-from (R24); it is expired
when issued more than 43200 s ago, or when it does not cover the present and its valid-from lies at most 43200 s back (R25). The selection's reader gets the slots that cover the present and the present plus the lead (R28), or none. -/
def Obligations.SelectionTakesYoungest : Prop :=
  (∀ (w : Window) (now : Nat),
    let since (start : Nat) : Nat := (((now : Int) - start) % 86400).toNat
    (w.covers now = true ↔ since w.validFrom < w.slots.length * w.slotLength * 60) ∧ w.issueAge now = since w.issue ∧
    (w.expired now = true ↔ 43200 < since w.issue ∨ (w.covers now = false ∧ since w.validFrom ≤ 43200))) ∧
  (∀ (now p : Nat) (w : Window) (s : State), s.forecast.clock = some now → s.forecast.selected = some p →
    s.forecast.window p = some w →
    let slot (time : Nat) : Option Slot :=
      if w.covers time then w.slots[(((time : Int) - w.validFrom) % 86400).toNat / (w.slotLength * 60)]? else none
    s.currentSlot = slot now ∧ s.lookAheadSlot = slot ((now + s.cfg.lead * 60) % 86400)) ∧
  (∀ s : State, s.forecast.clock = none ∨ s.forecast.selected = none → s.currentSlot = none ∧ s.lookAheadSlot = none) ∧
  (∀ s : State, s.forecast.clock = none → s.selectForecast = { s with forecast := { s.forecast with selected := none } }) ∧
  ∀ (now : Nat) (s : State), s.forecast.clock = some now → s.StoreHolds →
    (s.selectForecast.forecast.selected = none →
      ∀ p w, s.forecast.window p = some w → ¬ (w.covers now = true ∧ w.expired now = false)) ∧
    (∀ p, s.selectForecast.forecast.selected = some p →
      s.selectForecast.forecast.recency = p :: s.forecast.recency.filter (fun q => q ≠ p) ∧
      ∃ w, s.forecast.window p = some w ∧ w.covers now = true ∧ w.expired now = false ∧
        ∀ q v, s.forecast.window q = some v → v.covers now = true → v.expired now = false →
          (v.gateway = s.cfg.gateway → w.gateway = s.cfg.gateway) ∧
          ((v.gateway = s.cfg.gateway ↔ w.gateway = s.cfg.gateway) →
            w.issueAge now ≤ v.issueAge now ∧
            (w.issueAge now = v.issueAge now → s.forecast.recency.idxOf p ≤ s.forecast.recency.idxOf q)))

/-! ## The risk engine (chapter 3) -/

/-- EVALUATION_TIMER_EXPIRY restarts the timer (R36). With an evaluation in flight that is all; without one, expired overrides leave, the
store selects, and the snapshot is taken whole (R37). -/
def Obligations.EvaluationTimerStarts : Prop :=
  (∀ (snap : Snapshot) (s : State), s.risk.timer.isSome = true → s.risk.flight = some snap →
    exec .evaluationTimerExpiry s = .next { s with risk := { s.risk with timer := some (s.cfg.interval * 1000) } }) ∧
  (∀ s : State, s.risk.timer.isSome = true → s.risk.flight = none →
    ∃ t snap, exec .evaluationTimerExpiry s = .next t ∧
      t = { s with
        forecast := s.selectForecast.forecast,
        risk := { s.risk with
          timer := some (s.cfg.interval * 1000), flight := some snap,
          faces := s.risk.faces.map (fun r => { r with override := r.override.filter (fun o => o.left ≠ none) }) } } ∧
      snap.uEff = s.wind.uEff ∧ snap.sector = s.wind.sector ∧ snap.current = s.selectForecast.currentSlot ∧
      snap.lookAhead = s.selectForecast.lookAheadSlot ∧
      snap.rh = (match snap.current with | some slot => slot.rh | none => s.cfg.defaultRh) ∧
      snap.faces.length = s.risk.faces.length ∧
      ∀ (i : Nat) (r : FaceRecord) (k : Nat) (h : Held),
        s.risk.faces[i]? = some r → s.machines.kf[i]? = some k → s.fence.held[i]? = some h →
        snap.faces[i]? = some (FaceSnapshot.mk r.moisture k h.value
          ((r.override.filter (fun o => decide (o.left ≠ none))).map Override.level)))

/-- EVALUATION_COMPLETION of the evaluation in flight, in either order of its notices: each face by R48 in terms of the snapshot, W and
H_w by R50, and nothing outside the risk engine, the shares, the sweep engine and the G_t notices (R38, R42 to R51). The weight notice
(R50): the shares are computed anew exactly when W or H_w differs from before, from the new weights, before the level notice or from
the state that it leaves (the operand, log 6), and handed over; otherwise both units keep the shares they hold. -/
def Obligations.EvaluationCompletes : Prop :=
  ∀ (weightsFirst : Bool) (snap : Snapshot) (s : State), s.risk.flight = some snap →
    ∃ t, exec (.evaluationCompletion weightsFirst) s = .next t ∧
      t = { s with
        risk := t.risk, sweep := t.sweep,
        water := { s.water with sR := t.water.sR, sF := t.water.sF, gtNotices := t.water.gtNotices } } ∧
      t.risk.flight = none ∧ t.risk.timer = s.risk.timer ∧ t.risk.faces.length = s.risk.faces.length ∧
      (∀ (i : Nat) (r : FaceRecord) (f : FaceCfg) (fs : FaceSnapshot), s.risk.faces[i]? = some r →
          s.cfg.faces[i]? = some f → snap.faces[i]? = some fs →
        ∃ r' : FaceRecord, t.risk.faces[i]? = some r' ∧
          r'.eri = f.eri snap.uEff snap.sector fs.moisture fs.kf ∧
          r'.base = s.cfg.baseLevel r'.eri r.base ∧
          (r'.prewet = true ↔ r'.base.num < 3 ∧ ∃ slot, snap.lookAhead = some slot ∧
            let e := f.eri ((3 * slot.mean + slot.gust) / 4) (if slot.sector = 255 then snap.sector else slot.sector)
              fs.moisture fs.kf
            s.cfg.tSpray ≤ e ∨ (r.prewet = true ∧ s.cfg.tSpray - s.cfg.hysteresis ≤ e)) ∧
          (∀ l, fs.override = some l → r'.level = l) ∧
          (fs.override = none → r'.level = escalated (if r'.prewet then .prewet else r'.base) fs.escalation) ∧
          r'.moisture = r.moisture - (f.evaporation * (100 - snap.rh) / 100 + snap.uEff / 32) ∧
          r'.override = r.override) ∧
      (∀ r ∈ t.risk.faces, 2 ≤ r.level.num → r.eri ≤ t.risk.w) ∧
      (t.risk.w = 0 ∨ ∃ r ∈ t.risk.faces, 2 ≤ r.level.num ∧ r.eri = t.risk.w) ∧
      (∀ r ∈ t.risk.faces, r.level = .heavy → r.eri ≤ t.risk.hw) ∧
      (t.risk.hw = 0 ∨ ∃ r ∈ t.risk.faces, r.level = .heavy ∧ r.eri = t.risk.hw) ∧
      (t.risk.w = s.risk.w ∧ t.risk.hw = s.risk.hw →
        t.water.sR = s.water.sR ∧ t.water.sF = s.water.sF ∧ t.sweep.sR = s.sweep.sR ∧ t.sweep.sF = s.sweep.sF) ∧
      (¬ (t.risk.w = s.risk.w ∧ t.risk.hw = s.risk.hw) → s.OrdersTell →
        let noticed : State := if weightsFirst then s.setRisk t.risk else State.levelNotice s (s.setRisk t.risk)
        t.water.sR = noticed.reuseShare ∧ t.water.sF = noticed.freshShare ∧
        t.sweep.sR = t.water.sR ∧ t.sweep.sF = t.water.sF)

/-- The wind, excess and weighting stages (R39, R40): the excess, the three truncated products, their bounds for values in the ranges of
3.1, and the cases in which they are 0. The ERI is the scaling of the last product. -/
def Obligations.WeightingStages : Prop :=
  ∀ (f : FaceCfg) (u sector m k : Nat),
    let q := if u ≤ f.threshold then 0 else u * (u ^ 2 - f.threshold ^ 2)
    let e := f.exposure.getD (((sector : Int) - (f.orientation : Int)) % 16).toNat 0
    let d := (4095 - m) / 16
    let p1 := q * e / 256
    let p2 := p1 * d / 256
    let p3 := p2 * k / 64
    f.eri u sector m k = scaled p3 ∧
    (k = 64 → p3 = p2) ∧ (e = 0 ∨ 4080 ≤ m ∨ u ≤ f.threshold → p3 = 0) ∧
    (u ≤ 600 → 10 ≤ f.threshold → e ≤ 256 → k ≤ 255 →
      q ≤ 215940000 ∧ p1 ≤ q ∧ d ≤ 255 ∧ (0 < p1 → p2 < p1) ∧ p2 ≤ p1 ∧
        p3 ≤ p2 * 255 / 64 ∧ p3 < 861000000 ∧ p3 < 2 ^ 31)

/-- The scaling stage (R41): 0 for 0, else p × 32 + m + 1 with p the integer part of the base-two logarithm and m the five bits below the
leading one, 1 for a product of 1; the ERI never falls as the product rises, is at most 960 for a product below 861,000,000, never
exceeds 992, is at most 948 in the widest configured ranges, and is 0 whenever U is at or below U_t. -/
def Obligations.ScalingStage : Prop :=
  scaled 0 = 0 ∧ scaled 1 = 1 ∧
  (∀ p3, 0 < p3 → p3 < 2 ^ 31 →
    scaled p3 = Nat.log 2 p3 * 32 + p3 * 2 ^ (30 - Nat.log 2 p3) / 2 ^ 25 % 32 + 1) ∧
  (∀ p3, scaled p3 ≤ 992) ∧ (∀ p3, 0 < p3 → 1 ≤ scaled p3) ∧ (∀ p3, p3 < 861000000 → scaled p3 ≤ 960) ∧
  (∀ a b, a ≤ b → b < 2 ^ 31 → scaled a ≤ scaled b) ∧
  (∀ (f : FaceCfg) (u sector m k : Nat),
    (u ≤ f.threshold → f.eri u sector m k = 0) ∧
    (u ≤ 600 → 10 ≤ f.threshold → (∀ e ∈ f.exposure, e ≤ 256) → k ≤ 255 → f.eri u sector m k ≤ 948))

/-- The base level (R42): it rises to a higher band at once, stays in an equal one, and below it stays while the ERI is at or above the
falling threshold of the present base level and else falls to the band; it is never PREWET; with H = 0 it is the band, and within the
ranges of R35 an ERI of 0 brings it to QUIET. Escalation (R44) raises by e_f up to HEAVY, by the table, and never gives PREWET when
e_f is above 0. -/
def Obligations.LevelsRiseAndFall : Prop :=
  (∀ (cfg : StationCfg) (eri : Nat) (before : Level), before ≠ .prewet →
    let band : Level := if cfg.tHeavy ≤ eri then .heavy else if cfg.tSpray ≤ eri then .spray
      else if cfg.tWatch ≤ eri then .watch else .quiet
    let falling := match before with
      | .heavy => cfg.tHeavy - cfg.hysteresis
      | .spray => cfg.tSpray - cfg.hysteresis
      | .watch => cfg.tWatch - cfg.hysteresis
      | .prewet | .quiet => 0
    cfg.baseLevel eri before ≠ .prewet ∧
    (before.num ≤ band.num → cfg.baseLevel eri before = band) ∧
    (band.num < before.num → cfg.baseLevel eri before = if falling ≤ eri then before else band) ∧
    (before ≠ .quiet → cfg.hysteresis < cfg.tWatch → cfg.tWatch < cfg.tSpray → cfg.tSpray < cfg.tHeavy → 1 ≤ falling) ∧
    (cfg.hysteresis = 0 → cfg.tWatch < cfg.tSpray → cfg.tSpray < cfg.tHeavy → cfg.baseLevel eri before = band) ∧
    (eri = 0 → cfg.hysteresis < cfg.tWatch → cfg.tWatch < cfg.tSpray → cfg.tSpray < cfg.tHeavy →
      cfg.baseLevel eri before = .quiet)) ∧
  (∀ l : Level, escalated l 0 = l ∧ escalated l 1 ≠ .prewet ∧ escalated l 2 ≠ .prewet) ∧
  [Level.quiet, .watch, .prewet, .spray, .heavy].map (fun l => (escalated l 1, escalated l 2)) =
    [(.watch, .spray), (.spray, .spray), (.spray, .heavy), (.heavy, .heavy), (.heavy, .heavy)]

/-! ## The fence response unit (chapter 4) -/

/-- The recomputation that DISPATCH_MONITOR (R57), MONITOR_SILENCE_CROSSING (R58) and HOLD_EXPIRY (R62) end with: every face's raw value
against its held value by R61, with the expiring face taking its raw value. The monitor's record is stored clamped, or falls SILENT at
the silence limit, keeping its state, PM10 mean and age; before the limit, as after a store, no crossing occurs, and no hold expiry while
the face's timer has not run out, as when another event has stopped or restarted it. A frame without an
entry, or with a state above 2, changes nothing but the queue, which every frame leaves (R162). Nothing else moves. -/
def Obligations.EscalationIsRecomputed : Prop :=
  (∀ (f : Frame) (i : Nat) (s : State), s.works = true → s.oldestFree = some f → f.valid = true → f.kind = 2 →
    f.sender ≠ s.cfg.id → s.cfg.relations.findIdx? (fun e => decide (e.monitor = f.sender)) = some i → f.payload 2 1 ≤ 2 →
    ∃ t, exec .dispatchMonitor s = .next t ∧
      t = { s with
        fence := ⟨s.fence.records.set i (some ⟨if f.payload 2 1 = 0 then .normal else if f.payload 2 1 = 1 then .alert else .alarm,
          min 9999 (f.payload 0 2), 0, false⟩), t.fence.held⟩,
        dispatcher := { s.dispatcher with queue := s.dispatcher.queue.eraseP (fun g => !s.holds g) } } ∧
      t.fence.held = s.fence.held.mapIdx (fun k h => h.compare s.cfg.holdTime (t.rawEscalation (k + 1)))) ∧
  (∀ (f : Frame) (s : State), s.works = true → s.oldestFree = some f → f.valid = true → f.kind = 2 → f.sender ≠ s.cfg.id →
    s.cfg.relations.findIdx? (fun e => decide (e.monitor = f.sender)) = none ∨ 2 < f.payload 2 1 →
    ∃ t, exec .dispatchMonitor s = .next t ∧
      t = { s with dispatcher := { s.dispatcher with queue := s.dispatcher.queue.eraseP (fun g => !s.holds g) } }) ∧
  (∀ (id i : Nat) (m : MonitorRecord) (s : State), s.cfg.relations.findIdx? (fun e => decide (e.monitor = id)) = some i →
    s.fence.records[i]? = some (some m) → m.silent = false → s.cfg.monitorSilence * 1000 ≤ m.age →
    ∃ t, exec (.monitorSilenceCrossing id) s = .next t ∧
      t = { s with fence := ⟨s.fence.records.set i (some { m with silent := true }), t.fence.held⟩ } ∧
      t.fence.held = s.fence.held.mapIdx (fun k h => h.compare s.cfg.holdTime (t.rawEscalation (k + 1)))) ∧
  (∀ (id : Nat) (s : State),
    (∀ (i : Nat) (m : MonitorRecord), s.cfg.relations.findIdx? (fun e => decide (e.monitor = id)) = some i →
      s.fence.records[i]? = some (some m) → m.silent = true ∨ m.age < s.cfg.monitorSilence * 1000) →
    exec (.monitorSilenceCrossing id) s = .next s) ∧
  (∀ (face : Nat) (s : State), (∀ h : Held, s.fence.held[face - 1]? = some h → h.timer ≠ some 0) →
    exec (.holdExpiry face) s = .next s) ∧
  (∀ (face : Nat) (h : Held) (s : State), 1 ≤ face → s.fence.held[face - 1]? = some h → h.timer = some 0 →
    ∃ t, exec (.holdExpiry face) s = .next t ∧
      t = { s with fence := { s.fence with held := s.fence.held.mapIdx (fun k h =>
        if k + 1 = face then ⟨s.rawEscalation face, none⟩ else h.compare s.cfg.holdTime (s.rawEscalation (k + 1))) } })

/-- The raw escalation of R59 and R60: the largest contribution of a present, CURRENT record whose entry names the face and holds the wind
sector in its upwind set: ALARM 2, ALERT 1, NORMAL 0. The comparison of R61: a higher raw value is taken at once, an equal one stops
the timer, a lower one starts a stopped timer with the hold time and leaves a running one. -/
def Obligations.RawEscalationIsLargest : Prop :=
  (∀ (face : Nat) (s : State),
    (∀ (i : Nat) (e : Relation) (m : MonitorRecord), s.cfg.relations[i]? = some e →
      s.fence.records[i]? = some (some m) → m.silent = false →
      e.faces.testBit (face - 1) = true → e.upwind.testBit s.wind.sector = true →
      (match m.state with | .normal => 0 | .alert => 1 | .alarm => 2) ≤ s.rawEscalation face) ∧
    s.rawEscalation face ≤ 2 ∧
    (s.rawEscalation face = 0 ∨ ∃ (i : Nat) (e : Relation) (m : MonitorRecord), s.cfg.relations[i]? = some e ∧ s.fence.records[i]? = some (some m) ∧
      m.silent = false ∧ e.faces.testBit (face - 1) = true ∧ e.upwind.testBit s.wind.sector = true ∧
      s.rawEscalation face = match m.state with | .normal => 0 | .alert => 1 | .alarm => 2)) ∧
  (∀ (holdTime r : Nat) (h : Held),
    (h.value < r → h.compare holdTime r = ⟨r, none⟩) ∧ (r = h.value → h.compare holdTime r = ⟨r, none⟩) ∧
    (r < h.value → h.compare holdTime r = ⟨h.value, some (h.timer.getD (holdTime * 1000))⟩))

/-! ## The machine unit (chapter 5) -/

/-- DISPATCH_MACHINE of a frame taken in (R69, R70): an update overwrites its record, a newcomer enters while there is room, a full list
gives up its STALE record of greatest age, in seconds 0 to 59 (5.1), and lowest id, and with all eight FRESH the newcomer is refused and
counted. A frame whose activity does not suit its kind changes nothing but the queue, which every frame leaves (R162). With each store K_f and the arcs are recomputed (R73, R74, R76), and a
channel that gained an ACTIVE arc is noticed (R77): with its aim inside an active arc (R75) it goes from SPRAYING or OPENING to DRY,
its valve closed, and takes the dry flag in SLEWING; in every other state, with its aim outside, and without a notice, a channel stays
as it was (R134). Nothing else moves. -/
def Obligations.DispatchMachineStores : Prop :=
  (∀ (r : Arc) (a : Nat), r.contains a = true ↔ ((a : Int) - r.lo) % 3600 ≤ ((r.hi : Int) - r.lo) % 3600) ∧
  (∀ (c a : Nat) (s : State), s.inActiveArc c a = true ↔
    (∃ r ∈ (s.channelCfg c).fixed, r.contains a = true) ∨
    ∃ (k : Nat) (e : Shadow), (s.channelCfg c).shadow[k]? = some e ∧ (s.machines.arcs.getD c [])[k]? = some true ∧
      e.arc.contains a = true) ∧
  ∀ (f : Frame) (s : State), s.works = true → s.oldestFree = some f → f.valid = true → f.kind = 3 → f.sender ≠ s.cfg.id →
    s.ListsHold →
    ∃ t, exec .dispatchMachine s = .next t ∧
      t = { s with
        machines := t.machines, sweep := t.sweep,
        dispatcher := { s.dispatcher with queue := s.dispatcher.queue.eraseP (fun g => !s.holds g) } } ∧
      (2 < f.payload 0 1 ∨ 3 < f.payload 3 1 ∨ (f.payload 0 1 = 0 ∧ f.payload 3 1 = 3) ∨
          (f.payload 0 1 = 1 ∧ f.payload 3 1 = 2) → t.machines = s.machines ∧ t.sweep = s.sweep) ∧
      (f.payload 0 1 ≤ 2 → f.payload 3 1 ≤ 3 → ¬ (f.payload 0 1 = 0 ∧ f.payload 3 1 = 3) →
          ¬ (f.payload 0 1 = 1 ∧ f.payload 3 1 = 2) →
        let r : MachineRecord := ⟨f.sender, machineKind (f.payload 0 1), f.payload 1 1, f.payload 2 1,
          activityOf (f.payload 3 1), f.payload 4 1, f.payload 5 1, 0, false⟩
        let known := ∃ m ∈ s.machines.list, m.id = f.sender
        let age (m : MachineRecord) : Nat := min 59 (m.age / 1000)
        let stale := ∃ m ∈ s.machines.list, m.stale = true
        (known ∨ s.machines.list.length < 8 →
          t.machines.refused = s.machines.refused ∧
          ∀ m, m ∈ t.machines.list ↔ m = r ∨ (m ∈ s.machines.list ∧ m.id ≠ f.sender)) ∧
        (¬ known → s.machines.list.length = 8 → stale →
          t.machines.refused = s.machines.refused ∧
          ∃ v ∈ s.machines.list, v.stale = true ∧
            (∀ m ∈ s.machines.list, m.stale = true →
              age m < age v ∨ (age m = age v ∧ v.id ≤ m.id)) ∧
            ∀ m, m ∈ t.machines.list ↔ m = r ∨ (m ∈ s.machines.list ∧ m.id ≠ v.id)) ∧
        (¬ known → s.machines.list.length = 8 → ¬ stale →
          t.machines = { s.machines with refused := min 255 (s.machines.refused + 1) } ∧ t.sweep = s.sweep) ∧
        (known ∨ s.machines.list.length < 8 ∨ stale →
          t.machines.kf = (List.range s.cfg.faces.length).map (fun i => t.disturbance (i + 1)) ∧
          t.machines.arcs = s.cfg.channels.map (fun ch => ch.shadow.map (fun e =>
            t.machines.list.any (fun m => decide (m.x = e.x) && decide (m.y = e.y)))))) ∧
      t.sweep = { s.sweep with channels := t.sweep.channels } ∧ t.sweep.channels.length = s.sweep.channels.length ∧
      ∀ c, c < s.sweep.channels.length →
        let before := s.channel c
        let noticed := ∃ k : Nat, (s.machines.arcs.getD c [])[k]? = some false ∧ (t.machines.arcs.getD c [])[k]? = some true
        let inside := ∃ a, before.aim = some a ∧ t.inActiveArc c a.1 = true
        (¬ (noticed ∧ inside) → t.channel c = before) ∧
        (noticed → inside →
          (before.state = .spraying → t.channel c = { before with state := .dry, valve := false, dryFlag := true }) ∧
          (∀ k, before.state = .opening → before.cursor = some k →
            t.channel c = { before with
              state := .dry, valve := false, dryFlag := true, valveTimer := none,
              dwellTimer := some ((s.leg c k.leg).dwell * 1000) }) ∧
          (before.state = .slewing → t.channel c = { before with dryFlag := true }) ∧
          (before.state ≠ .spraying → before.state ≠ .opening → before.state ≠ .slewing → t.channel c = before))

/-- MACHINE_STALE_CROSSING of a FRESH record aged 10 s and MACHINE_REMOVAL of a record aged 60 s, each with its recomputation (R71, R73); a
stale crossing leaves K_f and the arcs, where they are the list's, and the sweep engine as they were, and a removal leaves the sweep
engine so, for it activates no arc (R77). Short of that age, as after an
update, neither occurs (R72). K_f is the largest factor that a record mapped to the face offers, 64 when none is (R74). -/
def Obligations.MachinesAge : Prop :=
  (∀ (id : Nat) (s : State), (∃ m ∈ s.machines.list, m.id = id ∧ m.stale = false ∧ 10000 ≤ m.age) →
    s.machines.kf = (List.range s.cfg.faces.length).map (fun i => s.disturbance (i + 1)) →
    s.machines.arcs = s.derivedArcs →
    exec (.machineStaleCrossing id) s = .next { s with machines := { s.machines with
      list := s.machines.list.map (fun m => if m.id = id then { m with stale := true } else m) } }) ∧
  (∀ (id : Nat) (s : State), (∀ m ∈ s.machines.list, m.id = id → m.stale = true ∨ m.age < 10000) →
    exec (.machineStaleCrossing id) s = .next s) ∧
  (∀ (id : Nat) (s : State), (∀ m ∈ s.machines.list, m.id = id → m.age < 60000) →
    exec (.machineRemoval id) s = .next s) ∧
  (∀ (id : Nat) (s : State), (∃ m ∈ s.machines.list, m.id = id ∧ 60000 ≤ m.age) →
    ∃ t, exec (.machineRemoval id) s = .next t ∧ t = { s with machines := t.machines, sweep := t.sweep } ∧
      t.machines.list = s.machines.list.filter (fun m => m.id ≠ id) ∧ t.machines.refused = s.machines.refused ∧
      (s.machines.arcs = s.derivedArcs → t.sweep = s.sweep) ∧
      t.machines.kf = (List.range s.cfg.faces.length).map (fun i => t.disturbance (i + 1)) ∧
      t.machines.arcs = s.cfg.channels.map (fun ch => ch.shadow.map (fun e =>
        t.machines.list.any (fun m => decide (m.x = e.x) && decide (m.y = e.y))))) ∧
  (∀ (face : Nat) (s : State), 64 ≤ s.disturbance face ∧
    (∀ m ∈ s.machines.list, s.mappedFace m = some face →
      (match m.activity with | .reclaiming => s.cfg.kReclaim | .stacking => s.cfg.kStack | .travelling | .parked => 64) ≤
        s.disturbance face) ∧
    (s.disturbance face = 64 ∨ ∃ m ∈ s.machines.list, s.mappedFace m = some face ∧
      s.disturbance face =
        match m.activity with | .reclaiming => s.cfg.kReclaim | .stacking => s.cfg.kStack | .travelling | .parked => 64))

/-! ## The peer table (chapter 6) -/

/-- DISPATCH_REPORT of a frame taken in (R81 to R84): an update overwrites its record and recomputes the shares only when a sum or the
currency changes (R82, R88), a newcomer enters while there is room, a full table gives up its STALE record of greatest age and lowest
id, and with all thirty-two FRESH the newcomer is refused and counted. A frame out of range changes nothing but the queue, which every
frame leaves (R162). -/
def Obligations.DispatchReportStores : Prop :=
  ∀ (f : Frame) (s : State), s.works = true → s.oldestFree = some f → f.valid = true → f.kind = 5 → f.sender ≠ s.cfg.id →
    s.ListsHold →
    ∃ t, exec .dispatchReport s = .next t ∧
      t = { s with
        peers := t.peers, sweep := t.sweep,
        dispatcher := { s.dispatcher with queue := s.dispatcher.queue.eraseP (fun g => !s.holds g) },
        water := { s.water with sR := t.water.sR, sF := t.water.sF, gtNotices := t.water.gtNotices } } ∧
      (f.payload 0 1 = 0 ∨ 3 < f.payload 1 1 ∨ 4 < f.payload 9 1 →
        t.peers = s.peers ∧ t.sweep = s.sweep ∧ t.water = s.water) ∧
      (f.payload 0 1 ≠ 0 → f.payload 1 1 ≤ 3 → f.payload 9 1 ≤ 4 →
        let r : Peer := ⟨f.sender, f.payload 2 2, f.payload 4 2, f.payload 0 1, reportMode (f.payload 1 1),
          min 600 (f.payload 6 2), min 15 (f.payload 8 1), reportSource (f.payload 9 1), min 992 (f.payload 10 2),
          min 992 (f.payload 12 2), min 992 (f.payload 14 2), reportHighest f, f.payload 20 2, f.payload 22 2, false, 0⟩
        let known := ∃ p ∈ s.peers.list, p.id = f.sender
        let stale := ∃ p ∈ s.peers.list, p.stale = true
        (known ∨ s.peers.list.length < 32 →
          t.peers.refused = s.peers.refused ∧
          ∀ p, p ∈ t.peers.list ↔ p = r ∨ (p ∈ s.peers.list ∧ p.id ≠ f.sender)) ∧
        (¬ known → s.peers.list.length = 32 → stale →
          t.peers.refused = s.peers.refused ∧
          ∃ v ∈ s.peers.list, v.stale = true ∧
            (∀ p ∈ s.peers.list, p.stale = true →
              p.age / 1000 < v.age / 1000 ∨ (p.age / 1000 = v.age / 1000 ∧ v.id ≤ p.id)) ∧
            ∀ p, p ∈ t.peers.list ↔ p = r ∨ (p ∈ s.peers.list ∧ p.id ≠ v.id)) ∧
        (¬ known → s.peers.list.length = 32 → ¬ stale →
          t.peers = { s.peers with refused := min 255 (s.peers.refused + 1) } ∧ t.sweep = s.sweep ∧ t.water = s.water) ∧
        (∀ p ∈ s.peers.list, p.id = f.sender → p.stale = false → p.claimR = r.claimR → p.claimF = r.claimF →
          p.w = r.w → p.hw = r.hw → t.sweep = s.sweep ∧ t.water = s.water) ∧
        ((∀ p ∈ s.peers.list, p.id = f.sender →
            p.stale = true ∨ p.claimR ≠ r.claimR ∨ p.claimF ≠ r.claimF ∨ p.w ≠ r.w ∨ p.hw ≠ r.hw) →
          known ∨ s.peers.list.length < 32 ∨ stale →
          t.water.sR = (s.setPeerList t.peers.list).reuseShare ∧ t.water.sF = (s.setPeerList t.peers.list).freshShare))

/-- PEER_STALE_CROSSING of a FRESH record aged three of its report periods and PEER_REMOVAL of a record aged six, each with its change
notice, which recomputes the shares (R85, R88); nothing else moves. Short of that age, as after an update, neither occurs (R86). -/
def Obligations.PeersAge : Prop :=
  (∀ (id : Nat) (s : State), (∀ p ∈ s.peers.list, p.id = id → p.stale = true ∨ p.age < 3 * p.period * 1000) →
    exec (.peerStaleCrossing id) s = .next s) ∧
  (∀ (id : Nat) (s : State), (∀ p ∈ s.peers.list, p.id = id → p.age < 6 * p.period * 1000) →
    exec (.peerRemoval id) s = .next s) ∧
  (∀ (id : Nat) (s : State), (∃ p ∈ s.peers.list, p.id = id ∧ p.stale = false ∧ 3 * p.period * 1000 ≤ p.age) →
    ∃ t, exec (.peerStaleCrossing id) s = .next t ∧
      t = { s with
        peers := { s.peers with list := s.peers.list.map (fun p =>
          if p.id = id then { p with stale := true } else p) },
        sweep := t.sweep, water := { s.water with sR := t.water.sR, sF := t.water.sF, gtNotices := t.water.gtNotices } } ∧
      t.water.sR = s.reuseShare ∧ t.water.sF = s.freshShare) ∧
  (∀ (id : Nat) (s : State), (∃ p ∈ s.peers.list, p.id = id ∧ 6 * p.period * 1000 ≤ p.age) →
    ∃ t, exec (.peerRemoval id) s = .next t ∧
      t = { s with
        peers := { s.peers with list := s.peers.list.filter (fun p => p.id ≠ id) },
        sweep := t.sweep, water := { s.water with sR := t.water.sR, sF := t.water.sF, gtNotices := t.water.gtNotices } } ∧
      t.water.sR = (s.setPeerList t.peers.list).reuseShare ∧ t.water.sF = (s.setPeerList t.peers.list).freshShare)

/-! ## The water share unit (chapter 7) -/

/-- G_T_NOTICE of a notice waiting causes a share computation of its own (R105): S_r and S_f by the five steps of R99 to R104 from the
state as it stands, handed to the sweep engine; nothing else moves but the sweep engine. -/
def Obligations.GtNoticeComputesShares : Prop :=
  ∀ s : State, 0 < s.water.gtNotices →
    let usable := if s.cfg.turbidityLimit < s.water.turbidity ∨ s.water.lowLow = true then 0 else s.water.cR
    let believed := (s.peers.list.map (fun p => p.claimR + p.claimF)).sum + s.granted
    let available := usable * (100 - s.cfg.reserve) / 100 - (s.water.dM - believed)
    ∃ t, exec .gtNotice s = .next t ∧
      t = { s with
        sweep := t.sweep, water := { s.water with sR := t.water.sR, sF := t.water.sF, gtNotices := t.water.gtNotices } } ∧
      t.water.sR = (if s.risk.w = 0 then 0 else available * s.risk.w / (s.risk.w + (s.peers.list.map Peer.w).sum)) ∧
      t.water.sF = (if s.risk.hw = 0 then 0 else s.water.cF * s.risk.hw / (s.risk.hw + (s.peers.list.map Peer.hw).sum)) ∧
      t.sweep.sR = t.water.sR ∧ t.sweep.sF = t.water.sF ∧ s.water.gtNotices - 1 ≤ t.water.gtNotices ∧
      t.water.sR ≤ available ∧ available ≤ s.water.cR ∧ t.water.sF ≤ s.water.cF ∧
      ((s.peers.list.map Peer.w).sum = 0 → s.risk.w ≠ 0 → t.water.sR = available)

/-- DISPATCH_POND of a frame from the followed pond stores the record clamped, makes the pond CURRENT and restarts the timer (R96); a
frame from another sender changes nothing but the queue. POND_SILENCE_EXPIRY, of the timer run out, halves C_r and C_f, makes the pond
SILENT and restarts the timer (R97); with the timer not run out, as after a store, it does not occur (R98). A store and a halving each
compute the shares (R99). Every Pond frame leaves the queue (R162). -/
def Obligations.PondIsStoredAndHalved : Prop :=
  (∀ (f : Frame) (s : State), s.works = true → s.oldestFree = some f → f.valid = true → f.kind = 1 → f.sender ≠ s.cfg.id →
    f.sender = s.cfg.pond →
    ∃ t, exec .dispatchPond s = .next t ∧
      t = { s with
        sweep := t.sweep,
        dispatcher := { s.dispatcher with queue := s.dispatcher.queue.eraseP (fun g => !s.holds g) },
        water := { s.water with
          cR := f.payload 0 2, cF := f.payload 2 2, dM := f.payload 4 2, turbidity := min 1000 (f.payload 6 2),
          pondLevel := min 100 (f.payload 8 1), lowLow := decide (f.payload 9 1 ≠ 0), silent := false,
          timer := some (s.cfg.pondSilence * 1000), sR := t.water.sR, sF := t.water.sF, gtNotices := t.water.gtNotices } } ∧
      t.water.sR = (s.setWater t.water).reuseShare ∧ t.water.sF = (s.setWater t.water).freshShare ∧
      t.sweep.sR = t.water.sR ∧ t.sweep.sF = t.water.sF) ∧
  (∀ (f : Frame) (s : State), s.works = true → s.oldestFree = some f → f.valid = true → f.kind = 1 → f.sender ≠ s.cfg.id →
    f.sender ≠ s.cfg.pond →
    ∃ t, exec .dispatchPond s = .next t ∧
      t = { s with dispatcher := { s.dispatcher with queue := s.dispatcher.queue.eraseP (fun g => !s.holds g) } }) ∧
  (∀ s : State, s.water.timer ≠ some 0 → exec .pondSilenceExpiry s = .next s) ∧
  (∀ s : State, s.water.timer = some 0 →
    ∃ t, exec .pondSilenceExpiry s = .next t ∧
      t = { s with
        sweep := t.sweep,
        water := { s.water with
          cR := s.water.cR / 2, cF := s.water.cF / 2, silent := true, timer := some (s.cfg.pondSilence * 1000),
          sR := t.water.sR, sF := t.water.sF, gtNotices := t.water.gtNotices } } ∧
      t.water.sR = (s.setWater t.water).reuseShare ∧ t.water.sF = (s.setWater t.water).freshShare ∧
      t.sweep.sR = t.water.sR ∧ t.sweep.sF = t.water.sF)

/-- FLOW_PULSE of a configured channel (R136): the weight goes to the volume of the grant's fund, of the last grant's fund without a
grant, or of REUSE without either, ten tenths carrying into a litre (R109); a volume at 4294967295 litres takes no more. The last
spray face gains trunc(weight × g_f / 10) of moisture, capped at 4095 (R52); without one no moisture moves. Nothing else moves. The
remainder left when a pulse runs past the ceiling is the model's choice (log 19) and is not stated. -/
def Obligations.FlowPulseCreditsWater : Prop :=
  ∀ (c : Fin 4) (s : State), s.works = true → c.val < s.cfg.channels.length →
    let fund := match s.sweep.grants.find? (fun g => g.channel == c.val) with
      | some g => g.fund
      | none => (s.channel c).lastFund.getD .reuse
    let weight := (s.channelCfg c).weight
    ∃ t, exec (.flowPulse c) s = .next t ∧
      t = { s with
        water := { s.water with
          reuse := t.water.reuse, reuseRem := t.water.reuseRem, fresh := t.water.fresh, freshRem := t.water.freshRem },
        risk := { s.risk with faces := t.risk.faces } } ∧
      (fund = .reuse → t.water.fresh = s.water.fresh ∧ t.water.freshRem = s.water.freshRem ∧
        (s.water.reuse < 4294967295 →
          t.water.reuse = min 4294967295 (s.water.reuse + (s.water.reuseRem + weight) / 10)) ∧
        (s.water.reuse < 4294967295 → s.water.reuse + (s.water.reuseRem + weight) / 10 ≤ 4294967295 →
          t.water.reuseRem = (s.water.reuseRem + weight) % 10) ∧
        (s.water.reuse = 4294967295 → t.water.reuse = 4294967295 ∧ t.water.reuseRem = s.water.reuseRem)) ∧
      (fund = .fresh → t.water.reuse = s.water.reuse ∧ t.water.reuseRem = s.water.reuseRem ∧
        (s.water.fresh < 4294967295 →
          t.water.fresh = min 4294967295 (s.water.fresh + (s.water.freshRem + weight) / 10)) ∧
        (s.water.fresh < 4294967295 → s.water.fresh + (s.water.freshRem + weight) / 10 ≤ 4294967295 →
          t.water.freshRem = (s.water.freshRem + weight) % 10) ∧
        (s.water.fresh = 4294967295 → t.water.fresh = 4294967295 ∧ t.water.freshRem = s.water.freshRem)) ∧
      ((s.channel c).lastFace = none → t.risk.faces = s.risk.faces) ∧
      (∀ face, (s.channel c).lastFace = some face → 1 ≤ face →
        t.risk.faces.length = s.risk.faces.length ∧
        ∀ i r, s.risk.faces[i]? = some r → t.risk.faces[i]? = some
          (if i + 1 = face then { r with moisture := min 4095 (r.moisture + weight * (s.faceCfg face).gain / 10) } else r))

/-! ## The sweep engine (chapter 8) -/

/-- EVALUATION_COMPLETION at the sweep engine (R132), in either order of its notices (the operand, log 6): by the levels now published, an
IDLE channel with an eligible leg waits in AUTO, or is WIND-HELD when U_eff is above its cutoff, or is granted at once; a channel
without a grant and without an eligible leg goes IDLE; a WAITING or DENIED one with an eligible leg stays, or is granted, and may then
be revoked by the shares of the same event; FAULTED and HUSHED channels stay, and no granted channel leaves its state but by
revocation. The cursor of a WAITING, DENIED or WIND-HELD channel stays on a leg that is eligible and else moves to step 0 of the next
eligible leg after it; without one the pass ends, the cursor none and a pending swap taken, and a grant begins a pass at the first
eligible leg (R128). That a channel keeps a swap pending when it is left in WAITING or DENIED, or sent to IDLE with its cursor none, is the
model's choice (log 30), and that a DENIED channel without a cursor begins a pass when granted is its reading (log 23). With the level
notice first all this is from the state before. With the weight notice first it is from a state
between, in which the shares of the event are handed over already: with W and H_w as before every channel stands in it as it did, and
else a granted one stays or is revoked, a WAITING or DENIED one stays or is granted, and every other stays. -/
def Obligations.LevelsMoveChannels : Prop :=
  let treated (s t : State) : Prop := ∀ c, c < s.sweep.channels.length →
    let before := s.channel c
    let after := t.channel c
    (before.state = .faulted ∨ before.state = .hushed → after.state = before.state ∧ after.cursor = before.cursor) ∧
    (before.state = .idle → s.station.mode = .auto → t.hasWork c = true →
      if (s.channelCfg c).cutoff < s.wind.uEff then after.state = .windHeld
      else after.state = .waiting ∨ after.state = .slewing ∨ after.state = .denied) ∧
    (before.state = .idle → s.station.mode ≠ .auto ∨ t.hasWork c = false → after.state = .idle) ∧
    (before.state.waits = true ∨ before.state = .windHeld → t.hasWork c = false → after.state = .idle) ∧
    (before.state = .windHeld → t.hasWork c = true → after.state = .windHeld) ∧
    (before.state.runs = true → after.state = before.state ∨ after.state = .denied ∨ after.state = .slewing) ∧
    (before.state.runs = true → before.cursor.isSome = true → after.cursor = before.cursor) ∧
    (before.state.waits = true → t.hasWork c = true →
      after.state = before.state ∨ after.state = .slewing ∨ after.state = .denied) ∧
    (before.state.waits = true ∨ before.state = .windHeld →
      let eligible (g : Leg) : Prop := g.minimum ≤ (t.finalLevel g.face).num
      let first (plan : List Leg) (start j : Nat) (g : Leg) : Prop :=
        start ≤ j ∧ plan[j]? = some g ∧ eligible g ∧ ∀ i h, start ≤ i → i < j → plan[i]? = some h → ¬ eligible h
      let keeps := after.bank = before.bank ∧ after.swapPending = before.swapPending
      let index (g : Leg) : Nat := if g.pattern = .ring then g.a0 else before.ringIndex
      let begun (plan : List Leg) : Prop :=
        (after.cursor = none ∧ after.state ≠ .slewing) ∨
        ∃ j g, first plan 0 j g ∧ after.cursor = some ⟨j, 0⟩ ∧ after.ringIndex = index g ∧ before.state ≠ .windHeld ∧
          (after.state = .slewing ∨ after.state = .denied)
      (before.cursor = none → keeps ∧ begun (s.plan c)) ∧
      (∀ k, before.cursor = some k → eligible (s.leg c k.leg) →
        keeps ∧ after.cursor = some k ∧ after.ringIndex = before.ringIndex) ∧
      (∀ k j g, before.cursor = some k → ¬ eligible (s.leg c k.leg) → first (s.plan c) (k.leg + 1) j g →
        keeps ∧ after.cursor = some ⟨j, 0⟩ ∧ after.ringIndex = index g) ∧
      (∀ k, before.cursor = some k → ¬ eligible (s.leg c k.leg) → (∀ j g, ¬ first (s.plan c) (k.leg + 1) j g) →
        let bank := if before.swapPending then s.sweep.requested else before.bank
        after.bank = bank ∧ after.swapPending = false ∧
        begun (match bank with | .a => (s.channelCfg c).planA | .b => (s.channelCfg c).planB)))
  (∀ (snap : Snapshot) (s : State), s.risk.flight = some snap → s.OrdersTell →
    ∃ t, exec (.evaluationCompletion false) s = .next t ∧ treated s t) ∧
  (∀ (snap : Snapshot) (s : State), s.risk.flight = some snap → s.OrdersTell →
    ∃ u t, exec (.evaluationCompletion true) s = .next t ∧ treated u t ∧ u.OrdersTell ∧
      u = { s with
        risk := t.risk, sweep := u.sweep,
        water := { s.water with sR := t.water.sR, sF := t.water.sF, gtNotices := u.water.gtNotices } } ∧
      u.sweep.sR = t.sweep.sR ∧ u.sweep.sF = t.sweep.sF ∧ u.sweep.channels.length = s.sweep.channels.length ∧
      (t.risk.w = s.risk.w → t.risk.hw = s.risk.hw → u.sweep.channels = s.sweep.channels) ∧
      ∀ c, c < s.sweep.channels.length →
        let before := s.channel c
        let between := u.channel c
        (before.state.runs = true → between.cursor = before.cursor ∧
          (between.state = before.state ∨ between.state = .denied)) ∧
        (before.state.waits = true →
          (between.state = before.state ∧ between.cursor = before.cursor) ∨
          (between.state = .slewing ∧ s.station.mode = .auto ∧ (before.cursor.isSome = true → between.cursor = before.cursor) ∧
            (before.cursor = none → ∃ j g, between.cursor = some ⟨j, 0⟩ ∧ (s.plan c)[j]? = some g ∧
              g.minimum ≤ (t.finalLevel g.face).num ∧
              ∀ i h, i < j → (s.plan c)[i]? = some h → (t.finalLevel h.face).num < h.minimum))) ∧
        (before.state.runs = false → before.state.waits = false → between = { before with mark := between.mark }))

/-- A grant scan in AUTO (R128, R131): it leaves no waiting channel that could still be granted, takes no grant away and keeps each
grant's fund, starts a step of every channel it grants, and sends a G_t notice for each; afterwards exactly the channel that the
preemption rule names is marked. A channel with a step to take may be granted when no channel waiting ahead of it has a higher
priority and it fits: G_t with its flow is within S_r, or it and every grant are HEAVY and G_t with its flow is within S_r + S_f
(R128). A new grant's fund is FRESH when G_t before it with the channel's flow exceeds S_r, and else REUSE (R127); within a priority the
new grants stand after the old, in the order of the scan, which is that of the waiting order. The channel marked is of lower priority than the first waiting one, which fits once it is gone; of such grants it is the last
in the list, of the lowest priority where the list stands in order of priority (R131). -/
def Obligations.ScanGrantsWhatFits : Prop :=
  let fits (s : State) (c total : Nat) (others : List Grant) : Prop :=
    total + s.flow c ≤ s.sweep.sR ∨
      (s.priority c = .heavy ∧ (∀ g ∈ others, s.priority g.channel = .heavy) ∧ total + s.flow c ≤ s.sweep.sR + s.sweep.sF)
  (∀ (c : Nat) (s : State), s.grantable c = true ↔
    ((s.channel c).cursor.isSome = true ∨ s.hasWork c = true) ∧
    (∀ d ∈ s.sweep.waiting.takeWhile (fun d => decide (d ≠ c)), (s.priority d).num ≤ (s.priority c).num) ∧
    fits s c s.granted s.sweep.grants) ∧
  (∀ s : State, s.sweep.waiting = [] → s.preempted = none) ∧
  (∀ (claimant : Nat) (rest : List Nat) (s : State), s.sweep.waiting = claimant :: rest →
    let candidate (g : Grant) : Prop := (s.priority g.channel).num < (s.priority claimant).num ∧
      fits s claimant (s.granted - s.flow g.channel) (s.sweep.grants.filter (fun h => decide (h.channel ≠ g.channel)))
    (s.preempted = none ↔ ∀ g ∈ s.sweep.grants, ¬ candidate g) ∧
    (∀ v, s.preempted = some v → ∃ before g after, s.sweep.grants = before ++ g :: after ∧ g.channel = v ∧ candidate g ∧
      (∀ h ∈ after, ¬ candidate h) ∧
      (s.sweep.grants.Pairwise (fun g h => (s.priority h.channel).num ≤ (s.priority g.channel).num) →
        ∀ h ∈ s.sweep.grants, candidate h → (s.priority v).num ≤ (s.priority h.channel).num))) ∧
  ∀ s : State, s.station.mode = .auto → s.OrdersTell →
    let t := s.grantScan
    s.SweepOnly t ∧
    (∀ c ∈ t.sweep.waiting, c ∈ s.sweep.waiting ∧ t.grantable c = false) ∧
    (∀ c ∈ s.sweep.waiting, c ∈ t.sweep.waiting ∨ c ∈ t.sweep.grants.map Grant.channel) ∧
    (∀ g ∈ s.sweep.grants, g ∈ t.sweep.grants) ∧
    t.sweep.waiting = s.sweep.waiting.filter (fun c => !t.isGranted c) ∧
    (∃ l : List Grant, (l.map Grant.channel).Sublist s.sweep.waiting ∧ t.sweep.grants.Perm (s.sweep.grants ++ l) ∧
      (∀ (i : Nat) (g : Grant), l[i]? = some g →
        (g.fund = .fresh ↔ s.sweep.sR < s.granted + s.flowOf (l.take (i + 1)))) ∧
      (s.PriorityOrders → t.PriorityOrders ∧ ∀ p : Level,
        t.sweep.grants.filter (fun g => decide (s.priority g.channel = p)) =
          s.sweep.grants.filter (fun g => decide (s.priority g.channel = p)) ++
            l.filter (fun g => decide (s.priority g.channel = p)))) ∧
    (∀ g ∈ t.sweep.grants, g ∈ s.sweep.grants ∨
      (g.channel ∈ s.sweep.waiting ∧ (t.channel g.channel).state = .slewing ∧ (t.channel g.channel).valve = false ∧
        (t.channel g.channel).lastFund = some g.fund)) ∧
    t.water.gtNotices + s.sweep.grants.length = s.water.gtNotices + t.sweep.grants.length ∧
    (∀ c, c < t.sweep.channels.length → ((t.channel c).mark = true ↔ t.preempted = some c))

/-- A share hand-over that shrinks a share and leaves the grants outside the shares (R127, R129): the grants at the end of the list are
revoked, the fewest that bring the rest within the shares, from the last on; each revoked channel is DENIED with its valve closed, its
timers stopped and its cursor and commanded aim kept, waits at the front of its priority group, the revoked of one priority in their
order of grant (R129), and sends a G_t notice; the rest keep their order with their funds
re-derived. The funds are re-derived at each revocation (R127; log 8), so the last grant fund of a channel revoked later in the event is the
one re-derived by the revocation just before its own, and the first one revoked keeps its own. -/
def Obligations.ShrunkSharesRevoke : Prop :=
  ∀ (sR sF : Nat) (s : State), s.OrdersTell → sR < s.sweep.sR ∨ sF < s.sweep.sF →
    let within (l : List Grant) : Prop :=
      s.flowOf l ≤ sR + sF ∧ ((∃ g ∈ l, s.priority g.channel ≠ .heavy) → s.flowOf l ≤ sR)
    ¬ within s.sweep.grants →
    let t := s.handOver sR sF
    s.SweepOnly t ∧ t.sweep.sR = sR ∧ t.sweep.sF = sF ∧
    ∃ n, n < s.sweep.grants.length ∧ within (s.sweep.grants.take n) ∧ ¬ within (s.sweep.grants.take (n + 1)) ∧
      t.sweep.grants.map Grant.channel = (s.sweep.grants.take n).map Grant.channel ∧
      (∀ (i : Nat) (g : Grant), n ≤ i → s.sweep.grants[i]? = some g → g.channel ∈ t.sweep.waiting ∧
        t.channel g.channel = { s.channel g.channel with
          state := .denied, valve := false, slewTimer := none, valveTimer := none, dwellTimer := none, mark := false,
          lastFund := if i + 1 = s.sweep.grants.length then (s.channel g.channel).lastFund
            else some (if sR < s.flowOf (s.sweep.grants.take (i + 1)) then .fresh else .reuse) }) ∧
      (∀ p : Level, t.sweep.waiting.filter (fun c => decide (s.priority c = p)) =
        ((s.sweep.grants.drop n).map Grant.channel).filter (fun c => decide (s.priority c = p)) ++
          s.sweep.waiting.filter (fun c => decide (s.priority c = p))) ∧
      (s.PriorityOrders → t.PriorityOrders) ∧
      t.water.gtNotices = s.water.gtNotices + (s.sweep.grants.length - n) ∧
      (∀ (i : Nat) (g : Grant), t.sweep.grants[i]? = some g →
        (g.fund = .fresh ↔ sR < s.flowOf (s.sweep.grants.take (i + 1))) ∧ (t.channel g.channel).lastFund = some g.fund)

/-- ON_AIM in SLEWING ends the slew: DRY with the dwell started when the dry flag is set, and else OPENING with the valve commanded open,
the last spray face set and the valve timer started (R122). VALVE_OPEN_REPORT in OPENING gives SPRAYING with the dwell started
(R123). Outside those states either is ignored. Nothing else moves. -/
def Obligations.FeedbackOpensChannel : Prop :=
  (∀ (c : Fin 4) (k : Cursor) (s : State), (s.channel c).state = .slewing → (s.channel c).cursor = some k →
    (s.channel c).dryFlag = true →
    exec (.onAim c) s = .next { s with sweep := { s.sweep with channels := s.sweep.channels.set c { s.channel c with
      state := .dry, slewTimer := none, dwellTimer := some ((s.leg c k.leg).dwell * 1000) } } }) ∧
  (∀ (c : Fin 4) (k : Cursor) (s : State), (s.channel c).state = .slewing → (s.channel c).cursor = some k →
    (s.channel c).dryFlag = false →
    exec (.onAim c) s = .next { s with sweep := { s.sweep with channels := s.sweep.channels.set c { s.channel c with
      state := .opening, slewTimer := none, valve := true, lastFace := some (s.leg c k.leg).face,
      valveTimer := some ((s.channelCfg c).valveTimeout * 1000) } } }) ∧
  (∀ (c : Fin 4) (s : State), (s.channel c).state ≠ .slewing → exec (.onAim c) s = .next s) ∧
  (∀ (c : Fin 4) (k : Cursor) (s : State), (s.channel c).state = .opening → (s.channel c).cursor = some k →
    exec (.valveOpenReport c) s = .next { s with sweep := { s.sweep with channels := s.sweep.channels.set c { s.channel c with
      state := .spraying, valveTimer := none, dwellTimer := some ((s.leg c k.leg).dwell * 1000) } } }) ∧
  (∀ (c : Fin 4) (s : State), (s.channel c).state ≠ .opening → exec (.valveOpenReport c) s = .next s)

/-- SLEW_TIMEOUT in SLEWING and VALVE_TIMEOUT in OPENING, of a timer run out, fault the channel (R122, R123, R126): the valve closed, every timer stopped, the
mark cleared, the grant released with a G_t notice; its cursor, bank, pending swap and commanded aim are kept. Nothing outside the
sweep engine moves but the G_t notices. In every other state, and with the timer not run out, as after a new slew command, no timeout
occurs. -/
def Obligations.TimeoutsFaultChannel : Prop :=
  (∀ (c : Fin 4) (s : State), (s.channel c).state ≠ .slewing ∨ (s.channel c).slewTimer ≠ some 0 →
    exec (.slewTimeout c) s = .next s) ∧
  (∀ (c : Fin 4) (s : State), (s.channel c).state ≠ .opening ∨ (s.channel c).valveTimer ≠ some 0 →
    exec (.valveTimeout c) s = .next s) ∧
  ∀ (c : Fin 4) (s : State), s.OrdersTell →
    ((s.channel c).state = .slewing → (s.channel c).slewTimer = some 0 →
      ∃ t, exec (.slewTimeout c) s = .next t ∧ s.SweepOnly t ∧
        t.channel c = { s.channel c with
          state := .faulted, valve := false, slewTimer := none, valveTimer := none, dwellTimer := none, mark := false } ∧
        (∀ g ∈ t.sweep.grants, g.channel ≠ c.val) ∧ s.water.gtNotices + 1 ≤ t.water.gtNotices) ∧
    ((s.channel c).state = .opening → (s.channel c).valveTimer = some 0 →
      ∃ t, exec (.valveTimeout c) s = .next t ∧ s.SweepOnly t ∧
        t.channel c = { s.channel c with
          state := .faulted, valve := false, slewTimer := none, valveTimer := none, dwellTimer := none, mark := false } ∧
        (∀ g ∈ t.sweep.grants, g.channel ≠ c.val) ∧ s.water.gtNotices + 1 ≤ t.water.gtNotices)

/-- DWELL_EXPIRY of an unmarked channel with a further step in a leg still eligible (R124 case 1, R120): the cursor moves on, a RING leg
strides and counts its wrap (R118), and the step starts: the aim with its bias, the dry flag by the active arcs, the slew command and
its timer; the valve is closed, and nothing else moves. Otherwise the cursor moves to the next eligible leg of the plan (case 2), or the
pass ends: the cursor none and a pending swap taken (case 3, R125). Unmarked, a channel in case 2 starts the new leg's first step with
its grant kept, unless the leg's lower level leaves it revoked (R129); at a pass end it goes IDLE without an eligible leg, under
ROTATE with an equal waiting it goes to the back of its group, and else it starts a new pass as in case 2. A marked channel gives its
grant up, to the front of its group or to IDLE (R131), with its swap left pending outside a pass end (log 30). One that goes WAITING
waits on, or the scan of the same event grants it and its step starts. Nothing outside the sweep engine moves but the G_t notices. -/
def Obligations.DwellExpiryAdvances : Prop :=
  (∀ (c : Fin 4) (k : Cursor) (s : State),
    (s.channel c).state = .spraying ∨ (s.channel c).state = .dry → (s.channel c).dwellTimer.isSome = true →
    (s.channel c).mark = false → (s.channel c).cursor = some k → k.step + 1 < (s.leg c k.leg).steps →
    (s.leg c k.leg).minimum ≤ (s.finalLevel (s.leg c k.leg).face).num →
    let g := s.leg c k.leg
    let moved := g.stride (s.channel c).ringIndex
    let index := if g.pattern = .ring then moved.1 else (s.channel c).ringIndex
    let azimuth := g.azimuth (k.step + 1) index
    let bias := biasOf s.wind.uEff s.wind.sector (s.channelCfg c).gain azimuth
    let aim := (((azimuth : Int) + bias) % 3600).toNat
    exec (.dwellExpiry c) s = .next { s with sweep := { s.sweep with channels := s.sweep.channels.set c { s.channel c with
      state := .slewing, cursor := some ⟨k.leg, k.step + 1⟩, ringIndex := index,
      laps := if g.pattern = .ring ∧ moved.2 = true then min 65535 ((s.channel c).laps + 1) else (s.channel c).laps,
      aim := some (aim, g.elevation (k.step + 1)), bias := bias, dryFlag := s.inActiveArc c aim,
      slewTimer := some ((s.channelCfg c).slewTimeout * 1000), valveTimer := none, dwellTimer := none, valve := false } } }) ∧
  (∀ (c : Fin 4) (s : State), (s.channel c).state = .spraying ∨ (s.channel c).state = .dry →
    (s.channel c).dwellTimer.isSome = true → s.OrdersTell →
    ∃ t, exec (.dwellExpiry c) s = .next t ∧ s.SweepOnly t ∧ (t.channel c).valve = false ∧ (t.channel c).dwellTimer = none ∧
      ((t.channel c).state = .slewing ∨ (t.channel c).state = .denied ∨ (t.channel c).state = .waiting ∨
        (t.channel c).state = .idle) ∧
      ((s.channel c).mark = true → (t.channel c).state ≠ .denied ∧ s.water.gtNotices + 1 ≤ t.water.gtNotices)) ∧
  (∀ (c : Fin 4) (k : Cursor) (s : State), (s.channel c).state = .spraying ∨ (s.channel c).state = .dry →
    (s.channel c).dwellTimer.isSome = true → (s.channel c).cursor = some k → s.OrdersTell →
    let ch := s.channel c
    let level (g : Leg) : Nat := (s.finalLevel g.face).num
    let eligible (g : Leg) : Prop := g.minimum ≤ level g
    let more : Prop := k.step + 1 < (s.leg c k.leg).steps ∧ eligible (s.leg c k.leg)
    let first (plan : List Leg) (start j : Nat) (g : Leg) : Prop :=
      start ≤ j ∧ plan[j]? = some g ∧ eligible g ∧ ∀ i h, start ≤ i → i < j → plan[i]? = some h → ¬ eligible h
    let spent (plan : List Leg) (start : Nat) : Prop := ∀ (i : Nat) (h : Leg), start ≤ i → plan[i]? = some h → ¬ eligible h
    let bank := if ch.swapPending then s.sweep.requested else ch.bank
    let newPlan := match bank with | .a => (s.channelCfg c).planA | .b => (s.channelCfg c).planB
    let indexAt (g : Leg) : Nat := if g.pattern = .ring then g.a0 else ch.ringIndex
    let started (t : State) (g : Leg) (k' : Cursor) (index : Nat) : Prop :=
      let azimuth := g.azimuth k'.step index
      let bias := biasOf s.wind.uEff s.wind.sector (s.channelCfg c).gain azimuth
      let aim := (((azimuth : Int) + bias) % 3600).toNat
      (t.channel c).state = .slewing ∧ (t.channel c).cursor = some k' ∧ (t.channel c).ringIndex = index ∧
      (t.channel c).aim = some (aim, g.elevation k'.step) ∧ (t.channel c).bias = bias ∧
      (t.channel c).dryFlag = s.inActiveArc c aim ∧
      (t.channel c).slewTimer = some ((s.channelCfg c).slewTimeout * 1000) ∧
      c.val ∈ t.sweep.grants.map Grant.channel ∧ c.val ∉ t.sweep.waiting
    let keeps (t : State) (j : Nat) (g : Leg) : Prop :=
      (t.channel c).laps = ch.laps ∧
      (started t g ⟨j, 0⟩ (indexAt g) ∨
        (level g < level (s.leg c k.leg) ∧ (t.channel c).state = .denied ∧ (t.channel c).cursor = some ⟨j, 0⟩ ∧
          (t.channel c).ringIndex = indexAt g ∧ (t.channel c).aim = ch.aim ∧ c.val ∈ t.sweep.waiting ∧
          c.val ∉ t.sweep.grants.map Grant.channel)) ∧
      (level g < level (s.leg c k.leg) → t.GrantsHold) ∧
      (level (s.leg c k.leg) ≤ level g → t.sweep.waiting = s.sweep.waiting ∧ t.water = s.water ∧
        t.sweep.grants.Perm s.sweep.grants ∧
        t.sweep.grants.filter (fun h => decide (h.channel ≠ c.val)) =
          s.sweep.grants.filter (fun h => decide (h.channel ≠ c.val))) ∧
      (level (s.leg c k.leg) = level g → t.sweep.grants = s.sweep.grants)
    let waits (t : State) (front : Bool) (cursor : Option Cursor) (k' : Cursor) (index : Nat) (g : Leg) : Prop :=
      let ahead (d : Nat) : Bool :=
        if front then decide (level g < (s.priority d).num) else decide (level g ≤ (s.priority d).num)
      t.sweep.waiting =
        (s.sweep.waiting.takeWhile ahead ++ c.val :: s.sweep.waiting.dropWhile ahead).filter (fun d => !t.isGranted d) ∧
      s.water.gtNotices + 1 ≤ t.water.gtNotices ∧
      (((t.channel c).state = .waiting ∧ (t.channel c).cursor = cursor ∧ c.val ∈ t.sweep.waiting ∧
          (t.channel c).ringIndex = if cursor = none then ch.ringIndex else index) ∨
        started t g k' index)
    ∃ t, exec (.dwellExpiry c) s = .next t ∧
      (∀ j g, ¬ more → first (s.plan c) (k.leg + 1) j g →
        (t.channel c).bank = ch.bank ∧ (t.channel c).swapPending = ch.swapPending ∧
        (ch.mark = false → keeps t j g) ∧ (ch.mark = true → waits t true (some ⟨j, 0⟩) ⟨j, 0⟩ (indexAt g) g)) ∧
      (¬ more → spent (s.plan c) (k.leg + 1) →
        (t.channel c).bank = bank ∧ (t.channel c).swapPending = false ∧
        (spent newPlan 0 → (t.channel c).state = .idle ∧ (t.channel c).cursor = none ∧ c.val ∉ t.sweep.waiting ∧
          c.val ∉ t.sweep.grants.map Grant.channel ∧ s.water.gtNotices + 1 ≤ t.water.gtNotices) ∧
        ∀ j g, first newPlan 0 j g →
          let yields := s.cfg.policy = .rotate ∧ ∃ d ∈ s.sweep.waiting, (s.priority d).num = level g
          (ch.mark = true → waits t true none ⟨j, 0⟩ (indexAt g) g) ∧
          (ch.mark = false → yields → waits t false none ⟨j, 0⟩ (indexAt g) g) ∧
          (ch.mark = false → ¬ yields → keeps t j g)) ∧
      (more → ch.mark = true →
        (t.channel c).bank = ch.bank ∧ (t.channel c).swapPending = ch.swapPending ∧
        waits t true (some ⟨k.leg, k.step + 1⟩) ⟨k.leg, k.step + 1⟩
          (if (s.leg c k.leg).pattern = .ring then ((s.leg c k.leg).stride ch.ringIndex).1 else ch.ringIndex)
          (s.leg c k.leg)))

/-- The step positions of R117, before bias: HOLD, ARC, the RASTER's rows back and forth with its elevation clamped to 0..600, and RING. -/
def Obligations.PatternsGivePositions : Prop :=
  ∀ (g : Leg) (i index : Nat),
    (g.pattern = .hold → g.azimuth i index = g.a0 ∧ g.elevation i = g.e0 ∧ g.steps = g.count) ∧
    (g.pattern = .arc → (g.azimuth i index : Int) = ((g.a0 : Int) + i * g.aStep) % 3600 ∧ g.elevation i = g.e0 ∧
      g.steps = g.count) ∧
    (∀ r c, g.pattern = .raster → i = r * g.columns + c → c < g.columns →
      (g.azimuth i index : Int) =
        ((g.a0 : Int) + g.aStep * (if r % 2 = 0 then (c : Int) else (g.columns : Int) - 1 - c)) % 3600 ∧
      (g.elevation i : Int) = max 0 (min 600 ((g.e0 : Int) + g.eStep * r)) ∧ g.steps = g.rows * g.columns) ∧
    (g.pattern = .ring → g.azimuth i index = index % 3600 ∧ g.elevation i = g.e0 ∧ g.steps = g.count)

/-- The RING index (R118): within its constraints n strides from an index of the band stand n × M further round the band of length L, and
a stride that shares no factor with L visits every index of the band within L strides. -/
def Obligations.RingWalksItsBand : Prop :=
  ∀ (g : Leg) (index : Nat), 0 < g.ringStride.natAbs → g.ringStride.natAbs < g.ringLength →
    g.ringBase ≤ index → index < g.ringBase + g.ringLength →
    (∀ n : Nat, (((fun i => (g.stride i).1)^[n] index : Nat) : Int) =
      (g.ringBase : Int) + ((index : Int) - g.ringBase + n * g.ringStride) % g.ringLength) ∧
    ((g.stride index).2 = true ↔
      (index : Int) + g.ringStride < g.ringBase ∨ (g.ringBase : Int) + g.ringLength ≤ (index : Int) + g.ringStride) ∧
    (Nat.Coprime g.ringStride.natAbs g.ringLength →
      ∀ target, g.ringBase ≤ target → target < g.ringBase + g.ringLength →
        ∃ n, n < g.ringLength ∧ (fun i => (g.stride i).1)^[n] index = target)

/-- The crosswind bias (R121): the negation of U_eff × S[rel] × G / 2560 truncated toward zero, clamped to -150..150; wind from the
opposite sector gives the opposite bias, and wind along the aim's line or a gain of 0 gives none. -/
def Obligations.BiasTurnsAgainstWind : Prop :=
  ∀ (uEff sector gain azimuth : Nat),
    let rel := (((sector : Int) - (((azimuth + 112) % 3600 / 225 : Nat) : Int)) % 16).toNat
    let sine := [0, 98, 181, 237, 256, 237, 181, 98, 0, -98, -181, -237, -256, -237, -181, -98].getD rel (0 : Int)
    biasOf uEff sector gain azimuth = max (-150) (min 150 (-(((uEff : Int) * sine * gain).tdiv 2560))) ∧
    -150 ≤ biasOf uEff sector gain azimuth ∧ biasOf uEff sector gain azimuth ≤ 150 ∧
    biasOf uEff (sector + 8) gain azimuth = -biasOf uEff sector gain azimuth ∧
    (rel = 0 ∨ rel = 8 ∨ gain = 0 → biasOf uEff sector gain azimuth = 0) ∧
    (uEff = 120 → gain = 8 → (rel = 4 → biasOf uEff sector gain azimuth = -96) ∧
      (rel = 12 → biasOf uEff sector gain azimuth = 96)) ∧
    (uEff = 600 → gain = 100 → rel = 4 → biasOf uEff sector gain azimuth = -150)

/-- PRESSURE_SAMPLE (R137): the low run rises at a reading below the threshold with a valve commanded open and returns to 0 at any other;
at 3 it returns to 0 with one collapse notice: the break request flag is set and the transmitter drives the line at once, a frame
being sent returning to its slot or being counted superseded (R154, R156, R173); while a break is driven the request adds nothing to
the line. Nothing else moves: that the receiver, the gap measure and the deferred counts wait for the line's own events is log 17
(DEDUCED), and a reading above 1000 is compared as it comes (log 27, DESIGN CHOICE). -/
def Obligations.PressureSampleWatchesHeader : Prop :=
  ∀ (reading : Nat) (s : State), s.sweep.pressureTimer.isSome = true →
    let open_ := ∃ ch ∈ s.sweep.channels, ch.state = .opening ∨ ch.state = .spraying
    (¬ (reading < s.cfg.collapse ∧ open_) →
      exec (.pressureSample reading) s = .next { s with sweep := { s.sweep with lowRun := 0, pressureTimer := some 1000 } }) ∧
    (reading < s.cfg.collapse → open_ → s.sweep.lowRun < 2 →
      exec (.pressureSample reading) s = .next { s with
        sweep := { s.sweep with lowRun := s.sweep.lowRun + 1, pressureTimer := some 1000 } }) ∧
    (reading < s.cfg.collapse → open_ → 2 ≤ s.sweep.lowRun →
      ∃ t, exec (.pressureSample reading) s = .next t ∧
        t = { s with
          sweep := { s.sweep with lowRun := 0, pressureTimer := some 1000 },
          station := { s.station with breakRequest := true }, line := t.line } ∧
        (s.line.breakDriving = true → t.line = s.line) ∧
        (s.line.breakDriving = false →
          t.line = { s.line with
            breakDriving := true, joinOpen := false, sending := none, run := t.line.run,
            slot := t.line.slot, superseded := t.line.superseded } ∧
          (s.line.sending = none → t.line.slot = s.line.slot ∧ t.line.superseded = s.line.superseded) ∧
          (∀ f, s.line.sending = some f → s.line.slot = none →
            t.line.slot = some f ∧ t.line.superseded = s.line.superseded) ∧
          (∀ f g, s.line.sending = some f → s.line.slot = some g →
            t.line.slot = some g ∧ t.line.superseded = min 255 (s.line.superseded + 1))))

/-! ## The line interface (chapter 9) -/

/-- IDLE_GAP_COMPLETE (R145, R146, R147): the line counts as idle, the receiver is READY from AWAIT GAP, and a frame in receipt is a
framing error. START_EDGE (R146): in READY, and in AWAIT GAP within 8 sample ticks of a completed gap, it opens the first character;
earlier in the gap it is not decoded. It opens the joining window for a station neither in self-silence nor driving a break, at the end of
a completed gap, and within 8 sample ticks of it with a report pending (R149, R152; the window as a flag and the measure as an operand
are log 16). No count deferred is assumed here; nothing else moves. That the receiver is READY after a gap
inside a frame is the model's choice (log 10) and is not stated. -/
def Obligations.GapsAndEdgesMoveReceiver : Prop :=
  ∀ s : State, s.works = true → s.line.sending = none → s.line.deferredFraming = false → s.line.deferredClash = false →
    let opens (measure : Nat) : Prop := s.line.silence = none ∧ s.line.breakDriving = false ∧
      (measure = 192 ∨ (184 ≤ measure ∧ s.line.slot.isSome = true))
    (s.line.rx = .awaitGap ∨ s.line.rx = .ready →
      exec .idleGapComplete s = .next { s with line := { s.line with
        rx := .ready, gap := some 192, run := .absent, joinOpen := false } }) ∧
    (∀ r chars bits, s.line.rx = .inFrame r chars bits →
      ∃ t, exec .idleGapComplete s = .next t ∧ t = { s with line := { s.line with
        rx := t.line.rx, gap := some 192, run := .absent, joinOpen := false, framing := min 255 (s.line.framing + 1) } }) ∧
    (∀ measure, s.line.rx = .ready →
      ∃ t, exec (.startEdge measure) s = .next t ∧ t = { s with line := { s.line with
        rx := .inFrame true [] [], gap := some 0, run := .inProgress, joinOpen := t.line.joinOpen } } ∧
        (t.line.joinOpen = true ↔ opens (if s.line.gap = some 192 then 192 else measure))) ∧
    (∀ measure, s.line.rx = .awaitGap → s.line.gap ≠ some 192 →
      ∃ t, exec (.startEdge measure) s = .next t ∧ t = { s with line := { s.line with
        rx := if 184 ≤ measure then .inFrame false [] [] else .awaitGap,
        gap := some 0, run := .inProgress, joinOpen := t.line.joinOpen } } ∧
        (t.line.joinOpen = true ↔ opens measure))

/-- BIT_READ in a frame of another sender (R143, R146, R147): the value is the majority of the three samples, disagreement is noise, and
the receiver goes by the bit's place: start, data, mark and stop bits in turn, with the framing errors of R147; that a wrong mark is
judged at the mark bit, a dominant one counted at the end of its dominant run, is log 11 (DEDUCED), and that the gap measure is no
count of ticks is log 16 (DESIGN CHOICE). A first character whose kind the station does not hear sends the receiver to AWAIT GAP with
nothing counted (R148). No count deferred is assumed here. -/
def Obligations.BitReadMovesReceiver : Prop :=
  ∀ (x : Samples) (r : Bool) (chars : Frame) (bits : List Bool) (s : State), s.works = true → s.line.sending = none →
    s.line.deferredFraming = false → s.line.deferredClash = false → s.line.rx = .inFrame r chars bits →
    let v := (x.t7 && x.t8) || (x.t7 && x.t9) || (x.t8 && x.t9)
    let noisy := if x.t7 = x.t8 ∧ x.t8 = x.t9 then s.line.noise else min 255 (s.line.noise + 1)
    ∃ t, exec (.bitRead x) s = .next t ∧
      (bits.length = 0 → x = ⟨true, true, true⟩ → chars = [] → r = true →
        t = { s with line := { s.line with
          rx := .ready, noise := min 255 (s.line.noise + 1), run := .absent, joinOpen := false } }) ∧
      (bits.length = 0 → v = true → chars ≠ [] →
        t.line.rx = .awaitGap ∧ t.line.framing = min 255 (s.line.framing + 1) ∧ t.dispatcher = s.dispatcher) ∧
      (bits.length = 0 ∧ v = false ∨ 1 ≤ bits.length ∧ bits.length ≤ 8 →
        t = { s with line := { s.line with
          rx := .inFrame r chars (bits ++ [v]), noise := noisy, run := if v then .absent else s.line.run, joinOpen := false,
          gap := if x.t7 && x.t8 && x.t9 then s.line.gap else some 0 } }) ∧
      (bits.length = 9 → (v = true ↔ chars = []) →
        t.line.rx = .inFrame r chars (bits ++ [v]) ∧ t.line.framing = s.line.framing ∧ t.dispatcher = s.dispatcher) ∧
      (bits.length = 9 → v = true → chars ≠ [] →
        t.line.rx = .awaitGap ∧ t.line.framing = min 255 (s.line.framing + 1) ∧ t.dispatcher = s.dispatcher) ∧
      (bits.length = 9 → v = false → chars = [] →
        t.line.rx = .awaitGap ∧ t.line.framing = s.line.framing ∧ t.line.deferredFraming = true ∧
          t.dispatcher = s.dispatcher) ∧
      (bits.length = 10 → v = true → chars = [] →
        let kind := (charOf bits).toNat
        let unheard := (kind = 2 ∧ s.cfg.hearMonitor = false) ∨ (kind = 3 ∧ s.cfg.hearMachine = false) ∨
          (kind = 6 ∧ s.cfg.hearForecast = false)
        (unheard → t = { s with line := { s.line with
          rx := .awaitGap, noise := noisy, run := .absent, joinOpen := false,
          gap := if x.t7 && x.t8 && x.t9 then s.line.gap else some 0 } }) ∧
        (¬ unheard → t.line.rx = .inFrame r [charOf bits] [])) ∧
      (bits.length = 10 → v = false →
        t.line.rx = .awaitGap ∧ t.line.framing = s.line.framing ∧ t.line.deferredFraming = true ∧
          t.dispatcher = s.dispatcher) ∧
      (bits.length = 10 → v = true → chars.length = 1 → t.line.rx = .inFrame r (chars ++ [charOf bits]) []) ∧
      (bits.length = 10 → v = true → chars.length = 2 → 96 < (charOf bits).toNat →
        t.line.rx = .awaitGap ∧ t.line.framing = min 255 (s.line.framing + 1) ∧ t.dispatcher = s.dispatcher)

/-- What is sent is what is read (R143, R144, R146, R148, R156). A shaped frame of a kind that is heard, read bit by bit with agreeing
samples from the opening of its first character, is handed to the dispatcher whole when its last stop bit has been read, and not
before; no noise and no framing error is counted. The station's own frame, read back so, leaves the transmitter with the run of
consecutive clashes at 0, the slot and the counts as they were, and is not handed to the dispatcher. -/
def Obligations.FramesAreReadAsSent : Prop :=
  ∀ (f : Frame) (r : Bool) (s : State), Frame.shaped f = true → s.cfg.hears f.kind = true →
    s.line.deferredFraming = false → s.line.deferredClash = false → s.line.rx = .inFrame r [] [] →
    let bits := (List.range f.length).flatMap (fun char => (List.range 11).map (f.sentBit char))
    let t := bits.foldl (fun u v => u.readBit ⟨v, v, v⟩) s
    let before := bits.dropLast.foldl (fun u v => u.readBit ⟨v, v, v⟩) s
    (s.line.sending = none →
      t.dispatcher = s.dispatcher.take f ∧ t.line.rx = .awaitGap ∧ t.line.noise = s.line.noise ∧
        t.line.framing = s.line.framing ∧ before.dispatcher = s.dispatcher) ∧
    (s.line.sending = some f →
      t.dispatcher = s.dispatcher ∧ t.line.sending = none ∧ t.line.clashRun = 0 ∧ t.line.slot = s.line.slot ∧
        t.line.clashes = s.line.clashes ∧ t.line.superseded = s.line.superseded ∧ t.line.rx = .awaitGap ∧
        before.line.sending = some f)

/-- FRAME_RECEIVED of a frame in receipt (R160, R161): with matching checks it joins the queue's newest end, or finds 8 frames and is
counted an overrun with the queue as it was; without them it is counted a failed check. Both sums lie in 0..254, a frame closed with
its own checks matches, and exchanging two neighbouring characters that differ modulo 255 is caught by check B alone. -/
def Obligations.FrameReceivedIsCheckedAndQueued : Prop :=
  (∀ (f : Frame) (r : Bool) (s : State), s.works = true → Frame.shaped f = true → s.cfg.hears f.kind = true →
    s.line.sending = none → s.line.rx = .inFrame r [] [] →
    ∃ t, exec (.frameReceived f) s = .next t ∧ t = { s with line := t.line, dispatcher := t.dispatcher } ∧
      t.line.rx = .awaitGap ∧ t.line.slot = s.line.slot ∧
      (f.verified = true → s.dispatcher.queue.length < 8 →
        t.dispatcher = { s.dispatcher with queue := s.dispatcher.queue ++ [f] }) ∧
      (f.verified = true → 8 ≤ s.dispatcher.queue.length →
        t.dispatcher = { s.dispatcher with overrun := min 255 (s.dispatcher.overrun + 1) }) ∧
      (f.verified = false → t.dispatcher = { s.dispatcher with checkFail := min 255 (s.dispatcher.checkFail + 1) })) ∧
  (∀ b : List Byte, (checkSums b).1 < 255 ∧ (checkSums b).2 < 255 ∧ (Frame.sealed b).verified = true) ∧
  (∀ (a b : List Byte) (x y : Byte), x.toNat % 255 ≠ y.toNat % 255 →
    (checkSums (a ++ [x, y] ++ b)).1 = (checkSums (a ++ [y, x] ++ b)).1 ∧
    (checkSums (a ++ [x, y] ++ b)).2 ≠ (checkSums (a ++ [y, x] ++ b)).2)

/-- FRAME_START when the conditions of R149 hold, on an idle line or joining within the window: the pending report leaves the slot as the
frame on the line and its start bit is driven. With no report pending, in self-silence, while a break is driven, or with the idle gap not
complete and no joining window open, no frame starts. FRAME_SENT: the frame leaves the transmitter and the run of consecutive clashes returns
to 0 (R156). Nothing else moves. That FRAME_SENT may come from any place of the frame is log 15, and the joining window as a flag and
the gap measure at 0 after the frame are log 16 (DESIGN CHOICE both). -/
def Obligations.FrameStartsAndCompletes : Prop :=
  (∀ (f : Frame) (s : State), s.works = true → s.line.slot = some f → s.line.silence = none → s.line.breakDriving = false →
    s.line.sending = none → s.line.gap = some 192 → s.line.rx = .ready →
    ∃ t, exec .frameStart s = .next t ∧ t.lineDriver = true ∧
      t = { s with line := { s.line with
        slot := none, sending := some f, rx := .inFrame true [] [], run := .inProgress, joinOpen := false } }) ∧
  (∀ (f : Frame) (r : Bool) (s : State), s.works = true → s.line.slot = some f → s.line.silence = none →
    s.line.breakDriving = false → s.line.sending = none → s.line.joinOpen = true → s.line.rx = .inFrame r [] [] →
    ∃ t, exec .frameStart s = .next t ∧ t.lineDriver = true ∧
      t = { s with line := { s.line with
        slot := none, sending := some f, run := .inProgress, joinOpen := false } }) ∧
  (∀ s : State, s.line.slot = none ∨ s.line.silence.isSome = true ∨ s.line.breakDriving = true ∨
      (s.line.gap ≠ some 192 ∧ s.line.joinOpen = false) →
    exec .frameStart s = .next s) ∧
  (∀ (f : Frame) (r : Bool) (chars : Frame) (bits : List Bool) (s : State), s.works = true → s.line.sending = some f →
    s.line.rx = .inFrame r chars bits →
    exec .frameSent s = .next { s with line := { s.line with
      rx := .awaitGap, sending := none, clashRun := 0, gap := some 0, joinOpen := false } })

/-- ARBITRATION_LOST at a data bit of the first two characters (R150, R156): the frame returns to the slot, or is dropped and counted
superseded when a newer report is pending; no clash is counted and the receiver goes on decoding. CLASH (R151, R152): a dominant bit
sent and read recessive is counted at once, a recessive bit sent after arbitration and read dominant by DOMINANT_RUN_END; the eighth
counted clash in a run starts the self-silence of eight report periods with the run back at 0; a framing error that waits for the end of
the same run is counted with it. Nothing outside the line interface
moves. That the bits before the place are taken as read back as sent, and not counted, is log 15 (DESIGN CHOICE). -/
def Obligations.LostAndClashedFramesReturn : Prop :=
  (∀ (f : Frame) (r : Bool) (char bit : Nat) (x : Samples) (s : State), s.works = true → s.line.sending = some f →
    s.line.rx = .inFrame r [] [] → s.line.deferredFraming = false → s.line.deferredClash = false →
    char < f.length → bit ≤ 10 →
    let v := (x.t7 && x.t8) || (x.t7 && x.t9) || (x.t8 && x.t9)
    let returned := fun t : State => t = { s with line := t.line } ∧ t.line.sending = none ∧
      (s.line.slot = none → t.line.slot = some f ∧ t.line.superseded = s.line.superseded) ∧
      (∀ g, s.line.slot = some g → t.line.slot = some g ∧ t.line.superseded = min 255 (s.line.superseded + 1))
    (char < 2 → 1 ≤ bit → bit ≤ 8 → f.sentBit char bit = true → v = false →
      ∃ t, exec (.arbitrationLost char bit x) s = .next t ∧ returned t ∧
        t.line.clashes = s.line.clashes ∧ t.line.clashRun = s.line.clashRun ∧ t.line.deferredClash = false ∧
        t.line.rx = .inFrame r (f.take char) ((List.range bit).map (f.sentBit char) ++ [false])) ∧
    (f.sentBit char bit = false → v = true →
      ∃ t, exec (.clash char bit x) s = .next t ∧ returned t ∧ t.line.clashes = min 255 (s.line.clashes + 1) ∧
        (s.line.clashRun < 7 → t.line.clashRun = s.line.clashRun + 1 ∧ t.line.silence = s.line.silence) ∧
        (s.line.clashRun = 7 → t.line.clashRun = 0 ∧ t.line.silence = some (8 * s.cfg.period * 1000))) ∧
    (f.sentBit char bit = true → v = false → 2 ≤ char ∨ (char = 1 ∧ 9 ≤ bit) →
      ∃ t, exec (.clash char bit x) s = .next t ∧ returned t ∧ t.line.clashes = s.line.clashes ∧
        t.line.clashRun = s.line.clashRun ∧ t.line.deferredClash = true)) ∧
  (∀ s : State, s.works = true → s.line.deferredClash = true →
    let framing := if s.line.deferredFraming then min 255 (s.line.framing + 1) else s.line.framing
    (s.line.clashRun < 7 → exec .dominantRunEnd s = .next { s with line := { s.line with
      framing := framing, deferredFraming := false, clashes := min 255 (s.line.clashes + 1),
      clashRun := s.line.clashRun + 1, deferredClash := false, run := .absent, joinOpen := false } }) ∧
    (s.line.clashRun = 7 → exec .dominantRunEnd s = .next { s with line := { s.line with
      framing := framing, deferredFraming := false, clashes := min 255 (s.line.clashes + 1), clashRun := 0,
      silence := some (8 * s.cfg.period * 1000), deferredClash := false, run := .absent, joinOpen := false } })) ∧
  (∀ s : State, s.works = true → s.line.deferredClash = false →
    exec .dominantRunEnd s = .next { s with line := { s.line with
      framing := if s.line.deferredFraming then min 255 (s.line.framing + 1) else s.line.framing, deferredFraming := false,
      run := .absent, joinOpen := false } })

/-- BREAK_HEARD, once for a dominant run (R153, R156, R173): the receiver goes to AWAIT GAP with no error counted, a frame being sent
returns to its slot or is counted superseded, deferred counts are dropped, the break request flag is cleared, and the station hushes
from LISTENING, AUTO or STANDBY, remembering the mode, or restarts its hush; the sweep engine is hushed as R138 says (its last grant
funds: log 32). BREAK_SEND_END (R154, R173): the line is released; with
the break request flag clear nothing else moves, and with it still set, no break having been heard since the request, the flag is
cleared and the station hushes as at a break heard; that the receiver then stays where it was is log 26 (DEDUCED). -/
def Obligations.BreaksHush : Prop :=
  (∀ s t : State, s.works = true →
    (s.line.run ≠ .heard ∧ exec .breakHeard s = .next t) ∨
      (s.line.breakDriving = true ∧ s.station.breakRequest = true ∧ exec .breakSendEnd s = .next t) →
    t = { s with
      station := t.station, line := t.line, sweep := t.sweep, water := { s.water with gtNotices := t.water.gtNotices } } ∧
    t.station = { s.station with
      mode := .hushed, breakRequest := false, hushTimer := some (s.cfg.hushHold * 1000),
      remembered := match s.station.mode with
        | .listening => some .listening
        | .auto => some .auto
        | .standby => some .standby
        | .hushed | .starting | .fault => s.station.remembered } ∧
    (s.station.mode ≠ .hushed → s.Hushes t) ∧
    (s.station.mode = .hushed → t.sweep = s.sweep ∧ t.water = s.water)) ∧
  (∀ s : State, s.works = true → s.line.run ≠ .heard →
    ∃ t, exec .breakHeard s = .next t ∧
      t.line = { s.line with
        rx := .awaitGap, gap := some 0, run := .heard, joinOpen := false, deferredFraming := false, deferredClash := false,
        sending := none, slot := t.line.slot, superseded := t.line.superseded } ∧
      (∀ f, s.line.sending = some f → s.line.slot = none → t.line.slot = some f ∧ t.line.superseded = s.line.superseded) ∧
      (∀ f g, s.line.sending = some f → s.line.slot = some g →
        t.line.slot = some g ∧ t.line.superseded = min 255 (s.line.superseded + 1)) ∧
      (s.line.sending = none → t.line.slot = s.line.slot ∧ t.line.superseded = s.line.superseded)) ∧
  (∀ s : State, s.line.breakDriving = true →
    ∃ t, exec .breakSendEnd s = .next t ∧ t.line = { s.line with breakDriving := false } ∧
      (s.station.breakRequest = false → t = { s with line := t.line }))

/-! ## The frame dispatcher and the orders (10.2, 11.3) -/

/-- Only a dispatch takes a frame out of the receive queue, and it takes the oldest free one: while an evaluation is in flight frames of
kinds 2, 3 and 4 are held (R161, R162). FRAME_DISCARDED_AT_DISPATCH (R163): a frame that fails one of tests 1 to 3 leaves the queue
counted nowhere, and one from the station's own id raises the id conflict count. ORDER_IGNORED (R171): an order for another station
or with an unknown code leaves the queue and changes nothing else. -/
def Obligations.DispatchTakesOldestFree : Prop :=
  (∀ (c : Instr) (s t : State), c ≠ .reset → exec c s = .next t → ¬ (∃ new, t.dispatcher.queue = s.dispatcher.queue ++ new) →
    (c = .dispatchForecast ∨ c = .dispatchMonitor ∨ c = .dispatchMachine ∨ c = .dispatchReport ∨ c = .dispatchPond ∨
      c = .dispatchOrderMode ∨ c = .dispatchOrderBank ∨ c = .dispatchOrderForce ∨ c = .dispatchOrderResume ∨
      c = .dispatchOrderZero ∨ c = .orderIgnored ∨ c = .frameDiscardedAtDispatch) ∧
    ∃ older f newer, s.dispatcher.queue = older ++ f :: newer ∧ t.dispatcher.queue = older ++ newer ∧
      (s.risk.flight.isSome = true → f.kind ≠ 2 ∧ f.kind ≠ 3 ∧ f.kind ≠ 4) ∧
      ∀ g ∈ older, s.risk.flight.isSome = true ∧ (g.kind = 2 ∨ g.kind = 3 ∨ g.kind = 4)) ∧
  (∀ (f : Frame) (s : State), s.works = true → s.oldestFree = some f →
    (f.kind = 0 ∨ 6 < f.kind ∨ f.lengthFits = false ∨ f.sender = 0 ∨ 239 < f.sender →
      exec .frameDiscardedAtDispatch s = .next { s with dispatcher := { s.dispatcher with
        queue := s.dispatcher.queue.eraseP (fun g => !s.holds g) } }) ∧
    (f.valid = true → f.sender = s.cfg.id →
      exec .frameDiscardedAtDispatch s = .next { s with dispatcher := { s.dispatcher with
        queue := s.dispatcher.queue.eraseP (fun g => !s.holds g),
        idConflict := min 255 (s.dispatcher.idConflict + 1) } }) ∧
    (f.valid = true → f.kind = 4 → f.sender ≠ s.cfg.id →
      (f.payload 0 1 ≠ s.cfg.id ∧ f.payload 0 1 ≠ 255) ∨ f.payload 1 1 = 0 ∨ 5 < f.payload 1 1 →
      exec .orderIgnored s = .next { s with dispatcher := { s.dispatcher with
        queue := s.dispatcher.queue.eraseP (fun g => !s.holds g) } }))

/-- DISPATCH_ORDER_MODE of an order for this station (R170, R171, R172, R174): in LISTENING it sets the target, in AUTO and STANDBY it
changes the mode when it names the other, in HUSHED it changes the remembered mode, or the target when LISTENING is remembered. Any
other argument than 1 and 2 changes nothing but the queue. At the change to STANDBY every channel but a FAULTED one is hushed, and at
the change to AUTO every HUSHED channel goes WIND-HELD, WAITING or IDLE, or is granted (R138; the last grant funds at a hush: log 32). -/
def Obligations.ModeOrderSetsMode : Prop :=
  ∀ (f : Frame) (s : State), s.works = true → s.oldestFree = some f → f.valid = true → f.kind = 4 → f.sender ≠ s.cfg.id →
    f.payload 0 1 = s.cfg.id ∨ f.payload 0 1 = 255 → f.payload 1 1 = 1 →
    ∃ t, exec .dispatchOrderMode s = .next t ∧
      t = { s with
        dispatcher := { s.dispatcher with queue := s.dispatcher.queue.eraseP (fun g => !s.holds g) },
        station := t.station, sweep := t.sweep, water := { s.water with gtNotices := t.water.gtNotices } } ∧
      (f.payload 2 1 ≠ 1 → f.payload 2 1 ≠ 2 → t.station = s.station ∧ t.sweep = s.sweep ∧ t.water = s.water) ∧
      (∀ target, (f.payload 2 1 = 1 ∧ target = Target.auto) ∨ (f.payload 2 1 = 2 ∧ target = Target.standby) →
        (s.station.mode = .listening → t.station = { s.station with target := target } ∧ t.sweep = s.sweep ∧ t.water = s.water) ∧
        (s.station.mode = .auto → target = .auto → t.station = s.station ∧ t.sweep = s.sweep ∧ t.water = s.water) ∧
        (s.station.mode = .standby → target = .standby → t.station = s.station ∧ t.sweep = s.sweep ∧ t.water = s.water) ∧
        (s.station.mode = .auto → target = .standby → t.station = { s.station with mode := .standby } ∧
          s.Hushes t) ∧
        (s.station.mode = .standby → target = .auto → t.station = { s.station with mode := .auto } ∧
          s.Wakes t ∧ ∀ ch ∈ t.sweep.channels, ch.state ≠ .hushed) ∧
        (s.station.mode = .hushed → s.station.remembered = some .listening →
          t.station = { s.station with target := target } ∧ t.sweep = s.sweep ∧ t.water = s.water) ∧
        (s.station.mode = .hushed → s.station.remembered = some .auto ∨ s.station.remembered = some .standby →
          t.station = { s.station with remembered := some (if target = .auto then .auto else .standby) } ∧
          t.sweep = s.sweep ∧ t.water = s.water))

/-- DISPATCH_ORDER_BANK of an order for this station (R135): the requested bank is set, a channel in IDLE, WAITING or HUSHED, or WIND-HELD
without a cursor, runs it at once, and every other keeps its bank with its swap pending exactly while the two differ; a
FAULTED channel keeps its bank and its flag as they stood (R126; that the flag is not set or cleared with the others' is log 9,
DEDUCED). A swap taken at once leaves the cursor none (in IDLE log 34), and the channel goes by its eligible legs in the new bank: IDLE
without one; with one a WAITING channel waits on, a WIND-HELD one stays held, and an IDLE one, in AUTO, waits or is WIND-HELD; a
HUSHED one stays. A WAITING channel whose priority changes and one that joins go to the back of their groups, in channel order, the
others keep their places (R119), and one grant scan follows (for several swaps one, log 31): it may grant a channel that waits, which
then takes its cursor's step or begins a pass. Every other channel keeps its state, cursor and grant, and without a swap taken at once
the two lists stand. Another argument than 0 and 1 changes nothing but the queue. -/
def Obligations.BankOrderSwapsBanks : Prop :=
  ∀ (f : Frame) (s : State), s.works = true → s.oldestFree = some f → f.valid = true → f.kind = 4 → f.sender ≠ s.cfg.id →
    f.payload 0 1 = s.cfg.id ∨ f.payload 0 1 = 255 → f.payload 1 1 = 2 →
    ∃ t, exec .dispatchOrderBank s = .next t ∧
      t = { s with
        dispatcher := { s.dispatcher with queue := s.dispatcher.queue.eraseP (fun g => !s.holds g) },
        sweep := t.sweep, water := { s.water with gtNotices := t.water.gtNotices } } ∧
      (1 < f.payload 2 1 → t.sweep = s.sweep ∧ t.water = s.water) ∧
      (∀ requested, (f.payload 2 1 = 0 ∧ requested = Bank.a) ∨ (f.payload 2 1 = 1 ∧ requested = Bank.b) →
        t.sweep.requested = requested ∧ t.sweep.channels.length = s.sweep.channels.length ∧
        ∀ c, c < s.sweep.channels.length →
          ((s.channel c).state = .idle ∨ (s.channel c).state = .waiting ∨ (s.channel c).state = .hushed ∨
              ((s.channel c).state = .windHeld ∧ (s.channel c).cursor = none) →
            (t.channel c).bank = requested ∧ (t.channel c).swapPending = false) ∧
          ((s.channel c).state.runs = true ∨ (s.channel c).state = .denied ∨
              ((s.channel c).state = .windHeld ∧ (s.channel c).cursor ≠ none) →
            (t.channel c).bank = (s.channel c).bank ∧
            ((t.channel c).swapPending = true ↔ (s.channel c).bank ≠ requested)) ∧
          ((s.channel c).state = .faulted →
            (t.channel c).bank = (s.channel c).bank ∧ (t.channel c).swapPending = (s.channel c).swapPending)) ∧
      (s.OrdersTell → ∀ requested, (f.payload 2 1 = 0 ∧ requested = Bank.a) ∨ (f.payload 2 1 = 1 ∧ requested = Bank.b) →
        let swaps (c : Nat) : Prop := c < s.sweep.channels.length ∧ (s.channel c).bank ≠ requested ∧
          ((s.channel c).state = .idle ∨ (s.channel c).state = .waiting ∨ (s.channel c).state = .hushed ∨
            ((s.channel c).state = .windHeld ∧ (s.channel c).cursor = none))
        let stays (c : Nat) : Bool := s.sweep.waiting.contains c && decide (t.priority c = s.priority c)
        (∀ g ∈ s.sweep.grants, g ∈ t.sweep.grants) ∧
        t.water.gtNotices + s.sweep.grants.length = s.water.gtNotices + t.sweep.grants.length ∧
        ((∀ c, ¬ swaps c) → t.sweep.grants = s.sweep.grants ∧ t.sweep.waiting = s.sweep.waiting) ∧
        ((∃ c, swaps c) → s.station.mode = .auto → ∀ c ∈ t.sweep.waiting, t.grantable c = false) ∧
        (t.sweep.waiting.filter stays).Sublist s.sweep.waiting ∧
        (s.PriorityOrders → t.sweep.waiting.Pairwise (fun c d => (t.priority d).num < (t.priority c).num ∨
          (t.priority d = t.priority c ∧ (stays c = true ∨ (stays d = false ∧ c < d))))) ∧
        ∀ c, c < s.sweep.channels.length →
          let before := s.channel c
          let after := t.channel c
          let newPlan := match requested with | .a => (s.channelCfg c).planA | .b => (s.channelCfg c).planB
          let eligible (g : Leg) : Prop := g.minimum ≤ (s.finalLevel g.face).num
          let work := ∃ g ∈ newPlan, eligible g
          let kept := after = { before with swapPending := after.swapPending, mark := after.mark }
          let placed (state : ChannelState) (cursor : Option Cursor) (plan : List Leg) : Prop :=
            (after.state = state ∧ after.cursor = cursor ∧ c ∈ t.sweep.waiting) ∨
            (after.state = .slewing ∧ c ∈ t.sweep.grants.map Grant.channel ∧ c ∉ t.sweep.waiting ∧
              (cursor.isSome = true → after.cursor = cursor) ∧
              (cursor = none → ∃ j g, after.cursor = some ⟨j, 0⟩ ∧ plan[j]? = some g ∧ eligible g ∧
                ∀ i h, i < j → plan[i]? = some h → ¬ eligible h))
          (before.state.runs = true → kept ∧ c ∈ t.sweep.grants.map Grant.channel) ∧
          (before.state.waits = false → ¬ swaps c → kept) ∧
          (before.state.waits = true → ¬ swaps c → placed before.state before.cursor (s.plan c)) ∧
          (swaps c → before.state = .hushed → after.state = .hushed ∧ after.cursor = none) ∧
          (swaps c → before.state = .windHeld → after.cursor = none ∧ (work → after.state = .windHeld) ∧
            (¬ work → after.state = .idle)) ∧
          (swaps c → before.state = .waiting → (work → placed .waiting none newPlan) ∧
            (¬ work → after.state = .idle ∧ after.cursor = none ∧ c ∉ t.sweep.waiting)) ∧
          (swaps c → before.state = .idle →
            (¬ (work ∧ s.station.mode = .auto) → after.state = .idle ∧ after.cursor = none) ∧
            (work → s.station.mode = .auto → (s.channelCfg c).cutoff < s.wind.uEff →
              after.state = .windHeld ∧ after.cursor = none) ∧
            (work → s.station.mode = .auto → s.wind.uEff ≤ (s.channelCfg c).cutoff → placed .waiting none newPlan)))

/-- DISPATCH_ORDER_FORCE of an order for this station (R45, R171): level 0 to 4 with 1 to 240 minutes sets the face's override with its
countdown, level 255 removes it, and any other order, or a face that is not configured, changes nothing but the queue. No final level
moves. -/
def Obligations.ForceOrderSetsOverride : Prop :=
  ∀ (f : Frame) (s : State), s.works = true → s.oldestFree = some f → f.valid = true → f.kind = 4 → f.sender ≠ s.cfg.id →
    f.payload 0 1 = s.cfg.id ∨ f.payload 0 1 = 255 → f.payload 1 1 = 3 →
    let face := f.payload 2 1
    let level := f.payload 3 1
    let minutes := f.payload 4 1
    ∃ t, exec .dispatchOrderForce s = .next t ∧
      t = { s with
        dispatcher := { s.dispatcher with queue := s.dispatcher.queue.eraseP (fun g => !s.holds g) },
        risk := { s.risk with faces := t.risk.faces } } ∧
      (face = 0 ∨ s.cfg.faces.length < face ∨ (4 < level ∧ level ≠ 255) ∨ (level ≤ 4 ∧ (minutes = 0 ∨ 240 < minutes)) →
        t.risk.faces = s.risk.faces) ∧
      (1 ≤ face → face ≤ s.cfg.faces.length → level ≤ 4 → 1 ≤ minutes → minutes ≤ 240 →
        t.risk.faces.length = s.risk.faces.length ∧ ∀ i r, s.risk.faces[i]? = some r → t.risk.faces[i]? = some
          (if i + 1 = face then { r with override := some ⟨Level.ofNum level, some (minutes * 60 * 1000)⟩ } else r)) ∧
      (1 ≤ face → face ≤ s.cfg.faces.length → level = 255 →
        t.risk.faces.length = s.risk.faces.length ∧ ∀ i r, s.risk.faces[i]? = some r → t.risk.faces[i]? = some
          (if i + 1 = face then { r with override := none } else r))

/-- DISPATCH_ORDER_ZERO of an order for this station sets both volumes and both remainders to 0, whatever its arguments and in every mode
in which orders are dispatched (R111); while an evaluation is in flight an order is not free to be taken. -/
def Obligations.ZeroOrderZeroesVolumes : Prop :=
  (∀ (f : Frame) (s : State), s.works = true → s.oldestFree = some f → f.valid = true → f.kind = 4 → f.sender ≠ s.cfg.id →
    f.payload 0 1 = s.cfg.id ∨ f.payload 0 1 = 255 → f.payload 1 1 = 5 →
    exec .dispatchOrderZero s = .next { s with
      dispatcher := { s.dispatcher with queue := s.dispatcher.queue.eraseP (fun g => !s.holds g) },
      water := { s.water with reuse := 0, reuseRem := 0, fresh := 0, freshRem := 0 } }) ∧
  (∀ (f : Frame) (s : State), s.oldestFree = some f → f.kind = 4 → s.risk.flight = none)

/-! ## Station control (chapter 11) -/

/-- While the mode is HUSHED (R174): HUSH_HOLD_EXPIRY, of the timer run out, and DISPATCH_ORDER_RESUME make the mode the remembered mode
and stop the timer, AUTO bringing every channel out of HUSHED, to WIND-HELD, WAITING, IDLE or a grant, and every other mode hushing
the channels (R138; the last grant funds at a hush: log 32); with the timer not run out, as after a break, no expiry occurs (R173). A
RESUME in any other mode has no effect. LISTENING_TIMER_EXPIRY in LISTENING makes the mode the listening target (R170), and in a hush
that remembers LISTENING makes the target the remembered mode, the hush running on. -/
def Obligations.HushAndListeningEnd : Prop :=
  (∀ s : State, s.station.hushTimer ≠ some 0 → exec .hushHoldExpiry s = .next s) ∧
  (∀ (r : Remembered) (s : State), s.station.mode = .hushed → s.station.hushTimer = some 0 →
    s.station.remembered = some r →
    ∃ t, exec .hushHoldExpiry s = .next t ∧ s.SweepOnly { t with station := s.station } ∧
      t.station = { s.station with
        mode := match r with | .listening => .listening | .auto => .auto | .standby => .standby,
        remembered := none, hushTimer := none } ∧
      (r = .auto → s.Wakes t ∧ ∀ ch ∈ t.sweep.channels, ch.state ≠ .hushed) ∧ (r ≠ .auto → s.Hushes t)) ∧
  (∀ (f : Frame) (s : State), s.works = true → s.oldestFree = some f → f.valid = true → f.kind = 4 → f.sender ≠ s.cfg.id →
    f.payload 0 1 = s.cfg.id ∨ f.payload 0 1 = 255 → f.payload 1 1 = 4 →
    ∃ t, exec .dispatchOrderResume s = .next t ∧
      t = { s with
        dispatcher := { s.dispatcher with queue := s.dispatcher.queue.eraseP (fun g => !s.holds g) },
        station := t.station, sweep := t.sweep, water := { s.water with gtNotices := t.water.gtNotices } } ∧
      (s.station.mode ≠ .hushed → t.station = s.station ∧ t.sweep = s.sweep ∧ t.water = s.water) ∧
      (∀ r, s.station.mode = .hushed → s.station.remembered = some r →
        t.station = { s.station with
          mode := match r with | .listening => .listening | .auto => .auto | .standby => .standby,
          remembered := none, hushTimer := none } ∧
        (r = .auto → s.Wakes t ∧ ∀ ch ∈ t.sweep.channels, ch.state ≠ .hushed) ∧ (r ≠ .auto → s.Hushes t))) ∧
  (∀ s : State, s.station.mode = .listening → s.station.listeningTimer.isSome = true →
    ∃ t, exec .listeningTimerExpiry s = .next t ∧ s.SweepOnly { t with station := s.station } ∧
      t.station = { s.station with
        mode := match s.station.target with | .auto => .auto | .standby => .standby, listeningTimer := none } ∧
      (s.station.target = .auto → s.Wakes t ∧ ∀ ch ∈ t.sweep.channels, ch.state ≠ .hushed) ∧
      (s.station.target = .standby → s.Hushes t)) ∧
  (∀ s : State, s.station.mode = .hushed → s.station.remembered = some .listening →
    s.station.listeningTimer.isSome = true →
    exec .listeningTimerExpiry s = .next { s with station := { s.station with
      listeningTimer := none,
      remembered := some (match s.station.target with | .auto => .auto | .standby => .standby) } })

/-- REPORT_TIMER_EXPIRY (R155, R164, R175): the report joins an empty slot or replaces the pending one, counted superseded; the page
advances and the timer restarts; a frame on the line is not touched. What a station reports, another reads (10.3, R81): the report is
a shaped frame of 41 characters with matching checks that passes the tests at dispatch, and the record that the peer table makes of
it holds the sender's figures, for figures in their ranges. claim_r is the smaller of G_t and S_r, and claim_f the rest of G_t (R108);
the report carries both, the two volumes, the faults byte, and the three count characters of its page (R164), for counts in their
ranges. -/
def Obligations.ReportIsReadAsReported : Prop :=
  (∀ s : State, s.station.reportTimer.isSome = true →
    exec .reportTimerExpiry s = .next { s with
      station := { s.station with page := (s.station.page + 1) % 4, reportTimer := some (s.cfg.period * 1000) },
      line := { s.line with
        slot := some s.report,
        superseded := if s.line.slot.isSome then min 255 (s.line.superseded + 1) else s.line.superseded } }) ∧
  (∀ s : State, s.report.length = 41 ∧ s.report.kind = 5 ∧ s.report.payloadLength = 36 ∧ s.report.verified = true ∧
    Frame.shaped s.report = true) ∧
  (∀ s : State, 1 ≤ s.cfg.id → s.cfg.id ≤ 239 → 1 ≤ s.cfg.period → s.cfg.period ≤ 255 → s.works = true →
    s.cfg.gridX < 65536 → s.cfg.gridY < 65536 → s.wind.uEff ≤ 600 → s.wind.sector ≤ 15 → s.risk.w ≤ 992 → s.risk.hw ≤ 992 →
    (∀ r ∈ s.risk.faces, r.eri ≤ 992) → s.cfg.faces.length ≤ 6 → s.risk.faces.length = s.cfg.faces.length →
    s.claimReuse < 65536 → s.claimFresh < 65536 →
    s.report.valid = true ∧ reportAccepted s.report = true ∧
    peerRecord s.report =
      { id := s.cfg.id, x := s.cfg.gridX, y := s.cfg.gridY, period := s.cfg.period, mode := s.station.mode,
        speed := s.wind.uEff, sector := s.wind.sector, source := s.wind.source, maxEri := s.maxEri, w := s.risk.w,
        hw := s.risk.hw, highest := Level.ofNum ((s.risk.faces.map (fun r => r.level.num)).foldl max 0),
        claimR := s.claimReuse, claimF := s.claimFresh, stale := false, age := 0 }) ∧
  (∀ s : State, s.claimReuse = min s.granted s.water.sR ∧ s.claimFresh = s.granted - min s.granted s.water.sR) ∧
  (∀ s : State, s.claimReuse < 65536 → s.claimFresh < 65536 → s.water.reuse ≤ 4294967295 → s.water.fresh ≤ 4294967295 →
    s.report.payload 20 2 = s.claimReuse ∧ s.report.payload 22 2 = s.claimFresh ∧ s.report.payload 24 4 = s.water.reuse ∧
    s.report.payload 28 4 = s.water.fresh ∧ s.report.payload 32 1 = s.faultsByte) ∧
  (∀ s : State, s.CountsHold → (s.sweep.channels.map Channel.laps).sum < 16777216 →
    let count (i : Nat) : Nat := s.report.payload (33 + i) 1
    (s.station.page = 0 → count 0 = s.dispatcher.overrun ∧ count 1 = s.dispatcher.checkFail ∧ count 2 = s.line.clashes) ∧
    (s.station.page = 1 → count 0 = s.line.noise ∧ count 1 = s.line.framing ∧ count 2 = s.line.superseded) ∧
    (s.station.page = 2 → count 0 = s.machines.refused ∧ count 1 = s.peers.refused ∧ count 2 = s.dispatcher.idConflict) ∧
    (s.station.page = 3 → s.report.payload 33 3 = (s.sweep.channels.map Channel.laps).sum))

/-- FAULT_PATTERN_TICK in FAULT with code n (R176): the pattern goes through n assertions, each 200 ms long and followed by 200 ms
released, then 1.6 s released, and begins again; the output is asserted in phases 0, 2, … below 2n alone. Outside STARTING and FAULT
the output stands asserted exactly while a channel is FAULTED, the anemometer is STUCK or the self-silence timer runs; in the faults
byte STUCK is bit 0, a FAULTED channel bit 1 and the self-silence bit 2 (R175, R176). That each 200 ms is a phase of its own, the last
with its 1.6 s after it, is log 22 (DEDUCED). -/
def Obligations.FaultOutputTells : Prop :=
  (∀ (n : Nat) (s : State), s.station.mode = .fault → s.station.faultCode = some n → s.station.patternPhase ≤ 2 * n → 1 ≤ n →
    (s.station.patternPhase < 2 * n →
      exec .faultPatternTick s = .next { s with station := { s.station with
        patternPhase := s.station.patternPhase + 1,
        patternTimer := some (if s.station.patternPhase + 1 = 2 * n then 1600 else 200) } }) ∧
    (s.station.patternPhase = 2 * n →
      exec .faultPatternTick s = .next { s with station := { s.station with patternPhase := 0, patternTimer := some 200 } }) ∧
    (s.faultOutput = true ↔ s.station.patternPhase % 2 = 0 ∧ s.station.patternPhase < 2 * n)) ∧
  (∀ s : State, s.station.mode = .starting → s.faultOutput = false) ∧
  (∀ s : State, s.works = true →
    (s.faultOutput = true ↔ (∃ ch ∈ s.sweep.channels, ch.state = .faulted) ∨ s.wind.health = .stuck ∨
      s.line.silence.isSome = true) ∧
    (s.faultsByte % 8 = 0 ↔ s.faultOutput = false) ∧
    (s.faultsByte % 2 = 1 ↔ s.wind.health = .stuck) ∧
    (s.faultsByte / 2 % 2 = 1 ↔ ∃ ch ∈ s.sweep.channels, ch.state = .faulted) ∧
    (s.faultsByte / 4 % 2 = 1 ↔ s.line.silence.isSome = true) ∧
    s.faultsByte < 256 ∧ s.faultsByte / 64 = s.station.page % 4 ∧
    ((s.faultsByte / 8 % 2 = 1) ↔ 0 < s.dispatcher.idConflict) ∧
    ((s.faultsByte / 16 % 2 = 1) ↔ s.water.silent = true) ∧
    ((s.faultsByte / 32 % 2 = 1) ↔ s.wind.source = .failsafe))

/-! ## Invariants -/

/-- The invariants of this file hold right after reset. -/
def Obligations.InvariantsHoldAtReset : Prop :=
  State.reset.CountsHold ∧ State.reset.ListsHold ∧ State.reset.StoreHolds ∧ State.reset.FiguresHold ∧
  State.reset.ValvesTell ∧ State.reset.OrdersTell ∧ State.reset.PriorityOrders ∧ State.reset.GrantsHold ∧ State.reset.ClosedOutsideAuto ∧
  State.reset.SprayClear ∧ State.reset.HushTells ∧ State.reset.BlocksAtRest

/-- Every step keeps every count within its range (R2, R7, R70, R84, R118, R137, R151, R157, R161, R163, R164); the receive queue at most
8 frames long, the peer table and the machine list within 32 and 8 records in ascending id (for the machine list the model's order, log
25), and the sample ring's places and index (R4, R70, R83, R161); the forecast store's six places, its recency order and the selected window in its place (R20, R21, R27). -/
def Obligations.StepKeepsRanges : Prop :=
  (∀ s t : State, s.CountsHold → step s = .next t → t.CountsHold) ∧
  (∀ s t : State, s.ListsHold → step s = .next t → t.ListsHold) ∧
  (∀ s t : State, s.StoreHolds → step s = .next t → t.StoreHolds)

/-- Every step keeps the speeds within 600, U_local between U_mean and U_gust, the moistures within 4095, the ERIs and weights within 992
and the base levels off PREWET (R2, R5, R41, R42, R49, R50, R52). -/
def Obligations.StepKeepsFigures : Prop :=
  ∀ s t : State, s.FiguresHold → step s = .next t → t.FiguresHold

/-- Every step keeps each valve commanded open in OPENING and SPRAYING and in no other state (8.3), and the remembered mode and the hush
hold timer standing exactly while the mode is HUSHED (R173, R174). "In every mode other than AUTO, no channel is granted and every
valve output is commanded closed" (R138): every step keeps that too. -/
def Obligations.StepKeepsValvesShut : Prop :=
  (∀ s t : State, s.ValvesTell → step s = .next t → t.ValvesTell) ∧
  (∀ s t : State, s.HushTells → step s = .next t → t.HushTells) ∧
  (∀ s t : State, s.ClosedOutsideAuto → s.ValvesTell → step s = .next t →
    t.ClosedOutsideAuto ∧ (t.station.mode ≠ .auto → ∀ c, t.valveOutput c = false))

/-- Every step keeps the grant list at exactly the running channels and the waiting order at exactly the waiting ones, each once (8.3,
R119, R127), and both in order of priority, highest first: the grant list is "ordered by priority" (R127), the waiting order is "grouped
by priority, highest group first" (R119). -/
def Obligations.StepKeepsOrders : Prop :=
  (∀ s t : State, s.OrdersTell → step s = .next t → t.OrdersTell) ∧
  (∀ s t : State, s.OrdersTell → s.PriorityOrders → step s = .next t → t.PriorityOrders)

/-- "The sum of nominal flows of a station's granted channels never exceeds S_r + S_f. While any granted channel's priority is below
HEAVY, it never exceeds S_r" (R127): every step keeps it. -/
def Obligations.StepKeepsGrantsWithinShares : Prop :=
  ∀ s t : State, s.OrdersTell → s.GrantsHold → step s = .next t → t.GrantsHold

/-- "No valve is commanded open while its channel's aimed azimuth lies inside an active exclusion arc" (R123): every step keeps it. -/
def Obligations.StepKeepsArcsDry : Prop :=
  ∀ s t : State, s.SprayClear → s.ValvesTell → step s = .next t →
    t.SprayClear ∧ ∀ c, t.valveOutput c = true → ∀ a ∈ (t.channel c).aim, t.inActiveArc c a.1 = false
end

