-- ==== Sys2Proof/Laws/State.lean ====
section
/-! SUPPORT. One lemma per field per update of a block, so that no later proof unfolds a record update. -/

namespace Sys2Proof.Machine

@[simp] theorem State.setStation_pending (s : State) (x : Station) : (s.setStation x).pending = s.pending := rfl
@[simp] theorem State.setStation_cfg (s : State) (x : Station) : (s.setStation x).cfg = s.cfg := rfl
@[simp] theorem State.setStation_station (s : State) (x : Station) : (s.setStation x).station = x := rfl
@[simp] theorem State.setStation_wind (s : State) (x : Station) : (s.setStation x).wind = s.wind := rfl
@[simp] theorem State.setStation_forecast (s : State) (x : Station) : (s.setStation x).forecast = s.forecast := rfl
@[simp] theorem State.setStation_risk (s : State) (x : Station) : (s.setStation x).risk = s.risk := rfl
@[simp] theorem State.setStation_fence (s : State) (x : Station) : (s.setStation x).fence = s.fence := rfl
@[simp] theorem State.setStation_machines (s : State) (x : Station) : (s.setStation x).machines = s.machines := rfl
@[simp] theorem State.setStation_peers (s : State) (x : Station) : (s.setStation x).peers = s.peers := rfl
@[simp] theorem State.setStation_water (s : State) (x : Station) : (s.setStation x).water = s.water := rfl
@[simp] theorem State.setStation_sweep (s : State) (x : Station) : (s.setStation x).sweep = s.sweep := rfl
@[simp] theorem State.setStation_line (s : State) (x : Station) : (s.setStation x).line = s.line := rfl
@[simp] theorem State.setStation_dispatcher (s : State) (x : Station) : (s.setStation x).dispatcher = s.dispatcher := rfl

@[simp] theorem State.setWind_pending (s : State) (x : Wind) : (s.setWind x).pending = s.pending := rfl
@[simp] theorem State.setWind_cfg (s : State) (x : Wind) : (s.setWind x).cfg = s.cfg := rfl
@[simp] theorem State.setWind_station (s : State) (x : Wind) : (s.setWind x).station = s.station := rfl
@[simp] theorem State.setWind_wind (s : State) (x : Wind) : (s.setWind x).wind = x := rfl
@[simp] theorem State.setWind_forecast (s : State) (x : Wind) : (s.setWind x).forecast = s.forecast := rfl
@[simp] theorem State.setWind_risk (s : State) (x : Wind) : (s.setWind x).risk = s.risk := rfl
@[simp] theorem State.setWind_fence (s : State) (x : Wind) : (s.setWind x).fence = s.fence := rfl
@[simp] theorem State.setWind_machines (s : State) (x : Wind) : (s.setWind x).machines = s.machines := rfl
@[simp] theorem State.setWind_peers (s : State) (x : Wind) : (s.setWind x).peers = s.peers := rfl
@[simp] theorem State.setWind_water (s : State) (x : Wind) : (s.setWind x).water = s.water := rfl
@[simp] theorem State.setWind_sweep (s : State) (x : Wind) : (s.setWind x).sweep = s.sweep := rfl
@[simp] theorem State.setWind_line (s : State) (x : Wind) : (s.setWind x).line = s.line := rfl
@[simp] theorem State.setWind_dispatcher (s : State) (x : Wind) : (s.setWind x).dispatcher = s.dispatcher := rfl

@[simp] theorem State.setForecast_pending (s : State) (x : Forecast) : (s.setForecast x).pending = s.pending := rfl
@[simp] theorem State.setForecast_cfg (s : State) (x : Forecast) : (s.setForecast x).cfg = s.cfg := rfl
@[simp] theorem State.setForecast_station (s : State) (x : Forecast) : (s.setForecast x).station = s.station := rfl
@[simp] theorem State.setForecast_wind (s : State) (x : Forecast) : (s.setForecast x).wind = s.wind := rfl
@[simp] theorem State.setForecast_forecast (s : State) (x : Forecast) : (s.setForecast x).forecast = x := rfl
@[simp] theorem State.setForecast_risk (s : State) (x : Forecast) : (s.setForecast x).risk = s.risk := rfl
@[simp] theorem State.setForecast_fence (s : State) (x : Forecast) : (s.setForecast x).fence = s.fence := rfl
@[simp] theorem State.setForecast_machines (s : State) (x : Forecast) : (s.setForecast x).machines = s.machines := rfl
@[simp] theorem State.setForecast_peers (s : State) (x : Forecast) : (s.setForecast x).peers = s.peers := rfl
@[simp] theorem State.setForecast_water (s : State) (x : Forecast) : (s.setForecast x).water = s.water := rfl
@[simp] theorem State.setForecast_sweep (s : State) (x : Forecast) : (s.setForecast x).sweep = s.sweep := rfl
@[simp] theorem State.setForecast_line (s : State) (x : Forecast) : (s.setForecast x).line = s.line := rfl
@[simp] theorem State.setForecast_dispatcher (s : State) (x : Forecast) : (s.setForecast x).dispatcher = s.dispatcher := rfl

@[simp] theorem State.setRisk_pending (s : State) (x : Risk) : (s.setRisk x).pending = s.pending := rfl
@[simp] theorem State.setRisk_cfg (s : State) (x : Risk) : (s.setRisk x).cfg = s.cfg := rfl
@[simp] theorem State.setRisk_station (s : State) (x : Risk) : (s.setRisk x).station = s.station := rfl
@[simp] theorem State.setRisk_wind (s : State) (x : Risk) : (s.setRisk x).wind = s.wind := rfl
@[simp] theorem State.setRisk_forecast (s : State) (x : Risk) : (s.setRisk x).forecast = s.forecast := rfl
@[simp] theorem State.setRisk_risk (s : State) (x : Risk) : (s.setRisk x).risk = x := rfl
@[simp] theorem State.setRisk_fence (s : State) (x : Risk) : (s.setRisk x).fence = s.fence := rfl
@[simp] theorem State.setRisk_machines (s : State) (x : Risk) : (s.setRisk x).machines = s.machines := rfl
@[simp] theorem State.setRisk_peers (s : State) (x : Risk) : (s.setRisk x).peers = s.peers := rfl
@[simp] theorem State.setRisk_water (s : State) (x : Risk) : (s.setRisk x).water = s.water := rfl
@[simp] theorem State.setRisk_sweep (s : State) (x : Risk) : (s.setRisk x).sweep = s.sweep := rfl
@[simp] theorem State.setRisk_line (s : State) (x : Risk) : (s.setRisk x).line = s.line := rfl
@[simp] theorem State.setRisk_dispatcher (s : State) (x : Risk) : (s.setRisk x).dispatcher = s.dispatcher := rfl

@[simp] theorem State.setFence_pending (s : State) (x : Fence) : (s.setFence x).pending = s.pending := rfl
@[simp] theorem State.setFence_cfg (s : State) (x : Fence) : (s.setFence x).cfg = s.cfg := rfl
@[simp] theorem State.setFence_station (s : State) (x : Fence) : (s.setFence x).station = s.station := rfl
@[simp] theorem State.setFence_wind (s : State) (x : Fence) : (s.setFence x).wind = s.wind := rfl
@[simp] theorem State.setFence_forecast (s : State) (x : Fence) : (s.setFence x).forecast = s.forecast := rfl
@[simp] theorem State.setFence_risk (s : State) (x : Fence) : (s.setFence x).risk = s.risk := rfl
@[simp] theorem State.setFence_fence (s : State) (x : Fence) : (s.setFence x).fence = x := rfl
@[simp] theorem State.setFence_machines (s : State) (x : Fence) : (s.setFence x).machines = s.machines := rfl
@[simp] theorem State.setFence_peers (s : State) (x : Fence) : (s.setFence x).peers = s.peers := rfl
@[simp] theorem State.setFence_water (s : State) (x : Fence) : (s.setFence x).water = s.water := rfl
@[simp] theorem State.setFence_sweep (s : State) (x : Fence) : (s.setFence x).sweep = s.sweep := rfl
@[simp] theorem State.setFence_line (s : State) (x : Fence) : (s.setFence x).line = s.line := rfl
@[simp] theorem State.setFence_dispatcher (s : State) (x : Fence) : (s.setFence x).dispatcher = s.dispatcher := rfl

@[simp] theorem State.setMachines_pending (s : State) (x : Machines) : (s.setMachines x).pending = s.pending := rfl
@[simp] theorem State.setMachines_cfg (s : State) (x : Machines) : (s.setMachines x).cfg = s.cfg := rfl
@[simp] theorem State.setMachines_station (s : State) (x : Machines) : (s.setMachines x).station = s.station := rfl
@[simp] theorem State.setMachines_wind (s : State) (x : Machines) : (s.setMachines x).wind = s.wind := rfl
@[simp] theorem State.setMachines_forecast (s : State) (x : Machines) : (s.setMachines x).forecast = s.forecast := rfl
@[simp] theorem State.setMachines_risk (s : State) (x : Machines) : (s.setMachines x).risk = s.risk := rfl
@[simp] theorem State.setMachines_fence (s : State) (x : Machines) : (s.setMachines x).fence = s.fence := rfl
@[simp] theorem State.setMachines_machines (s : State) (x : Machines) : (s.setMachines x).machines = x := rfl
@[simp] theorem State.setMachines_peers (s : State) (x : Machines) : (s.setMachines x).peers = s.peers := rfl
@[simp] theorem State.setMachines_water (s : State) (x : Machines) : (s.setMachines x).water = s.water := rfl
@[simp] theorem State.setMachines_sweep (s : State) (x : Machines) : (s.setMachines x).sweep = s.sweep := rfl
@[simp] theorem State.setMachines_line (s : State) (x : Machines) : (s.setMachines x).line = s.line := rfl
@[simp] theorem State.setMachines_dispatcher (s : State) (x : Machines) : (s.setMachines x).dispatcher = s.dispatcher := rfl

@[simp] theorem State.setPeers_pending (s : State) (x : Peers) : (s.setPeers x).pending = s.pending := rfl
@[simp] theorem State.setPeers_cfg (s : State) (x : Peers) : (s.setPeers x).cfg = s.cfg := rfl
@[simp] theorem State.setPeers_station (s : State) (x : Peers) : (s.setPeers x).station = s.station := rfl
@[simp] theorem State.setPeers_wind (s : State) (x : Peers) : (s.setPeers x).wind = s.wind := rfl
@[simp] theorem State.setPeers_forecast (s : State) (x : Peers) : (s.setPeers x).forecast = s.forecast := rfl
@[simp] theorem State.setPeers_risk (s : State) (x : Peers) : (s.setPeers x).risk = s.risk := rfl
@[simp] theorem State.setPeers_fence (s : State) (x : Peers) : (s.setPeers x).fence = s.fence := rfl
@[simp] theorem State.setPeers_machines (s : State) (x : Peers) : (s.setPeers x).machines = s.machines := rfl
@[simp] theorem State.setPeers_peers (s : State) (x : Peers) : (s.setPeers x).peers = x := rfl
@[simp] theorem State.setPeers_water (s : State) (x : Peers) : (s.setPeers x).water = s.water := rfl
@[simp] theorem State.setPeers_sweep (s : State) (x : Peers) : (s.setPeers x).sweep = s.sweep := rfl
@[simp] theorem State.setPeers_line (s : State) (x : Peers) : (s.setPeers x).line = s.line := rfl
@[simp] theorem State.setPeers_dispatcher (s : State) (x : Peers) : (s.setPeers x).dispatcher = s.dispatcher := rfl

@[simp] theorem State.setWater_pending (s : State) (x : Water) : (s.setWater x).pending = s.pending := rfl
@[simp] theorem State.setWater_cfg (s : State) (x : Water) : (s.setWater x).cfg = s.cfg := rfl
@[simp] theorem State.setWater_station (s : State) (x : Water) : (s.setWater x).station = s.station := rfl
@[simp] theorem State.setWater_wind (s : State) (x : Water) : (s.setWater x).wind = s.wind := rfl
@[simp] theorem State.setWater_forecast (s : State) (x : Water) : (s.setWater x).forecast = s.forecast := rfl
@[simp] theorem State.setWater_risk (s : State) (x : Water) : (s.setWater x).risk = s.risk := rfl
@[simp] theorem State.setWater_fence (s : State) (x : Water) : (s.setWater x).fence = s.fence := rfl
@[simp] theorem State.setWater_machines (s : State) (x : Water) : (s.setWater x).machines = s.machines := rfl
@[simp] theorem State.setWater_peers (s : State) (x : Water) : (s.setWater x).peers = s.peers := rfl
@[simp] theorem State.setWater_water (s : State) (x : Water) : (s.setWater x).water = x := rfl
@[simp] theorem State.setWater_sweep (s : State) (x : Water) : (s.setWater x).sweep = s.sweep := rfl
@[simp] theorem State.setWater_line (s : State) (x : Water) : (s.setWater x).line = s.line := rfl
@[simp] theorem State.setWater_dispatcher (s : State) (x : Water) : (s.setWater x).dispatcher = s.dispatcher := rfl

@[simp] theorem State.setSweep_pending (s : State) (x : Sweep) : (s.setSweep x).pending = s.pending := rfl
@[simp] theorem State.setSweep_cfg (s : State) (x : Sweep) : (s.setSweep x).cfg = s.cfg := rfl
@[simp] theorem State.setSweep_station (s : State) (x : Sweep) : (s.setSweep x).station = s.station := rfl
@[simp] theorem State.setSweep_wind (s : State) (x : Sweep) : (s.setSweep x).wind = s.wind := rfl
@[simp] theorem State.setSweep_forecast (s : State) (x : Sweep) : (s.setSweep x).forecast = s.forecast := rfl
@[simp] theorem State.setSweep_risk (s : State) (x : Sweep) : (s.setSweep x).risk = s.risk := rfl
@[simp] theorem State.setSweep_fence (s : State) (x : Sweep) : (s.setSweep x).fence = s.fence := rfl
@[simp] theorem State.setSweep_machines (s : State) (x : Sweep) : (s.setSweep x).machines = s.machines := rfl
@[simp] theorem State.setSweep_peers (s : State) (x : Sweep) : (s.setSweep x).peers = s.peers := rfl
@[simp] theorem State.setSweep_water (s : State) (x : Sweep) : (s.setSweep x).water = s.water := rfl
@[simp] theorem State.setSweep_sweep (s : State) (x : Sweep) : (s.setSweep x).sweep = x := rfl
@[simp] theorem State.setSweep_line (s : State) (x : Sweep) : (s.setSweep x).line = s.line := rfl
@[simp] theorem State.setSweep_dispatcher (s : State) (x : Sweep) : (s.setSweep x).dispatcher = s.dispatcher := rfl

@[simp] theorem State.setLine_pending (s : State) (x : Line) : (s.setLine x).pending = s.pending := rfl
@[simp] theorem State.setLine_cfg (s : State) (x : Line) : (s.setLine x).cfg = s.cfg := rfl
@[simp] theorem State.setLine_station (s : State) (x : Line) : (s.setLine x).station = s.station := rfl
@[simp] theorem State.setLine_wind (s : State) (x : Line) : (s.setLine x).wind = s.wind := rfl
@[simp] theorem State.setLine_forecast (s : State) (x : Line) : (s.setLine x).forecast = s.forecast := rfl
@[simp] theorem State.setLine_risk (s : State) (x : Line) : (s.setLine x).risk = s.risk := rfl
@[simp] theorem State.setLine_fence (s : State) (x : Line) : (s.setLine x).fence = s.fence := rfl
@[simp] theorem State.setLine_machines (s : State) (x : Line) : (s.setLine x).machines = s.machines := rfl
@[simp] theorem State.setLine_peers (s : State) (x : Line) : (s.setLine x).peers = s.peers := rfl
@[simp] theorem State.setLine_water (s : State) (x : Line) : (s.setLine x).water = s.water := rfl
@[simp] theorem State.setLine_sweep (s : State) (x : Line) : (s.setLine x).sweep = s.sweep := rfl
@[simp] theorem State.setLine_line (s : State) (x : Line) : (s.setLine x).line = x := rfl
@[simp] theorem State.setLine_dispatcher (s : State) (x : Line) : (s.setLine x).dispatcher = s.dispatcher := rfl

@[simp] theorem State.setDispatcher_pending (s : State) (x : Dispatcher) : (s.setDispatcher x).pending = s.pending := rfl
@[simp] theorem State.setDispatcher_cfg (s : State) (x : Dispatcher) : (s.setDispatcher x).cfg = s.cfg := rfl
@[simp] theorem State.setDispatcher_station (s : State) (x : Dispatcher) : (s.setDispatcher x).station = s.station := rfl
@[simp] theorem State.setDispatcher_wind (s : State) (x : Dispatcher) : (s.setDispatcher x).wind = s.wind := rfl
@[simp] theorem State.setDispatcher_forecast (s : State) (x : Dispatcher) : (s.setDispatcher x).forecast = s.forecast := rfl
@[simp] theorem State.setDispatcher_risk (s : State) (x : Dispatcher) : (s.setDispatcher x).risk = s.risk := rfl
@[simp] theorem State.setDispatcher_fence (s : State) (x : Dispatcher) : (s.setDispatcher x).fence = s.fence := rfl
@[simp] theorem State.setDispatcher_machines (s : State) (x : Dispatcher) : (s.setDispatcher x).machines = s.machines := rfl
@[simp] theorem State.setDispatcher_peers (s : State) (x : Dispatcher) : (s.setDispatcher x).peers = s.peers := rfl
@[simp] theorem State.setDispatcher_water (s : State) (x : Dispatcher) : (s.setDispatcher x).water = s.water := rfl
@[simp] theorem State.setDispatcher_sweep (s : State) (x : Dispatcher) : (s.setDispatcher x).sweep = s.sweep := rfl
@[simp] theorem State.setDispatcher_line (s : State) (x : Dispatcher) : (s.setDispatcher x).line = s.line := rfl
@[simp] theorem State.setDispatcher_dispatcher (s : State) (x : Dispatcher) : (s.setDispatcher x).dispatcher = x := rfl

@[simp] theorem State.onChannel_pending (s : State) (c : Nat) (u : Channel → Channel) : (s.onChannel c u).pending = s.pending := rfl
@[simp] theorem State.onChannel_cfg (s : State) (c : Nat) (u : Channel → Channel) : (s.onChannel c u).cfg = s.cfg := rfl
@[simp] theorem State.onChannel_station (s : State) (c : Nat) (u : Channel → Channel) : (s.onChannel c u).station = s.station := rfl
@[simp] theorem State.onChannel_wind (s : State) (c : Nat) (u : Channel → Channel) : (s.onChannel c u).wind = s.wind := rfl
@[simp] theorem State.onChannel_forecast (s : State) (c : Nat) (u : Channel → Channel) : (s.onChannel c u).forecast = s.forecast := rfl
@[simp] theorem State.onChannel_risk (s : State) (c : Nat) (u : Channel → Channel) : (s.onChannel c u).risk = s.risk := rfl
@[simp] theorem State.onChannel_fence (s : State) (c : Nat) (u : Channel → Channel) : (s.onChannel c u).fence = s.fence := rfl
@[simp] theorem State.onChannel_machines (s : State) (c : Nat) (u : Channel → Channel) : (s.onChannel c u).machines = s.machines := rfl
@[simp] theorem State.onChannel_peers (s : State) (c : Nat) (u : Channel → Channel) : (s.onChannel c u).peers = s.peers := rfl
@[simp] theorem State.onChannel_water (s : State) (c : Nat) (u : Channel → Channel) : (s.onChannel c u).water = s.water := rfl
@[simp] theorem State.onChannel_line (s : State) (c : Nat) (u : Channel → Channel) : (s.onChannel c u).line = s.line := rfl
@[simp] theorem State.onChannel_dispatcher (s : State) (c : Nat) (u : Channel → Channel) : (s.onChannel c u).dispatcher = s.dispatcher := rfl
@[simp] theorem State.onChannel_grants (s : State) (c : Nat) (u : Channel → Channel) :
    (s.onChannel c u).sweep.grants = s.sweep.grants := rfl
@[simp] theorem State.onChannel_waiting (s : State) (c : Nat) (u : Channel → Channel) :
    (s.onChannel c u).sweep.waiting = s.sweep.waiting := rfl
@[simp] theorem State.onChannel_requested (s : State) (c : Nat) (u : Channel → Channel) :
    (s.onChannel c u).sweep.requested = s.sweep.requested := rfl
@[simp] theorem State.onChannel_sR (s : State) (c : Nat) (u : Channel → Channel) :
    (s.onChannel c u).sweep.sR = s.sweep.sR := rfl
@[simp] theorem State.onChannel_sF (s : State) (c : Nat) (u : Channel → Channel) :
    (s.onChannel c u).sweep.sF = s.sweep.sF := rfl
@[simp] theorem State.onChannel_lowRun (s : State) (c : Nat) (u : Channel → Channel) :
    (s.onChannel c u).sweep.lowRun = s.sweep.lowRun := rfl
@[simp] theorem State.onChannel_pressureTimer (s : State) (c : Nat) (u : Channel → Channel) :
    (s.onChannel c u).sweep.pressureTimer = s.sweep.pressureTimer := rfl
@[simp] theorem State.onChannel_channels (s : State) (c : Nat) (u : Channel → Channel) :
    (s.onChannel c u).sweep.channels = s.sweep.channels.modify c u := rfl

@[simp] theorem State.noticeGt_pending (s : State) : s.noticeGt.pending = s.pending := rfl
@[simp] theorem State.noticeGt_cfg (s : State) : s.noticeGt.cfg = s.cfg := rfl
@[simp] theorem State.noticeGt_station (s : State) : s.noticeGt.station = s.station := rfl
@[simp] theorem State.noticeGt_wind (s : State) : s.noticeGt.wind = s.wind := rfl
@[simp] theorem State.noticeGt_forecast (s : State) : s.noticeGt.forecast = s.forecast := rfl
@[simp] theorem State.noticeGt_risk (s : State) : s.noticeGt.risk = s.risk := rfl
@[simp] theorem State.noticeGt_fence (s : State) : s.noticeGt.fence = s.fence := rfl
@[simp] theorem State.noticeGt_machines (s : State) : s.noticeGt.machines = s.machines := rfl
@[simp] theorem State.noticeGt_peers (s : State) : s.noticeGt.peers = s.peers := rfl
@[simp] theorem State.noticeGt_sweep (s : State) : s.noticeGt.sweep = s.sweep := rfl
@[simp] theorem State.noticeGt_line (s : State) : s.noticeGt.line = s.line := rfl
@[simp] theorem State.noticeGt_dispatcher (s : State) : s.noticeGt.dispatcher = s.dispatcher := rfl

end Sys2Proof.Machine
end

