-- ==== Sys2Proof/Laws/Sweep.lean ====
section
/-! SUPPORT. The reach of every operation of the sweep engine: each changes the sweep engine and the number of G_t notices only. -/

namespace Sys2Proof.Machine

theorem State.SweepOnly.refl (s : State) : s.SweepOnly s := rfl

theorem State.SweepOnly.trans {s t u : State} (h : s.SweepOnly t) (k : t.SweepOnly u) : s.SweepOnly u := by
  unfold State.SweepOnly at *
  generalize t.sweep = a at h
  generalize t.water.gtNotices = n at h
  subst h
  exact k

theorem State.SweepOnly.of_fold {α : Type} (f : State → α → State) (h : ∀ (s : State) (a : α), State.SweepOnly s (f s a)) (l : List α) (s : State) :
    s.SweepOnly (l.foldl f s) := by
  induction l generalizing s with
  | nil => exact .refl s
  | cons a l ih => exact (h s a).trans (ih (f s a))

theorem State.onChannel_only (s : State) (c : Nat) (u : Channel → Channel) : s.SweepOnly (s.onChannel c u) := rfl
theorem State.setSweep_only (s : State) (x : Sweep) : s.SweepOnly (s.setSweep x) := rfl
theorem State.noticeGt_only (s : State) : s.SweepOnly s.noticeGt := rfl
theorem State.settleWaiting_only (old s : State) : s.SweepOnly (State.settleWaiting old s) := rfl
theorem State.settleGrants_only (old s : State) : s.SweepOnly (State.settleGrants old s) := rfl
theorem State.moveToLeg_only (s : State) (c j : Nat) : s.SweepOnly (s.moveToLeg c j) := rfl
theorem State.moveToNextStep_only (s : State) (c : Nat) (k : Cursor) : s.SweepOnly (s.moveToNextStep c k) := rfl
theorem State.endPass_only (s : State) (c : Nat) : s.SweepOnly (s.endPass c) := rfl
theorem State.slewEnds_only (s : State) (c : Nat) : s.SweepOnly (s.slewEnds c) := rfl
theorem State.valveOpens_only (s : State) (c : Nat) : s.SweepOnly (s.valveOpens c) := rfl
theorem State.remark_only (s : State) : s.SweepOnly s.remark := rfl

theorem State.deriveFunds_only (s : State) : s.SweepOnly s.deriveFunds :=
  (s.setSweep_only _).trans (.of_fold _ (fun t (g : Grant) => t.onChannel_only g.channel _) _ _)

theorem State.release_only (s : State) (c : Nat) : s.SweepOnly (s.release c) :=
  ((s.setSweep_only _).trans (State.deriveFunds_only _)).trans (State.noticeGt_only _)

theorem State.advanceCursor_only (s : State) (c : Nat) : s.SweepOnly (s.advanceCursor c) := by
  unfold State.advanceCursor
  split
  · exact s.endPass_only c
  · split
    · exact s.moveToNextStep_only c _
    · split
      · exact s.moveToLeg_only c _
      · exact s.endPass_only c

theorem State.startStep_only (s : State) (c : Nat) : s.SweepOnly (s.startStep c) := by
  unfold State.startStep
  split
  · exact .refl s
  · exact s.onChannel_only c _

theorem State.beginPass_only (s : State) (c : Nat) : s.SweepOnly (s.beginPass c) := by
  unfold State.beginPass
  split
  · exact s.moveToLeg_only c _
  · exact .refl s

theorem State.grant_only (s : State) (c : Nat) : s.SweepOnly (s.grant c) :=
  ((((s.setSweep_only _).trans (State.onChannel_only _ _ _)).trans (State.noticeGt_only _)).trans
    (State.beginPass_only _ c)).trans (State.startStep_only _ c)

theorem State.scanWalk_only (s : State) (l : List Nat) : s.SweepOnly (s.scanWalk l) :=
  .of_fold _ (fun t c => by
    show t.SweepOnly (if t.grantable c then t.grant c else t)
    split
    · exact t.grant_only c
    · exact .refl t) l s

theorem State.grantScan_only (s : State) : s.SweepOnly s.grantScan := by
  unfold State.grantScan
  split
  · exact (s.scanWalk_only _).trans (State.remark_only _)
  · exact .refl s

theorem State.revokeLast_only (s : State) : s.SweepOnly s.revokeLast := by
  unfold State.revokeLast
  split
  · exact .refl s
  · exact (((State.onChannel_only _ _ _).trans (State.setSweep_only _ _)).trans (State.deriveFunds_only _)).trans
      (State.noticeGt_only _)

theorem State.revokeUntilContained_only (n : Nat) (s : State) : s.SweepOnly (State.revokeUntilContained n s) := by
  induction n generalizing s with
  | zero => exact .refl s
  | succ n ih =>
    unfold State.revokeUntilContained
    split
    · exact .refl s
    · exact s.revokeLast_only.trans (ih _)

theorem State.contain_only (s : State) : s.SweepOnly s.contain := State.revokeUntilContained_only _ s

theorem State.contain_of_contained (s : State) (h : s.contained = true) : s.contain = s := by
  unfold State.contain
  cases s.sweep.grants.length with
  | zero => rfl
  | succ n => simp [State.revokeUntilContained, h]

theorem State.handOver_only (s : State) (sR sF : Nat) : s.SweepOnly (s.handOver sR sF) := by
  unfold State.handOver
  dsimp only
  split
  · exact (s.setSweep_only _).trans (State.contain_only _)
  · exact (s.setSweep_only _).trans (State.grantScan_only _)

theorem State.faultChannel_only (s : State) (c : Nat) : s.SweepOnly (s.faultChannel c) :=
  ((s.onChannel_only c _).trans (State.release_only _ c)).trans (State.grantScan_only _)

theorem State.continueStep_only (old s : State) (c : Nat) : s.SweepOnly (State.continueStep old s c) := by
  have h : s.SweepOnly (if ((State.settleGrants old s).priority c).num < (old.priority c).num
      then (State.settleGrants old s).contain else State.settleGrants old s) := by
    split
    · exact (State.settleGrants_only old s).trans (State.contain_only _)
    · exact State.settleGrants_only old s
  unfold State.continueStep
  dsimp only
  generalize (if ((State.settleGrants old s).priority c).num < (old.priority c).num
      then (State.settleGrants old s).contain else State.settleGrants old s) = t at h
  split
  · exact h
  · exact h.trans (t.startStep_only c)

theorem State.preemptionRelease_only (s : State) (c : Nat) : s.SweepOnly (s.preemptionRelease c) := by
  unfold State.preemptionRelease
  dsimp only
  refine State.SweepOnly.trans ?_ (State.grantScan_only _)
  split
  · exact ((s.onChannel_only c _).trans (State.release_only _ c)).trans (State.setSweep_only _ _)
  · exact (s.onChannel_only c _).trans (State.release_only _ c)

theorem State.passEnd_only (old s : State) (c : Nat) : s.SweepOnly (State.passEnd old s c) := by
  unfold State.passEnd
  split
  · exact ((s.onChannel_only c _).trans (State.release_only _ c)).trans (State.grantScan_only _)
  · split
    · exact (((s.onChannel_only c _).trans (State.release_only _ c)).trans (State.setSweep_only _ _)).trans
        (State.grantScan_only _)
    · exact (s.moveToLeg_only c _).trans (State.continueStep_only _ _ c)

theorem State.stepEnd_only (s : State) (c : Nat) : s.SweepOnly (s.stepEnd c) := by
  unfold State.stepEnd
  dsimp only
  generalize h : s.onChannel c _ = s1
  have h1 : s.SweepOnly s1 := h ▸ s.onChannel_only c _
  refine (h1.trans (State.advanceCursor_only _ c)).trans ?_
  split
  · exact State.preemptionRelease_only _ c
  · split
    · exact State.passEnd_only _ _ c
    · exact State.continueStep_only _ _ c

theorem State.treatCursor_only (s : State) (c : Nat) : s.SweepOnly (s.treatCursor c) := by
  unfold State.treatCursor
  split
  · exact .refl s
  · split
    · exact .refl s
    · split
      · exact s.moveToLeg_only c _
      · exact s.endPass_only c

theorem State.treatLevel_only (s : State) (c : Nat) : s.SweepOnly (s.treatLevel c) := by
  unfold State.treatLevel
  split
  case h_1 =>
    split
    · exact s.onChannel_only c _
    · exact .refl s
  all_goals first
    | exact .refl s
    | (dsimp only
       split
       · exact s.treatCursor_only c
       · exact (s.treatCursor_only c).trans (State.onChannel_only _ c _))

theorem State.settleLists_only (old s : State) : s.SweepOnly (State.settleLists old s) := rfl

theorem State.levelNotice_only (old s : State) : s.SweepOnly (State.levelNotice old s) :=
  ((((State.SweepOnly.of_fold _ State.treatLevel_only _ s).trans (State.settleWaiting_only old _)).trans
    (State.settleGrants_only old _)).trans (State.contain_only _)).trans (State.grantScan_only _)

theorem State.windTest_only (s : State) (c : Nat) : s.SweepOnly (s.windTest c) := by
  unfold State.windTest
  dsimp only
  split
  · exact s.onChannel_only c _
  · split
    · exact (s.onChannel_only c _).trans (State.release_only _ c)
    · split
      · exact s.onChannel_only c _
      · exact .refl s

theorem State.windHold_only (s : State) : s.SweepOnly s.windHold := by
  have h : s.SweepOnly (State.settleWaiting s (s.channelNumbers.foldl State.windTest s)) :=
    (State.SweepOnly.of_fold _ State.windTest_only _ s).trans (State.settleWaiting_only s _)
  unfold State.windHold
  dsimp only
  split
  · exact h.trans (State.grantScan_only _)
  · exact h

theorem State.activationNotice_only (s : State) (c : Nat) : s.SweepOnly (s.activationNotice c) := by
  unfold State.activationNotice
  dsimp only
  split
  · exact .refl s
  · split
    · split
      all_goals first
        | exact .refl s
        | exact s.onChannel_only c _
    · exact .refl s

theorem State.bankChannel_only (s : State) (c : Nat) : s.SweepOnly (s.bankChannel c) := by
  unfold State.bankChannel
  dsimp only
  split
  · exact .refl s
  split
  · exact ((s.onChannel_only c _).trans (State.endPass_only _ c)).trans (State.treatLevel_only _ c)
  · exact s.onChannel_only c _

theorem State.bankOrder_only (s : State) (k : Bank) : s.SweepOnly (s.bankOrder k) := by
  have h : s.SweepOnly (State.settleWaiting s
      ((s.setSweep { s.sweep with requested := k }).channelNumbers.foldl State.bankChannel
        (s.setSweep { s.sweep with requested := k }))) :=
    ((s.setSweep_only _).trans (.of_fold _ State.bankChannel_only _ _)).trans (State.settleWaiting_only s _)
  unfold State.bankOrder
  dsimp only
  split
  · exact h.trans (State.grantScan_only _)
  · exact h

theorem State.sweepHush_only (s : State) : s.SweepOnly s.sweepHush := by
  unfold State.sweepHush
  dsimp only
  split
  · exact s.setSweep_only _
  · exact (s.setSweep_only _).trans (State.noticeGt_only _)

theorem State.wakeChannel_only (s : State) (c : Nat) : s.SweepOnly (s.wakeChannel c) := by
  unfold State.wakeChannel
  split
  · exact s.onChannel_only c _
  · exact .refl s

theorem State.sweepWake_only (s : State) : s.SweepOnly s.sweepWake :=
  ((State.SweepOnly.of_fold _ State.wakeChannel_only _ s).trans (State.settleWaiting_only s _)).trans
    (State.grantScan_only _)

end Sys2Proof.Machine
end

