-- ==== Sys2Proof/Laws/Blocks.lean ====
section
/-! SUPPORT. What the shared operations of the other blocks do, said once each: the share computation, a change of mode, a dispatch, the
lists kept in ascending id, the transmit slot, the counts, the receive queue, the serial memory's wires and the passage of time. -/

namespace Sys2Proof.Machine

/-! ## The share computation -/

/-- A share computation touches the shares, the sweep engine and the G_t notices, and hands over what it computed. -/
theorem State.shareComputation_reach (s : State) :
    s.shareComputation = { s with
      sweep := s.shareComputation.sweep,
      water := { s.water with
        sR := s.reuseShare, sF := s.freshShare, gtNotices := s.shareComputation.water.gtNotices } } :=
  State.handOver_only (s.setWater { s.water with sR := s.reuseShare, sF := s.freshShare }) s.reuseShare s.freshShare

@[simp] theorem State.shareComputation_sR (s : State) : s.shareComputation.water.sR = s.reuseShare := by
  rw [s.shareComputation_reach]

@[simp] theorem State.shareComputation_sF (s : State) : s.shareComputation.water.sF = s.freshShare := by
  rw [s.shareComputation_reach]

/-! ## A change of mode -/

/-- A change of mode sets the mode, and beyond that touches the sweep engine and the G_t notices only. -/
theorem State.changeMode_only (s : State) (m : Mode) :
    State.SweepOnly (s.setStation { s.station with mode := m }) (s.changeMode m) := by
  unfold State.changeMode
  dsimp only
  split
  · exact State.sweepWake_only _
  · exact State.sweepHush_only _

@[simp] theorem State.changeMode_station (s : State) (m : Mode) :
    (s.changeMode m).station = { s.station with mode := m } := by
  rw [s.changeMode_only m]; rfl

/-! ## Dispatch -/

/-- A dispatch that takes the oldest free frame hands it to its owner. -/
theorem State.dispatch_taken (s : State) (mine : Frame → Bool) (owner : State → Frame → State) (f : Frame)
    (hw : s.works = true) (hf : s.oldestFree = some f) (hv : f.valid = true) (hm : mine f = true)
    (hs : f.sender ≠ s.cfg.id) : s.dispatch mine owner = owner s.takeFree f := by
  simp [State.dispatch, hf, hw, hv, hm, hs]

/-- A dispatch leaves the state, counts an id conflict, or hands the oldest free frame to its owner. -/
theorem State.dispatch_cases (s : State) (mine : Frame → Bool) (owner : State → Frame → State) :
    s.dispatch mine owner = s ∨ ∃ f, s.oldestFree = some f ∧ s.works = true ∧ f.valid = true ∧ mine f = true ∧
      ((f.sender = s.cfg.id ∧ s.dispatch mine owner = s.takeFree.idConflict) ∨
        (f.sender ≠ s.cfg.id ∧ s.dispatch mine owner = owner s.takeFree f)) := by
  unfold State.dispatch
  split
  · rename_i f hf
    split
    · rename_i h
      simp only [Bool.and_eq_true] at h
      refine .inr ⟨f, hf, h.1.1, h.1.2, h.2, ?_⟩
      split
      · exact .inl ⟨by assumption, rfl⟩
      · exact .inr ⟨by assumption, rfl⟩
    · exact .inl rfl
  · exact .inl rfl

/-- The queue around the oldest free frame: every older frame is held, and the frame leaves alone. -/
theorem State.oldestFree_split (s : State) (f : Frame) (h : s.oldestFree = some f) :
    ∃ older newer, s.dispatcher.queue = older ++ f :: newer ∧ s.takeFree.dispatcher.queue = older ++ newer ∧
      s.holds f = false ∧ ∀ g ∈ older, s.holds g = true := by
  have key : ∀ l : List Frame, l.find? (fun g => !s.holds g) = some f →
      ∃ older newer, l = older ++ f :: newer ∧ l.eraseP (fun g => !s.holds g) = older ++ newer ∧
        s.holds f = false ∧ ∀ g ∈ older, s.holds g = true := by
    intro l
    induction l with
    | nil => intro h; cases h
    | cons a l ih =>
      intro h
      cases ha : s.holds a with
      | false =>
        simp only [List.find?_cons, ha, Bool.not_false, Option.some.injEq] at h
        subst h
        exact ⟨[], l, rfl, by simp [ha], ha, by simp⟩
      | true =>
        simp only [List.find?_cons, ha, Bool.not_true] at h
        obtain ⟨older, newer, h1, h2, h3, h4⟩ := ih h
        refine ⟨a :: older, newer, by rw [h1]; rfl, by simp [ha, h2], h3, ?_⟩
        simp only [List.mem_cons, forall_eq_or_imp]
        exact ⟨ha, h4⟩
  exact key _ h

/-! ## Lists in ascending id -/

/-- A list of peers stands in ascending id. -/
def peersAscend (l : List Peer) : Prop := l.Pairwise (fun p q => p.id < q.id)

theorem mem_putPeer_of_mem (r p : Peer) (l : List Peer) (h : p ∈ putPeer r l) : p = r ∨ p ∈ l := by
  induction l with
  | nil => simpa [putPeer] using h
  | cons m rest ih =>
    unfold putPeer at h
    split at h
    · simpa using h
    · split at h
      · rcases List.mem_cons.mp h with h | h
        · exact .inl h
        · exact .inr (List.mem_cons_of_mem _ h)
      · rcases List.mem_cons.mp h with h | h
        · exact .inr (h ▸ List.mem_cons_self)
        · exact (ih h).imp id (List.mem_cons_of_mem _)

theorem putPeer_ascends (r : Peer) (l : List Peer) (h : peersAscend l) : peersAscend (putPeer r l) := by
  induction l with
  | nil => simp [putPeer, peersAscend]
  | cons m rest ih =>
    unfold peersAscend at h ih ⊢
    obtain ⟨hm, hr⟩ := List.pairwise_cons.mp h
    unfold putPeer
    split
    · refine List.pairwise_cons.mpr ⟨?_, h⟩
      intro p hp
      rcases List.mem_cons.mp hp with rfl | hp
      · assumption
      · have := hm p hp; omega
    · split
      · refine List.pairwise_cons.mpr ⟨?_, hr⟩
        intro p hp
        have := hm p hp; omega
      · refine List.pairwise_cons.mpr ⟨?_, ih hr⟩
        intro p hp
        rcases mem_putPeer_of_mem r p rest hp with rfl | hp
        · omega
        · exact hm p hp

/-- In a table in ascending id a store leaves the new record and every record of another id. -/
theorem mem_putPeer (r p : Peer) (l : List Peer) (h : peersAscend l) :
    p ∈ putPeer r l ↔ p = r ∨ (p ∈ l ∧ p.id ≠ r.id) := by
  induction l with
  | nil => simp [putPeer]
  | cons m rest ih =>
    unfold peersAscend at h ih
    obtain ⟨hm, hr⟩ := List.pairwise_cons.mp h
    unfold putPeer
    split
    · rename_i hlt
      refine ⟨fun hp => ?_, fun hp => ?_⟩
      · rcases List.mem_cons.mp hp with rfl | hp
        · exact .inl rfl
        · refine .inr ⟨hp, ?_⟩
          rcases List.mem_cons.mp hp with rfl | hp
          · omega
          · have := hm p hp; omega
      · rcases hp with rfl | ⟨hp, -⟩
        · exact List.mem_cons_self
        · exact List.mem_cons_of_mem _ hp
    · split
      · rename_i heq
        refine ⟨fun hp => ?_, fun hp => ?_⟩
        · rcases List.mem_cons.mp hp with rfl | hp
          · exact .inl rfl
          · exact .inr ⟨List.mem_cons_of_mem _ hp, by have := hm p hp; omega⟩
        · rcases hp with rfl | ⟨hp, hne⟩
          · exact List.mem_cons_self
          · rcases List.mem_cons.mp hp with rfl | hp
            · omega
            · exact List.mem_cons_of_mem _ hp
      · rename_i hne
        rw [List.mem_cons, ih hr, List.mem_cons]
        refine ⟨fun hp => ?_, fun hp => ?_⟩
        · rcases hp with rfl | rfl | ⟨hp, hn⟩
          · exact .inr ⟨.inl rfl, by omega⟩
          · exact .inl rfl
          · exact .inr ⟨.inr hp, hn⟩
        · rcases hp with rfl | ⟨rfl | hp, hn⟩
          · exact .inr (.inl rfl)
          · exact .inl rfl
          · exact .inr (.inr ⟨hp, hn⟩)

/-! ## The line interface -/

theorem bump_le (n : Nat) : bump n ≤ 255 := Nat.min_le_left _ _

@[simp] theorem Line.returnToSlot_sending (l : Line) : l.returnToSlot.sending = none := by
  unfold Line.returnToSlot
  split <;> simp_all

@[simp] theorem Line.returnToSlot_rx (l : Line) : l.returnToSlot.rx = l.rx := by
  unfold Line.returnToSlot
  split <;> rfl

@[simp] theorem Line.returnToSlot_clashes (l : Line) : l.returnToSlot.clashes = l.clashes := by
  unfold Line.returnToSlot
  split <;> rfl

@[simp] theorem Line.returnToSlot_clashRun (l : Line) : l.returnToSlot.clashRun = l.clashRun := by
  unfold Line.returnToSlot
  split <;> rfl

/-- With no count waiting for a dominant run to end, its end counts nothing. -/
theorem Line.resolve_none (period : Nat) (l : Line) (h : l.deferredFraming = false) (k : l.deferredClash = false) :
    l.resolve period = l := by simp [Line.resolve, h, k]

/-- The receive queue after a complete frame, and the three counts. -/
theorem Dispatcher.take_cases (d : Dispatcher) (f : Frame) :
    (f.verified = true ∧ d.queue.length < 8 ∧ d.take f = { d with queue := d.queue ++ [f] }) ∨
    (f.verified = true ∧ 8 ≤ d.queue.length ∧ d.take f = { d with overrun := bump d.overrun }) ∨
    (f.verified = false ∧ d.take f = { d with checkFail := bump d.checkFail }) := by
  unfold Dispatcher.take
  cases f.verified with
  | false => simp
  | true =>
    by_cases h : d.queue.length < 8
    · simp [h]
    · simp [h]; omega

/-! ## The serial memory's wires -/

/-- A byte's bits, most significant first, spell the byte. -/
@[simp] theorem byteOfBits_msbFirst (b : Byte) : byteOfBits (msbFirst b) = b := by revert b; decide +kernel

@[simp] theorem msbFirst_length (b : Byte) : (msbFirst b).length = 8 := by simp [msbFirst]

/-- What is driven on the wires is what is sampled from them, whatever level the clock stood at. -/
theorem spiSampled_spiWave (bits : List Bool) (before : Bool) : spiSampled before (spiWave bits) = bits := by
  induction bits generalizing before with
  | nil => rfl
  | cons b rest ih =>
    have := ih true
    simpa [spiWave, spiSampled] using this

/-- The eight samples of a byte that the memory holds spell the byte. -/
theorem byteOfBits_memoryLevel (memory : List Byte) (i : Nat) (b : Byte) (h : memory[i]? = some b) :
    byteOfBits ((List.range 8).map (fun k => memoryLevel memory (8 * i + k))) = b := by
  have hk : (List.range 8).map (fun k => memoryLevel memory (8 * i + k)) = msbFirst b := by
    refine List.ext_getElem (by simp) (fun k h1 h2 => ?_)
    have hk : k < 8 := by simpa using h1
    have hd : (8 * i + k) / 8 = i := by omega
    have hm : k % 8 = k := by omega
    simp [memoryLevel, hd, h, List.getD_eq_getElem?_getD, hm, List.getElem?_eq_getElem h2]
  rw [hk, byteOfBits_msbFirst]

/-- A read within the memory gives the bytes it holds. -/
theorem readMemory_take (memory : List Byte) (n : Nat) (h : n ≤ memory.length) : readMemory memory n = memory.take n := by
  refine List.ext_getElem (by simp [readMemory, h]) (fun i h1 h2 => ?_)
  have hi : i < memory.length := by simp at h2; omega
  simp only [readMemory, List.getElem_map, List.getElem_range, List.getElem_take]
  exact byteOfBits_memoryLevel memory i memory[i] (List.getElem?_eq_getElem hi)

/-! ## The passage of time -/

/-- In the modes in which the blocks work a millisecond is the blocks'. -/
theorem State.timePasses_works (s : State) (h : s.works = true) : s.timePasses = s.blocksPassTime := by
  unfold State.timePasses
  cases hm : s.station.mode <;> simp [State.works, hm, Mode.works] at h ⊢

@[simp] theorem State.blocksPassTime_works (s : State) : s.blocksPassTime.works = s.works := rfl

/-- After `n` milliseconds a timer has run down by `n`, to 0 at the least. -/
theorem countDown_iterate (n : Nat) (t : Option Nat) : countDown^[n] t = t.map (fun k => k - n) := by
  induction n generalizing t with
  | zero => cases t <;> rfl
  | succ n ih =>
    rw [Function.iterate_succ_apply, ih]
    cases t <;> simp [countDown]
    omega

end Sys2Proof.Machine
end

