-- ==== Sys2Proof/Tests/Slice0.lean ====
section
/-! SUPPORT. Tests of the model against the manual's worked cases and tables, the smoke of WellFormed, and for each obligation with
hypotheses a named witness that meets them. -/

namespace Sys2Proof.Tests

open Sys2Proof.Machine

/- The tests are elaborated one after another: many kernel evaluations waiting side by side each hold a thread's stack. -/
set_option Elab.async false

/-! ## A small station -/

/-- The RING leg of the worked case of 8.2, on face 1 from PREWET. -/
def ringLeg : Leg := { Leg.absent with
  face := 1, minimum := 2, pattern := .ring, dwell := 20, count := 8, a0 := 3100,
  ringBase := 3000, ringLength := 1200, ringStride := 500 }

/-- The RASTER leg of the worked case of 8.2. -/
def rasterLeg : Leg := { Leg.absent with
  face := 1, minimum := 3, pattern := .raster, dwell := 5, a0 := 3500, aStep := 60, rows := 3, columns := 4, e0 := 150,
  eStep := 50 }

/-- One face: the second worked case of 3.3 has U_t 50 and an exposure of 200. -/
def face : FaceCfg := ⟨4, List.replicate 16 200, 50, 40, 30, 1024⟩

/-- One channel of nominal flow 160 with one shadow arc, 3400 to 200. -/
def channelCfg : ChannelCfg := { ChannelCfg.absent with
  flow := 160, cutoff := 150, gain := 8, weight := 5, valveTimeout := 4, slewTimeout := 10,
  shadow := [⟨40, 22, ⟨3400, 200⟩⟩], planA := [ringLeg], planB := [rasterLeg] }

/-- The station of the worked cases: id 30 at (1200, 800), pond 9, gateway 40, monitor 201 upwind in sectors 10, 11 and 12. -/
def cfg : StationCfg := { StationCfg.unloaded with
  id := 30, gridX := 1200, gridY := 800, divisor := 32, period := 5, hearMonitor := true, hearMachine := true,
  hearForecast := true, pond := 9, gateway := 40, tWatch := 400, tSpray := 560, tHeavy := 700, hysteresis := 16,
  reserve := 10, radius := 500, failsafe := 150, defaultRh := 50, interval := 30, lead := 60, monitorSilence := 60,
  holdTime := 600, pondSilence := 30, hushHold := 300, kReclaim := 160, kStack := 96, collapse := 200, aFactor := 384,
  aOffset := 3, turbidityLimit := 300, faces := [face], faceMap := [⟨7, 2, 1⟩], relations := [⟨201, 7168, 1⟩],
  channels := [channelCfg] }

/-- The station in a mode, its one channel as given. -/
def station (mode : Mode) (ch : Channel) : State := { State.reset with
  cfg := cfg, station := { Station.reset with mode := mode, resetAsserted := false, reportTimer := some 1200 },
  wind := { Wind.reset with sampleTimer := some 2000, source := .localWind, heldTimer := .idle },
  risk := { Risk.reset with faces := [⟨1024, 659, .spray, false, .spray, none⟩], w := 659, timer := some 30000 },
  fence := ⟨[none], [⟨0, none⟩]⟩, machines := { Machines.reset with kf := [64], arcs := [[false]] },
  water := { Water.reset with
    cR := 1200, cF := 300, dM := 950, turbidity := 40, silent := false, timer := some 30000, sR := 258 },
  sweep := { Sweep.reset with channels := [ch], sR := 258, pressureTimer := some 1000 },
  line := { Line.reset with rx := .awaitGap, gap := some 0, run := .absent } }

/-- LISTENING with the listening timer running. -/
def listening : State :=
  let s := station .listening { Channel.absent with state := .hushed }
  s.setStation { s.station with listeningTimer := some 10000 }

/-- HUSHED, remembering a mode. -/
def hushed (r : Remembered) : State :=
  let s := station .hushed { Channel.absent with state := .hushed }
  s.setStation { s.station with remembered := some r, hushTimer := some 300000 }

/-- AUTO with the channel IDLE. -/
def idle : State := station .auto Channel.absent

/-- AUTO with the channel granted and at step `step` of its ring, in the state given, a slew or valve timer run out. -/
def running (st : ChannelState) (step index : Nat) (mark : Bool) : State :=
  let ch : Channel := { Channel.absent with
    state := st, cursor := some ⟨0, step⟩, ringIndex := index, aim := some (3100, 0), mark := mark,
    slewTimer := if st = .slewing then some 0 else none, valveTimer := if st = .opening then some 0 else none,
    dwellTimer := if st = .spraying ∨ st = .dry then some 20000 else none,
    valve := decide (st = .opening ∨ st = .spraying) }
  let s := station .auto ch
  s.setSweep { s.sweep with grants := [⟨0, .reuse⟩] }

/-- AUTO with the channel WAITING. -/
def waiting : State :=
  let s := station .auto { Channel.absent with state := .waiting }
  s.setSweep { s.sweep with waiting := [0] }

/-- A frame with its checks. -/
def frame (kind sender : Nat) (payload : List Nat) : Frame :=
  Frame.sealed ([kind, sender, payload.length].map (BitVec.ofNat 8) ++ payload.map (BitVec.ofNat 8))

/-- The Monitor frame of the worked case of 10.1. -/
def monitorFrame : Frame := frame 2 201 [1, 44, 1]

/-- An order for a target with a code and its arguments. -/
def order (target code a b c : Nat) : Frame := frame 4 210 [target, code, a, b, c]

/-- A Machine frame of a reclaimer working pile 7, face 2 in cell (40, 22). -/
def machineFrame (activity : Nat) : Frame := frame 3 100 [1, 40, 22, activity, 7, 2]

/-- A Report frame of peer 14 with report period `period`. -/
def reportFrame (period : Nat) : Frame :=
  frame 5 14 ([period, 1, 5, 220, 4, 76, 0, 142, 3, 0, 2, 108, 2, 108, 0, 0, 48, 0, 0, 1, 0, 160, 0, 0] ++ List.replicate 12 0)

/-- A Pond frame. -/
def pondFrame (sender : Nat) : Frame := frame 1 sender [4, 176, 1, 44, 3, 182, 0, 40, 80, 0]

/-- A Forecast frame of gateway 40 with one slot, issued and valid from 21600, at yard time 25200. -/
def forecastFrame (slotLength : Nat) : Frame :=
  frame 6 40 ([40, 0, 84, 96, 0, 84, 96, slotLength, 1, 0, 98, 112] ++ [0, 100, 0, 160, 4, 60])

/-- A state with one frame in the receive queue. -/
def queued (f : Frame) (s : State) : State := s.setDispatcher { s.dispatcher with queue := [f] }

/-- A peer record at a place. -/
def peer (id x y speed : Nat) (source : WindSource) (stale : Bool) : Peer where
  id := id
  x := x
  y := y
  period := 5
  mode := .auto
  speed := speed
  sector := 0
  source := source
  maxEri := 0
  w := 0
  hw := 0
  highest := .quiet
  claimR := 0
  claimF := 0
  stale := stale
  age := 0

/-- The six peers of the worked case of 1.8. -/
def neighbours : List Peer :=
  [peer 14 1500 1100 142 .localWind false, peer 17 1600 1100 118 .localWind false, peer 21 900 1250 200 .localWind false,
   peer 22 1000 700 130 .peer false, peer 30 1250 600 96 .localWind true, peer 33 1100 950 125 .localWind false]

/-- The state after a command. -/
def after (c : Instr) (s : State) : State :=
  match exec c s with
  | .next t => t
  | .fault _ => s
  | .refused _ => s

/-! ## WellFormed refuses -/

theorem test_wf_faces : Instr.wellFormed (.overrideExpiry 0) = false ∧ Instr.wellFormed (.overrideExpiry 7) = false ∧
    Instr.wellFormed (.holdExpiry 0) = false ∧ Instr.wellFormed (.holdExpiry 7) = false := by decide

theorem test_wf_ids : Instr.wellFormed (.monitorSilenceCrossing 0) = false ∧
    Instr.wellFormed (.monitorSilenceCrossing 240) = false ∧ Instr.wellFormed (.machineStaleCrossing 0) = false ∧
    Instr.wellFormed (.machineRemoval 240) = false ∧ Instr.wellFormed (.peerStaleCrossing 240) = false ∧
    Instr.wellFormed (.peerRemoval 0) = false := by decide

theorem test_wf_line : Instr.wellFormed (.pressureSample 1001) = false ∧ Instr.wellFormed (.startEdge 193) = false ∧
    Instr.wellFormed (.frameReceived [1#8, 9#8, 3#8]) = false ∧
    Instr.wellFormed (.frameReceived (List.replicate 2 1#8 ++ 97#8 :: List.replicate 99 0#8)) = false ∧
    Instr.wellFormed (.arbitrationLost 2 1 ⟨false, false, false⟩) = false ∧
    Instr.wellFormed (.arbitrationLost 1 11 ⟨false, false, false⟩) = false ∧
    Instr.wellFormed (.clash 101 0 ⟨true, true, true⟩) = false ∧ Instr.wellFormed (.clash 3 11 ⟨true, true, true⟩) = false := by
  decide

theorem test_no_row_gives_bits : decodeTableWord 8 0 = none ∧ decodeTableWord 0 0 = none := by decide

/-! ## Worked cases of the manual -/

/-- 10.1: the checks of a Monitor frame are 252 and 101; exchanging two payload characters leaves A and changes B. -/
theorem test_checks : monitorFrame = [2, 201, 3, 1, 44, 1, 252, 101].map (BitVec.ofNat 8) ∧
    (checkSums ([2, 201, 3, 44, 1, 1].map (BitVec.ofNat 8))).1 = 252 ∧
    (checkSums ([2, 201, 3, 44, 1, 1].map (BitVec.ofNat 8))).2 ≠ 101 := by decide

/-- 3.3: the three worked cases of the ERI. -/
theorem test_eri : face.eri 120 4 1024 128 = 659 ∧ face.eri 50 4 1024 128 = 0 ∧ face.eri 51 4 1024 128 = 399 ∧
    ({ face with threshold := 10, exposure := List.replicate 16 256 } : FaceCfg).eri 600 4 0 255 = 948 := by decide

/-- 3.3: how small values of P3 scale. -/
theorem test_scaled : [1, 2, 3, 37, 63, 64].map scaled = [1, 33, 49, 166, 192, 193] := by decide

/-- 3.4: a face through a front, completion by completion, and the fall from HEAVY straight to QUIET. -/
theorem test_base_levels :
    [(420, Level.quiet), (690, .watch), (705, .spray), (690, .heavy), (684, .heavy), (683, .heavy), (550, .spray),
      (543, .spray), (380, .watch), (380, .heavy)].map (fun e => cfg.baseLevel e.1 e.2) =
    [.watch, .spray, .heavy, .heavy, .heavy, .spray, .spray, .watch, .quiet, .quiet] := by decide

/-- 8.2: the RASTER's twelve steps. -/
theorem test_raster : (List.range 12).map (fun i => (rasterLeg.azimuth i 0, rasterLeg.elevation i)) =
    [(3500, 150), (3560, 150), (20, 150), (80, 150), (80, 200), (20, 200), (3560, 200), (3500, 200),
     (3500, 250), (3560, 250), (20, 250), (80, 250)] := by decide

/-- 8.2: the RING's eight steps. -/
theorem test_ring : [3100, 3600, 4100, 3400, 3900, 4400 - 1200, 3700].map ringLeg.stride =
    [(3600, false), (4100, false), (3400, true), (3900, false), (3200, true), (3700, false), (3000, true)] ∧
    ringLeg.azimuth 2 4100 = 500 := by decide

/-- R121: the cases of the bias; an aim at azimuth 0 has sector 0. -/
theorem test_bias : biasOf 120 4 8 0 = -96 ∧ biasOf 120 12 8 0 = 96 ∧ biasOf 600 4 100 0 = -150 ∧ biasOf 120 4 0 0 = 0 ∧
    biasOf 120 8 8 0 = 0 := by decide

/-- R3: the vane's Gray code, sector by sector. -/
theorem test_vane : [0b0000#4, 0b0001#4, 0b0011#4, 0b0010#4, 0b0110#4, 0b0111#4, 0b0101#4, 0b0100#4, 0b1100#4, 0b1101#4,
    0b1111#4, 0b1110#4, 0b1010#4, 0b1011#4, 0b1001#4, 0b1000#4].map vaneSector = List.range 16 := by decide

/-- 1.8: the qualifying neighbours and their median, and the median of an even number. -/
theorem test_median : (idle.setPeerList neighbours).neighbourSpeeds = [142, 118, 125] ∧ median [142, 118, 125] = 125 ∧
    median [142, 125] = 125 ∧ (idle.setPeerList neighbours).windyNeighbour = true := by decide

/-- 1.3: a ring that is filling, before its fifth close. -/
def filling : State := idle.setWind { idle.wind with
  count := 72, ring := [⟨63, 11⟩, ⟨81, 12⟩, ⟨96, 12⟩, ⟨72, 11⟩], writeIndex := 4 }

/-- 1.3: the fifth close; sector 13 is the vane code 1011. -/
theorem test_sampleClose : (after (.sampleClose 0b1011#4) filling).wind.mean = 84 ∧
    (after (.sampleClose 0b1011#4) filling).wind.gust = 111 ∧ (after (.sampleClose 0b1011#4) filling).wind.uEff = 90 ∧
    (after (.sampleClose 0b1011#4) filling).wind.sector = 11 := by decide +kernel

/-- 1.8: a jammed anemometer, at its 150th still close among the neighbours above: STUCK, PEER, 125. -/
def jammed : State := (idle.setPeerList neighbours).setWind { idle.wind with
  ring := List.replicate 30 ⟨0, 3⟩, full := true, zeroRun := 149, uEff := 84 }

theorem test_sampleClose_stuck : (after (.sampleClose 0#4) jammed).wind.health = .stuck ∧
    (after (.sampleClose 0#4) jammed).wind.source = .peer ∧ (after (.sampleClose 0#4) jammed).wind.uEff = 125 := by
  decide +kernel

theorem test_anemometerPulse : (after .anemometerPulse filling).wind.count = 73 := by decide

theorem test_heldTimerExpiry :
    (after .heldTimerExpiry (idle.setWind { idle.wind with heldTimer := .running 0 })).wind.heldTimer = .expired := by decide

/-- 2.8: the first frame after reset is stored in place 0. -/
theorem test_dispatchForecast : (after .dispatchForecast (queued (forecastFrame 60) idle)).forecast.clock = some 25200 ∧
    (after .dispatchForecast (queued (forecastFrame 60) idle)).forecast.recency = [0, 5, 4, 3, 2, 1] ∧
    (after .dispatchForecast (queued (forecastFrame 60) idle)).forecast.window 0 =
      some ⟨40, 21600, 21600, 60, [⟨100, 160, 4, 60⟩]⟩ := by decide +kernel

/-- 2.8: six windows at yard time 25200; place 0 is selected and touched. -/
def sixWindows : Forecast where
  places := [some ⟨40, 21600, 21600, 60, List.replicate 12 ⟨100, 160, 4, 60⟩⟩,
    some ⟨52, 3600, 3600, 30, List.replicate 8 ⟨0, 0, 0, 0⟩⟩, some ⟨52, 21000, 22000, 30, List.replicate 12 ⟨0, 0, 0, 0⟩⟩,
    some ⟨61, 20000, 20000, 60, List.replicate 6 ⟨0, 0, 0, 0⟩⟩, some ⟨40, 18000, 18000, 60, List.replicate 12 ⟨0, 0, 0, 0⟩⟩,
    some ⟨61, 24000, 36000, 15, List.replicate 4 ⟨0, 0, 0, 0⟩⟩]
  recency := [5, 4, 3, 2, 1, 0]
  selected := none
  clock := some 25200
  advanceTimer := some 1000

theorem test_selection : (idle.setForecast sixWindows).selectForecast.forecast.selected = some 0 ∧
    (idle.setForecast sixWindows).selectForecast.forecast.recency = [0, 5, 4, 3, 2, 1] ∧
    (idle.setForecast sixWindows).selectForecast.lookAheadSlot = some ⟨100, 160, 4, 60⟩ := by decide +kernel

/-- 7.9: the volumes before midnight, the next advance due; the day roll zeroes them. -/
def beforeMidnight : State :=
  (idle.setForecast { idle.forecast with clock := some 86399, advanceTimer := some 0 }).setWater
    { idle.water with reuse := 41207, reuseRem := 5, fresh := 3880, freshRem := 4 }

theorem test_yardClock : (after .yardClockAdvance beforeMidnight).forecast.clock = some 0 ∧
    (after .yardClockAdvance beforeMidnight).water.reuse = 0 ∧ (after .yardClockAdvance beforeMidnight).water.freshRem = 0 := by
  decide

/-- 7.9: a reuse pulse of weight 5; 3.9: with g_f 40 it credits 20. -/
theorem test_flowPulse :
    let s := beforeMidnight.onChannel 0 (fun ch => { ch with lastFace := some 1 })
    (after (.flowPulse 0) s).water.reuse = 41208 ∧ (after (.flowPulse 0) s).water.reuseRem = 0 ∧
    (after (.flowPulse 0) s).risk.faces.map FaceRecord.moisture = [1044] := by decide

/-- An evaluation in flight: the first worked case of 3.3, with the yard's wind held at 120 from sector 4. -/
def inFlight (override : Option Level) : State :=
  idle.setRisk { idle.risk with flight := some ⟨120, 4, [⟨1024, 128, 0, override⟩], none, none, 50⟩ }

theorem test_evaluationTimer : (after .evaluationTimerExpiry idle).risk.flight =
    some ⟨0, 0, [⟨1024, 64, 0, none⟩], none, none, 50⟩ ∧ (after .evaluationTimerExpiry idle).risk.timer = some 30000 ∧
    (after .evaluationTimerExpiry (inFlight none)).risk.flight = (inFlight none).risk.flight := by decide +kernel

/-- 3.3 and R49: the ERI is 659, SPRAY; decay is trunc(30 × 50 / 100) + trunc(120 / 32) = 18. -/
theorem test_completion : (after (.evaluationCompletion true) (inFlight none)).risk.faces =
      [⟨1006, 659, .spray, false, .spray, none⟩] ∧
    (after (.evaluationCompletion false) (inFlight none)).risk.w = 659 ∧
    (after (.evaluationCompletion false) (inFlight none)).risk.hw = 0 := by decide +kernel

theorem test_completion_forced : ((after (.evaluationCompletion false) (inFlight (some .quiet))).risk.faces.map FaceRecord.level,
    (after (.evaluationCompletion false) (inFlight (some .quiet))).risk.w) = ([.quiet], 0) := by decide +kernel

/-- A face with a force override, its countdown run out. -/
def forced : State := idle.setRisk { idle.risk with faces := [⟨1024, 659, .spray, false, .spray, some ⟨.heavy, some 0⟩⟩] }

theorem test_overrideExpiry : (after (.overrideExpiry 1) forced).risk.faces.map FaceRecord.override = [some ⟨.heavy, none⟩] ∧
    (after .evaluationTimerExpiry (after (.overrideExpiry 1) forced)).risk.faces.map FaceRecord.override = [none] := by
  decide +kernel

/-- R45, R47: an evaluation start taken before the expiry keeps the override, and a FORCE order taken before it stands. -/
theorem test_overrideExpiry_order :
    ((after .evaluationTimerExpiry forced).risk.flight.map (fun f => f.faces.map FaceSnapshot.override)) = some [some .heavy] ∧
    (after (.overrideExpiry 1) (after .dispatchOrderForce (queued (order 30 3 1 0 10) forced))).risk.faces.map
      FaceRecord.override = [some ⟨.quiet, some 600000⟩] := by decide +kernel

/-- 4.7: 201 ALERT stored with sector 11; the frame reports 300 µg/m³. -/
def sector11 : State := idle.setWind { idle.wind with sector := 11 }

theorem test_dispatchMonitor : (after .dispatchMonitor (queued monitorFrame sector11)).fence =
    ⟨[some ⟨.alert, 300, 0, false⟩], [⟨1, none⟩]⟩ := by decide +kernel

/-- 4.7: 201 ALERT with its silence crossing due, which starts the hold of 600 s. -/
def alerted : State := sector11.setFence ⟨[some ⟨.alert, 300, 60000, false⟩], [⟨1, none⟩]⟩

theorem test_monitorSilence : (after (.monitorSilenceCrossing 201) alerted).fence =
    ⟨[some ⟨.alert, 300, 60000, true⟩], [⟨1, some 600000⟩]⟩ ∧
    after (.monitorSilenceCrossing 201) (alerted.setFence ⟨[some ⟨.alert, 300, 59999, false⟩], [⟨1, none⟩]⟩) =
      alerted.setFence ⟨[some ⟨.alert, 300, 59999, false⟩], [⟨1, none⟩]⟩ := by decide +kernel

theorem test_holdExpiry : (after (.holdExpiry 1) (sector11.setFence ⟨[none], [⟨1, some 0⟩]⟩)).fence.held = [⟨0, none⟩] ∧
    (after (.holdExpiry 1) (alerted.setFence { alerted.fence with held := [⟨2, some 0⟩] })).fence.held = [⟨1, none⟩] := by decide

/-- R62, other event first: an ALARM and then a NORMAL frame at the instant of the expiry stop the timer and start it afresh, so the held
value stands. -/
theorem test_holdExpiry_restarted :
    (let s := sector11.setFence ⟨[some ⟨.normal, 0, 0, false⟩], [⟨2, some 0⟩]⟩
     let t := after .dispatchMonitor (queued (frame 2 201 [1, 44, 0]) (after .dispatchMonitor (queued (frame 2 201 [1, 44, 2]) s)))
     (t.fence.held, (after (.holdExpiry 1) t).fence.held)) = ([⟨2, some 600000⟩], [⟨2, some 600000⟩]) := by decide +kernel

/-- 5.6: the reclaimer working pile 7, face 2 gives face 1 K_reclaim and closes the arc of its cell. -/
theorem test_dispatchMachine : (after .dispatchMachine (queued (machineFrame 3) idle)).machines.kf = [160] ∧
    (after .dispatchMachine (queued (machineFrame 3) idle)).machines.arcs = [[true]] ∧
    (after .dispatchMachine (queued (machineFrame 2) idle)).machines.list = [] := by decide +kernel

/-- R134: the arc 3400 to 200 becomes ACTIVE: a channel spraying at 3500 goes DRY, one at 3100 sprays on. -/
theorem test_dispatchMachine_dry :
    let s := (running .spraying 0 3100 false).onChannel 0 (fun ch => { ch with aim := some (3500, 0) })
    ((after .dispatchMachine (queued (machineFrame 3) s)).channel 0).state = .dry ∧
    ((after .dispatchMachine (queued (machineFrame 3) s)).channel 0).valve = false ∧
    ((after .dispatchMachine (queued (machineFrame 3) (running .spraying 0 3100 false))).channel 0).state = .spraying := by
  decide +kernel

/-- A machine list of one reclaimer, FRESH at an age below 60 s. -/
def oneMachine (age : Nat) : State := idle.setMachines { idle.machines with
  list := [⟨100, .reclaimer, 40, 22, .reclaiming, 7, 2, age, decide (60000 ≤ age)⟩], kf := [160], arcs := [[true]] }

/-- R71, and R72: with the update taken first the crossing does not occur. -/
theorem test_machineStale :
    (after (.machineStaleCrossing 100) (oneMachine 10000)).machines.list.map MachineRecord.stale = [true] ∧
    (after (.machineStaleCrossing 100) (oneMachine 10000)).machines.kf = [160] ∧
    (let s := after .dispatchMachine (queued (machineFrame 3) (oneMachine 10000)); after (.machineStaleCrossing 100) s = s) := by
  decide +kernel

/-- R72, third case, newcomer first: the record due for removal reads age 59 (5.1), so record 1 of age 59 and lower id is replaced. -/
theorem test_dispatchMachine_due :
    (let s := idle.setMachines { idle.machines with
       list := (List.range 8).map (fun i => ⟨i + 1, .loader, 0, 0, .parked, 0, 0, if i = 0 then 59000 else if i = 4 then 60000 else 58999, true⟩) }
     (after .dispatchMachine (queued (machineFrame 3) s)).machines.list.map MachineRecord.id) = [2, 3, 4, 5, 6, 7, 8, 100] := by
  decide +kernel

theorem test_machineRemoval : (after (.machineRemoval 100) (oneMachine 60000)).machines =
      { list := [], kf := [64], arcs := [[false]], refused := 0 } ∧
    (let s := after .dispatchMachine (queued (machineFrame 3) (oneMachine 60000)); after (.machineRemoval 100) s = s) := by
  decide +kernel

theorem test_dispatchReport : (after .dispatchReport (queued (reportFrame 5) idle)).peers.list.map Peer.speed = [142] ∧
    (after .dispatchReport (queued (reportFrame 5) idle)).peers.list.map Peer.claimR = [160] ∧
    (after .dispatchReport (queued (reportFrame 5) idle)).peers.list.map Peer.highest = [.spray] ∧
    (after .dispatchReport (queued (reportFrame 0) idle)).peers.list = [] := by decide +kernel

/-- The six peers at an age. -/
def aged (age : Nat) : State := idle.setPeerList (neighbours.map (fun p => { p with age := age }))

/-- R85 at three report periods of 5 s, and R86: with the update taken first the crossing does not occur. -/
theorem test_peerStale : (after (.peerStaleCrossing 14) (aged 15000)).neighbourSpeeds = [118, 125] ∧
    (let s := after .dispatchReport (queued (reportFrame 5) (aged 15000)); after (.peerStaleCrossing 14) s = s) := by
  decide +kernel

theorem test_peerRemoval : (after (.peerRemoval 30) (aged 30000)).peers.list.map Peer.id = [14, 17, 21, 22, 33] ∧
    after (.peerRemoval 30) (aged 29999) = aged 29999 := by
  decide +kernel

/-- 7.4: the station of the worked case: one peer that stands for the four, and 160 granted. -/
def sharing : State := ((running .spraying 0 3100 false).setPeerList
  [{ peer 14 0 0 0 .localWind false with w := 1860, claimR := 700 }])

/-- 7.4: the first frame gives S_r 258, the one with D_m 1340 gives 156 and revokes the channel, and the notice gives 115. -/
theorem test_shares : (sharing.shareComputation).water.sR = 258 ∧
    ((sharing.setWater { sharing.water with dM := 1340 }).shareComputation).water.sR = 156 ∧
    (((sharing.setWater { sharing.water with dM := 1340 }).shareComputation).channel 0).state = .denied ∧
    (after .gtNotice ((sharing.setWater { sharing.water with dM := 1340 }).shareComputation)).water.sR = 115 := by
  decide +kernel

theorem test_dispatchPond : (after .dispatchPond (queued (pondFrame 9) sharing)).water.cR = 1200 ∧
    (after .dispatchPond (queued (pondFrame 9) sharing)).water.sR = 258 ∧
    (after .dispatchPond (queued (pondFrame 10) sharing)).water = sharing.water := by decide +kernel

/-- AUTO with the pond's silence timer run out. -/
def pondDue : State := idle.setWater { idle.water with timer := some 0 }

/-- R97, and R98: with the store taken first the expiry does not occur. -/
theorem test_pondSilence : (after .pondSilenceExpiry pondDue).water.cR = 600 ∧ (after .pondSilenceExpiry pondDue).water.silent = true ∧
    (let s := after .dispatchPond (queued (pondFrame 9) pondDue); after .pondSilenceExpiry s = s) := by
  decide +kernel

/-- R108: the claims of a granted 160 against an S_r of 100. -/
theorem test_claims : (let s := sharing.setWater { sharing.water with sR := 100 }; (s.claimReuse, s.claimFresh)) = (100, 60) := by
  decide

theorem test_onAim : ((after (.onAim 0) (running .slewing 0 3100 false)).channel 0).state = .opening ∧
    ((after (.onAim 0) (running .slewing 0 3100 false)).channel 0).valveTimer = some 4000 ∧
    ((after (.onAim 0) ((running .slewing 0 3100 false).onChannel 0 (fun ch => { ch with dryFlag := true }))).channel 0).state = .dry := by
  decide

theorem test_slewTimeout : ((after (.slewTimeout 0) (running .slewing 0 3100 false)).channel 0).state = .faulted ∧
    (after (.slewTimeout 0) (running .slewing 0 3100 false)).sweep.grants = [] ∧
    (after (.slewTimeout 0) (running .slewing 0 3100 false)).faultOutput = true := by decide +kernel

theorem test_valveOpenReport : ((after (.valveOpenReport 0) (running .opening 0 3100 false)).channel 0).dwellTimer = some 20000 := by
  decide

theorem test_valveTimeout : ((after (.valveTimeout 0) (running .opening 0 3100 false)).channel 0).state = .faulted ∧
    (after (.valveTimeout 0) (running .opening 0 3100 false)).valveOutput 0 = false := by decide +kernel

/-- 8.2: from step 2 of the RING the index wraps to 3400, with the lap counted. -/
theorem test_dwellExpiry : ((after (.dwellExpiry 0) (running .spraying 2 4100 false)).channel 0).ringIndex = 3400 ∧
    ((after (.dwellExpiry 0) (running .spraying 2 4100 false)).channel 0).laps = 1 ∧
    ((after (.dwellExpiry 0) (running .spraying 2 4100 false)).channel 0).aim = some (3400, 0) ∧
    ((after (.dwellExpiry 0) (running .spraying 2 4100 false)).channel 0).state = .slewing := by decide +kernel

/-- R125: at the last step under KEEP the pass ends and the next begins at the leg's a0, the grant kept. -/
theorem test_dwellExpiry_pass : ((after (.dwellExpiry 0) (running .dry 7 3000 false)).channel 0).cursor = some ⟨0, 0⟩ ∧
    ((after (.dwellExpiry 0) (running .dry 7 3000 false)).channel 0).ringIndex = 3100 ∧
    (after (.dwellExpiry 0) (running .dry 7 3000 false)).sweep.grants = [⟨0, .reuse⟩] := by decide +kernel

/-- R137: the third low sample asks for a break. -/
theorem test_pressureSample :
    let s := (running .spraying 0 3100 false).setSweep { (running .spraying 0 3100 false).sweep with lowRun := 2 }
    (after (.pressureSample 199) s).line.breakDriving = true ∧ (after (.pressureSample 199) s).station.breakRequest = true ∧
    (after (.pressureSample 200) s).sweep.lowRun = 0 := by decide

/-- A break being driven by this station. -/
def breaking (request : Bool) (s : State) : State :=
  (s.setStation { s.station with breakRequest := request }).setLine { s.line with breakDriving := true }

theorem test_breakSendEnd : (after .breakSendEnd (breaking true idle)).station.mode = .hushed ∧
    (after .breakSendEnd (breaking false idle)).station.mode = .auto := by decide +kernel

/-- 11.7: a break heard in LISTENING, and again in HUSHED. -/
theorem test_breakHeard : (after .breakHeard listening).station.remembered = some .listening ∧
    (after .breakHeard listening).station.hushTimer = some 300000 ∧
    (after .breakHeard (hushed .auto)).station.remembered = some .auto := by decide +kernel

/-- 11.7: the listening timer's expiry in a hush, and out of one. -/
theorem test_listeningTimer : (after .listeningTimerExpiry listening).station.mode = .auto ∧
    (after .listeningTimerExpiry (let s := hushed .listening
      s.setStation { s.station with target := .standby, listeningTimer := some 0 })).station.remembered = some .standby := by
  decide +kernel

/-- HUSHED with the hush hold timer run out. -/
def hushOver (r : Remembered) : State := (hushed r).setStation { (hushed r).station with hushTimer := some 0 }

theorem test_hushHoldExpiry : (after .hushHoldExpiry (hushOver .standby)).station.mode = .standby ∧
    (after .hushHoldExpiry (hushOver .auto)).sweep.channels.map Channel.state = [.slewing] ∧
    after .hushHoldExpiry (hushed .standby) = hushed .standby := by decide +kernel

/-- READY, with the line idle and a report pending. -/
def readyToSend : State := idle.setLine { idle.line with rx := .ready, gap := some 192, slot := some (reportFrame 5) }

/-- The station's own report on the line, no bit read back yet. -/
def sending (slot : Option Frame) (run : Nat) : State := idle.setLine
  { idle.line with rx := .inFrame true [] [], sending := some (reportFrame 5), slot := slot, clashRun := run }

/-- A frame in receipt, no bit read yet. -/
def receiving : State := idle.setLine { idle.line with rx := .inFrame true [] [], run := .inProgress }

theorem test_idleGap : (after .idleGapComplete idle).line.rx = .ready ∧ (after .idleGapComplete receiving).line.framing = 1 := by
  decide

theorem test_startEdge : (after (.startEdge 192) readyToSend).line.rx = .inFrame true [] [] ∧
    (after (.startEdge 183) idle).line.rx = .awaitGap ∧ (after (.startEdge 184) idle).line.rx = .inFrame false [] [] := by decide

theorem test_bitRead : (after (.bitRead ⟨true, true, true⟩) receiving).line.rx = .ready ∧
    (after (.bitRead ⟨true, true, true⟩) receiving).line.noise = 1 ∧
    (after (.bitRead ⟨false, true, false⟩) receiving).line.rx = .inFrame true [] [false] ∧
    (after (.bitRead ⟨false, true, false⟩) receiving).line.noise = 1 := by decide

/-- The eleven bits of the character 2, the kind of a Monitor frame, least significant first (R144). -/
theorem test_bitRead_character : (after (.bitRead ⟨true, true, true⟩)
    ([false, false, true, false, false, false, false, false, false, true].foldl
      (fun s v => after (.bitRead ⟨v, v, v⟩) s) receiving)).line.rx = .inFrame true [2#8] [] := by decide +kernel

theorem test_frameReceived : (after (.frameReceived monitorFrame) receiving).dispatcher.queue = [monitorFrame] ∧
    (after (.frameReceived (monitorFrame.set 4 45#8)) receiving).dispatcher.checkFail = 1 := by decide +kernel

theorem test_frameStart : (after .frameStart readyToSend).line.sending = some (reportFrame 5) ∧
    (after .frameStart readyToSend).line.slot = none ∧ (after .frameStart readyToSend).lineDriver = true := by decide +kernel

/-- 9.8: a Report's kind loses at data bit 2 of the first character, where a Pond frame sends 0. -/
theorem test_arbitrationLost : (after (.arbitrationLost 0 3 ⟨false, false, false⟩) (sending none 0)).line.slot = some (reportFrame 5) ∧
    (after (.arbitrationLost 0 3 ⟨false, false, false⟩) (sending none 0)).line.rx =
      .inFrame true [] [false, true, false, false] ∧
    (after (.arbitrationLost 0 3 ⟨false, false, false⟩) (sending none 0)).line.clashes = 0 := by decide +kernel

/-- R151, R152: the eighth clash of a run silences the station for eight report periods. -/
theorem test_clash : (after (.clash 2 1 ⟨true, true, true⟩) (sending none 7)).line.silence = some 40000 ∧
    (after (.clash 2 1 ⟨true, true, true⟩) (sending none 6)).line.clashRun = 7 ∧
    (after (.clash 2 3 ⟨false, false, false⟩) (sending none 6)).line.deferredClash = true := by decide +kernel

theorem test_dominantRunEnd :
    (after .dominantRunEnd (idle.setLine { idle.line with deferredClash := true, clashes := 255, clashRun := 3 })).line.clashRun = 4 ∧
    (after .dominantRunEnd (idle.setLine { idle.line with deferredClash := true, clashes := 255, clashRun := 3 })).line.clashes = 255 ∧
    (after .dominantRunEnd (idle.setLine { idle.line with deferredFraming := true })).line.framing = 1 := by decide

theorem test_frameSent : (after .frameSent (sending none 3)).line.clashRun = 0 ∧
    (after .frameSent (sending none 3)).line.sending = none := by decide

theorem test_selfSilence : (after .selfSilenceExpiry (idle.setLine { idle.line with silence := some 0 })).line.silence = none := by
  decide

/-- 11.7: MODE STANDBY at 8 s, MODE AUTO at 150 s. -/
theorem test_orderMode : (after .dispatchOrderMode (queued (order 255 1 2 0 0) (hushed .listening))).station.target = .standby ∧
    (after .dispatchOrderMode (queued (order 30 1 1 0 0) (hushed .standby))).station.remembered = some .auto ∧
    (after .dispatchOrderMode (queued (order 31 1 2 0 0) idle)).station.mode = .auto := by decide +kernel

theorem test_orderBank : ((after .dispatchOrderBank (queued (order 30 2 1 0 0) idle)).channel 0).bank = .b ∧
    ((after .dispatchOrderBank (queued (order 30 2 1 0 0) (running .spraying 0 3100 false))).channel 0).swapPending = true ∧
    (after .dispatchOrderBank (queued (order 30 2 2 0 0) idle)).sweep.requested = .a := by decide +kernel

theorem test_orderForce :
    (after .dispatchOrderForce (queued (order 30 3 1 0 10) idle)).risk.faces.map FaceRecord.override = [some ⟨.quiet, some 600000⟩] ∧
    (after .dispatchOrderForce (queued (order 30 3 1 255 0) forced)).risk.faces.map FaceRecord.override = [none] ∧
    (after .dispatchOrderForce (queued (order 30 3 2 0 10) idle)).risk = idle.risk := by decide +kernel

/-- 11.7: RESUME at 260 s: the channels come out of HUSHED. -/
theorem test_orderResume : (after .dispatchOrderResume (queued (order 255 4 0 0 0) (hushed .auto))).station.mode = .auto ∧
    (after .dispatchOrderResume (queued (order 255 4 0 0 0) (hushed .auto))).sweep.grants = [⟨0, .reuse⟩] ∧
    (after .dispatchOrderResume (queued (order 255 4 0 0 0) idle)).station = idle.station := by decide +kernel

theorem test_orderZero : (after .dispatchOrderZero (queued (order 255 5 9 9 9) beforeMidnight)).water.reuse = 0 ∧
    (after .dispatchOrderZero (queued (order 29 5 9 9 9) beforeMidnight)).water.reuse = 41207 := by decide +kernel

theorem test_orderIgnored : (after .orderIgnored (queued (order 31 1 1 0 0) idle)).dispatcher.queue = [] ∧
    (after .orderIgnored (queued (order 30 6 1 0 0) idle)).dispatcher.queue = [] ∧
    (after .orderIgnored (queued (order 30 1 1 0 0) idle)).dispatcher.queue.length = 1 := by decide +kernel

/-- R163: kind 7 is counted nowhere; the station's own id is counted. -/
theorem test_frameDiscarded : (after .frameDiscardedAtDispatch (queued (frame 7 9 []) idle)).dispatcher = idle.dispatcher ∧
    (after .frameDiscardedAtDispatch (queued (frame 2 30 [1, 44, 1]) idle)).dispatcher.idConflict = 1 := by decide +kernel

/-- 10.2: while an evaluation is in flight a Monitor frame is held and a Report behind it is dispatched. -/
theorem test_held_frames :
    let s := (inFlight none).setDispatcher { idle.dispatcher with queue := [monitorFrame, reportFrame 5] }
    (after .dispatchMonitor s).dispatcher.queue = [monitorFrame, reportFrame 5] ∧
    (after .dispatchReport s).dispatcher.queue = [monitorFrame] := by decide +kernel

theorem test_reportTimer : (after .reportTimerExpiry idle).line.slot = some idle.report ∧
    (after .reportTimerExpiry readyToSend).line.superseded = 1 ∧ (after .reportTimerExpiry idle).station.page = 1 ∧
    (after .reportTimerExpiry idle).station.reportTimer = some 5000 := by decide +kernel

/-- FAULT with code 3. -/
def faulted (phase : Nat) : State := State.reset.setStation
  { Station.reset with mode := .fault, resetAsserted := false, faultCode := some 3, patternPhase := phase, patternTimer := some 0 }

/-- R176: code 3 repeats every 2,800 ms: three assertions, the last released for 200 + 1600 ms. -/
theorem test_faultPattern : (List.range 7).map (fun p => (faulted p).faultOutput) = [true, false, true, false, true, false, false] ∧
    (after .faultPatternTick (faulted 5)).station.patternTimer = some 1600 ∧
    (after .faultPatternTick (faulted 6)).station.patternPhase = 0 := by decide

/-- The load in progress. -/
def loading : State := State.reset.beginLoad

theorem test_resetRelease : (after .resetRelease State.reset).station.spiSent = [3#8, 0#8, 0#8] ∧
    (after .resetRelease State.reset).station.spiSelect = true ∧
    spiSampled false (after .resetRelease State.reset).spiOut =
      List.replicate 6 false ++ [true, true] ++ List.replicate 16 false := by decide

/-- R165: an image length of 51 or 2201 fails stage 1; a memory of 52 bytes of the wrong layout fails stage 2. -/
theorem test_loadFailure : (after (.loadFailure [0#8, 51#8, 3#8]) loading).station.faultCode = some 1 ∧
    (after (.loadFailure [8#8, 153#8, 3#8]) loading).station.faultCode = some 1 ∧
    (after (.loadFailure ([0#8, 52#8, 2#8] ++ List.replicate 49 0#8)) loading).station.faultCode = some 2 := by decide +kernel

/-- An image of one face and one channel with one HOLD leg in each bank, its checks at offsets 3 and 4. -/
def imageBody : List Byte := ([0, 147, 3] ++
  [30, 4, 176, 3, 32, 0, 32, 5, 7, 9, 40, 1, 144, 2, 48, 2, 188, 16, 10, 0, 1, 244, 0, 150, 50, 30, 60, 0, 60, 2, 88, 30, 1, 44,
   160, 96, 0, 0, 0, 200, 1, 128, 3, 1, 1, 1, 44] ++
  [4] ++ (List.replicate 16 [0, 200]).flatten ++ [0, 50, 40, 30, 4, 0] ++ [0, 0] ++
  [0, 160, 0, 150, 8, 5, 4, 10, 0, 0] ++
  ([1, 1, 2, 0, 20, 3, 0, 100] ++ List.replicate 14 0) ++ ([1, 1, 2, 0, 20, 3, 0, 100] ++ List.replicate 14 0)).map (BitVec.ofNat 8)

/-- The image, with its checks at offsets 3 and 4. -/
def image : List Byte :=
  imageBody.take 3 ++ [BitVec.ofNat 8 (checkSums imageBody).1, BitVec.ofNat 8 (checkSums imageBody).2] ++ imageBody.drop 3

/-- A load is told passed. -/
def passes (memory : List Byte) : Bool :=
  match loadImage memory with
  | .passes _ => true
  | .fails _ => false

/-- 11.7: at a load's success the listening timer runs 10 s and the first report comes at 30 × 40 ms. -/
theorem test_loadSuccess : passes image = true ∧ (after (.loadSuccess image) loading).station.mode = .listening ∧
    (after (.loadSuccess image) loading).station.listeningTimer = some 10000 ∧
    (after (.loadSuccess image) loading).station.reportTimer = some 1200 ∧
    (after (.loadSuccess image) loading).risk.faces.map FaceRecord.moisture = [1024] := by decide +kernel

theorem test_reset : (after .reset idle).station.mode = .starting ∧ (after .reset idle).cfg = StationCfg.unloaded ∧
    (after .reset (running .spraying 0 3100 false)).valveOutput 0 = false := by decide

/-! ## Witnesses: states and operands that meet the hypotheses of each obligation, clause by clause -/

theorem passes_of_true (memory : List Byte) (h : passes memory = true) : ∃ c, loadImage memory = .passes c := by
  unfold passes at h
  cases hl : loadImage memory with
  | passes c => exact ⟨c, rfl⟩
  | fails n => simp [hl] at h

theorem image_passes : ∃ c, loadImage image = .passes c := passes_of_true image (by decide +kernel)

/-- The image with a leg's minimum level 5, its checks formed again: stage 9. -/
def badLeg : List Byte :=
  let body := imageBody.set 125 5#8
  body.take 3 ++ [BitVec.ofNat 8 (checkSums body).1, BitVec.ofNat 8 (checkSums body).2] ++ body.drop 3

theorem witness_ResetAndItsRelease : State.reset.station.resetAsserted = true ∧
    loading.station.spiSent = [3#8, 0#8, 0#8] := by decide

theorem witness_LoadSuccessEntersListening :
    loading.station.mode = .starting ∧ loading.station.spiSelect = true ∧ loading.BlocksAtRest ∧
      ∃ c, loadImage image = .passes c :=
  ⟨by decide, by decide, by decide +kernel, image_passes⟩

theorem witness_LoadFailureLatchesCode : loading.station.mode = .starting ∧ loading.station.spiSelect = true ∧
    loadImage [0#8, 51#8] = .fails 1 ∧ loadImage badLeg = .fails 9 ∧ imageLength [0#8, 51#8] = 51 ∧
    imageLength [8#8, 153#8] = 2201 := by decide +kernel

theorem witness_PassedImageIsInRange : ∃ c, loadImage image = .passes c := image_passes

theorem witness_RestAndFaultStandStill : State.reset.BlocksAtRest ∧ State.reset.station.mode = .starting ∧
    (faulted 0).BlocksAtRest ∧ (faulted 0).station.mode = .fault ∧ exec .dominantRunEnd (faulted 0) = .next (faulted 0) :=
  ⟨by decide +kernel, by decide, by decide +kernel, by decide, rfl⟩

/-- R71, R85: in two milliseconds an age reaches the crossing's and waits there. -/
theorem witness_RestAndFaultStandStill_time : (aged 14999).pending = [] ∧ (aged 14999).works = true ∧
    (aged 14999).timePasses.timePasses.peers.list.map Peer.age = [15000, 15000, 15000, 15000, 15001, 15000] ∧
    (oneMachine 9999).timePasses.timePasses.machines.list.map MachineRecord.age = [10000] ∧
    (oneMachine 9999).timePasses.timePasses.wind.sampleTimer = some 1998 := by decide

theorem witness_SampleCloseTakesSample : (filling.wind.sampleTimer.isSome = true ∧ filling.wind.writeIndex < 30 ∧
      filling.wind.ring.length = (if filling.wind.full then 30 else filling.wind.writeIndex)) ∧
    (let s := jammed.setWind { jammed.wind with writeIndex := 29 }
     s.wind.sampleTimer.isSome = true ∧ s.wind.writeIndex < 30 ∧
      s.wind.ring.length = (if s.wind.full then 30 else s.wind.writeIndex)) ∧
    (after (.sampleClose 0b1011#4) filling).wind.sector ≠ filling.wind.sector ∧
    (let s := filling.setWind { filling.wind with sector := 11 }
     (after (.sampleClose 0b1011#4) s).wind.sector = s.wind.sector) := by decide +kernel

/-- STUCK without neighbours, from a source with its held timer. -/
def cutOff (source : WindSource) (timer : HeldTimer) : State := jammed.setPeerList [] |>.setWind
  { jammed.wind with zeroRun := 150, health := .stuck, source := source, heldTimer := timer, heldValue := 115 }

/-- The health, the source and U_eff after a close. -/
def closed (s : State) : Health × WindSource × Nat :=
  ((after (.sampleClose 0#4) s).wind.health, (after (.sampleClose 0#4) s).wind.source, (after (.sampleClose 0#4) s).wind.uEff)

/-- 1.8: row by row of the cascade. -/
theorem witness_SampleCloseDecidesSource : filling.wind.sampleTimer.isSome = true ∧ closed filling = (.healthy, .localWind, 90) ∧
    jammed.neighbourSpeeds ≠ [] ∧ closed jammed = (.stuck, .peer, 125) ∧
    (let s := (cutOff .peer .idle).setForecast sixWindows
     s.neighbourSpeeds = [] ∧ s.selectForecast.currentSlot = some ⟨100, 160, 4, 60⟩ ∧ closed s = (.stuck, .forecast, 115)) ∧
    (cutOff .forecast .idle).neighbourSpeeds = [] ∧ (cutOff .forecast .idle).selectForecast.currentSlot = none ∧
    closed (cutOff .forecast .idle) = (.stuck, .held, 84) ∧ closed (cutOff .held (.running 0)) = (.stuck, .held, 115) ∧
    closed (cutOff .held .expired) = (.stuck, .failsafe, 150) ∧ closed (cutOff .failsafe .expired) = (.stuck, .failsafe, 150) ∧
    [1, 2] ≠ ([] : List Nat) := by decide +kernel

/-- The wind held at `u` by the samples of a full ring, a neighbourless anemometer counting `n` pulses. -/
def blowing (u : Nat) (s : State) : State := s.setWind { s.wind with
  ring := List.replicate 30 ⟨u, 0⟩, full := true, count := (u - 3) * 256 / 384 }

theorem witness_SampleCloseHoldsForWind :
    ((blowing 153 (running .spraying 0 3100 false)).wind.sampleTimer.isSome = true ∧
      (blowing 153 (running .spraying 0 3100 false)).OrdersTell ∧
      (after (.sampleClose 0#4) (blowing 153 (running .spraying 0 3100 false))).wind.uEff = 153 ∧
      ((after (.sampleClose 0#4) (blowing 153 (running .spraying 0 3100 false))).channel 0).state = .windHeld) ∧
    ((after (.sampleClose 0#4) (blowing 150 (running .spraying 0 3100 false))).wind.uEff = 150 ∧
      ((after (.sampleClose 0#4) (blowing 150 (running .spraying 0 3100 false))).channel 0).state = .spraying) ∧
    (let s := blowing 141 (idle.onChannel 0 (fun ch => { ch with state := .windHeld }))
     s.OrdersTell ∧ (after (.sampleClose 0#4) s).wind.uEff = 141 ∧ ((after (.sampleClose 0#4) s).channel 0).state = .windHeld) ∧
    (let s := blowing 138 (idle.onChannel 0 (fun ch => { ch with state := .windHeld }))
     (after (.sampleClose 0#4) s).wind.uEff = 138 ∧ ((after (.sampleClose 0#4) s).channel 0).state = .slewing) ∧
    (blowing 150 waiting).OrdersTell ∧ (blowing 150 waiting).wind.sampleTimer.isSome = true := by decide +kernel

theorem witness_PulsesAndExpiriesMark : (idle.station.resetAsserted = false ∧ idle.station.mode ≠ .fault) ∧
    (idle.setWind { idle.wind with heldTimer := .running 0 }).wind.heldTimer = .running 0 ∧ 1 ≤ forced.risk.faces.length ∧
    (idle.setLine { idle.line with silence := some 0 }).line.silence.isSome = true := by decide

theorem witness_DispatchForecastStores :
    (∀ k ∈ [5, 4], (queued (forecastFrame k) idle).works = true ∧
      (queued (forecastFrame k) idle).oldestFree = some (forecastFrame k) ∧ (forecastFrame k).valid = true ∧
      (forecastFrame k).kind = 6 ∧ (forecastFrame k).sender ≠ (queued (forecastFrame k) idle).cfg.id ∧
      (queued (forecastFrame k) idle).StoreHolds ∧ (forecastFrame k).payload 7 1 = k) ∧
    (forecastFrame 5).payload 9 3 < 86400 ∧ (idle.setForecast sixWindows).StoreHolds := by decide +kernel

/-- The recency order after the frame of 2.8 is dispatched to a store; the place that took its window leads it. -/
def orderAfter (store : Forecast) : List Nat :=
  (after .dispatchForecast (queued (forecastFrame 60) (idle.setForecast store))).forecast.recency

/-- R22, R23 case by case: the like window's place, and nothing when it is locked; without a like window the empty place, the expired one,
and the least recent one that is not locked. -/
theorem witness_DispatchForecastStores_places : orderAfter sixWindows = [0, 5, 4, 3, 2, 1] ∧
    orderAfter { sixWindows with selected := some 0 } = [5, 4, 3, 2, 1, 0] ∧
    orderAfter { sixWindows with places := sixWindows.places.set 0 none } = [0, 5, 4, 3, 2, 1] ∧
    (let v : Window := ⟨52, 21000, 22000, 30, List.replicate 12 ⟨0, 0, 0, 0⟩⟩
     orderAfter { sixWindows with places := sixWindows.places.set 0 (some v) } = [1, 5, 4, 3, 2, 0] ∧
     orderAfter { sixWindows with places := List.replicate 6 (some v) } = [0, 5, 4, 3, 2, 1] ∧
     orderAfter { sixWindows with places := List.replicate 6 (some v), selected := some 0 } = [1, 5, 4, 3, 2, 0]) := by
  decide +kernel

theorem witness_YardClockAdvances : beforeMidnight.forecast.clock = some 86399 ∧ beforeMidnight.forecast.advanceTimer = some 0 ∧
    idle.forecast.clock = none := by decide

theorem witness_SelectionTakesYoungest : ((idle.setForecast sixWindows).forecast.clock = some 25200 ∧
      (idle.setForecast sixWindows).StoreHolds ∧ (idle.setForecast sixWindows).selectForecast.forecast.selected = some 0) ∧
    (let s := idle.setForecast { idle.forecast with clock := some 0 }
     s.StoreHolds ∧ s.selectForecast.forecast.selected = none) ∧ idle.forecast.clock = none ∧
    ((idle.setForecast sixWindows).selectForecast.forecast.window 0).isSome = true := by decide +kernel

theorem witness_EvaluationTimerStarts : ((inFlight none).risk.timer.isSome = true ∧ (inFlight none).risk.flight.isSome = true) ∧
    idle.risk.timer.isSome = true ∧ idle.risk.flight = none ∧ idle.machines.kf[0]? = some 64 ∧
    idle.fence.held[0]? = some ⟨0, none⟩ := by decide

theorem witness_EvaluationCompletes :
    (inFlight none).risk.flight = some ⟨120, 4, [⟨1024, 128, 0, none⟩], none, none, 50⟩ ∧
    (inFlight (some .quiet)).risk.flight = some ⟨120, 4, [⟨1024, 128, 0, some .quiet⟩], none, none, 50⟩ ∧
    (inFlight none).cfg.faces[0]? = some face ∧
    (after (.evaluationCompletion true) (inFlight none)).risk.w = (inFlight none).risk.w ∧
    (∀ first ∈ [true, false], (after (.evaluationCompletion first) (inFlight (some .quiet))).risk.w ≠ (inFlight none).risk.w) ∧
    (inFlight (some .quiet)).OrdersTell := by decide +kernel

/-- An evaluation in flight over a state; its snapshot gives face 1 an ERI of 659, or of 0. -/
def completing (moisture : Nat) (s : State) : State :=
  s.setRisk { s.risk with flight := some ⟨120, 4, [⟨moisture, 128, 0, none⟩], none, none, 50⟩ }

theorem witness_LevelsMoveChannels :
    (∀ s ∈ [idle, waiting, running .dry 0 3100 false, hushed .auto], (completing 1024 s).risk.flight.isSome = true ∧
      (completing 1024 s).OrdersTell) ∧
    (after (.evaluationCompletion false) (completing 1024 idle)).hasWork 0 = true ∧
    ((after (.evaluationCompletion false) (completing 1024 idle)).channel 0).state = .slewing ∧
    (after (.evaluationCompletion false) (completing 4095 waiting)).hasWork 0 = false ∧
    ((after (.evaluationCompletion false) (completing 4095 waiting)).channel 0).state = .idle := by decide +kernel

theorem witness_WeightingStages : face.threshold = 50 ∧ (10 ≤ face.threshold ∧ (255 : Nat) ≤ 255 ∧ (600 : Nat) ≤ 600) := by decide

theorem witness_ScalingStage : (861000000 - 1 : Nat) < 861000000 ∧ (∀ e ∈ face.exposure, e ≤ 256) ∧ 10 ≤ face.threshold := by decide

theorem witness_LevelsRiseAndFall : Level.heavy ≠ .prewet ∧ (cfg.hysteresis < cfg.tWatch ∧ cfg.tWatch < cfg.tSpray ∧
    cfg.tSpray < cfg.tHeavy) ∧ ({ cfg with hysteresis := 0 } : StationCfg).hysteresis = 0 := by decide

theorem witness_EscalationIsRecomputed :
    ((queued monitorFrame idle).works = true ∧ (queued monitorFrame idle).oldestFree = some monitorFrame ∧
      monitorFrame.valid = true ∧ monitorFrame.kind = 2 ∧ monitorFrame.sender ≠ idle.cfg.id ∧
      idle.cfg.relations.findIdx? (fun e => decide (e.monitor = monitorFrame.sender)) = some 0 ∧ monitorFrame.payload 2 1 ≤ 2) ∧
    (let f := frame 2 201 [1, 44, 3]
     (queued f idle).works = true ∧ (queued f idle).oldestFree = some f ∧ f.valid = true ∧ f.kind = 2 ∧ 2 < f.payload 2 1) ∧
    (let f := frame 2 202 [1, 44, 2]
     f.valid = true ∧ idle.cfg.relations.findIdx? (fun e => decide (e.monitor = f.sender)) = none) ∧
    (alerted.cfg.relations.findIdx? (fun e => decide (e.monitor = 201)) = some 0 ∧
      alerted.fence.records[0]? = some (some ⟨.alert, 300, 60000, false⟩)) ∧
    (sector11.setFence ⟨[none], [⟨1, some 0⟩]⟩).fence.held[1 - 1]? = some ⟨1, some 0⟩ := by decide +kernel

theorem witness_RawEscalationIsLargest : alerted.cfg.relations[0]? = some ⟨201, 7168, 1⟩ ∧
    alerted.fence.records[0]? = some (some ⟨.alert, 300, 60000, false⟩) ∧ (1 : Nat).testBit 0 = true ∧
    (7168 : Nat).testBit alerted.wind.sector = true ∧ alerted.rawEscalation 1 = 1 := by decide +kernel

/-- A full machine list, its records FRESH or all STALE. -/
def fullList (stale : Bool) : State := idle.setMachines { idle.machines with
  list := (List.range 8).map (fun i => ⟨i + 1, .loader, 0, 0, .parked, 0, 0, 12000, stale⟩) }

theorem witness_DispatchMachineStores :
    (∀ s ∈ [idle, oneMachine 9000, fullList true, fullList false], (queued (machineFrame 3) s).works = true ∧
      (queued (machineFrame 3) s).oldestFree = some (machineFrame 3) ∧ (machineFrame 3).valid = true ∧
      (machineFrame 3).kind = 3 ∧ (machineFrame 3).sender ≠ s.cfg.id ∧ (queued (machineFrame 3) s).ListsHold) ∧
    (machineFrame 3).payload 3 1 = 3 ∧ (machineFrame 2).payload 3 1 = 2 ∧ (machineFrame 4).payload 3 1 = 4 ∧
    (after .dispatchMachine (queued (machineFrame 3) (fullList false))).machines.refused = 1 ∧
    ((after .dispatchMachine (queued (machineFrame 3) (fullList true))).machines.list.map MachineRecord.id).head? = some 2 := by
  decide +kernel

/-- R134 state by state, the aim at 3500 inside the arc that becomes ACTIVE. -/
theorem witness_DispatchMachineStores_notice :
    [ChannelState.spraying, .opening, .slewing, .dry].map (fun st =>
      let s := (running st 0 3100 false).onChannel 0 (fun ch => { ch with aim := some (3500, 0) })
      let t := after .dispatchMachine (queued (machineFrame 3) s)
      (s.machines.arcs, t.machines.arcs, t.inActiveArc 0 3500, (t.channel 0).state, (t.channel 0).dryFlag)) =
    [([[false]], [[true]], true, .dry, true), ([[false]], [[true]], true, .dry, true),
      ([[false]], [[true]], true, .slewing, true), ([[false]], [[true]], true, .dry, false)] := by decide +kernel

theorem witness_MachinesAge : (∃ m ∈ (oneMachine 10000).machines.list, m.id = 100 ∧ m.stale = false ∧ 10000 ≤ m.age) ∧
    (oneMachine 10000).machines.kf = (List.range (oneMachine 10000).cfg.faces.length).map
      (fun i => (oneMachine 10000).disturbance (i + 1)) ∧
    (oneMachine 10000).machines.arcs = (oneMachine 10000).derivedArcs ∧
    (∀ m ∈ (oneMachine 9999).machines.list, m.id = 100 ∧ m.age < 10000) ∧
    (∀ m ∈ (oneMachine 59999).machines.list, m.id = 100 ∧ m.age < 60000) ∧
    (∃ m ∈ (oneMachine 60000).machines.list, m.id = 100 ∧ 60000 ≤ m.age) := by decide +kernel

/-- A full peer table, its records FRESH or all STALE. -/
def fullTable (stale : Bool) : State :=
  idle.setPeerList ((List.range 32).map (fun i => peer (i + 50) 0 0 0 .localWind stale))

theorem witness_DispatchReportStores :
    (∀ s ∈ [idle, idle.setPeerList neighbours, fullTable true, fullTable false], (queued (reportFrame 5) s).works = true ∧
      (queued (reportFrame 5) s).oldestFree = some (reportFrame 5) ∧ (reportFrame 5).valid = true ∧
      (reportFrame 5).kind = 5 ∧ (reportFrame 5).sender ≠ s.cfg.id ∧ (queued (reportFrame 5) s).ListsHold) ∧
    (reportFrame 0).payload 0 1 = 0 ∧ (reportFrame 1).payload 0 1 = 1 ∧ (reportFrame 5).payload 1 1 ≤ 3 ∧
    (reportFrame 5).payload 9 1 ≤ 4 ∧
    (let s := idle.setPeerList [peerRecord (reportFrame 5)]
     (after .dispatchReport (queued (reportFrame 5) s)).water = s.water) ∧
    (after .dispatchReport (queued (reportFrame 5) (fullTable false))).peers.refused = 1 ∧
    ((after .dispatchReport (queued (reportFrame 5) (fullTable true))).peers.list.map Peer.id).take 2 = [14, 51] := by
  decide +kernel

theorem witness_PeersAge :
    (∃ p ∈ (aged 15000).peers.list, p.id = 14 ∧ p.stale = false ∧ 3 * p.period * 1000 ≤ p.age) ∧
    (∀ p ∈ (aged 14999).peers.list, p.age < 3 * p.period * 1000) ∧
    (∃ p ∈ (aged 30000).peers.list, p.id = 30 ∧ 6 * p.period * 1000 ≤ p.age) ∧
    (∀ p ∈ (aged 29999).peers.list, p.age < 6 * p.period * 1000) := by decide

theorem witness_GtNoticeComputesShares : 0 < (idle.setWater { idle.water with gtNotices := 1 }).water.gtNotices := by decide

theorem witness_PondIsStoredAndHalved :
    (∀ n ∈ [9, 10], (queued (pondFrame n) idle).works = true ∧ (queued (pondFrame n) idle).oldestFree = some (pondFrame n) ∧
      (pondFrame n).valid = true ∧ (pondFrame n).kind = 1 ∧ (pondFrame n).sender ≠ idle.cfg.id ∧ (pondFrame n).sender = n) ∧
    idle.cfg.pond = 9 ∧ pondDue.water.timer = some 0 ∧ idle.water.timer ≠ some 0 := by decide +kernel

/-- AUTO with two channels: C0 spraying at a step of one of its two legs, on faces 1 and 2, and C1 WAITING for face 2. -/
def pair (policy : Policy) (l1 l2 : Level) (leg step : Nat) (mark : Bool) : State :=
  let s := running .spraying step 3100 mark
  let face2 : Leg := { ringLeg with face := 2 }
  { s with
    cfg := { cfg with
      policy := policy, faces := [face, face],
      channels := [{ channelCfg with planA := [ringLeg, face2] }, { channelCfg with planA := [face2] }] },
    risk := { s.risk with faces := [⟨1024, 659, .spray, false, l1, none⟩, ⟨1024, 659, .spray, false, l2, none⟩] },
    machines := { s.machines with kf := [64, 64], arcs := [[false], [false]] },
    sweep := { s.sweep with
      channels := [{ s.channel 0 with cursor := some ⟨leg, step⟩ }, { Channel.absent with state := .waiting }],
      waiting := [1] } }

/-- An evaluation in flight over a pair of which C0 holds no grant and C1 is IDLE; it forces the two faces to the levels given. -/
def levelled (st : ChannelState) (cursor : Option Cursor) (l1 l2 : Level) : State :=
  let s := pair .keep .spray .spray 0 0 false
  { s with
    risk := { s.risk with flight := some ⟨120, 4, [⟨1024, 64, 0, some l1⟩, ⟨1024, 64, 0, some l2⟩], none, none, 50⟩ },
    sweep := { s.sweep with
      channels := [{ Channel.absent with state := st, cursor := cursor }, Channel.absent], grants := [],
      waiting := if st.waits then [0] else [] } }

/-- Where C0 stands after the levels of a levelled pair are published. -/
def levelEnd (s : State) : ChannelState × Option Cursor × Bool :=
  let t := after (.evaluationCompletion false) s
  ((t.channel 0).state, (t.channel 0).cursor, decide s.OrdersTell)

/-- R132 case by case: no cursor, an eligible leg kept, the next eligible leg, the pass ended with an eligible leg before it and without
one, for WAITING and DENIED; the same for WIND-HELD. -/
theorem witness_LevelsMoveChannels_cursor :
    [levelEnd (levelled .waiting none .spray .quiet), levelEnd (levelled .waiting (some ⟨0, 3⟩) .spray .quiet),
      levelEnd (levelled .denied (some ⟨0, 3⟩) .quiet .spray), levelEnd (levelled .denied (some ⟨1, 2⟩) .spray .quiet),
      levelEnd (levelled .waiting (some ⟨1, 2⟩) .quiet .watch), levelEnd (levelled .windHeld (some ⟨1, 2⟩) .quiet .spray),
      levelEnd (levelled .windHeld (some ⟨0, 3⟩) .quiet .spray), levelEnd (levelled .windHeld (some ⟨1, 2⟩) .spray .quiet),
      levelEnd (levelled .windHeld none .quiet .quiet)] =
    [(.slewing, some ⟨0, 0⟩, true), (.slewing, some ⟨0, 3⟩, true), (.slewing, some ⟨1, 0⟩, true),
      (.slewing, some ⟨0, 0⟩, true), (.idle, none, true), (.windHeld, some ⟨1, 2⟩, true), (.windHeld, some ⟨1, 0⟩, true),
      (.windHeld, none, true), (.idle, none, true)] := by decide +kernel

/-- The same with the weight notice first: the shares handed over before, 1080 without a metered draw, grant the WAITING channel at the
step it held, and the level notice then finds it running; with 130 left of them it waits, and its cursor moves. -/
theorem witness_LevelsMoveChannels_weightsFirst :
    [(let s := levelled .waiting (some ⟨0, 3⟩) .quiet .spray
      s.setWater { s.water with dM := 0 }),
      levelled .waiting (some ⟨0, 3⟩) .quiet .spray, levelled .windHeld (some ⟨0, 3⟩) .quiet .spray,
      levelled .waiting none .quiet .quiet, levelled .faulted (some ⟨0, 3⟩) .spray .spray].map (fun s =>
      let t := after (.evaluationCompletion true) s
      ((t.channel 0).state, (t.channel 0).cursor, decide s.OrdersTell)) =
    [(.slewing, some ⟨0, 3⟩, true), (.waiting, some ⟨1, 0⟩, true), (.windHeld, some ⟨1, 0⟩, true), (.idle, none, true),
      (.faulted, some ⟨0, 3⟩, true)] := by decide +kernel

/-- Both channels of a pair granted. -/
def bothGranted : State :=
  let s := pair .keep .spray .spray 0 0 false
  s.setSweep { s.sweep with
    channels := [s.channel 0, s.channel 0], grants := [⟨0, .reuse⟩, ⟨1, .fresh⟩], waiting := [], sR := 320 }

/-- Both volumes one litre below their ceiling, or at it. -/
def brimming (litres : Nat) (fund : Option Fund) : State := (idle.setWater
  { idle.water with reuse := litres, reuseRem := 9, fresh := litres, freshRem := 9 }).onChannel 0
    (fun ch => { ch with lastFund := fund, lastFace := some 1 })

theorem witness_FlowPulseCreditsWater : (brimming 4294967294 none).works = true ∧ 0 < (brimming 4294967294 none).cfg.channels.length ∧
    (after (.flowPulse 0) (brimming 4294967294 none)).water.reuse = 4294967295 ∧
    (after (.flowPulse 0) (brimming 4294967295 (some .fresh))).water.freshRem = 9 ∧
    ((brimming 0 none).channel 0).lastFace = some 1 ∧ (idle.channel 0).lastFace = none := by decide +kernel

theorem witness_ScanGrantsWhatFits : waiting.station.mode = .auto ∧ waiting.OrdersTell ∧ waiting.grantScan.sweep.waiting = [] ∧
    (let s := waiting.setSweep { waiting.sweep with sR := 159 }
     s.OrdersTell ∧ s.grantScan.sweep.waiting = [0]) ∧
    (let s := pair .keep .spray .heavy 0 0 false
     s.OrdersTell ∧ s.PriorityOrders ∧ s.sweep.waiting = [1] ∧ s.grantable 1 = false ∧ s.preempted = some 0) := by decide +kernel

/-- A HEAVY channel waiting, with shares that only together hold its flow. -/
def waitingHeavy : State := { waiting with
  risk := { waiting.risk with faces := [⟨1024, 759, .heavy, false, .heavy, none⟩] },
  sweep := { waiting.sweep with sR := 100, sF := 60 } }

/-- R127: its grant is FRESH. -/
theorem witness_ScanGrantsWhatFits_fresh : waitingHeavy.OrdersTell ∧ waitingHeavy.PriorityOrders ∧
    waitingHeavy.grantScan.sweep.grants = [⟨0, .fresh⟩] := by decide +kernel

theorem witness_ShrunkSharesRevoke : (running .spraying 0 3100 false).OrdersTell ∧
    159 < (running .spraying 0 3100 false).sweep.sR ∧
    159 < (running .spraying 0 3100 false).flowOf (running .spraying 0 3100 false).sweep.grants ∧
    (running .spraying 0 3100 false).priority 0 ≠ .heavy ∧
    (bothGranted.OrdersTell ∧ 100 < bothGranted.sweep.sR ∧ (bothGranted.handOver 100 0).sweep.grants = [] ∧
      bothGranted.PriorityOrders ∧ (bothGranted.handOver 100 0).sweep.waiting = [0, 1] ∧
      ((bothGranted.handOver 100 0).channel 0).lastFund = some .fresh ∧
      ((bothGranted.handOver 100 0).channel 1).lastFund = (bothGranted.channel 1).lastFund) := by decide +kernel

theorem witness_FeedbackOpensChannel :
    (((running .slewing 0 3100 false).channel 0).state = .slewing ∧ ((running .slewing 0 3100 false).channel 0).cursor = some ⟨0, 0⟩ ∧
      ((running .slewing 0 3100 false).channel 0).dryFlag = false) ∧
    (let s := (running .slewing 0 3100 false).onChannel 0 (fun ch => { ch with dryFlag := true })
     (s.channel 0).state = .slewing ∧ (s.channel 0).cursor = some ⟨0, 0⟩ ∧ (s.channel 0).dryFlag = true) ∧
    (idle.channel 0).state ≠ .slewing ∧ (idle.channel 3).state ≠ .opening ∧
    (((running .opening 0 3100 false).channel 0).state = .opening ∧
      ((running .opening 0 3100 false).channel 0).cursor = some ⟨0, 0⟩) := by decide

theorem witness_TimeoutsFaultChannel : (running .slewing 0 3100 true).OrdersTell ∧
    ((running .slewing 0 3100 true).channel 0).slewTimer = some 0 ∧ (running .opening 0 3100 true).OrdersTell ∧
    ((running .opening 0 3100 true).channel 0).valveTimer = some 0 ∧
    (let s := (running .slewing 0 3100 true).onChannel 0 (fun ch => { ch with slewTimer := some 1 })
     (s.channel 0).state = .slewing ∧ (s.channel 0).slewTimer ≠ some 0) ∧
    (idle.channel 0).state ≠ .slewing ∧ (idle.channel 0).state ≠ .opening := by decide +kernel

theorem witness_DwellExpiryAdvances :
    (let s := running .spraying 6 3700 false
     ((s.channel 0).state = .spraying ∧ (s.channel 0).dwellTimer.isSome = true ∧ (s.channel 0).mark = false ∧
      (s.channel 0).cursor = some ⟨0, 6⟩ ∧ 6 + 1 < (s.leg 0 0).steps ∧
      (s.leg 0 0).minimum ≤ (s.finalLevel (s.leg 0 0).face).num)) ∧
    (∀ s ∈ [running .dry 7 3000 false, running .dry 2 4100 true], (s.channel 0).state = .dry ∧
      (s.channel 0).dwellTimer.isSome = true ∧ s.OrdersTell) ∧
    ((after (.dwellExpiry 0) (running .dry 2 4100 true)).channel 0).state = .slewing := by decide +kernel

/-- Where C0 of a pair stands after its dwell expiry. -/
def dwellEnd (s : State) : ChannelState × Option Cursor × Bool :=
  (((after (.dwellExpiry 0) s).channel 0).state, ((after (.dwellExpiry 0) s).channel 0).cursor, decide s.OrdersTell)

/-- R124, R125, R131 case by case: the next leg at an equal and at a lower level, the same with the channel revoked, the next leg marked,
a new pass, a pass that yields, a pass end without an eligible leg, a pass end marked, and a further step marked. -/
theorem witness_DwellExpiryAdvances_cases :
    [dwellEnd (pair .keep .spray .spray 0 7 false), dwellEnd (pair .keep .spray .prewet 0 7 false),
      dwellEnd (let s := pair .keep .spray .prewet 0 7 false; s.setSweep { s.sweep with sR := 100 }),
      dwellEnd (pair .keep .spray .heavy 0 7 true), dwellEnd (pair .keep .spray .spray 1 7 false),
      dwellEnd (pair .rotate .spray .spray 1 7 false), dwellEnd (pair .keep .quiet .quiet 1 7 false),
      dwellEnd (pair .keep .spray .heavy 1 7 true), dwellEnd (pair .keep .spray .heavy 0 2 true)] =
    [(.slewing, some ⟨1, 0⟩, true), (.slewing, some ⟨1, 0⟩, true), (.denied, some ⟨1, 0⟩, true),
      (.slewing, some ⟨1, 0⟩, true), (.slewing, some ⟨0, 0⟩, true), (.waiting, none, true), (.idle, none, true),
      (.waiting, none, true), (.waiting, some ⟨0, 3⟩, true)] := by decide +kernel

theorem witness_PatternsGivePositions : rasterLeg.pattern = .raster ∧ 11 = 2 * rasterLeg.columns + 3 ∧ 3 < rasterLeg.columns ∧
    ringLeg.pattern = .ring := by decide

theorem witness_RingWalksItsBand : 0 < ringLeg.ringStride.natAbs ∧ ringLeg.ringStride.natAbs < ringLeg.ringLength ∧
    ringLeg.ringBase ≤ 4199 ∧ 4199 < ringLeg.ringBase + ringLeg.ringLength ∧
    Nat.Coprime ({ ringLeg with ringStride := -7 } : Leg).ringStride.natAbs ringLeg.ringLength := by decide

theorem witness_PressureSampleWatchesHeader :
    ((running .spraying 0 3100 false).sweep.pressureTimer.isSome = true ∧ (running .spraying 0 3100 false).sweep.lowRun < 2 ∧
      (∃ ch ∈ (running .spraying 0 3100 false).sweep.channels, ch.state = .opening ∨ ch.state = .spraying)) ∧
    2 ≤ ((running .spraying 0 3100 false).setSweep { (running .spraying 0 3100 false).sweep with lowRun := 2 }).sweep.lowRun ∧
    idle.sweep.pressureTimer.isSome = true ∧ idle.cfg.collapse = 200 ∧
    (breaking false (running .spraying 0 3100 false)).line.breakDriving = true ∧
    (sending none 0).line.sending.isSome = true := by decide

theorem witness_GapsAndEdgesMoveReceiver :
    (idle.works = true ∧ idle.line.sending = none ∧ idle.line.deferredFraming = false ∧ idle.line.deferredClash = false ∧
      idle.line.rx = .awaitGap ∧ idle.line.gap ≠ some 192) ∧
    (readyToSend.line.rx = .ready ∧ readyToSend.line.sending = none) ∧
    (receiving.line.rx = .inFrame true [] [] ∧ receiving.line.sending = none) ∧
    [idle, readyToSend.setLine { readyToSend.line with rx := .awaitGap, gap := some 0 }].map (fun s =>
      [183, 184, 192].map (fun m => (after (.startEdge m) s).line.joinOpen)) = [[false, false, true], [false, true, true]] := by
  decide

/-- A frame in receipt with characters accepted and bits read. -/
def inReceipt (chars : List Nat) (bits : List Bool) : State :=
  idle.setLine { idle.line with rx := .inFrame true (chars.map (BitVec.ofNat 8)) bits, run := .inProgress }

/-- The ten bits of a character of value `n` before its stop bit, with its mark. -/
def tenBits (n : Nat) (mark : Bool) : List Bool := false :: (List.range 8).map (fun k => n.testBit k) ++ [mark]

theorem witness_BitReadMovesReceiver :
    (∀ s ∈ [inReceipt [] [], inReceipt [2] [], inReceipt [] (List.replicate 8 false), inReceipt [2] (List.replicate 9 false),
        inReceipt [] ((tenBits 2 true).take 9), inReceipt [] (tenBits 2 true), inReceipt [5] (tenBits 200 false),
        inReceipt [5, 9] (tenBits 97 false)],
      s.works = true ∧ s.line.sending = none ∧ s.line.deferredFraming = false ∧ s.line.deferredClash = false) ∧
    (after (.bitRead ⟨false, false, false⟩) (inReceipt [] ((tenBits 2 true).take 9))).line.deferredFraming = true ∧
    (after (.bitRead ⟨true, true, true⟩) { inReceipt [] (tenBits 2 true) with cfg := { cfg with hearMonitor := false } }).line.rx =
      .awaitGap ∧
    (after (.bitRead ⟨true, true, true⟩) (inReceipt [5, 9] (tenBits 97 false))).line.framing = 1 ∧
    (after (.bitRead ⟨true, true, true⟩) (inReceipt [5, 9] (tenBits 96 false))).line.rx =
      .inFrame true [5#8, 9#8, 96#8] [] := by decide +kernel

theorem witness_FramesAreReadAsSent :
    (Frame.shaped monitorFrame = true ∧ receiving.cfg.hears monitorFrame.kind = true ∧ receiving.line.sending = none ∧
      receiving.line.rx = .inFrame true [] []) ∧
    (Frame.shaped (reportFrame 5) = true ∧ (sending none 3).cfg.hears (reportFrame 5).kind = true ∧
      (sending none 3).line.sending = some (reportFrame 5) ∧ (sending none 3).line.rx = .inFrame true [] []) := by decide +kernel

/-- A full receive queue. -/
def fullQueue : State := receiving.setDispatcher { receiving.dispatcher with queue := List.replicate 8 monitorFrame }

theorem witness_FrameReceivedIsCheckedAndQueued :
    (receiving.works = true ∧ Frame.shaped monitorFrame = true ∧ receiving.cfg.hears monitorFrame.kind = true ∧
      receiving.line.sending = none ∧ receiving.line.rx = .inFrame true [] [] ∧ monitorFrame.verified = true) ∧
    8 ≤ fullQueue.dispatcher.queue.length ∧ (after (.frameReceived monitorFrame) fullQueue).dispatcher.overrun = 1 ∧
    (44#8).toNat % 255 ≠ (1#8).toNat % 255 := by decide +kernel

theorem witness_FrameStartsAndCompletes :
    (readyToSend.works = true ∧ readyToSend.line.slot = some (reportFrame 5) ∧ readyToSend.line.silence = none ∧
      readyToSend.line.breakDriving = false ∧ readyToSend.line.sending = none ∧ readyToSend.line.gap = some 192 ∧
      readyToSend.line.rx = .ready) ∧
    (let s := receiving.setLine { receiving.line with slot := some (reportFrame 5), joinOpen := true }
     s.works = true ∧ s.line.slot = some (reportFrame 5) ∧ s.line.joinOpen = true ∧ s.line.rx = .inFrame true [] []) ∧
    idle.line.slot = none ∧ (sending none 0).line.rx = .inFrame true [] [] ∧
    (let s := readyToSend.setLine { readyToSend.line with gap := some 191 }
     s.line.slot.isSome = true ∧ s.line.silence = none ∧ s.line.gap ≠ some 192 ∧ s.line.joinOpen = false) := by decide +kernel

theorem witness_LostAndClashedFramesReturn :
    (∀ slot ∈ [none, some monitorFrame], ∀ run ∈ [6, 7], (sending slot run).works = true ∧
      (sending slot run).line.sending = some (reportFrame 5) ∧ (sending slot run).line.rx = .inFrame true [] [] ∧
      (sending slot run).line.deferredFraming = false ∧ (sending slot run).line.deferredClash = false) ∧
    Frame.sentBit (reportFrame 5) 0 1 = true ∧ Frame.sentBit (reportFrame 5) 0 8 = false ∧
    Frame.sentBit (reportFrame 5) 40 0 = false ∧ Frame.sentBit (reportFrame 5) 2 10 = true ∧
    Frame.sentBit (reportFrame 5) 1 10 = true ∧ (reportFrame 5).length = 41 ∧
    (idle.setLine { idle.line with deferredClash := true, clashRun := 7 }).line.deferredClash = true ∧
    (let s := after (.clash 3 10 ⟨false, false, false⟩) (sending none 6)
     s.line.deferredClash = true ∧ s.line.deferredFraming = true ∧ (after .dominantRunEnd s).line.clashes = 1 ∧
      (after .dominantRunEnd s).line.framing = 1) ∧
    idle.line.deferredClash = false := by decide +kernel

theorem witness_BreaksHush : (listening.works = true ∧ listening.line.run ≠ .heard) ∧
    (idle.works = true ∧ idle.line.run ≠ .heard) ∧ ((hushed .standby).works = true ∧ (hushed .standby).line.run ≠ .heard) ∧
    (breaking true idle).line.breakDriving = true ∧ (breaking true idle).station.breakRequest = true ∧
    (sending none 0).line.run ≠ .heard ∧ (sending (some monitorFrame) 0).line.run ≠ .heard := by decide

theorem witness_DispatchTakesOldestFree :
    (∃ t, exec .dispatchReport (queued (reportFrame 5) idle) = .next t ∧ t.dispatcher.queue = []) ∧
    (let f := frame 7 9 []
     (queued f idle).works = true ∧ (queued f idle).oldestFree = some f ∧ 6 < f.kind) ∧
    (frame 2 240 [1, 44, 1]).sender = 240 ∧ (frame 2 9 [1, 44]).lengthFits = false ∧
    ((frame 2 30 [1, 44, 1]).valid = true ∧ (frame 2 30 [1, 44, 1]).sender = idle.cfg.id) ∧
    (let f := order 254 1 1 0 0
     f.valid = true ∧ f.kind = 4 ∧ f.sender ≠ idle.cfg.id ∧ f.payload 0 1 = 254 ∧ (queued f idle).oldestFree = some f) ∧
    (order 30 0 1 0 0).payload 1 1 = 0 ∧ (order 255 6 1 0 0).payload 1 1 = 6 :=
  ⟨⟨_, rfl, by decide +kernel⟩, by decide +kernel⟩

/-- An order is free, valid and for this station, with its code. -/
def orderFits (f : Frame) (s : State) (code : Nat) : Bool :=
  s.works && decide (s.oldestFree = some f) && f.valid && decide (f.kind = 4) && decide (f.sender ≠ s.cfg.id)
    && (decide (f.payload 0 1 = s.cfg.id) || decide (f.payload 0 1 = 255)) && decide (f.payload 1 1 = code)

/-- A station in a mode with one order in its queue fits the hypotheses of the order statements. -/
def fitsIn (f : Frame) (code : Nat) (s : State) : Bool := orderFits f (queued f s) code

theorem witness_ModeOrderSetsMode :
    ([listening, idle, station .standby { Channel.absent with state := .hushed }, hushed .listening, hushed .auto].all
      (fun s => fitsIn (order 30 1 1 0 0) 1 s && fitsIn (order 255 1 2 0 0) 1 s && fitsIn (order 30 1 0 0 0) 1 s
        && fitsIn (order 30 1 3 0 0) 1 s)) = true := by decide +kernel

theorem witness_BankOrderSwapsBanks :
    ([idle, waiting, hushed .auto, running .spraying 0 3100 false].all (fun s =>
      fitsIn (order 30 2 0 0 0) 2 s && fitsIn (order 30 2 1 0 0) 2 s && fitsIn (order 255 2 2 0 0) 2 s)) = true := by
  decide +kernel

/-- C0 of a pair without a grant in a state, its leg's face at a level, with a reuse share. -/
def swapping (st : ChannelState) (cursor : Option Cursor) (l1 : Level) (share : Nat) : State :=
  let s := levelled st cursor l1 l1
  { s with
    risk := { s.risk with flight := none, faces := s.risk.faces.map (fun r => { r with level := l1 }) },
    sweep := { s.sweep with sR := share } }

/-- Where C0 stands after BANK B, and whether the state before fits the hypotheses. -/
def swapEnd (s : State) : ChannelState × Option Cursor × Bank × Bool × Bool :=
  let ch := (after .dispatchOrderBank (queued (order 30 2 1 0 0) s)).channel 0
  (ch.state, ch.cursor, ch.bank, ch.swapPending,
    fitsIn (order 30 2 1 0 0) 2 s && decide (queued (order 30 2 1 0 0) s).OrdersTell &&
      decide (queued (order 30 2 1 0 0) s).PriorityOrders)

/-- R135 state by state: DENIED with and without room, WIND-HELD with a cursor and without, FAULTED, HUSHED, WAITING with a cursor and
IDLE; plan B asks for SPRAY. -/
theorem witness_BankOrderSwapsBanks_states :
    [swapEnd (swapping .denied (some ⟨0, 3⟩) .spray 0), swapEnd (swapping .denied (some ⟨0, 3⟩) .spray 258),
      swapEnd (swapping .windHeld (some ⟨0, 3⟩) .spray 0), swapEnd (swapping .windHeld none .spray 0),
      swapEnd (swapping .windHeld none .prewet 0), swapEnd (swapping .faulted (some ⟨0, 3⟩) .spray 0),
      swapEnd (swapping .hushed none .spray 0), swapEnd (swapping .waiting (some ⟨0, 3⟩) .spray 0),
      swapEnd (swapping .waiting (some ⟨0, 3⟩) .prewet 0), swapEnd (swapping .idle none .spray 0)] =
    [(.denied, some ⟨0, 3⟩, .a, true, true), (.slewing, some ⟨0, 3⟩, .a, true, true),
      (.windHeld, some ⟨0, 3⟩, .a, true, true), (.windHeld, none, .b, false, true),
      (.idle, none, .b, false, true), (.faulted, some ⟨0, 3⟩, .a, false, true),
      (.hushed, none, .b, false, true), (.waiting, none, .b, false, true),
      (.idle, none, .b, false, true), (.waiting, none, .b, false, true)] := by decide +kernel

theorem witness_ForceOrderSetsOverride :
    ([order 30 3 1 0 1, order 30 3 1 4 240, order 30 3 1 255 0, order 30 3 0 0 1, order 30 3 2 0 1, order 30 3 1 5 1,
      order 30 3 1 4 0, order 30 3 1 0 241].all (fun f => fitsIn f 3 idle)) = true := by decide +kernel

theorem witness_ZeroOrderZeroesVolumes : fitsIn (order 255 5 9 9 9) 5 idle = true ∧
    (queued (order 30 5 0 0 0) idle).oldestFree = some (order 30 5 0 0 0) := by decide +kernel

theorem witness_HushAndListeningEnd :
    (∀ r ∈ [Remembered.listening, .auto, .standby], (hushOver r).station.mode = .hushed ∧
      (hushOver r).station.hushTimer = some 0 ∧ (hushOver r).station.remembered = some r ∧
      (hushed r).station.hushTimer ≠ some 0 ∧
      fitsIn (order 255 4 0 0 0) 4 (hushed r) = true) ∧
    (listening.station.mode = .listening ∧ listening.station.listeningTimer.isSome = true) ∧
    (let s := (hushed .listening).setStation { (hushed .listening).station with listeningTimer := some 0 }
     s.station.mode = .hushed ∧ s.station.remembered = some .listening ∧ s.station.listeningTimer.isSome = true) := by
  decide +kernel

/-- A two-channel station HUSHED with AUTO remembered, its hold over; face 1 at SPRAY and face 2 at the level given. -/
def waking (uEff : Nat) (l2 : Level) : State :=
  let s := pair .keep .spray l2 0 0 false
  { s with
    station := { s.station with mode := .hushed, remembered := some .auto, hushTimer := some 0 },
    wind := { s.wind with uEff := uEff },
    sweep := { s.sweep with
      channels := [{ Channel.absent with state := .hushed }, { Channel.absent with state := .hushed }], grants := [],
      waiting := [] } }

/-- R138: at the change to AUTO the channels are granted, wait, are held by the wind, or go IDLE; at the hush of a pair one G_t notice is
sent and both channels are HUSHED, a pending swap taken. -/
theorem witness_HushAndListeningEnd_channels :
    ([waking 100 .spray, waking 100 .quiet, waking 151 .spray].map (fun s =>
      (after .hushHoldExpiry s).sweep.channels.map Channel.state) =
      [[.slewing, .waiting], [.slewing, .idle], [.windHeld, .windHeld]]) ∧
    (let s := (pair .keep .spray .spray 0 0 false).onChannel 0 (fun ch => { ch with swapPending := true, bank := .b })
     let t := after .breakHeard s
     t.sweep.channels.map (fun ch => (ch.state, ch.bank, ch.swapPending)) = [(.hushed, .a, false), (.hushed, .a, false)] ∧
      t.water.gtNotices = s.water.gtNotices + 1) := by decide +kernel

theorem witness_ReportIsReadAsReported : idle.station.reportTimer.isSome = true ∧
    (1 ≤ idle.cfg.id ∧ idle.cfg.id ≤ 239 ∧ 1 ≤ idle.cfg.period ∧ idle.cfg.period ≤ 255 ∧ idle.works = true ∧
      idle.cfg.gridX < 65536 ∧ idle.cfg.gridY < 65536 ∧ idle.wind.uEff ≤ 600 ∧ idle.wind.sector ≤ 15 ∧ idle.risk.w ≤ 992 ∧
      idle.risk.hw ≤ 992 ∧ (∀ r ∈ idle.risk.faces, r.eri ≤ 992) ∧ idle.cfg.faces.length ≤ 6 ∧
      idle.risk.faces.length = idle.cfg.faces.length ∧ idle.claimReuse < 65536 ∧ idle.claimFresh < 65536) ∧
    peerRecord idle.report = { peer 30 1200 800 0 .localWind false with w := 659, maxEri := 659, highest := .spray } ∧
    idle.CountsHold ∧ (idle.sweep.channels.map Channel.laps).sum < 16777216 := by
  decide +kernel

/-- 10.3: the claims, the volumes and the count characters, page by page. -/
theorem test_report_counts :
    (let s := (sharing.setWater { sharing.water with sR := 100, reuse := 41207 }).setDispatcher
       { sharing.dispatcher with overrun := 1, checkFail := 2, idConflict := 5 }
     s.report.payload 20 2 = 100 ∧ s.report.payload 22 2 = 60 ∧ s.report.payload 24 4 = 41207 ∧ s.report.payload 32 1 = 8 ∧
      s.report.payload 33 3 = 66048 ∧
      (s.setStation { s.station with page := 2 }).report.payload 33 3 = 5 ∧
      (s.setStation { s.station with page := 2 }).report.payload 32 1 = 136) := by decide +kernel

theorem witness_FaultOutputTells : (∀ p ∈ [0, 5, 6], (faulted p).station.mode = .fault ∧ (faulted p).station.faultCode = some 3 ∧
    (faulted p).station.patternPhase ≤ 2 * 3) ∧ State.reset.station.mode = .starting ∧ idle.works = true := by decide

/-- The invariants of ranges and figures hold of a station with a channel spraying. -/
theorem witness_ranges : let s := running .spraying 0 3100 false
    s.CountsHold ∧ s.ListsHold ∧ s.StoreHolds ∧ s.FiguresHold := by decide +kernel

/-- The invariants of the sweep engine and of the modes hold of it too; each takes the step below. -/
theorem witness_invariants : let s := running .spraying 0 3100 false
    (s.ValvesTell ∧ s.OrdersTell ∧ s.GrantsHold) ∧ s.ClosedOutsideAuto ∧ s.SprayClear ∧ s.HushTells := by decide +kernel

/-- Two grants of unlike priority stand in order, and not the other way round. -/
theorem witness_StepKeepsOrders :
    (let s := pair .keep .heavy .spray 0 0 false
     let t := s.setSweep { s.sweep with channels := [s.channel 0, { s.channel 0 with cursor := some ⟨0, 1⟩ }],
                                        grants := [⟨0, .reuse⟩, ⟨1, .fresh⟩], waiting := [] }
     t.OrdersTell ∧ t.PriorityOrders ∧
      ¬ (t.setSweep { t.sweep with grants := t.sweep.grants.reverse }).PriorityOrders) ∧
    (pair .keep .spray .heavy 0 0 false).OrdersTell ∧ (pair .keep .spray .heavy 0 0 false).PriorityOrders := by decide +kernel

theorem witness_step : ∃ t, step { running .spraying 0 3100 false with pending := [.dwellExpiry 0] } = .next t ∧
    (t.channel 0).state = .slewing := ⟨_, rfl, by decide +kernel⟩

theorem witness_StepKeepsValvesShut : (hushed .auto).ClosedOutsideAuto ∧ (hushed .auto).ValvesTell ∧ (hushed .auto).HushTells :=
  ⟨by decide +kernel, by decide +kernel, by decide +kernel⟩

end Sys2Proof.Tests
end

