-- ==== Sys2Proof/Proofs/YardClock.lean ====
section
/-! The yard clock (R32, R33, R110): what an advance makes of the state, and in which states YARD_CLOCK_ADVANCE is one. -/

namespace Sys2Proof.Machine

/-- The whole state after an advance: besides the clock only the volumes move, and they at the day roll alone (R32, R33, R110). -/
theorem State.advanceClock_eq (s : State) (now : Nat) :
    s.advanceClock now = { s with
      forecast := { s.forecast with clock := some ((now + 1) % 86400), advanceTimer := some 1000 },
      water := if now = 86399 then { s.water with reuse := 0, reuseRem := 0, fresh := 0, freshRem := 0 } else s.water } := by
  unfold State.advanceClock
  by_cases dayRoll : now = 86399
  case pos =>
    rw [if_pos dayRoll, if_pos dayRoll]
    rfl
  case neg =>
    rw [if_neg dayRoll, if_neg dayRoll]
    rfl

theorem exec_yardClockAdvance (s : State) : exec .yardClockAdvance s = execYardClockAdvance s := rfl

/-- The command is an advance where the clock is set and its advance timer at 0 (R32). -/
theorem exec_yardClockAdvance_of_expired {s : State} {now : Nat} (hclock : s.forecast.clock = some now)
    (htimer : s.forecast.advanceTimer = some 0) : exec .yardClockAdvance s = .next (s.advanceClock now) := by
  simp only [exec_yardClockAdvance, execYardClockAdvance, hclock, htimer, if_true]

/-- While the clock is UNSET the command changes nothing (R32). -/
theorem exec_yardClockAdvance_of_unset {s : State} (hclock : s.forecast.clock = none) :
    exec .yardClockAdvance s = .next s := by
  simp only [exec_yardClockAdvance, execYardClockAdvance, hclock]

/-- Nor does it with the timer not at 0, as after a setting at the same instant (R32). -/
theorem exec_yardClockAdvance_of_not_expired {s : State} (htimer : s.forecast.advanceTimer ≠ some 0) :
    exec .yardClockAdvance s = .next s := by
  cases hclock : s.forecast.clock with
  | none => exact exec_yardClockAdvance_of_unset hclock
  | some now => simp only [exec_yardClockAdvance, execYardClockAdvance, hclock, htimer, if_false]

/-- Settles O13: without a set clock and an expired timer nothing occurs; with them the command is the advance, day roll included. -/
theorem yardClockAdvances : Obligations.YardClockAdvances := by
  refine ⟨fun s h => ?_, fun now s hclock htimer => ?_⟩
  · obtain hclock | htimer := h
    · exact exec_yardClockAdvance_of_unset hclock
    · exact exec_yardClockAdvance_of_not_expired htimer
  · rw [exec_yardClockAdvance_of_expired hclock htimer, State.advanceClock_eq]

end Sys2Proof.Machine
end

