-- ==== Sys2Proof/Proofs/RiskIndex.lean ====
section
/-! The emission risk index (R39 to R41): the excess, the three products, and the scaling read as a rounded-down logarithm. -/

namespace Sys2Proof.Machine

/-! ## The excess (R39) and the products (R40) -/

theorem excess_of_le {u threshold : Nat} (h : u ≤ threshold) : excess u threshold = 0 := if_pos h

/-- The excess is largest at the widest configured range: U = 600 above U_t = 10. -/
theorem excess_le {u threshold : Nat} (hu : u ≤ 600) (ht : 10 ≤ threshold) : excess u threshold ≤ 215940000 := by
  unfold excess
  split
  next => exact Nat.zero_le _
  next =>
    calc u * (u * u - threshold * threshold)
      _ ≤ 600 * (600 * 600 - 10 * 10) :=
        Nat.mul_le_mul hu (tsub_le_tsub (Nat.mul_le_mul hu hu) (Nat.mul_le_mul ht ht))
      _ = 215940000 := by norm_num

theorem dryness_le (moisture : Nat) : dryness moisture ≤ 255 := by
  unfold dryness
  omega

theorem dryness_eq_zero {moisture : Nat} (h : 4080 ≤ moisture) : dryness moisture = 0 := by
  unfold dryness
  omega

/-- A weight of at most its divisor does not raise a product. -/
theorem mul_div_le_of_le {p weight divisor : Nat} (h : weight ≤ divisor) : p * weight / divisor ≤ p :=
  Nat.div_le_of_le_mul (by rw [Nat.mul_comm]; exact Nat.mul_le_mul_right p h)

/-- A weight below its divisor lowers every product but 0. -/
theorem mul_div_lt_of_lt {p weight divisor : Nat} (hp : 0 < p) (h : weight < divisor) : p * weight / divisor < p :=
  Nat.div_lt_of_lt_mul (by rw [Nat.mul_comm]; exact Nat.mul_lt_mul_of_pos_right h hp)

/-- The last product rises with every factor. -/
theorem weighted_le_weighted {q q' e e' m m' k k' : Nat} (hq : q ≤ q') (he : e ≤ e')
    (hd : dryness m ≤ dryness m') (hk : k ≤ k') : weighted q e m k ≤ weighted q' e' m' k' := by
  unfold weighted
  gcongr

/-- A factor of 0 in any of the first two stages makes the last product 0. -/
theorem weighted_eq_zero {q e m : Nat} (k : Nat) (h : e = 0 ∨ dryness m = 0 ∨ q = 0) : weighted q e m k = 0 := by
  unfold weighted
  obtain he | hd | hq := h
  · simp [he]
  · simp [hd]
  · simp [hq]

/-- The bound of R41 on the last product, in the widest configured ranges. -/
theorem weighted_excess_lt {u threshold e k : Nat} (m : Nat) (hu : u ≤ 600) (ht : 10 ≤ threshold) (he : e ≤ 256)
    (hk : k ≤ 255) : weighted (excess u threshold) e m k < 861000000 :=
  calc weighted (excess u threshold) e m k
    _ ≤ weighted 215940000 256 0 255 := weighted_le_weighted (excess_le hu ht) he (dryness_le m) hk
    _ < 861000000 := by decide

/-- Settles O17: the model's stages are the products as written; each bound follows from the weight's range. -/
theorem weightingStages : Obligations.WeightingStages := by
  intro f u sector m k q e d p1 p2 p3
  have hq : q = excess u f.threshold := by simp only [q, excess, Nat.pow_two]
  have hp3 : p3 = weighted (excess u f.threshold) e m k := by rw [← hq]; rfl
  have hd : d ≤ 255 := dryness_le m
  refine ⟨by rw [hp3]; rfl, ?unitFactor, ?zero, ?bounds⟩
  case unitFactor =>
    rintro rfl
    exact Nat.mul_div_cancel p2 (by decide)
  case zero =>
    intro h
    rw [hp3]
    exact weighted_eq_zero k (h.imp_right (Or.imp dryness_eq_zero excess_of_le))
  case bounds =>
    intro hu ht he hk
    have hlt : p3 < 861000000 := hp3 ▸ weighted_excess_lt m hu ht he hk
    exact ⟨hq ▸ excess_le hu ht, mul_div_le_of_le he, hd, fun hp1 => mul_div_lt_of_lt hp1 (by omega),
      mul_div_le_of_le (by omega), Nat.div_le_div_right (Nat.mul_le_mul_left p2 hk), hlt, hlt.trans (by decide)⟩

/-! ## The scaling (R41) -/

/-- The shifts stop at the first place where bit 30 is 1. -/
theorem shiftUp_eq {shifts n v : Nat} (hn : shifts ≤ n) (lower : 2 ^ 30 ≤ v * 2 ^ shifts) (upper : v * 2 ^ shifts < 2 ^ 31) :
    shiftUp n v = (v * 2 ^ shifts, shifts) := by
  induction shifts generalizing n v with
  | zero =>
    rw [Nat.pow_zero, Nat.mul_one] at lower ⊢
    cases n with
    | zero => rfl
    | succ n => exact if_pos lower
  | succ shifts ih =>
    obtain ⟨n, rfl⟩ : ∃ i, n = i + 1 := ⟨n - 1, by omega⟩
    have double : v * 2 ^ (shifts + 1) = 2 * v * 2 ^ shifts := by ring
    rw [double] at lower upper ⊢
    have bit30Clear : ¬ 2 ^ 30 ≤ v := by
      have := Nat.le_mul_of_pos_right (2 * v) (Nat.two_pow_pos shifts)
      omega
    rw [shiftUp, if_neg bit30Clear, ih (by omega) lower upper]

/-- A product that its shifts leave with bit 30 as the leading one. -/
theorem shifted_bounds {p3 : Nat} (pos : 0 < p3) (bound : p3 < 2 ^ 31) :
    Nat.log 2 p3 ≤ 30 ∧ 2 ^ 30 ≤ p3 * 2 ^ (30 - Nat.log 2 p3) ∧ p3 * 2 ^ (30 - Nat.log 2 p3) < 2 ^ 31 := by
  have hlog : Nat.log 2 p3 ≤ 30 := Nat.lt_succ_iff.mp (Nat.log_lt_of_lt_pow pos.ne' bound)
  have places : Nat.log 2 p3 + (30 - Nat.log 2 p3) = 30 := by omega
  refine ⟨hlog, ?lower, ?upper⟩
  case lower =>
    calc 2 ^ 30 = 2 ^ Nat.log 2 p3 * 2 ^ (30 - Nat.log 2 p3) := by rw [← Nat.pow_add, places]
      _ ≤ p3 * 2 ^ (30 - Nat.log 2 p3) := Nat.mul_le_mul_right _ (Nat.pow_log_le_self 2 pos.ne')
  case upper =>
    calc p3 * 2 ^ (30 - Nat.log 2 p3)
      _ < 2 ^ (Nat.log 2 p3 + 1) * 2 ^ (30 - Nat.log 2 p3) :=
        Nat.mul_lt_mul_of_pos_right (Nat.lt_pow_succ_log_self (by decide) p3) (Nat.two_pow_pos _)
      _ = 2 ^ 31 := by rw [← Nat.pow_add, Nat.add_right_comm, places]

/-- The scaling is the integer part of the logarithm with the five bits below the leading one. -/
theorem scaled_eq {p3 : Nat} (pos : 0 < p3) (bound : p3 < 2 ^ 31) :
    scaled p3 = Nat.log 2 p3 * 32 + p3 * 2 ^ (30 - Nat.log 2 p3) / 2 ^ 25 % 32 + 1 := by
  obtain ⟨hlog, lower, upper⟩ := shifted_bounds pos bound
  rw [scaled, if_neg pos.ne', shiftUp_eq (Nat.sub_le 30 _) lower upper]
  dsimp only
  rw [Nat.sub_sub_self hlog]

theorem scaled_le (p3 : Nat) : scaled p3 ≤ 992 := by
  unfold scaled
  split
  next => exact Nat.zero_le _
  next =>
    dsimp only
    omega

theorem one_le_scaled {p3 : Nat} (pos : 0 < p3) : 1 ≤ scaled p3 := by
  rw [scaled, if_neg pos.ne']
  exact Nat.le_add_left 1 _

/-- Within one power of two the five bits rise with the product; past it a whole band of 32 is gained. -/
theorem scaled_mono {a b : Nat} (hab : a ≤ b) (bound : b < 2 ^ 31) : scaled a ≤ scaled b := by
  obtain rfl | pos := Nat.eq_zero_or_pos a
  · exact Nat.zero_le _
  have posB : 0 < b := pos.trans_le hab
  have boundA : a < 2 ^ 31 := hab.trans_lt bound
  rw [scaled_eq pos boundA, scaled_eq posB bound]
  obtain hlog | hlog := (Nat.log_mono_right (b := 2) hab).eq_or_lt
  case inl =>
    obtain ⟨-, lowerA, upperA⟩ := shifted_bounds pos boundA
    obtain ⟨-, lowerB, upperB⟩ := shifted_bounds posB bound
    rw [hlog] at lowerA upperA ⊢
    have hshifted : a * 2 ^ (30 - Nat.log 2 b) ≤ b * 2 ^ (30 - Nat.log 2 b) := Nat.mul_le_mul_right _ hab
    omega
  case inr => omega

/-- The largest ERI of the widest configured ranges. -/
theorem scaled_le_of_lt {p3 : Nat} (h : p3 < 861000000) : scaled p3 ≤ 948 :=
  calc scaled p3 ≤ scaled 860999999 := scaled_mono (Nat.le_pred_of_lt h) (by decide)
    _ = 948 := by decide

theorem FaceCfg.eri_eq (f : FaceCfg) (u sector m k : Nat) : f.eri u sector m k =
    scaled (weighted (excess u f.threshold) (f.exposure.getD (sectorDiff sector f.orientation) 0) m k) := rfl

/-- An exposure factor read from the table keeps the table's bound, a missing entry included. -/
theorem exposure_getD_le {exposure : List Nat} (h : ∀ e ∈ exposure, e ≤ 256) (i : Nat) : exposure.getD i 0 ≤ 256 := by
  rw [List.getD_eq_getElem?_getD]
  cases hi : exposure[i]? with
  | none => exact Nat.zero_le _
  | some e => exact h e (List.mem_of_getElem? hi)

/-- Settles O18: the shifts are as many as the logarithm lacks of 30; the bounds follow from the monotone scaling. -/
theorem scalingStage : Obligations.ScalingStage := by
  refine ⟨rfl, rfl, fun _ => scaled_eq, scaled_le, fun _ => one_le_scaled,
    fun _ h => (scaled_le_of_lt h).trans (by decide), fun _ _ => scaled_mono, fun f u sector m k => ⟨?calm, ?widest⟩⟩
  case calm =>
    intro h
    rw [FaceCfg.eri_eq, weighted_eq_zero k (.inr (.inr (excess_of_le h)))]
    rfl
  case widest =>
    intro hu ht hexposure hk
    rw [FaceCfg.eri_eq]
    exact scaled_le_of_lt (weighted_excess_lt m hu ht (exposure_getD_le hexposure _) hk)

end Sys2Proof.Machine
end

