-- ==== Sys2Proof/Proofs/RiskLevels.lean ====
section
/-! The base level (R42) and the escalated level (R44). -/

namespace Sys2Proof.Machine

/-! ## The band and the falling threshold -/

theorem StationCfg.band_ne_prewet (cfg : StationCfg) (eri : Nat) : cfg.band eri ≠ .prewet := by
  unfold StationCfg.band
  split_ifs <;> decide

/-- An ERI of 0 is below every rising threshold within the ranges of R35. -/
theorem StationCfg.band_zero {cfg : StationCfg} (hw : cfg.hysteresis < cfg.tWatch) (hs : cfg.tWatch < cfg.tSpray)
    (hh : cfg.tSpray < cfg.tHeavy) : cfg.band 0 = .quiet := by
  rw [StationCfg.band, if_neg (by omega), if_neg (by omega), if_neg (by omega)]

theorem StationCfg.one_le_falling {cfg : StationCfg} {before : Level} (hp : before ≠ .prewet) (hq : before ≠ .quiet)
    (hw : cfg.hysteresis < cfg.tWatch) (hs : cfg.tWatch < cfg.tSpray) (hh : cfg.tSpray < cfg.tHeavy) :
    1 ≤ cfg.falling before := by
  cases before with
  | quiet => exact absurd rfl hq
  | prewet => exact absurd rfl hp
  | watch | spray | heavy =>
    simp only [StationCfg.falling]
    omega

/-- Without hysteresis a level falls where it rises: an ERI that holds it has a band no lower. -/
theorem StationCfg.num_le_band_of_falling_le {cfg : StationCfg} {eri : Nat} {before : Level} (hp : before ≠ .prewet)
    (hzero : cfg.hysteresis = 0) (h : cfg.falling before ≤ eri) : before.num ≤ (cfg.band eri).num := by
  cases before with
  | prewet => exact absurd rfl hp
  | quiet => exact Nat.zero_le _
  | watch | spray | heavy =>
    rw [StationCfg.falling, hzero, Nat.sub_zero] at h
    rw [StationCfg.band]
    split_ifs <;> decide

/-! ## The base level -/

theorem StationCfg.baseLevel_of_le {cfg : StationCfg} {eri : Nat} {before : Level}
    (h : before.num ≤ (cfg.band eri).num) : cfg.baseLevel eri before = cfg.band eri := if_pos h

theorem StationCfg.baseLevel_of_lt {cfg : StationCfg} {eri : Nat} {before : Level}
    (h : (cfg.band eri).num < before.num) :
    cfg.baseLevel eri before = if cfg.falling before ≤ eri then before else cfg.band eri := if_neg h.not_ge

/-- Below its falling threshold a base level becomes the band, whichever way the band lies. -/
theorem StationCfg.baseLevel_of_lt_falling {cfg : StationCfg} {eri : Nat} {before : Level}
    (h : eri < cfg.falling before) : cfg.baseLevel eri before = cfg.band eri := by
  rw [StationCfg.baseLevel, if_neg h.not_ge, ite_self]

theorem StationCfg.baseLevel_ne_prewet (cfg : StationCfg) (eri : Nat) {before : Level} (hp : before ≠ .prewet) :
    cfg.baseLevel eri before ≠ .prewet := by
  unfold StationCfg.baseLevel
  split_ifs
  · exact cfg.band_ne_prewet eri
  · exact hp
  · exact cfg.band_ne_prewet eri

theorem StationCfg.baseLevel_of_hysteresis_zero {cfg : StationCfg} (eri : Nat) {before : Level} (hp : before ≠ .prewet)
    (hzero : cfg.hysteresis = 0) : cfg.baseLevel eri before = cfg.band eri := by
  by_cases h : cfg.falling before ≤ eri
  · exact baseLevel_of_le (num_le_band_of_falling_le hp hzero h)
  · exact baseLevel_of_lt_falling (Nat.lt_of_not_le h)

/-- An ERI of 0 is below every falling threshold within the ranges of R35 (R42). -/
theorem StationCfg.baseLevel_zero {cfg : StationCfg} {before : Level} (hp : before ≠ .prewet)
    (hw : cfg.hysteresis < cfg.tWatch) (hs : cfg.tWatch < cfg.tSpray) (hh : cfg.tSpray < cfg.tHeavy) :
    cfg.baseLevel 0 before = .quiet := by
  rw [← band_zero hw hs hh]
  by_cases hq : before = .quiet
  · exact baseLevel_of_le (hq ▸ Nat.zero_le _)
  · exact baseLevel_of_lt_falling (one_le_falling hp hq hw hs hh)

/-! ## Escalation -/

theorem Level.ofNum_eq_prewet : ∀ {n : Nat}, Level.ofNum n = .prewet → n = Level.prewet.num
  | 2, _ => rfl
  | 3, h | _ + 4, h => nomatch h

/-- Escalation above 0 passes over PREWET (R44). -/
theorem escalated_ne_prewet (l : Level) {e : Nat} (he : e ≠ 0) : escalated l e ≠ .prewet := by
  rw [escalated, if_neg he]
  split
  next => decide
  next h => exact fun hl => h (Level.ofNum_eq_prewet hl)

/-- Settles O19: the base level by the place of the band, escalation by its table. -/
theorem levelsRiseAndFall : Obligations.LevelsRiseAndFall := by
  refine ⟨fun cfg eri before hp => ?base,
    fun l => ⟨rfl, escalated_ne_prewet l (by decide), escalated_ne_prewet l (by decide)⟩, rfl⟩
  case base =>
    refine ⟨cfg.baseLevel_ne_prewet eri hp, StationCfg.baseLevel_of_le, StationCfg.baseLevel_of_lt,
      StationCfg.one_le_falling hp, fun hzero _ _ => StationCfg.baseLevel_of_hysteresis_zero eri hp hzero, ?_⟩
    rintro rfl
    exact StationCfg.baseLevel_zero hp

end Sys2Proof.Machine
end

