-- ==== Sys2Proof/Proofs/RawEscalation.lean ====
section
/-! The raw escalation (R59, R60) as the largest of the contributions, and its comparison with the held one (R61). -/

namespace Sys2Proof.Machine

/-! ## The largest of a list, with a floor -/

theorem le_foldl_max {l : List Nat} {a : Nat} (floor : Nat) (ha : a ∈ l) : a ≤ l.foldl max floor := by
  obtain ⟨largest, hmax⟩ := Option.ne_none_iff_exists'.mp (mt List.max?_eq_none_iff.mp (List.ne_nil_of_mem ha))
  rw [List.foldl_max, hmax]
  exact le_max_of_le_right ((List.max?_eq_some_iff.mp hmax).2 a ha)

theorem foldl_max_eq_or_mem (l : List Nat) (floor : Nat) : l.foldl max floor = floor ∨ l.foldl max floor ∈ l := by
  rw [List.foldl_max]
  cases hmax : l.max? with
  | none => exact .inl (max_self floor)
  | some largest =>
    obtain hfloor | hlargest := max_choice floor largest
    · exact .inl hfloor
    · exact .inr (hlargest.symm ▸ (List.max?_eq_some_iff.mp hmax).1)

/-! ## What one monitor contributes (R59) -/

theorem maskHas_eq_testBit (mask k : Nat) : maskHas mask k = mask.testBit k := Nat.testBit_eq_decide_div_mod_eq.symm

theorem MonitorState.contribution_le (st : MonitorState) : st.contribution ≤ 2 := by cases st <;> decide

theorem contributionOf_none (e : Relation) (sector face : Nat) : contributionOf e none sector face = 0 := rfl

/-- A present record counts when it is CURRENT, its entry names the face and the wind blows from its upwind set. -/
theorem contributionOf_some (e : Relation) (m : MonitorRecord) (sector face : Nat) :
    contributionOf e (some m) sector face =
      if m.silent = false ∧ e.faces.testBit (face - 1) = true ∧ e.upwind.testBit sector = true
      then m.state.contribution else 0 := by
  simp only [contributionOf, maskHas_eq_testBit, Bool.and_eq_true, Bool.not_eq_true', and_assoc]

/-- The one way to contribute more than 0. -/
theorem contributionOf_eq_zero_or (e : Relation) (r : Option MonitorRecord) (sector face : Nat) :
    contributionOf e r sector face = 0 ∨ ∃ m, r = some m ∧
      (m.silent = false ∧ e.faces.testBit (face - 1) = true ∧ e.upwind.testBit sector = true) ∧
      contributionOf e r sector face = m.state.contribution := by
  cases r with
  | none => exact .inl (contributionOf_none e sector face)
  | some m =>
    rw [contributionOf_some]
    split
    next reaches => exact .inr ⟨m, rfl, reaches, rfl⟩
    next => exact .inl rfl

/-! ## The raw escalation (R60) -/

theorem State.contributionOf_le_rawEscalation {s : State} {i : Nat} {e : Relation} {r : Option MonitorRecord} (face : Nat)
    (he : s.cfg.relations[i]? = some e) (hr : s.fence.records[i]? = some r) :
    contributionOf e r s.wind.sector face ≤ s.rawEscalation face :=
  have entry : (e, r) ∈ s.cfg.relations.zip s.fence.records :=
    List.mem_of_getElem? (List.getElem?_zip_eq_some.mpr ⟨he, hr⟩)
  le_foldl_max 0 (List.mem_map_of_mem entry)

theorem State.rawEscalation_eq_zero_or (s : State) (face : Nat) :
    s.rawEscalation face = 0 ∨ ∃ (i : Nat) (e : Relation) (r : Option MonitorRecord),
      s.cfg.relations[i]? = some e ∧ s.fence.records[i]? = some r ∧
      s.rawEscalation face = contributionOf e r s.wind.sector face := by
  obtain hzero | hmem := foldl_max_eq_or_mem
    ((s.cfg.relations.zip s.fence.records).map (fun e => contributionOf e.1 e.2 s.wind.sector face)) 0
  · exact .inl hzero
  · obtain ⟨⟨e, r⟩, entry, heq⟩ := List.mem_map.mp hmem
    obtain ⟨i, hi⟩ := List.mem_iff_getElem?.mp entry
    obtain ⟨he, hr⟩ := List.getElem?_zip_eq_some.mp hi
    exact .inr ⟨i, e, r, he, hr, heq.symm⟩

/-- A raw escalation above 0 is the contribution of a present, CURRENT record that reaches the face. -/
theorem State.rawEscalation_eq_zero_or_contribution (s : State) (face : Nat) :
    s.rawEscalation face = 0 ∨ ∃ (i : Nat) (e : Relation) (m : MonitorRecord),
      s.cfg.relations[i]? = some e ∧ s.fence.records[i]? = some (some m) ∧
      (m.silent = false ∧ e.faces.testBit (face - 1) = true ∧ e.upwind.testBit s.wind.sector = true) ∧
      s.rawEscalation face = m.state.contribution := by
  obtain hzero | ⟨i, e, r, he, hr, heq⟩ := s.rawEscalation_eq_zero_or face
  · exact .inl hzero
  · obtain hzero | ⟨m, rfl, reaches, hm⟩ := contributionOf_eq_zero_or e r s.wind.sector face
    · exact .inl (heq.trans hzero)
    · exact .inr ⟨i, e, m, he, hr, reaches, heq.trans hm⟩

theorem State.rawEscalation_le (s : State) (face : Nat) : s.rawEscalation face ≤ 2 := by
  obtain hzero | ⟨_, _, m, -, -, -, heq⟩ := s.rawEscalation_eq_zero_or_contribution face
  · exact hzero ▸ Nat.zero_le 2
  · exact heq ▸ m.state.contribution_le

/-! ## The comparison with the held value (R61) -/

theorem Held.compare_of_lt {holdTime r : Nat} {h : Held} (rises : h.value < r) : h.compare holdTime r = ⟨r, none⟩ :=
  if_pos rises

theorem Held.compare_self (holdTime : Nat) (h : Held) : h.compare holdTime h.value = ⟨h.value, none⟩ := by
  rw [Held.compare, if_neg (lt_irrefl _), if_pos rfl]

/-- A lower raw value starts a stopped timer with the hold time and leaves a running one. -/
theorem Held.compare_of_gt {holdTime r : Nat} {h : Held} (falls : r < h.value) :
    h.compare holdTime r = ⟨h.value, some (h.timer.getD (holdTime * 1000))⟩ := by
  rw [Held.compare, if_neg falls.not_gt, if_neg falls.ne]
  cases h.timer <;> rfl

/-- Settles O21: the fold takes the largest contribution, each read off its record; the comparison by its three cases. -/
theorem rawEscalationIsLargest : Obligations.RawEscalationIsLargest := by
  refine ⟨fun face s => ⟨?bound, s.rawEscalation_le face, ?attained⟩,
    fun holdTime r h => ⟨Held.compare_of_lt, ?equal, Held.compare_of_gt⟩⟩
  case bound =>
    intro i e m he hr current named upwind
    have hle := State.contributionOf_le_rawEscalation face he hr
    rw [contributionOf_some, if_pos ⟨current, named, upwind⟩] at hle
    exact hle
  case attained =>
    obtain hzero | ⟨i, e, m, he, hr, ⟨current, named, upwind⟩, heq⟩ := s.rawEscalation_eq_zero_or_contribution face
    · exact .inl hzero
    · exact .inr ⟨i, e, m, he, hr, current, named, upwind, heq⟩
  case equal =>
    rintro rfl
    exact h.compare_self holdTime

end Sys2Proof.Machine
end

