-- ==== Sys2Proof/Proofs/Orders.lean ====
section
/-! Orders obeyed on dispatch (R162, R163, R171), and the ZERO order (R111). -/

namespace Sys2Proof.Machine

/-! ## Dispatching an order -/

theorem ofOrder_eq_true_iff (code : Nat) (f : Frame) : ofOrder code f = true ↔ f.kind = 4 ∧ f.payload 1 1 = code := by
  rw [ofOrder, Bool.and_eq_true, decide_eq_true_iff, decide_eq_true_iff]
  rfl

theorem State.targeted_eq_true_iff (s : State) (f : Frame) :
    s.targeted f = true ↔ f.payload 0 1 = s.cfg.id ∨ f.payload 0 1 = 255 := by
  rw [State.targeted, Bool.or_eq_true, decide_eq_true_iff, decide_eq_true_iff]
  rfl

theorem State.obey_of_targeted {s : State} {f : Frame} (act : State → Frame → State) (h : s.targeted f = true) :
    s.obey f act = act s f := if_pos h

/-- The oldest free frame, an order of the code for this station, leaves the queue and is acted on (R163, R171). -/
theorem State.dispatch_order_obeyed {s : State} {f : Frame} {code : Nat} (act : State → Frame → State)
    (hw : s.works = true) (hf : s.oldestFree = some f) (hv : f.valid = true) (hk : f.kind = 4) (hs : f.sender ≠ s.cfg.id)
    (htarget : f.payload 0 1 = s.cfg.id ∨ f.payload 0 1 = 255) (hcode : f.payload 1 1 = code) :
    s.dispatch (ofOrder code) (fun t g => t.obey g act) = act s.takeFree f := by
  have mine : ofOrder code f = true := (ofOrder_eq_true_iff code f).mpr ⟨hk, hcode⟩
  have targeted : s.takeFree.targeted f = true := (s.takeFree.targeted_eq_true_iff f).mpr htarget
  rw [s.dispatch_taken _ _ f hw hf hv mine hs, State.obey_of_targeted act targeted]

/-! ## Orders held during an evaluation (R162) -/

/-- Of an order, being held says that an evaluation is in flight. -/
theorem State.holds_order (s : State) {f : Frame} (hk : f.kind = 4) : s.holds f = s.risk.flight.isSome := by
  simp only [State.holds, kindOrder, hk, decide_true, Bool.or_true, Bool.and_true]

theorem State.flight_eq_none_of_oldestFree_order {s : State} {f : Frame} (hf : s.oldestFree = some f) (hk : f.kind = 4) :
    s.risk.flight = none := by
  obtain ⟨_, _, -, -, free, -⟩ := s.oldestFree_split f hf
  rw [s.holds_order hk] at free
  exact Option.isNone_iff_eq_none.mp (Option.isSome_eq_false_iff.mp free)

/-! ## The ZERO order (R111) -/

theorem exec_dispatchOrderZero (s : State) : exec .dispatchOrderZero s = execDispatchOrderZero s := rfl

/-- Settles O50: the order is taken and obeyed, its arguments unread; a free order is one that no flight holds. -/
theorem zeroOrderZeroesVolumes : Obligations.ZeroOrderZeroesVolumes := by
  refine ⟨fun f s hw hf hv hk hs htarget hcode => ?zeroes, fun f s => State.flight_eq_none_of_oldestFree_order⟩
  case zeroes =>
    rw [exec_dispatchOrderZero, execDispatchOrderZero,
      State.dispatch_order_obeyed (fun u _ => u.zeroVolumes) hw hf hv hk hs htarget hcode]
    rfl

end Sys2Proof.Machine
end

