-- ==== Sys2Proof/Proofs/AimPatterns.lean ====
section
/-! The step positions of a leg, pattern by pattern (R117). -/

namespace Sys2Proof.Machine

/-- A remainder modulo a positive number is non-negative, so nothing is lost in its reading as a natural number. -/
theorem modN_cast (x : Int) {m : Nat} (hm : 0 < m) : (modN x m : Int) = x % m :=
  Int.toNat_of_nonneg (Int.emod_nonneg x (Int.natCast_ne_zero.mpr hm.ne'))

/-! ## The cell of a RASTER step -/

theorem cell_row {columns c : Nat} (r : Nat) (hc : c < columns) : (r * columns + c) / columns = r :=
  Nat.div_eq_of_lt_le (Nat.le_add_right _ _) (by rw [Nat.succ_mul]; exact Nat.add_lt_add_left hc _)

/-- How many columns past `a0` a RASTER aims at column `c` of row `r`: it comes back along the odd rows. -/
def Leg.along (g : Leg) (r c : Nat) : Int := if r % 2 = 0 then (c : Int) else (g.columns : Int) - 1 - c

section
variable {g : Leg}

/-! ## The steps of a leg -/

theorem Leg.steps_raster (h : g.pattern = .raster) : g.steps = g.rows * g.columns := by rw [Leg.steps, h]

theorem Leg.steps_of_ne_raster (h : g.pattern ≠ .raster) : g.steps = g.count := by
  unfold Leg.steps
  split
  · contradiction
  all_goals rfl

/-! ## The pattern azimuth -/

theorem Leg.azimuth_hold (h : g.pattern = .hold) (i index : Nat) : g.azimuth i index = g.a0 := by rw [Leg.azimuth, h]

theorem Leg.azimuth_arc (h : g.pattern = .arc) (i index : Nat) :
    (g.azimuth i index : Int) = ((g.a0 : Int) + i * g.aStep) % 3600 := by
  rw [Leg.azimuth, h]
  exact modN_cast _ (by decide)

theorem Leg.azimuth_raster (h : g.pattern = .raster) {r c : Nat} (hc : c < g.columns) (index : Nat) :
    (g.azimuth (r * g.columns + c) index : Int) = ((g.a0 : Int) + g.aStep * g.along r c) % 3600 := by
  simp only [Leg.azimuth, h, cell_row r hc, Nat.add_sub_cancel_left]
  exact modN_cast _ (by decide)

theorem Leg.azimuth_ring (h : g.pattern = .ring) (i index : Nat) : g.azimuth i index = index % 3600 := by
  rw [Leg.azimuth, h]

/-! ## The elevation -/

theorem Leg.elevation_raster (h : g.pattern = .raster) {r c : Nat} (hc : c < g.columns) :
    (g.elevation (r * g.columns + c) : Int) = max 0 (min 600 ((g.e0 : Int) + g.eStep * r)) := by
  simp only [Leg.elevation, h, cell_row r hc]
  exact Int.toNat_of_nonneg (le_max_left _ _)

theorem Leg.elevation_of_ne_raster (h : g.pattern ≠ .raster) (i : Nat) : g.elevation i = g.e0 := by
  unfold Leg.elevation
  split
  · contradiction
  all_goals rfl

end

/-- Settles O35, pattern by pattern; a RASTER step's row and column are recovered from its number by division. -/
theorem patternsGivePositions : Obligations.PatternsGivePositions := by
  refine fun g i index => ⟨fun hold => ?hold, fun arc => ?arc, fun r c raster hi hc => ?raster, fun ring => ?ring⟩
  case hold =>
    have other : g.pattern ≠ .raster := by simp [hold]
    exact ⟨Leg.azimuth_hold hold i index, Leg.elevation_of_ne_raster other i, Leg.steps_of_ne_raster other⟩
  case arc =>
    have other : g.pattern ≠ .raster := by simp [arc]
    exact ⟨Leg.azimuth_arc arc i index, Leg.elevation_of_ne_raster other i, Leg.steps_of_ne_raster other⟩
  case raster =>
    subst hi
    exact ⟨Leg.azimuth_raster raster hc index, Leg.elevation_raster raster hc, Leg.steps_raster raster⟩
  case ring =>
    have other : g.pattern ≠ .raster := by simp [ring]
    exact ⟨Leg.azimuth_ring ring i index, Leg.elevation_of_ne_raster other i, Leg.steps_of_ne_raster other⟩

end Sys2Proof.Machine
end

