-- ==== Sys2Proof/Proofs/Reach.lean ====
section
/-! What each command makes of the state, as one equation per command, and which blocks it can touch: the frame of all 54 commands. -/

namespace Sys2Proof.Machine

/-! ## The state after a command -/

/-- The state that a command leaves; no meaning faults or refuses, as `exec_eq_after` says. -/
def State.after (s : State) (c : Instr) : State :=
  match exec c s with
  | .next t => t
  | .fault _ | .refused _ => s

theorem exec_eq_after (c : Instr) (s : State) : exec c s = .next (s.after c) := by cases c <;> rfl

theorem exec_eq_next_iff {c : Instr} {s t : State} : exec c s = .next t ↔ s.after c = t := by
  rw [exec_eq_after, Host.Outcome.next.injEq]

section
variable (s : State)

theorem State.after_reset : s.after .reset = s.inReset := rfl
theorem State.after_resetRelease : s.after .resetRelease = if s.station.resetAsserted then s.beginLoad else s := rfl
theorem State.after_loadSuccess (memory : List Byte) : s.after (.loadSuccess memory) =
    if s.loading then match loadImage memory with | .passes cfg => s.loadSucceeds cfg | .fails _ => s else s := rfl
theorem State.after_loadFailure (memory : List Byte) : s.after (.loadFailure memory) =
    if s.loading then match loadImage memory with | .passes _ => s | .fails stage => s.loadFails stage else s := rfl
theorem State.after_sampleClose (vane : BitVec 4) :
    s.after (.sampleClose vane) = if s.wind.sampleTimer.isSome then s.closeSample vane else s := rfl
theorem State.after_anemometerPulse : s.after .anemometerPulse =
    if s.station.resetAsserted ∨ s.station.mode = .fault then s
    else s.setWind { s.wind with count := min 65535 (s.wind.count + 1) } := rfl
theorem State.after_heldTimerExpiry : s.after .heldTimerExpiry =
    match s.wind.heldTimer with
    | .running _ => s.setWind { s.wind with heldTimer := .expired }
    | .idle | .expired => s := rfl
theorem State.after_dispatchForecast :
    s.after .dispatchForecast = s.dispatch (ofKind kindForecast) State.takeForecast := rfl
theorem State.after_yardClockAdvance : s.after .yardClockAdvance =
    match s.forecast.clock with
    | some now => if s.forecast.advanceTimer = some 0 then s.advanceClock now else s
    | none => s := rfl
theorem State.after_evaluationTimerExpiry : s.after .evaluationTimerExpiry =
    if s.risk.timer.isSome then
      if s.risk.flight.isSome then s.setRisk { s.risk with timer := some (seconds s.cfg.interval) }
      else (s.setRisk { s.risk with timer := some (seconds s.cfg.interval) }).startEvaluation
    else s := rfl
theorem State.after_evaluationCompletion (weightsFirst : Bool) : s.after (.evaluationCompletion weightsFirst) =
    match s.risk.flight with
    | some snap => s.complete snap weightsFirst
    | none => s := rfl
theorem State.after_overrideExpiry (face : Nat) : s.after (.overrideExpiry face) =
    if face = 0 then s
    else s.setRisk { s.risk with
      faces := s.risk.faces.modify (face - 1) (fun r => { r with override := r.override.map Override.expire }) } := rfl
theorem State.after_dispatchMonitor :
    s.after .dispatchMonitor = s.dispatch (ofKind kindMonitor) State.takeMonitor := rfl
theorem State.after_monitorSilenceCrossing (id : Nat) : s.after (.monitorSilenceCrossing id) =
    match s.crossingMonitor id with
    | some (i, m) => s.monitorFallsSilent i m
    | none => s := rfl
theorem State.after_holdExpiry (face : Nat) :
    s.after (.holdExpiry face) = if s.holdDue face then s.recomputeEscalation (some face) else s := rfl
theorem State.after_dispatchMachine :
    s.after .dispatchMachine = s.dispatch (ofKind kindMachine) State.takeMachine := rfl
theorem State.after_machineStaleCrossing (id : Nat) : s.after (.machineStaleCrossing id) =
    if s.machines.list.any (fun m => m.id == id && m.dueStale) then
      (s.setMachines { s.machines with
        list := s.machines.list.map (fun m => if m.id = id then m.cross else m) }).recomputeMachines
    else s := rfl
theorem State.after_machineRemoval (id : Nat) : s.after (.machineRemoval id) =
    if s.machines.list.any (fun m => m.id == id && m.dueRemoval) then
      (s.setMachines { s.machines with list := s.machines.list.filter (fun m => m.id ≠ id) }).recomputeMachines
    else s := rfl
theorem State.after_dispatchReport :
    s.after .dispatchReport = s.dispatch (ofKind kindReport) State.takeReport := rfl
theorem State.after_peerStaleCrossing (id : Nat) : s.after (.peerStaleCrossing id) =
    if s.peers.list.any (fun p => p.id == id && p.dueStale) then
      (s.setPeerList (s.peers.list.map (fun p => if p.id = id then p.cross else p))).shareComputation
    else s := rfl
theorem State.after_peerRemoval (id : Nat) : s.after (.peerRemoval id) =
    if s.peers.list.any (fun p => p.id == id && p.dueRemoval) then
      (s.setPeerList (s.peers.list.filter (fun p => p.id ≠ id))).shareComputation
    else s := rfl
theorem State.after_dispatchPond : s.after .dispatchPond = s.dispatch (ofKind kindPond) State.takePond := rfl
theorem State.after_pondSilenceExpiry :
    s.after .pondSilenceExpiry = if s.water.timer = some 0 then s.pondFallsSilent else s := rfl
theorem State.after_gtNotice : s.after .gtNotice =
    if 0 < s.water.gtNotices then
      (s.setWater { s.water with gtNotices := s.water.gtNotices - 1 }).shareComputation else s := rfl
theorem State.after_onAim (c : Fin 4) :
    s.after (.onAim c) = if (s.channel c).state = .slewing then s.slewEnds c else s := rfl
theorem State.after_slewTimeout (c : Fin 4) : s.after (.slewTimeout c) =
    if (s.channel c).state = .slewing ∧ (s.channel c).slewTimer = some 0 then s.faultChannel c else s := rfl
theorem State.after_valveOpenReport (c : Fin 4) :
    s.after (.valveOpenReport c) = if (s.channel c).state = .opening then s.valveOpens c else s := rfl
theorem State.after_valveTimeout (c : Fin 4) : s.after (.valveTimeout c) =
    if (s.channel c).state = .opening ∧ (s.channel c).valveTimer = some 0 then s.faultChannel c else s := rfl
theorem State.after_dwellExpiry (c : Fin 4) : s.after (.dwellExpiry c) =
    if ((s.channel c).state = .spraying ∨ (s.channel c).state = .dry) ∧ (s.channel c).dwellTimer.isSome
    then s.stepEnd c else s := rfl
theorem State.after_flowPulse (c : Fin 4) :
    s.after (.flowPulse c) = if s.works ∧ c.val < s.channelCount then s.takePulse c else s := rfl
theorem State.after_pressureSample (reading : Nat) : s.after (.pressureSample reading) =
    if s.sweep.pressureTimer.isSome then s.samplePressure reading else s := rfl
theorem State.after_breakSendEnd : s.after .breakSendEnd =
    if s.line.breakDriving then
      if s.station.breakRequest then (s.setLine { s.line with breakDriving := false }).toldOfBreak
      else s.setLine { s.line with breakDriving := false }
    else s := rfl
theorem State.after_idleGapComplete : s.after .idleGapComplete =
    if s.works ∧ s.line.sending = none then s.setLine (s.line.gapComplete s.cfg.period) else s := rfl
theorem State.after_breakHeard : s.after .breakHeard =
    if s.works ∧ s.line.run ≠ .heard then (s.setLine s.line.broken).toldOfBreak else s := rfl
theorem State.after_frameReceived (f : Frame) : s.after (.frameReceived f) =
    match s.line.rx, s.line.sending with
    | .inFrame _ chars bits, none =>
      if s.works ∧ Frame.shaped f = true ∧ s.cfg.hears f.kind = true ∧ chars.length < f.length ∧ f.take chars.length = chars
          ∧ (List.range bits.length).map (f.sentBit chars.length) = bits then
        (s.setLine { s.line.resolve s.cfg.period with
          rx := .awaitGap, gap := some 0, run := .absent, joinOpen := false }).deliver f
      else s
    | _, _ => s := rfl
theorem State.after_frameStart :
    s.after .frameStart = if s.works ∧ s.line.mayStart = true then s.setLine s.line.start else s := rfl
theorem State.after_arbitrationLost (char bit : Nat) (x : Samples) :
    s.after (.arbitrationLost char bit x) = if s.works then s.readPlace char bit x [.lost] else s := rfl
theorem State.after_clash (char bit : Nat) (x : Samples) :
    s.after (.clash char bit x) = if s.works then s.readPlace char bit x [.clashed, .clashing] else s := rfl
theorem State.after_frameSent : s.after .frameSent =
    match s.line.rx, s.line.sending with
    | .inFrame _ _ _, some _ => if s.works then s.setLine s.line.sent else s
    | _, _ => s := rfl
theorem State.after_selfSilenceExpiry : s.after .selfSilenceExpiry =
    if s.line.silence.isSome then s.setLine { s.line with silence := none } else s := rfl
theorem State.after_dispatchOrderMode :
    s.after .dispatchOrderMode = s.dispatch (ofOrder 1) (fun t f => t.obey f State.obeyMode) := rfl
theorem State.after_dispatchOrderBank :
    s.after .dispatchOrderBank = s.dispatch (ofOrder 2) (fun t f => t.obey f State.obeyBank) := rfl
theorem State.after_dispatchOrderForce :
    s.after .dispatchOrderForce = s.dispatch (ofOrder 3) (fun t f => t.obey f State.obeyForce) := rfl
theorem State.after_dispatchOrderResume :
    s.after .dispatchOrderResume = s.dispatch (ofOrder 4) (fun t f => t.obey f (fun u _ => u.resume)) := rfl
theorem State.after_dispatchOrderZero :
    s.after .dispatchOrderZero = s.dispatch (ofOrder 5) (fun t f => t.obey f (fun u _ => u.zeroVolumes)) := rfl
theorem State.after_listeningTimerExpiry :
    s.after .listeningTimerExpiry = if s.station.listeningTimer.isSome then s.listeningEnds else s := rfl
theorem State.after_hushHoldExpiry : s.after .hushHoldExpiry =
    if s.station.mode = .hushed ∧ s.station.hushTimer = some 0 then s.endHush else s := rfl
theorem State.after_reportTimerExpiry :
    s.after .reportTimerExpiry = if s.station.reportTimer.isSome then s.assembleReport else s := rfl
theorem State.after_faultPatternTick : s.after .faultPatternTick =
    match s.station.mode, s.station.faultCode with
    | .fault, some n => s.setStation (s.station.nextPhase n)
    | _, _ => s := rfl
theorem State.after_startEdge (measure : Nat) :
    s.after (.startEdge measure) = if s.works then s.setLine (s.line.edge s.cfg.period measure) else s := rfl
theorem State.after_bitRead (x : Samples) : s.after (.bitRead x) = if s.works then s.readBit x else s := rfl
theorem State.after_dominantRunEnd : s.after .dominantRunEnd =
    if s.works then s.setLine { s.line.resolve s.cfg.period with run := .absent, joinOpen := false } else s := rfl
theorem State.after_frameDiscardedAtDispatch : s.after .frameDiscardedAtDispatch =
    match s.oldestFree with
    | some f =>
      if s.works = false then s
      else if f.valid = false then s.takeFree
      else if f.sender = s.cfg.id then s.takeFree.idConflict
      else s
    | none => s := rfl
theorem State.after_orderIgnored : s.after .orderIgnored =
    s.dispatch (fun f => ofKind kindOrder f && decide (f.sender ≠ s.cfg.id)
        && (!s.targeted f || decide (f.orderCode = 0) || decide (5 < f.orderCode))) (fun t _ => t) := rfl

end

/-! ## Blocks touched -/

/-- The items of the state: the blocks, the configuration and the queue of waiting commands. -/
inductive Block where
  | pending | cfg | station | wind | forecast | risk | fence | machines | peers | water | sweep | line | dispatcher
  deriving DecidableEq

/-- Two states agree at a block. -/
def State.AgreesAt (s t : State) : Block → Prop
  | .pending => t.pending = s.pending
  | .cfg => t.cfg = s.cfg
  | .station => t.station = s.station
  | .wind => t.wind = s.wind
  | .forecast => t.forecast = s.forecast
  | .risk => t.risk = s.risk
  | .fence => t.fence = s.fence
  | .machines => t.machines = s.machines
  | .peers => t.peers = s.peers
  | .water => t.water = s.water
  | .sweep => t.sweep = s.sweep
  | .line => t.line = s.line
  | .dispatcher => t.dispatcher = s.dispatcher

/-- From `s` to `t` nothing has moved outside the blocks listed. -/
def State.Reaches (bs : List Block) (s t : State) : Prop := ∀ b, b ∉ bs → s.AgreesAt t b

section
variable {s t u : State} {bs cs : List Block}

theorem State.AgreesAt.refl (s : State) (b : Block) : s.AgreesAt s b := by cases b <;> rfl

theorem State.AgreesAt.trans {b : Block} (h : s.AgreesAt t b) (k : t.AgreesAt u b) : s.AgreesAt u b := by
  cases b <;> exact Eq.trans k h

theorem State.Reaches.refl (s : State) (bs : List Block) : State.Reaches bs s s := fun b _ => .refl s b

theorem State.Reaches.mono (h : State.Reaches bs s t) (hb : bs ⊆ cs := by decide) : State.Reaches cs s t :=
  fun b hn => h b (fun hm => hn (hb hm))

theorem State.Reaches.trans (h : State.Reaches bs s t) (k : State.Reaches bs t u) : State.Reaches bs s u :=
  fun b hn => (h b hn).trans (k b hn)

theorem State.Reaches.of_ite {p : Prop} [Decidable p] {x y : State} (h : p → State.Reaches bs s x)
    (k : ¬ p → State.Reaches bs s y) : State.Reaches bs s (if p then x else y) := by
  split
  next hp => exact h hp
  next hp => exact k hp

/-- A command that acts under a condition and else leaves the state reaches no further than its action. -/
theorem State.Reaches.of_guard {p : Prop} [Decidable p] (h : State.Reaches bs s t) :
    State.Reaches bs s (if p then t else s) := .of_ite (fun _ => h) (fun _ => .refl s bs)

end

section
variable (s : State)

theorem State.setStation_reaches (x : Station) : State.Reaches [.station] s (s.setStation x) := by
  intro b hb; cases b; case station => exact absurd (by decide) hb
  all_goals rfl
theorem State.setWind_reaches (x : Wind) : State.Reaches [.wind] s (s.setWind x) := by
  intro b hb; cases b; case wind => exact absurd (by decide) hb
  all_goals rfl
theorem State.setForecast_reaches (x : Forecast) : State.Reaches [.forecast] s (s.setForecast x) := by
  intro b hb; cases b; case forecast => exact absurd (by decide) hb
  all_goals rfl
theorem State.setRisk_reaches (x : Risk) : State.Reaches [.risk] s (s.setRisk x) := by
  intro b hb; cases b; case risk => exact absurd (by decide) hb
  all_goals rfl
theorem State.setFence_reaches (x : Fence) : State.Reaches [.fence] s (s.setFence x) := by
  intro b hb; cases b; case fence => exact absurd (by decide) hb
  all_goals rfl
theorem State.setMachines_reaches (x : Machines) : State.Reaches [.machines] s (s.setMachines x) := by
  intro b hb; cases b; case machines => exact absurd (by decide) hb
  all_goals rfl
theorem State.setPeers_reaches (x : Peers) : State.Reaches [.peers] s (s.setPeers x) := by
  intro b hb; cases b; case peers => exact absurd (by decide) hb
  all_goals rfl
theorem State.setWater_reaches (x : Water) : State.Reaches [.water] s (s.setWater x) := by
  intro b hb; cases b; case water => exact absurd (by decide) hb
  all_goals rfl
theorem State.setSweep_reaches (x : Sweep) : State.Reaches [.sweep] s (s.setSweep x) := by
  intro b hb; cases b; case sweep => exact absurd (by decide) hb
  all_goals rfl
theorem State.setLine_reaches (x : Line) : State.Reaches [.line] s (s.setLine x) := by
  intro b hb; cases b; case line => exact absurd (by decide) hb
  all_goals rfl
theorem State.setDispatcher_reaches (x : Dispatcher) : State.Reaches [.dispatcher] s (s.setDispatcher x) := by
  intro b hb; cases b; case dispatcher => exact absurd (by decide) hb
  all_goals rfl

end
end Sys2Proof.Machine
end

