-- ==== Sys2Proof/Proofs/Frame.lean ====
section
/-! The frame of the 54 commands: which blocks each shared operation and each command can touch, with every other block as it was. -/

namespace Sys2Proof.Machine

/-! ## The shared operations -/

section
variable {s t : State}

theorem State.SweepOnly.eq (h : s.SweepOnly t) :
    t = { s with sweep := t.sweep, water := { s.water with gtNotices := t.water.gtNotices } } := h

theorem State.SweepOnly.reaches (h : s.SweepOnly t) : State.Reaches [.sweep, .water] s t := by
  intro b hb
  cases b with
  | sweep | water => exact absurd (by decide) hb
  | pending => exact (congrArg State.pending h.eq).trans rfl
  | cfg => exact (congrArg State.cfg h.eq).trans rfl
  | station => exact (congrArg State.station h.eq).trans rfl
  | wind => exact (congrArg State.wind h.eq).trans rfl
  | forecast => exact (congrArg State.forecast h.eq).trans rfl
  | risk => exact (congrArg State.risk h.eq).trans rfl
  | fence => exact (congrArg State.fence h.eq).trans rfl
  | machines => exact (congrArg State.machines h.eq).trans rfl
  | peers => exact (congrArg State.peers h.eq).trans rfl
  | line => exact (congrArg State.line h.eq).trans rfl
  | dispatcher => exact (congrArg State.dispatcher h.eq).trans rfl

theorem State.SweepOnly.pending (h : s.SweepOnly t) : t.pending = s.pending := (congrArg State.pending h.eq).trans rfl
theorem State.SweepOnly.cfg (h : s.SweepOnly t) : t.cfg = s.cfg := (congrArg State.cfg h.eq).trans rfl
theorem State.SweepOnly.station (h : s.SweepOnly t) : t.station = s.station := (congrArg State.station h.eq).trans rfl
theorem State.SweepOnly.wind (h : s.SweepOnly t) : t.wind = s.wind := (congrArg State.wind h.eq).trans rfl
theorem State.SweepOnly.forecast (h : s.SweepOnly t) : t.forecast = s.forecast := (congrArg State.forecast h.eq).trans rfl
theorem State.SweepOnly.risk (h : s.SweepOnly t) : t.risk = s.risk := (congrArg State.risk h.eq).trans rfl
theorem State.SweepOnly.fence (h : s.SweepOnly t) : t.fence = s.fence := (congrArg State.fence h.eq).trans rfl
theorem State.SweepOnly.machines (h : s.SweepOnly t) : t.machines = s.machines := (congrArg State.machines h.eq).trans rfl
theorem State.SweepOnly.peers (h : s.SweepOnly t) : t.peers = s.peers := (congrArg State.peers h.eq).trans rfl
theorem State.SweepOnly.line (h : s.SweepOnly t) : t.line = s.line := (congrArg State.line h.eq).trans rfl
theorem State.SweepOnly.dispatcher (h : s.SweepOnly t) : t.dispatcher = s.dispatcher := (congrArg State.dispatcher h.eq).trans rfl

/-- Outside the G_t notices a sweep operation leaves the water share unit as it was. -/
theorem State.SweepOnly.water (h : s.SweepOnly t) : t.water = { s.water with gtNotices := t.water.gtNotices } :=
  (congrArg State.water h.eq).trans rfl

end

section
variable (s : State)

theorem State.handOver_reaches (sR sF : Nat) : State.Reaches [.sweep, .water] s (s.handOver sR sF) :=
  (s.handOver_only sR sF).reaches

theorem State.shareComputation_reaches : State.Reaches [.sweep, .water] s s.shareComputation :=
  (s.setWater_reaches _).mono.trans (State.handOver_reaches _ _ _)

theorem State.takePond_reaches (f : Frame) : State.Reaches [.sweep, .water] s (s.takePond f) :=
  .of_guard ((s.setWater_reaches _).mono.trans (State.shareComputation_reaches _))

theorem State.pondFallsSilent_reaches : State.Reaches [.sweep, .water] s s.pondFallsSilent :=
  (s.setWater_reaches _).mono.trans (State.shareComputation_reaches _)

theorem State.zeroVolumes_reaches : State.Reaches [.water] s s.zeroVolumes := s.setWater_reaches _

theorem State.volumeNotice_reaches (weight : Nat) (fund : Fund) : State.Reaches [.water] s (s.volumeNotice weight fund) := by
  cases fund <;> exact s.setWater_reaches _

theorem State.takePulse_reaches (c : Nat) : State.Reaches [.water, .risk] s (s.takePulse c) := by
  unfold State.takePulse
  split
  · exact (s.volumeNotice_reaches _ _).mono
  · exact (s.volumeNotice_reaches _ _).mono.trans (State.setRisk_reaches _ _).mono

theorem State.selectForecast_reaches : State.Reaches [.forecast] s s.selectForecast := by
  unfold State.selectForecast
  split <;> exact s.setForecast_reaches _

theorem State.takeForecast_reaches (f : Frame) : State.Reaches [.forecast] s (s.takeForecast f) :=
  .of_guard (s.setForecast_reaches _)

theorem State.advanceClock_reaches (now : Nat) : State.Reaches [.forecast, .water] s (s.advanceClock now) :=
  .of_ite (fun _ => (s.setForecast_reaches _).mono.trans (State.zeroVolumes_reaches _).mono)
    (fun _ => (s.setForecast_reaches _).mono)

theorem State.activationNotice_reaches (c : Nat) : State.Reaches [.sweep] s (s.activationNotice c) := by
  unfold State.activationNotice
  dsimp only
  split
  · exact .refl s _
  · refine .of_guard ?_
    split
    case h_1 | h_2 | h_3 => exact s.setSweep_reaches _
    all_goals exact .refl s _

theorem State.Reaches.of_fold {α : Type} {bs : List Block} {f : State → α → State}
    (h : ∀ (t : State) (a : α), State.Reaches bs t (f t a)) (l : List α) : State.Reaches bs s (l.foldl f s) := by
  induction l generalizing s with
  | nil => exact .refl s bs
  | cons a l ih => exact (h s a).trans (ih (f s a))

theorem State.recomputeMachines_reaches : State.Reaches [.machines, .sweep] s s.recomputeMachines :=
  (s.setMachines_reaches _).mono.trans (.of_fold _ (fun t c => (t.activationNotice_reaches c).mono) _)

/-- A change of the list with its recomputation (R73). -/
theorem State.setMachines_recomputeMachines_reaches (x : Machines) :
    State.Reaches [.machines, .sweep] s (s.setMachines x).recomputeMachines :=
  (s.setMachines_reaches x).mono.trans (State.recomputeMachines_reaches _)

theorem State.withMachine_reaches (r : MachineRecord) (l : List MachineRecord) :
    State.Reaches [.machines, .sweep] s (s.withMachine r l) := s.setMachines_recomputeMachines_reaches _

theorem State.takeMachine_reaches (f : Frame) : State.Reaches [.machines, .sweep] s (s.takeMachine f) := by
  refine .of_guard (.of_ite (fun _ => s.withMachine_reaches _ _) (fun _ => ?_))
  split
  · exact s.withMachine_reaches _ _
  · exact (s.setMachines_reaches _).mono

theorem State.deliver_reaches (f : Frame) : State.Reaches [.dispatcher] s (s.deliver f) := s.setDispatcher_reaches _

theorem State.setLine_deliver_reaches (l : Line) (f : Frame) :
    State.Reaches [.line, .dispatcher] s ((s.setLine l).deliver f) :=
  (s.setLine_reaches l).mono.trans (State.deliver_reaches _ f).mono

theorem State.readBit_reaches (x : Samples) : State.Reaches [.line, .dispatcher] s (s.readBit x) := by
  unfold State.readBit
  split
  · dsimp only
    split
    · exact (s.setLine_reaches _).mono
    · exact .of_ite (fun _ => (s.setLine_reaches _).mono)
        (fun _ => s.setLine_deliver_reaches _ _)
  all_goals exact .refl s _

theorem State.readPlace_reaches (char bit : Nat) (x : Samples) (kinds : List ReadBack) :
    State.Reaches [.line, .dispatcher] s (s.readPlace char bit x kinds) := by
  unfold State.readPlace
  split
  · exact .of_guard ((s.setLine_reaches _).mono.trans (State.readBit_reaches _ x))
  · exact .refl s _

theorem State.changeMode_reaches (m : Mode) : State.Reaches [.station, .sweep, .water] s (s.changeMode m) :=
  (s.setStation_reaches _).mono.trans (s.changeMode_only m).reaches.mono

theorem State.enterHush_reaches (r : Remembered) : State.Reaches [.station, .sweep, .water] s (s.enterHush r) :=
  (s.setStation_reaches _).mono.trans (State.changeMode_reaches _ _)

theorem State.hush_reaches : State.Reaches [.station, .sweep, .water] s s.hush := by
  unfold State.hush
  split
  case h_1 | h_2 | h_3 => exact s.enterHush_reaches _
  case h_4 => exact (s.setStation_reaches _).mono
  all_goals exact .refl s _

theorem State.toldOfBreak_reaches : State.Reaches [.station, .sweep, .water] s s.toldOfBreak :=
  (s.setStation_reaches _).mono.trans (State.hush_reaches _)

theorem State.endHush_reaches : State.Reaches [.station, .sweep, .water] s s.endHush := by
  unfold State.endHush
  split
  · exact (s.setStation_reaches _).mono.trans (State.changeMode_reaches _ _)
  · exact .refl s _

theorem State.modeOrder_reaches (t : Target) : State.Reaches [.station, .sweep, .water] s (s.modeOrder t) := by
  unfold State.modeOrder
  split
  case h_1 => exact (s.setStation_reaches _).mono
  case h_2 | h_3 => exact .of_guard (s.changeMode_reaches _)
  case h_4 =>
    split
    case h_4 => exact .refl s _
    all_goals exact (s.setStation_reaches _).mono
  all_goals exact .refl s _

theorem State.listeningEnds_reaches : State.Reaches [.station, .sweep, .water] s s.listeningEnds := by
  unfold State.listeningEnds
  dsimp only
  split
  · exact (s.setStation_reaches _).mono.trans (State.changeMode_reaches _ _)
  · exact (s.setStation_reaches _).mono.trans (State.setStation_reaches _ _).mono
  · exact (s.setStation_reaches _).mono

theorem State.assembleReport_reaches : State.Reaches [.line, .station] s s.assembleReport :=
  (s.setLine_reaches _).mono.trans (State.setStation_reaches _ _).mono

theorem State.samplePressure_reaches (reading : Nat) :
    State.Reaches [.sweep, .station, .line] s (s.samplePressure reading) :=
  .of_ite (fun _ => ((s.setSweep_reaches _).mono.trans (State.setStation_reaches _ _).mono).trans
      (State.setLine_reaches _ _).mono)
    (fun _ => (s.setSweep_reaches _).mono)

theorem State.recomputeEscalation_reaches (expiring : Option Nat) :
    State.Reaches [.fence] s (s.recomputeEscalation expiring) := s.setFence_reaches _

theorem State.takeMonitor_reaches (f : Frame) : State.Reaches [.fence] s (s.takeMonitor f) := by
  unfold State.takeMonitor
  split
  · exact .refl s _
  · exact .of_ite (fun _ => .refl s _)
      (fun _ => (s.setFence_reaches _).trans (State.recomputeEscalation_reaches _ _))

theorem State.monitorFallsSilent_reaches (i : Nat) (m : MonitorRecord) :
    State.Reaches [.fence] s (s.monitorFallsSilent i m) :=
  (s.setFence_reaches _).trans (State.recomputeEscalation_reaches _ _)

theorem State.setPeerList_reaches (l : List Peer) : State.Reaches [.peers] s (s.setPeerList l) := s.setPeers_reaches _

/-- A change of the table with the change notice that it may send (R88). -/
theorem State.setPeerList_shareComputation_reaches (l : List Peer) :
    State.Reaches [.peers, .sweep, .water] s (s.setPeerList l).shareComputation :=
  (s.setPeerList_reaches l).mono.trans (State.shareComputation_reaches _).mono

theorem State.takeReport_reaches (f : Frame) : State.Reaches [.peers, .sweep, .water] s (s.takeReport f) := by
  refine .of_guard ?_
  dsimp only
  split
  · exact .of_ite (fun _ => s.setPeerList_shareComputation_reaches _) (fun _ => (s.setPeerList_reaches _).mono)
  · refine .of_ite (fun _ => s.setPeerList_shareComputation_reaches _) (fun _ => ?_)
    split
    · exact s.setPeerList_shareComputation_reaches _
    · exact (s.setPeers_reaches _).mono

theorem State.startEvaluation_reaches : State.Reaches [.forecast, .risk] s s.startEvaluation :=
  ((s.setRisk_reaches _).mono.trans (State.selectForecast_reaches _).mono).trans (State.setRisk_reaches _ _).mono

theorem State.weightNotice_reaches (old : State) : State.Reaches [.sweep, .water] s (State.weightNotice old s) :=
  .of_ite (fun _ => .refl s _) (fun _ => s.shareComputation_reaches)

theorem State.complete_reaches (snap : Snapshot) (weightsFirst : Bool) :
    State.Reaches [.risk, .sweep, .water] s (s.complete snap weightsFirst) := by
  have published : State.Reaches [.risk, .sweep, .water] s (s.publish (s.completedFaces snap)) :=
    (s.setRisk_reaches _).mono
  refine .of_ite (fun _ => ?_) (fun _ => ?_)
  · exact ((published.trans (State.settleLists_only _ _).reaches.mono).trans (State.weightNotice_reaches _ _).mono).trans
      (State.levelNotice_only _ _).reaches.mono
  · exact (published.trans (State.levelNotice_only _ _).reaches.mono).trans (State.weightNotice_reaches _ _).mono

theorem State.forceOrder_reaches (face level minutes : Nat) : State.Reaches [.risk] s (s.forceOrder face level minutes) :=
  .of_ite (fun _ => .refl s _) (fun _ => .of_ite (fun _ => s.setRisk_reaches _) (fun _ => .of_guard (s.setRisk_reaches _)))

theorem State.windHeld_reaches : State.Reaches [.wind] s s.windHeld := by
  unfold State.windHeld
  split <;> exact s.setWind_reaches _

theorem State.decideWind_reaches : State.Reaches [.wind, .forecast] s s.decideWind := by
  unfold State.decideWind
  split
  · exact (s.setWind_reaches _).mono
  · refine .of_ite (fun _ => (s.setWind_reaches _).mono) (fun _ => ?_)
    dsimp only
    split
    · exact s.selectForecast_reaches.mono.trans (State.setWind_reaches _ _).mono
    · exact s.selectForecast_reaches.mono.trans (State.windHeld_reaches _).mono

theorem State.closeSample_reaches (vane : BitVec 4) :
    State.Reaches [.wind, .forecast, .fence, .sweep, .water] s (s.closeSample vane) := by
  have decided : State.Reaches [.wind, .forecast, .fence, .sweep, .water] s (s.takeSample vane).decideWind :=
    (s.setWind_reaches _).mono.trans (State.decideWind_reaches _).mono
  refine State.Reaches.trans ?_ (State.windHold_only _).reaches.mono
  exact .of_ite (fun _ => decided) (fun _ => decided.trans (State.recomputeEscalation_reaches _ _).mono)

theorem State.takeFree_reaches : State.Reaches [.dispatcher] s s.takeFree := s.setDispatcher_reaches _

/-- A dispatch touches the queue and what its owner touches. -/
theorem State.dispatch_reaches {bs : List Block} (mine : Frame → Bool) {owner : State → Frame → State}
    (h : ∀ (t : State) (f : Frame), State.Reaches bs t (owner t f)) (hd : .dispatcher ∈ bs := by decide) :
    State.Reaches bs s (s.dispatch mine owner) := by
  have taken : State.Reaches bs s s.takeFree := s.takeFree_reaches.mono (by simpa using hd)
  obtain stays | ⟨f, -, -, -, -, ⟨-, conflict⟩ | ⟨-, owned⟩⟩ := s.dispatch_cases mine owner
  · rw [stays]
    exact .refl s bs
  · rw [conflict]
    exact taken.trans ((State.setDispatcher_reaches _ _).mono (by simpa using hd))
  · rw [owned]
    exact taken.trans (h _ f)

theorem State.obey_reaches {bs : List Block} {act : State → Frame → State}
    (h : ∀ (t : State) (f : Frame), State.Reaches bs t (act t f)) (f : Frame) : State.Reaches bs s (s.obey f act) :=
  .of_guard (h s f)

/-- An order touches the queue and what the order does. -/
theorem State.dispatch_order_reaches {bs : List Block} (code : Nat) {act : State → Frame → State}
    (h : ∀ (t : State) (f : Frame), State.Reaches bs t (act t f)) (hd : .dispatcher ∈ bs := by decide) :
    State.Reaches bs s (s.dispatch (ofOrder code) (fun t f => t.obey f act)) :=
  s.dispatch_reaches _ (fun t f => t.obey_reaches h f) hd

theorem State.obeyMode_reaches (f : Frame) : State.Reaches [.station, .sweep, .water] s (s.obeyMode f) := by
  unfold State.obeyMode
  split
  · exact s.modeOrder_reaches _
  · exact s.modeOrder_reaches _
  · exact .refl s _

theorem State.obeyBank_reaches (f : Frame) : State.Reaches [.sweep, .water] s (s.obeyBank f) := by
  unfold State.obeyBank
  split
  · exact (s.bankOrder_only _).reaches
  · exact (s.bankOrder_only _).reaches
  · exact .refl s _

theorem State.resume_reaches : State.Reaches [.station, .sweep, .water] s s.resume := .of_guard s.endHush_reaches

end

/-! ## The commands -/

/-- The blocks that a command can touch. -/
def touched : Instr → List Block
  | .reset => [.cfg, .station, .wind, .forecast, .risk, .fence, .machines, .peers, .water, .sweep, .line, .dispatcher]
  | .loadSuccess _ => [.cfg, .station, .wind, .risk, .fence, .machines, .water, .sweep, .line]
  | .sampleClose _ => [.wind, .forecast, .fence, .sweep, .water]
  | .anemometerPulse | .heldTimerExpiry => [.wind]
  | .dispatchForecast => [.forecast, .dispatcher]
  | .yardClockAdvance => [.forecast, .water]
  | .evaluationTimerExpiry => [.forecast, .risk]
  | .evaluationCompletion _ => [.risk, .sweep, .water]
  | .overrideExpiry _ => [.risk]
  | .dispatchMonitor => [.fence, .dispatcher]
  | .monitorSilenceCrossing _ | .holdExpiry _ => [.fence]
  | .dispatchMachine => [.machines, .sweep, .dispatcher]
  | .machineStaleCrossing _ | .machineRemoval _ => [.machines, .sweep]
  | .dispatchReport => [.peers, .sweep, .water, .dispatcher]
  | .peerStaleCrossing _ | .peerRemoval _ => [.peers, .sweep, .water]
  | .dispatchPond => [.sweep, .water, .dispatcher]
  | .pondSilenceExpiry | .gtNotice => [.sweep, .water]
  | .onAim _ | .slewTimeout _ | .valveOpenReport _ | .valveTimeout _ | .dwellExpiry _ => [.sweep, .water]
  | .flowPulse _ => [.water, .risk]
  | .pressureSample _ => [.sweep, .station, .line]
  | .breakSendEnd | .breakHeard => [.station, .sweep, .water, .line]
  | .idleGapComplete | .frameStart | .frameSent | .selfSilenceExpiry | .startEdge _ | .dominantRunEnd => [.line]
  | .frameReceived _ | .arbitrationLost _ _ _ | .clash _ _ _ | .bitRead _ => [.line, .dispatcher]
  | .dispatchOrderMode | .dispatchOrderResume => [.station, .sweep, .water, .dispatcher]
  | .dispatchOrderBank => [.sweep, .water, .dispatcher]
  | .dispatchOrderForce => [.risk, .dispatcher]
  | .dispatchOrderZero => [.water, .dispatcher]
  | .listeningTimerExpiry | .hushHoldExpiry => [.station, .sweep, .water]
  | .reportTimerExpiry => [.line, .station]
  | .resetRelease | .loadFailure _ | .faultPatternTick => [.station]
  | .frameDiscardedAtDispatch | .orderIgnored => [.dispatcher]

theorem State.inReset_reaches (s : State) : State.Reaches (touched .reset) s s.inReset := by
  intro b hb
  cases b with
  | pending => rfl
  | _ => exact absurd (by decide) hb

theorem State.startTimers_reaches (s : State) :
    State.Reaches [.wind, .risk, .water, .sweep, .line, .station] s s.startTimers := by
  intro b hb
  cases b with
  | pending | cfg | forecast | fence | machines | peers | dispatcher => rfl
  | _ => exact absurd (by decide) hb

theorem State.configured_reaches (s : State) (cfg : StationCfg) :
    State.Reaches [.cfg, .risk, .fence, .machines, .sweep] s (s.configured cfg) := by
  intro b hb
  cases b with
  | pending | station | wind | forecast | peers | water | line | dispatcher => rfl
  | _ => exact absurd (by decide) hb

theorem State.loadSucceeds_reaches (s : State) (cfg : StationCfg) :
    State.Reaches (touched (.loadSuccess [])) s (s.loadSucceeds cfg) :=
  ((s.configured_reaches cfg).mono.trans (State.startTimers_reaches _).mono).trans (State.changeMode_reaches _ _).mono

/-- No command touches a block outside its list. -/
theorem State.after_reaches (s : State) (c : Instr) : State.Reaches (touched c) s (s.after c) := by
  cases c with
  | reset => exact s.inReset_reaches
  | resetRelease => exact .of_guard (s.setStation_reaches _)
  | loadSuccess memory =>
    refine .of_guard ?_
    split
    · exact s.loadSucceeds_reaches _
    · exact .refl s _
  | loadFailure memory =>
    refine .of_guard ?_
    split
    · exact .refl s _
    · exact s.setStation_reaches _
  | sampleClose vane => exact .of_guard (s.closeSample_reaches vane)
  | anemometerPulse => exact .of_ite (fun _ => .refl s _) (fun _ => s.setWind_reaches _)
  | heldTimerExpiry =>
    rw [State.after_heldTimerExpiry]
    split
    · exact s.setWind_reaches _
    · exact .refl s _
    · exact .refl s _
  | dispatchForecast => exact s.dispatch_reaches _ (fun t f => (t.takeForecast_reaches f).mono)
  | yardClockAdvance =>
    rw [State.after_yardClockAdvance]
    split
    · exact .of_guard (s.advanceClock_reaches _)
    · exact .refl s _
  | evaluationTimerExpiry =>
    exact .of_guard (.of_ite (fun _ => (s.setRisk_reaches _).mono)
      (fun _ => (s.setRisk_reaches _).mono.trans (State.startEvaluation_reaches _)))
  | evaluationCompletion weightsFirst =>
    rw [State.after_evaluationCompletion]
    split
    · exact s.complete_reaches _ weightsFirst
    · exact .refl s _
  | overrideExpiry face => exact .of_ite (fun _ => .refl s _) (fun _ => s.setRisk_reaches _)
  | dispatchMonitor => exact s.dispatch_reaches _ (fun t f => (t.takeMonitor_reaches f).mono)
  | monitorSilenceCrossing id =>
    rw [State.after_monitorSilenceCrossing]
    split
    · exact s.monitorFallsSilent_reaches _ _
    · exact .refl s _
  | holdExpiry face => exact .of_guard (s.recomputeEscalation_reaches _)
  | dispatchMachine => exact s.dispatch_reaches _ (fun t f => (t.takeMachine_reaches f).mono)
  | machineStaleCrossing id | machineRemoval id =>
    exact .of_guard (s.setMachines_recomputeMachines_reaches _)
  | dispatchReport => exact s.dispatch_reaches _ (fun t f => (t.takeReport_reaches f).mono)
  | peerStaleCrossing id | peerRemoval id => exact .of_guard (s.setPeerList_shareComputation_reaches _)
  | dispatchPond => exact s.dispatch_reaches _ (fun t f => (t.takePond_reaches f).mono)
  | pondSilenceExpiry => exact .of_guard s.pondFallsSilent_reaches
  | gtNotice => exact .of_guard ((s.setWater_reaches _).mono.trans (State.shareComputation_reaches _))
  | onAim c => exact .of_guard (s.slewEnds_only c).reaches
  | slewTimeout c | valveTimeout c => exact .of_guard (s.faultChannel_only c).reaches
  | valveOpenReport c => exact .of_guard (s.valveOpens_only c).reaches
  | dwellExpiry c => exact .of_guard (s.stepEnd_only c).reaches
  | flowPulse c => exact .of_guard (s.takePulse_reaches c)
  | pressureSample reading => exact .of_guard (s.samplePressure_reaches reading)
  | breakSendEnd =>
    exact .of_guard (.of_ite (fun _ => (s.setLine_reaches _).mono.trans (State.toldOfBreak_reaches _).mono)
      (fun _ => (s.setLine_reaches _).mono))
  | breakHeard => exact .of_guard ((s.setLine_reaches _).mono.trans (State.toldOfBreak_reaches _).mono)
  | idleGapComplete | frameStart | selfSilenceExpiry | startEdge measure | dominantRunEnd =>
    exact .of_guard (s.setLine_reaches _)
  | frameReceived f =>
    rw [State.after_frameReceived]
    split
    · exact .of_guard (s.setLine_deliver_reaches _ f)
    · exact .refl s _
  | arbitrationLost char bit x | clash char bit x => exact .of_guard (s.readPlace_reaches char bit x _)
  | frameSent =>
    rw [State.after_frameSent]
    split
    · exact .of_guard (s.setLine_reaches _)
    · exact .refl s _
  | bitRead x => exact .of_guard (s.readBit_reaches x)
  | dispatchOrderMode => exact s.dispatch_order_reaches 1 (fun t f => (t.obeyMode_reaches f).mono)
  | dispatchOrderBank => exact s.dispatch_order_reaches 2 (fun t f => (t.obeyBank_reaches f).mono)
  | dispatchOrderForce => exact s.dispatch_order_reaches 3 (fun t f => (t.forceOrder_reaches _ _ _).mono)
  | dispatchOrderResume => exact s.dispatch_order_reaches 4 (fun t _ => t.resume_reaches.mono)
  | dispatchOrderZero => exact s.dispatch_order_reaches 5 (fun t _ => t.zeroVolumes_reaches.mono)
  | listeningTimerExpiry => exact .of_guard s.listeningEnds_reaches
  | hushHoldExpiry => exact .of_guard s.endHush_reaches
  | reportTimerExpiry => exact .of_guard s.assembleReport_reaches
  | faultPatternTick =>
    rw [State.after_faultPatternTick]
    split
    · exact s.setStation_reaches _
    · exact .refl s _
  | frameDiscardedAtDispatch =>
    rw [State.after_frameDiscardedAtDispatch]
    split
    · exact .of_ite (fun _ => .refl s _) (fun _ => .of_ite (fun _ => s.takeFree_reaches)
        (fun _ => .of_guard (s.takeFree_reaches.trans (State.setDispatcher_reaches _ _))))
    · exact .refl s _
  | orderIgnored => exact s.dispatch_reaches _ (fun t _ => .refl t _)

/-- No list names the queue of waiting commands. -/
theorem pending_notMem_touched (c : Instr) : Block.pending ∉ touched c := by cases c <;> simp [touched]

theorem State.after_pending (s : State) (c : Instr) : (s.after c).pending = s.pending :=
  s.after_reaches c .pending (pending_notMem_touched c)

/-- Settles O2: every meaning ends in a next state, and no command's reach holds the queue. -/
theorem everyCommandCompletes : Obligations.EveryCommandCompletes :=
  fun c s => ⟨s.after c, exec_eq_after c s, s.after_pending c⟩

/-! ## The step -/

theorem step_nil {s : State} (h : s.pending = []) : step s = .next s.timePasses := by rw [step, h]

theorem step_cons (c : Instr) (rest : List Instr) (s : State) :
    step { s with pending := c :: rest } = exec c { s with pending := rest } := rfl

/-- Settles O1. -/
theorem stepRunsFrontCommand : Obligations.StepRunsFrontCommand := step_cons

/-- A step is a millisecond, or the front command on the state with the rest of the queue. -/
theorem step_cases {s t : State} (h : step s = .next t) :
    t = s.timePasses ∨ ∃ (c : Instr) (rest : List Instr), t = State.after { s with pending := rest } c := by
  unfold step at h
  split at h
  · exact .inl (Host.Outcome.next.inj h).symm
  · exact .inr ⟨_, _, (exec_eq_next_iff.mp h).symm⟩

/-- A property that the waiting commands have no part in, kept by a millisecond and by every command, is kept by every step. -/
theorem step_keeps {P : State → Prop} (pending : ∀ (s : State) (l : List Instr), P s → P { s with pending := l })
    (time : ∀ s, P s → P s.timePasses) (command : ∀ (s : State) (c : Instr), P s → P (s.after c)) {s t : State}
    (hs : P s) (h : step s = .next t) : P t := by
  obtain rfl | ⟨c, rest, rfl⟩ := step_cases h
  · exact time s hs
  · exact command _ c (pending s rest hs)

end Sys2Proof.Machine
end

