-- ==== Sys2Proof/Proofs/SweepReads.lean ====
section
/-! What the sweep engine's readings depend on, what an update of one channel does to the others, and what every operation within the
engine leaves as it was. -/

namespace Sys2Proof.Machine

/-! ## One channel -/

section
variable {s t : State} {c d : Nat} {u : Channel → Channel}

theorem State.channel_eq_of_channels (h : t.sweep.channels = s.sweep.channels) (c : Nat) : t.channel c = s.channel c := by
  rw [State.channel, State.channel, h]

theorem State.channel_of_length_le (h : s.sweep.channels.length ≤ c) : s.channel c = Channel.absent :=
  List.getD_eq_default _ _ h

theorem State.channel_eq_getElem (h : c < s.sweep.channels.length) : s.channel c = s.sweep.channels[c] :=
  List.getD_eq_getElem _ _ h

theorem State.channel_mem (h : c < s.sweep.channels.length) : s.channel c ∈ s.sweep.channels := by
  rw [State.channel_eq_getElem h]
  exact List.getElem_mem h

/-- Every channel of the list stands at a number of its own. -/
theorem State.exists_channel {ch : Channel} (h : ch ∈ s.sweep.channels) :
    ∃ c, c < s.sweep.channels.length ∧ s.channel c = ch := by
  obtain ⟨c, hc, rfl⟩ := List.mem_iff_getElem.mp h
  exact ⟨c, hc, State.channel_eq_getElem hc⟩

theorem State.forall_channel {P : Channel → Prop} :
    (∀ ch ∈ s.sweep.channels, P ch) ↔ ∀ c, c < s.sweep.channels.length → P (s.channel c) := by
  refine ⟨fun h c hc => h _ (State.channel_mem hc), fun h ch hch => ?_⟩
  obtain ⟨c, hc, rfl⟩ := State.exists_channel hch
  exact h c hc

/-- A channel that is not IDLE is one of the station's. -/
theorem State.lt_length_of_state_ne_idle (h : (s.channel c).state ≠ .idle) : c < s.sweep.channels.length := by
  by_contra hc
  rw [State.channel_of_length_le (Nat.le_of_not_lt hc)] at h
  exact h rfl

theorem State.lt_length_of_runs (h : (s.channel c).state.runs = true) : c < s.sweep.channels.length :=
  State.lt_length_of_state_ne_idle (fun k => by rw [k] at h; cases h)

theorem State.lt_length_of_waits (h : (s.channel c).state.waits = true) : c < s.sweep.channels.length :=
  State.lt_length_of_state_ne_idle (fun k => by rw [k] at h; cases h)

theorem ChannelState.waits_eq_false_of_runs {st : ChannelState} (h : st.runs = true) : st.waits = false := by
  cases st with
  | slewing | opening | spraying | dry => rfl
  | idle | waiting | denied | windHeld | faulted | hushed => cases h

theorem ChannelState.runs_iff (st : ChannelState) :
    st.runs = true ↔ st = .slewing ∨ st = .opening ∨ st = .spraying ∨ st = .dry := by cases st <;> decide

theorem ChannelState.waits_iff (st : ChannelState) : st.waits = true ↔ st = .waiting ∨ st = .denied := by
  cases st <;> decide

theorem State.mem_channelNumbers : c ∈ s.channelNumbers ↔ c < s.sweep.channels.length := List.mem_range

theorem State.channelNumbers_nodup (s : State) : s.channelNumbers.Nodup := List.nodup_range

@[simp] theorem State.onChannel_length (s : State) (c : Nat) (u : Channel → Channel) :
    (s.onChannel c u).sweep.channels.length = s.sweep.channels.length := List.length_modify ..

theorem State.channel_onChannel_self (h : c < s.sweep.channels.length) : (s.onChannel c u).channel c = u (s.channel c) := by
  rw [State.channel_eq_getElem (by simpa using h), State.channel_eq_getElem h]
  simp

theorem State.channel_onChannel_of_ne (h : d ≠ c) : (s.onChannel c u).channel d = s.channel d := by
  simp only [State.channel, State.onChannel_channels, List.getD_eq_getElem?_getD, List.getElem?_modify_ne _ _ h.symm]

/-- An update of a number that is no channel of the station's does nothing. -/
theorem State.channel_onChannel_of_le (h : s.sweep.channels.length ≤ c) : (s.onChannel c u).channel d = s.channel d := by
  by_cases hd : d = c
  · subst hd
    rw [State.channel_of_length_le h, State.channel_of_length_le (by simpa using h)]
  · exact State.channel_onChannel_of_ne hd

theorem State.onChannel_eq_set (h : c < s.sweep.channels.length) :
    s.onChannel c u = s.setSweep { s.sweep with channels := s.sweep.channels.set c (u (s.channel c)) } := by
  rw [State.onChannel, List.modify_eq_set_get _ h, State.channel_eq_getElem h]
  rfl

/-- A field that the update leaves is the channel's as it was, whatever channel is updated. -/
theorem State.onChannel_field {α : Type} (p : Channel → α) (hu : ∀ ch, p (u ch) = p ch) (s : State) (c d : Nat) :
    p ((s.onChannel c u).channel d) = p (s.channel d) := by
  obtain hc | hc := Nat.lt_or_ge c s.sweep.channels.length
  · by_cases hd : d = c
    · subst hd
      rw [State.channel_onChannel_self hc, hu]
    · rw [State.channel_onChannel_of_ne hd]
  · rw [State.channel_onChannel_of_le hc]

end

/-! ## What the readings depend on -/

/-- `t` reads as `s`: the configuration, the final levels and the shadow arc states are the same. -/
structure State.ReadsAs (s t : State) : Prop where
  cfg : t.cfg = s.cfg
  levels : ∀ f, t.finalLevel f = s.finalLevel f
  arcs : t.machines.arcs = s.machines.arcs

section
variable {s t u : State} {c : Nat}

theorem State.ReadsAs.refl (s : State) : s.ReadsAs s := ⟨rfl, fun _ => rfl, rfl⟩

theorem State.ReadsAs.trans (h : s.ReadsAs t) (k : t.ReadsAs u) : s.ReadsAs u :=
  ⟨k.cfg.trans h.cfg, fun f => (k.levels f).trans (h.levels f), k.arcs.trans h.arcs⟩

theorem State.ReadsAs.symm (h : s.ReadsAs t) : t.ReadsAs s := ⟨h.cfg.symm, fun f => (h.levels f).symm, h.arcs.symm⟩

theorem State.SweepOnly.readsAs (h : s.SweepOnly t) : s.ReadsAs t :=
  ⟨h.cfg, fun f => by simp only [State.finalLevel, h.risk], by rw [h.machines]⟩

theorem State.ReadsAs.channelCfg (h : s.ReadsAs t) (c : Nat) : t.channelCfg c = s.channelCfg c := by
  rw [State.channelCfg, State.channelCfg, h.cfg]

theorem State.ReadsAs.flow (h : s.ReadsAs t) (c : Nat) : t.flow c = s.flow c := by
  rw [State.flow, State.flow, h.channelCfg]

theorem State.ReadsAs.flowOf (h : s.ReadsAs t) (l : List Grant) : t.flowOf l = s.flowOf l := by
  simp only [State.flowOf, h.flow]

theorem State.ReadsAs.eligible (h : s.ReadsAs t) (g : Leg) : t.eligible g = s.eligible g := by
  rw [State.eligible, State.eligible, h.levels]

theorem State.ReadsAs.inActiveArc (h : s.ReadsAs t) (c a : Nat) : t.inActiveArc c a = s.inActiveArc c a := by
  simp only [State.inActiveArc, State.activeArcs, h.channelCfg, h.arcs]

variable (hb : (t.channel c).bank = (s.channel c).bank)
include hb

theorem State.ReadsAs.plan (h : s.ReadsAs t) : t.plan c = s.plan c := by
  simp only [State.plan, h.channelCfg, hb]

theorem State.ReadsAs.leg (h : s.ReadsAs t) (j : Nat) : t.leg c j = s.leg c j := by
  rw [State.leg, State.leg, h.plan hb]

theorem State.ReadsAs.eligibleFrom (h : s.ReadsAs t) (k : Nat) : t.eligibleFrom c k = s.eligibleFrom c k := by
  simp only [State.eligibleFrom, h.plan hb, h.leg hb, h.eligible]

theorem State.ReadsAs.hasWork (h : s.ReadsAs t) : t.hasWork c = s.hasWork c := by
  rw [State.hasWork, State.hasWork, h.eligibleFrom hb]

/-- A priority depends on the channel's bank and cursor alone, beyond the readings. -/
theorem State.ReadsAs.priority (h : s.ReadsAs t) (hk : (t.channel c).cursor = (s.channel c).cursor) :
    t.priority c = s.priority c := by
  simp only [State.priority, hk, h.leg hb, h.eligibleFrom hb, h.levels]

end

/-- The channel's bank and cursor are as they were: what its legs and its priority are read from. -/
def State.KeepsPlace (s t : State) (c : Nat) : Prop :=
  (t.channel c).bank = (s.channel c).bank ∧ (t.channel c).cursor = (s.channel c).cursor

theorem State.KeepsPlace.of_channels {s t : State} (h : t.sweep.channels = s.sweep.channels) (c : Nat) : s.KeepsPlace t c := by
  rw [State.KeepsPlace, State.channel_eq_of_channels h]
  exact ⟨rfl, rfl⟩

theorem State.KeepsPlace.priority {s t : State} {c : Nat} (k : s.KeepsPlace t c) (h : s.ReadsAs t) :
    t.priority c = s.priority c := h.priority k.1 k.2

/-! ## Legs -/

section
variable {s : State} {c k j : Nat}

theorem State.leg_eq {g : Leg} (h : (s.plan c)[j]? = some g) : s.leg c j = g := by
  rw [State.leg, List.getD_eq_getElem?_getD, h]
  rfl

theorem State.eligible_iff {g : Leg} : s.eligible g = true ↔ g.minimum ≤ (s.finalLevel g.face).num := decide_eq_true_iff

/-- The first eligible leg at or after a place of the plan: what `eligibleFrom` finds. -/
def State.IsFirstEligible (s : State) (plan : List Leg) (start j : Nat) (g : Leg) : Prop :=
  start ≤ j ∧ plan[j]? = some g ∧ s.eligible g = true ∧
    ∀ i h, start ≤ i → i < j → plan[i]? = some h → s.eligible h = false

theorem State.eligibleFrom_eq_some_iff : s.eligibleFrom c k = some j ↔ ∃ g, s.IsFirstEligible (s.plan c) k j g := by
  rw [State.eligibleFrom, List.find?_range_eq_some]
  constructor
  · rintro ⟨hp, hj, hmin⟩
    simp only [Bool.and_eq_true, decide_eq_true_iff] at hp
    have hj : j < (s.plan c).length := List.mem_range.mp hj
    refine ⟨(s.plan c)[j], hp.1, List.getElem?_eq_getElem hj, ?_, fun i h hk hi hget => ?_⟩
    · rw [← State.leg_eq (List.getElem?_eq_getElem hj)]
      exact hp.2
    · have := hmin i hi
      rw [State.leg_eq hget] at this
      simpa [hk] using this
  · rintro ⟨g, hk, hget, he, hmin⟩
    obtain ⟨hj, -⟩ := List.getElem?_eq_some_iff.mp hget
    refine ⟨by rw [State.leg_eq hget, he]; simpa using hk, List.mem_range.mpr hj, fun i hi => ?_⟩
    have hi' : i < (s.plan c).length := hi.trans hj
    by_cases hki : k ≤ i
    · rw [State.leg_eq (List.getElem?_eq_getElem hi'), hmin i _ hki hi (List.getElem?_eq_getElem hi')]
      simp
    · simp [hki]

theorem State.eligibleFrom_eq_none_iff :
    s.eligibleFrom c k = none ↔ ∀ i g, k ≤ i → (s.plan c)[i]? = some g → s.eligible g = false := by
  simp only [State.eligibleFrom, List.find?_eq_none, List.mem_range, Bool.and_eq_true, decide_eq_true_iff, not_and,
    Bool.not_eq_true]
  refine ⟨fun h i g hk hget => ?_, fun h i hi hk => ?_⟩
  · have := h i (List.getElem?_eq_some_iff.mp hget).1 hk
    rwa [State.leg_eq hget] at this
  · rw [State.leg_eq (List.getElem?_eq_getElem hi)]
    exact h i _ hk (List.getElem?_eq_getElem hi)

theorem State.hasWork_iff : s.hasWork c = true ↔ ∃ g ∈ s.plan c, s.eligible g = true := by
  rw [State.hasWork, ← not_iff_not, Bool.not_eq_true, Option.isSome_eq_false_iff, Option.isNone_iff_eq_none,
    State.eligibleFrom_eq_none_iff]
  simp only [not_exists, not_and, Bool.not_eq_true]
  refine ⟨fun h g hg => ?_, fun h i g _ hget => h g (List.mem_of_getElem? hget)⟩
  obtain ⟨i, hi⟩ := List.mem_iff_getElem?.mp hg
  exact h i g (Nat.zero_le i) hi

end

/-! ## Within the sweep engine -/

/-- A move within the sweep engine: nothing outside it moves but the number of G_t notices, which may rise; the number of channels, the
requested bank, the shares and the pressure watch stand. -/
structure State.Within (s t : State) : Prop where
  only : s.SweepOnly t
  length : t.sweep.channels.length = s.sweep.channels.length
  requested : t.sweep.requested = s.sweep.requested
  sR : t.sweep.sR = s.sweep.sR
  sF : t.sweep.sF = s.sweep.sF
  lowRun : t.sweep.lowRun = s.sweep.lowRun
  pressureTimer : t.sweep.pressureTimer = s.sweep.pressureTimer
  notices : s.water.gtNotices ≤ t.water.gtNotices

section
variable {s t u : State}

theorem State.Within.refl (s : State) : s.Within s := ⟨.refl s, rfl, rfl, rfl, rfl, rfl, rfl, le_rfl⟩

theorem State.Within.trans (h : s.Within t) (k : t.Within u) : s.Within u :=
  ⟨h.only.trans k.only, k.length.trans h.length, k.requested.trans h.requested, k.sR.trans h.sR, k.sF.trans h.sF,
    k.lowRun.trans h.lowRun, k.pressureTimer.trans h.pressureTimer, h.notices.trans k.notices⟩

theorem State.Within.of_fold {α : Type} {f : State → α → State} (h : ∀ (s : State) (a : α), State.Within s (f s a))
    (l : List α) (s : State) : s.Within (l.foldl f s) := by
  induction l generalizing s with
  | nil => exact .refl s
  | cons a l ih => exact (h s a).trans (ih (f s a))

theorem State.Within.of_guard {p : Prop} [Decidable p] (h : s.Within t) : s.Within (if p then t else s) := by
  split
  · exact h
  · exact .refl s

theorem State.Within.readsAs (h : s.Within t) : s.ReadsAs t := h.only.readsAs
theorem State.Within.mode (h : s.Within t) : t.station.mode = s.station.mode := by rw [h.only.station]
theorem State.Within.channelNumbers (h : s.Within t) : t.channelNumbers = s.channelNumbers := by
  rw [State.channelNumbers, State.channelNumbers, h.length]

end

section
variable (s : State)

theorem State.onChannel_within (c : Nat) (u : Channel → Channel) : s.Within (s.onChannel c u) :=
  ⟨s.onChannel_only c u, s.onChannel_length c u, rfl, rfl, rfl, rfl, rfl, le_rfl⟩

/-- New lists and as many channels as before. -/
theorem State.setLists_within (channels : List Channel) (grants : List Grant) (waiting : List Nat)
    (h : channels.length = s.sweep.channels.length) :
    s.Within (s.setSweep { s.sweep with channels := channels, grants := grants, waiting := waiting }) :=
  ⟨s.setSweep_only _, h, rfl, rfl, rfl, rfl, rfl, le_rfl⟩

theorem State.noticeGt_within : s.Within s.noticeGt :=
  ⟨s.noticeGt_only, rfl, rfl, rfl, rfl, rfl, rfl, Nat.le_succ _⟩

theorem State.settleWaiting_within (old : State) : s.Within (State.settleWaiting old s) := s.setLists_within _ _ _ rfl
theorem State.settleGrants_within (old : State) : s.Within (State.settleGrants old s) := s.setLists_within _ _ _ rfl
theorem State.settleLists_within (old : State) : s.Within (State.settleLists old s) := s.setLists_within _ _ _ rfl
theorem State.moveToLeg_within (c j : Nat) : s.Within (s.moveToLeg c j) := s.onChannel_within c _
theorem State.moveToNextStep_within (c : Nat) (k : Cursor) : s.Within (s.moveToNextStep c k) := s.onChannel_within c _
theorem State.endPass_within (c : Nat) : s.Within (s.endPass c) := s.onChannel_within c _
theorem State.slewEnds_within (c : Nat) : s.Within (s.slewEnds c) := s.onChannel_within c _
theorem State.valveOpens_within (c : Nat) : s.Within (s.valveOpens c) := s.onChannel_within c _
theorem State.remark_within : s.Within s.remark := s.setLists_within _ _ _ (List.length_mapIdx ..)

theorem State.followFund_within (g : Grant) : s.Within (s.followFund g) := s.onChannel_within g.channel _

theorem State.deriveFunds_within : s.Within s.deriveFunds :=
  (s.setLists_within _ _ _ rfl).trans (.of_fold State.followFund_within _ _)

theorem State.release_within (c : Nat) : s.Within (s.release c) :=
  ((s.setLists_within _ _ _ rfl).trans (State.deriveFunds_within _)).trans (State.noticeGt_within _)

theorem State.advanceCursor_within (c : Nat) : s.Within (s.advanceCursor c) := by
  unfold State.advanceCursor
  split
  · exact s.endPass_within c
  · split
    · exact s.moveToNextStep_within c _
    · split
      · exact s.moveToLeg_within c _
      · exact s.endPass_within c

theorem State.startStep_within (c : Nat) : s.Within (s.startStep c) := by
  unfold State.startStep
  split
  · exact .refl s
  · exact s.onChannel_within c _

theorem State.beginPass_within (c : Nat) : s.Within (s.beginPass c) := by
  unfold State.beginPass
  split
  · exact s.moveToLeg_within c _
  · exact .refl s

theorem State.grant_within (c : Nat) : s.Within (s.grant c) :=
  ((((s.setLists_within _ _ _ rfl).trans (State.followFund_within _ _)).trans (State.noticeGt_within _)).trans
    (State.beginPass_within _ c)).trans (State.startStep_within _ c)

theorem State.scanWalk_within (l : List Nat) : s.Within (s.scanWalk l) :=
  .of_fold (fun t c => .of_guard (p := t.grantable c = true) (t.grant_within c)) l s

theorem State.grantScan_within : s.Within s.grantScan :=
  .of_guard (p := s.station.mode = .auto) ((s.scanWalk_within _).trans (State.remark_within _))

theorem State.revokeLast_within : s.Within s.revokeLast := by
  unfold State.revokeLast
  split
  · exact .refl s
  · exact ((((s.onChannel_within _ _)).trans (State.setLists_within _ _ _ _ rfl)).trans
      (State.deriveFunds_within _)).trans (State.noticeGt_within _)

theorem State.revokeUntilContained_within (n : Nat) : s.Within (State.revokeUntilContained n s) := by
  induction n generalizing s with
  | zero => exact .refl s
  | succ n ih =>
    unfold State.revokeUntilContained
    split
    · exact .refl s
    · exact s.revokeLast_within.trans (ih _)

theorem State.contain_within : s.Within s.contain := s.revokeUntilContained_within _

theorem State.faultChannel_within (c : Nat) : s.Within (s.faultChannel c) :=
  ((s.onChannel_within c _).trans (State.release_within _ c)).trans (State.grantScan_within _)

theorem State.continueStep_within (old : State) (c : Nat) : s.Within (State.continueStep old s c) := by
  unfold State.continueStep
  dsimp only
  generalize hx : (if ((State.settleGrants old s).priority c).num < (old.priority c).num
      then (State.settleGrants old s).contain else State.settleGrants old s) = x
  have hw : s.Within x := by
    rw [← hx]
    split
    · exact (s.settleGrants_within old).trans (State.contain_within _)
    · exact s.settleGrants_within old
  split
  · exact hw
  · exact hw.trans (x.startStep_within c)

theorem State.preemptionRelease_within (c : Nat) : s.Within (s.preemptionRelease c) := by
  unfold State.preemptionRelease
  dsimp only
  refine State.Within.trans ?_ (State.grantScan_within _)
  split
  · exact ((s.onChannel_within c _).trans (State.release_within _ c)).trans (State.setLists_within _ _ _ _ rfl)
  · exact (s.onChannel_within c _).trans (State.release_within _ c)

theorem State.passEnd_within (old : State) (c : Nat) : s.Within (State.passEnd old s c) := by
  unfold State.passEnd
  split
  · exact ((s.onChannel_within c _).trans (State.release_within _ c)).trans (State.grantScan_within _)
  · split
    · exact (((s.onChannel_within c _).trans (State.release_within _ c)).trans (State.setLists_within _ _ _ _ rfl)).trans
        (State.grantScan_within _)
    · exact (s.moveToLeg_within c _).trans (State.continueStep_within _ _ c)

/-- A step's end before the cursor moves: the valve closes and the dwell stops (R124). -/
def State.closeStep (c : Nat) : State := s.onChannel c (fun ch => { ch with valve := false, dwellTimer := none })

theorem State.stepEnd_eq (c : Nat) : s.stepEnd c =
    if (s.channel c).mark then ((s.closeStep c).advanceCursor c).preemptionRelease c
    else if (((s.closeStep c).advanceCursor c).channel c).cursor = none then
      State.passEnd (s.closeStep c) ((s.closeStep c).advanceCursor c) c
    else State.continueStep (s.closeStep c) ((s.closeStep c).advanceCursor c) c := rfl

theorem State.closeStep_within (c : Nat) : s.Within (s.closeStep c) := s.onChannel_within c _

theorem State.stepEnd_within (c : Nat) : s.Within (s.stepEnd c) := by
  rw [State.stepEnd_eq]
  refine ((s.closeStep_within c).trans (State.advanceCursor_within _ c)).trans ?_
  split
  · exact State.preemptionRelease_within _ c
  · split
    · exact State.passEnd_within _ _ c
    · exact State.continueStep_within _ _ c

theorem State.treatCursor_within (c : Nat) : s.Within (s.treatCursor c) := by
  unfold State.treatCursor
  split
  · exact .refl s
  · split
    · exact .refl s
    · split
      · exact s.moveToLeg_within c _
      · exact s.endPass_within c

theorem State.treatLevel_within (c : Nat) : s.Within (s.treatLevel c) := by
  unfold State.treatLevel
  split
  case h_1 => exact .of_guard (s.onChannel_within c _)
  case h_2 | h_3 | h_4 =>
    refine (s.treatCursor_within c).trans ?_
    dsimp only
    split
    · exact .refl _
    · exact State.onChannel_within _ c _
  all_goals exact .refl s

theorem State.levelNotice_within (old : State) : s.Within (State.levelNotice old s) :=
  ((((State.Within.of_fold State.treatLevel_within _ s).trans (State.settleWaiting_within _ old)).trans
    (State.settleGrants_within _ old)).trans (State.contain_within _)).trans (State.grantScan_within _)

theorem State.windTest_within (c : Nat) : s.Within (s.windTest c) := by
  unfold State.windTest
  dsimp only
  split
  · exact s.onChannel_within c _
  · split
    · exact (s.onChannel_within c _).trans (State.release_within _ c)
    · exact .of_guard (s.onChannel_within c _)

theorem State.windHold_within : s.Within s.windHold := by
  have settled : s.Within (State.settleWaiting s (s.channelNumbers.foldl State.windTest s)) :=
    (State.Within.of_fold State.windTest_within _ s).trans (State.settleWaiting_within _ s)
  unfold State.windHold
  dsimp only
  split
  · exact settled.trans (State.grantScan_within _)
  · exact settled

theorem State.activationNotice_within (c : Nat) : s.Within (s.activationNotice c) := by
  unfold State.activationNotice
  dsimp only
  split
  · exact .refl s
  · refine .of_guard ?_
    split
    case h_1 | h_2 | h_3 => exact s.onChannel_within c _
    all_goals exact .refl s

theorem State.bankChannel_within (c : Nat) : s.Within (s.bankChannel c) := by
  unfold State.bankChannel
  dsimp only
  split
  · exact .refl s
  · split
    · exact ((s.onChannel_within c _).trans (State.endPass_within _ c)).trans (State.treatLevel_within _ c)
    · exact s.onChannel_within c _

theorem State.sweepHush_within : s.Within s.sweepHush := by
  have emptied := s.setLists_within (s.sweep.channels.map (Channel.hush s.sweep.requested)) [] [] (List.length_map _)
  unfold State.sweepHush
  dsimp only
  split
  · exact emptied
  · exact emptied.trans (State.noticeGt_within _)

theorem State.wakeChannel_within (c : Nat) : s.Within (s.wakeChannel c) := .of_guard (s.onChannel_within c _)

theorem State.sweepWake_within : s.Within s.sweepWake :=
  ((State.Within.of_fold State.wakeChannel_within _ s).trans (State.settleWaiting_within _ s)).trans
    (State.grantScan_within _)

/-! ## A share hand-over -/

/-- The new shares in the sweep engine, before anything follows from them (R105). -/
def State.withShares (sR sF : Nat) : State := s.setSweep { s.sweep with sR := sR, sF := sF }

/-- A hand-over contains the grants where they stand outside the shrunk shares, and else scans (R129). -/
theorem State.handOver_eq (sR sF : Nat) : s.handOver sR sF =
    if (sR < s.sweep.sR ∨ sF < s.sweep.sF) ∧ (s.withShares sR sF).contained = false then (s.withShares sR sF).contain
    else (s.withShares sR sF).grantScan := by
  simp only [State.handOver, State.withShares, Bool.and_eq_true, Bool.or_eq_true, decide_eq_true_iff, Bool.not_eq_true']
  rfl

theorem State.handOver_within (sR sF : Nat) : (s.withShares sR sF).Within (s.handOver sR sF) := by
  rw [State.handOver_eq]
  split
  · exact State.contain_within _
  · exact State.grantScan_within _

end

end Sys2Proof.Machine
end

