-- ==== Sys2Proof/Proofs/SweepLists.lean ====
section
/-! The grant list and the waiting order: places by priority (R119, R127), funds re-derived, releases, grants and step starts, each with
what it makes of every channel. -/

namespace Sys2Proof.Machine

/-! ## A place in a list by rank -/

section
variable {α : Type} {p : α → Bool} {a : α} {rank : α → Nat}

theorem insert_perm (p : α → Bool) (a : α) (l : List α) : (l.takeWhile p ++ a :: l.dropWhile p).Perm (a :: l) := by
  have h := List.perm_middle (a := a) (l₁ := l.takeWhile p) (l₂ := l.dropWhile p)
  rwa [List.takeWhile_append_dropWhile] at h

/-- A member put before the first of lower rank, or of lower or equal rank, leaves a list in order in order. -/
theorem insert_descends (hp : ∀ d, p d = true → rank a ≤ rank d) (hn : ∀ d, p d = false → rank d ≤ rank a) {l : List α}
    (h : l.Pairwise (fun x y => rank y ≤ rank x)) :
    (l.takeWhile p ++ a :: l.dropWhile p).Pairwise (fun x y => rank y ≤ rank x) := by
  induction l with
  | nil => simp
  | cons x l ih =>
    obtain ⟨hx, hl⟩ := List.pairwise_cons.mp h
    cases hpx : p x with
    | true =>
      rw [List.takeWhile_cons_of_pos hpx, List.dropWhile_cons_of_pos hpx, List.cons_append]
      refine List.pairwise_cons.mpr ⟨fun y hy => ?_, ih hl⟩
      obtain rfl | hy := List.mem_cons.mp ((insert_perm p a l).mem_iff.mp hy)
      · exact hp x hpx
      · exact hx y hy
    | false =>
      rw [List.takeWhile_cons_of_neg (by simp [hpx]), List.dropWhile_cons_of_neg (by simp [hpx]), List.nil_append]
      refine List.pairwise_cons.mpr ⟨fun y hy => ?_, h⟩
      obtain rfl | hy := List.mem_cons.mp hy
      · exact hn y hpx
      · exact (hx y hy).trans (hn x hpx)

end

section
variable (s : State)

theorem State.insertBack_perm (c : Nat) (l : List Nat) : (s.insertBack c l).Perm (c :: l) := insert_perm _ c l
theorem State.insertFront_perm (c : Nat) (l : List Nat) : (s.insertFront c l).Perm (c :: l) := insert_perm _ c l
theorem State.insertGrant_perm (g : Grant) (l : List Grant) : (s.insertGrant g l).Perm (g :: l) := insert_perm _ g l

/-- A list of channels stands in order of priority, highest first (R119). -/
def State.ChannelsDescend (l : List Nat) : Prop := l.Pairwise (fun c d => (s.priority d).num ≤ (s.priority c).num)

/-- A list of grants stands in order of priority, highest first (R127). -/
def State.GrantsDescend (l : List Grant) : Prop :=
  l.Pairwise (fun g h => (s.priority h.channel).num ≤ (s.priority g.channel).num)

theorem State.insertBack_descends (c : Nat) {l : List Nat} (h : s.ChannelsDescend l) : s.ChannelsDescend (s.insertBack c l) :=
  insert_descends (rank := fun d => (s.priority d).num) (fun _ hd => of_decide_eq_true hd)
    (fun _ hd => (Nat.lt_of_not_le (of_decide_eq_false hd)).le) h

theorem State.insertFront_descends (c : Nat) {l : List Nat} (h : s.ChannelsDescend l) :
    s.ChannelsDescend (s.insertFront c l) :=
  insert_descends (rank := fun d => (s.priority d).num) (fun _ hd => (of_decide_eq_true hd).le)
    (fun _ hd => Nat.le_of_not_lt (of_decide_eq_false hd)) h

theorem State.insertGrant_descends (g : Grant) {l : List Grant} (h : s.GrantsDescend l) :
    s.GrantsDescend (s.insertGrant g l) :=
  insert_descends (rank := fun h : Grant => (s.priority h.channel).num) (fun _ hd => of_decide_eq_true hd)
    (fun _ hd => (Nat.lt_of_not_le (of_decide_eq_false hd)).le) h

theorem State.ChannelsDescend.congr {s t : State} {l : List Nat} (h : s.ChannelsDescend l)
    (k : ∀ c ∈ l, t.priority c = s.priority c) : t.ChannelsDescend l :=
  List.Pairwise.imp_of_mem (fun hc hd hle => by rw [k _ hc, k _ hd]; exact hle) h

theorem State.GrantsDescend.congr {s t : State} {l : List Grant} (h : s.GrantsDescend l)
    (k : ∀ g ∈ l, t.priority g.channel = s.priority g.channel) : t.GrantsDescend l :=
  List.Pairwise.imp_of_mem (fun hc hd hle => by rw [k _ hc, k _ hd]; exact hle) h

/-- Only the channels of the grants tell whether a grant list is in order. -/
theorem State.grantsDescend_iff (l : List Grant) : s.GrantsDescend l ↔ s.ChannelsDescend (l.map Grant.channel) := by
  rw [State.ChannelsDescend, List.pairwise_map]
  rfl

end

/-! ## The two lists put in order -/

section
variable {old s : State}

theorem State.foldl_insertBack_perm (s : State) (l move : List Nat) :
    (move.foldl (fun l c => s.insertBack c l) l).Perm (move ++ l) := by
  induction move generalizing l with
  | nil => exact .refl l
  | cons c move ih =>
    calc move.foldl (fun l c => s.insertBack c l) (s.insertBack c l)
      _ |>.Perm (move ++ s.insertBack c l) := ih _
      _ |>.Perm (move ++ c :: l) := (s.insertBack_perm c l).append_left _
      _ |>.Perm (c :: move ++ l) := List.perm_middle

theorem State.foldl_insertBack_descends (s : State) {l : List Nat} (move : List Nat) (h : s.ChannelsDescend l) :
    s.ChannelsDescend (move.foldl (fun l c => s.insertBack c l) l) := by
  induction move generalizing l with
  | nil => exact h
  | cons c move ih => exact ih (s.insertBack_descends c h)

theorem State.foldl_insertGrant_perm (s : State) (l move : List Grant) :
    (move.foldl (fun l g => s.insertGrant g l) l).Perm (move ++ l) := by
  induction move generalizing l with
  | nil => exact .refl l
  | cons c move ih =>
    calc move.foldl (fun l g => s.insertGrant g l) (s.insertGrant c l)
      _ |>.Perm (move ++ s.insertGrant c l) := ih _
      _ |>.Perm (move ++ c :: l) := (s.insertGrant_perm c l).append_left _
      _ |>.Perm (c :: move ++ l) := List.perm_middle

theorem State.foldl_insertGrant_descends (s : State) {l : List Grant} (move : List Grant) (h : s.GrantsDescend l) :
    s.GrantsDescend (move.foldl (fun l g => s.insertGrant g l) l) := by
  induction move generalizing l with
  | nil => exact h
  | cons c move ih => exact ih (s.insertGrant_descends c h)

/-- The members of the waiting order that keep their places (R119). -/
def State.keptWaiting (old s : State) : List Nat :=
  old.sweep.waiting.filter (fun c => (s.channel c).state.waits && decide (s.priority c = old.priority c))

/-- The waiting channels that take the back of their groups (R119). -/
def State.movedWaiting (old s : State) : List Nat :=
  s.channelNumbers.filter (fun c => (s.channel c).state.waits && !(State.keptWaiting old s).contains c)

/-- The grants that keep their places (R127). -/
def State.keptGrants (old s : State) : List Grant :=
  s.sweep.grants.filter (fun g => decide (s.priority g.channel = old.priority g.channel))

/-- The grants that move to the end of their new priority (R127). -/
def State.movedGrants (old s : State) : List Grant :=
  s.channelNumbers.flatMap (fun c => s.sweep.grants.filter
    (fun g => decide (g.channel = c) && !decide (s.priority g.channel = old.priority g.channel)))

theorem State.settleWaiting_eq (old s : State) : State.settleWaiting old s = s.setSweep { s.sweep with
    waiting := (State.movedWaiting old s).foldl (fun l c => s.insertBack c l) (State.keptWaiting old s) } := rfl

theorem State.settleGrants_eq (old s : State) : State.settleGrants old s = s.setSweep { s.sweep with
    grants := (State.movedGrants old s).foldl (fun l g => s.insertGrant g l) (State.keptGrants old s) } := rfl

@[simp] theorem State.settleWaiting_channels : (State.settleWaiting old s).sweep.channels = s.sweep.channels := rfl
@[simp] theorem State.settleWaiting_grants : (State.settleWaiting old s).sweep.grants = s.sweep.grants := rfl
@[simp] theorem State.settleWaiting_channel (c : Nat) : (State.settleWaiting old s).channel c = s.channel c := rfl
@[simp] theorem State.settleGrants_channels : (State.settleGrants old s).sweep.channels = s.sweep.channels := rfl
@[simp] theorem State.settleGrants_waiting : (State.settleGrants old s).sweep.waiting = s.sweep.waiting := rfl
@[simp] theorem State.settleGrants_channel (c : Nat) : (State.settleGrants old s).channel c = s.channel c := rfl
@[simp] theorem State.settleWaiting_priority (c : Nat) : (State.settleWaiting old s).priority c = s.priority c := rfl
@[simp] theorem State.settleGrants_priority (c : Nat) : (State.settleGrants old s).priority c = s.priority c := rfl

theorem State.settleWaiting_waiting_perm :
    (State.settleWaiting old s).sweep.waiting.Perm (State.movedWaiting old s ++ State.keptWaiting old s) :=
  s.foldl_insertBack_perm _ _

/-- After the waiting order is put in order it holds exactly the waiting channels (R119). -/
theorem State.mem_settleWaiting {c : Nat} :
    c ∈ (State.settleWaiting old s).sweep.waiting ↔ (s.channel c).state.waits = true := by
  rw [State.settleWaiting_waiting_perm.mem_iff, List.mem_append, State.movedWaiting, List.mem_filter]
  simp only [Bool.and_eq_true, Bool.not_eq_true', List.contains_eq_mem, decide_eq_false_iff_not]
  constructor
  · rintro (⟨-, h, -⟩ | h)
    · exact h
    · rw [State.keptWaiting, List.mem_filter, Bool.and_eq_true] at h
      exact h.2.1
  · intro h
    by_cases hk : c ∈ State.keptWaiting old s
    · exact .inr hk
    · exact .inl ⟨State.mem_channelNumbers.mpr (State.lt_length_of_waits h), h, hk⟩

theorem State.settleWaiting_nodup (h : old.sweep.waiting.Nodup) : (State.settleWaiting old s).sweep.waiting.Nodup := by
  rw [State.settleWaiting_waiting_perm.nodup_iff, List.nodup_append]
  refine ⟨s.channelNumbers_nodup.filter _, h.filter _, fun a ha b hb hab => ?_⟩
  rw [State.movedWaiting, List.mem_filter] at ha
  simp [hab, hb] at ha

theorem State.settleWaiting_descends (h : old.ChannelsDescend old.sweep.waiting) :
    s.ChannelsDescend (State.settleWaiting old s).sweep.waiting := by
  refine s.foldl_insertBack_descends _ ?_
  refine (State.ChannelsDescend.congr (s := old) (List.Pairwise.filter _ h) (fun c hc => ?_))
  rw [List.mem_filter, Bool.and_eq_true] at hc
  exact of_decide_eq_true hc.2.2

/-- No grant is lost or added when the grant list is put in order (R127). -/
theorem State.settleGrants_perm (h : ∀ g ∈ s.sweep.grants, g.channel < s.sweep.channels.length) :
    (State.settleGrants old s).sweep.grants.Perm s.sweep.grants := by
  have moved : (State.movedGrants old s).Perm (s.sweep.grants.filter
      (fun g => !decide (s.priority g.channel = old.priority g.channel))) := by
    simp only [State.movedGrants, ← List.filter_filter]
    generalize hl : s.sweep.grants.filter (fun g => !decide (s.priority g.channel = old.priority g.channel)) = l
    have hin : ∀ g ∈ l, g.channel < s.sweep.channels.length := fun g hg =>
      h g (List.mem_of_mem_filter (hl ▸ hg))
    clear hl
    induction l with
    | nil => simp
    | cons g l ih =>
      have hg := hin g List.mem_cons_self
      obtain ⟨before, after, hsplit⟩ := List.append_of_mem (State.mem_channelNumbers.mpr hg)
      have hnodup := s.channelNumbers_nodup
      have ih := ih (fun g hg => hin g (List.mem_cons_of_mem _ hg))
      rw [hsplit] at hnodup ih ⊢
      obtain ⟨hb, ha⟩ : g.channel ∉ before ∧ g.channel ∉ after := by
        rw [List.nodup_append] at hnodup
        refine ⟨fun hm => ?_, (List.nodup_cons.mp hnodup.2.1).1⟩
        exact hnodup.2.2 _ hm _ List.mem_cons_self rfl
      have other : ∀ l' : List Nat, g.channel ∉ l' →
          l'.flatMap (fun c => (g :: l).filter (fun g => decide (g.channel = c))) =
            l'.flatMap (fun c => l.filter (fun g => decide (g.channel = c))) := fun l' hl' =>
        List.flatMap_congr (fun c hc => List.filter_cons_of_neg (by simpa using fun h : g.channel = c => hl' (h ▸ hc)))
      rw [List.flatMap_append, List.flatMap_cons, other before hb, other after ha,
        List.filter_cons_of_pos (by simp)]
      rw [List.flatMap_append, List.flatMap_cons] at ih
      exact List.perm_middle.trans (ih.cons g)
  refine (s.foldl_insertGrant_perm _ _).trans ((moved.append_right _).trans ?_)
  exact List.perm_append_comm.trans (List.filter_append_perm _ _)

theorem State.settleGrants_descends (h : old.GrantsDescend s.sweep.grants) :
    s.GrantsDescend (State.settleGrants old s).sweep.grants := by
  refine s.foldl_insertGrant_descends _ ?_
  refine (State.GrantsDescend.congr (s := old) (List.Pairwise.filter _ h) (fun g hg => ?_))
  exact of_decide_eq_true (List.mem_filter.mp hg).2

/-- With every granted priority as it was the grant list stands. -/
theorem State.settleGrants_of_same (h : ∀ g ∈ s.sweep.grants, s.priority g.channel = old.priority g.channel) :
    State.settleGrants old s = s := by
  have kept : State.keptGrants old s = s.sweep.grants :=
    List.filter_eq_self.mpr (fun g hg => decide_eq_true (h g hg))
  have moved : State.movedGrants old s = [] := by
    rw [State.movedGrants, List.flatMap_eq_nil_iff]
    refine fun c _ => List.filter_eq_nil_iff.mpr (fun g hg => ?_)
    simp [h g hg]
  rw [State.settleGrants_eq, kept, moved]
  rfl

end

/-! ## Funds -/

section
variable (s : State)

@[simp] theorem State.fundsFrom_map_channel (before : Nat) (l : List Grant) :
    (s.fundsFrom before l).map Grant.channel = l.map Grant.channel := by
  induction l generalizing before with
  | nil => rfl
  | cons g l ih => simp [State.fundsFrom, ih]

@[simp] theorem State.fundsFrom_length (before : Nat) (l : List Grant) : (s.fundsFrom before l).length = l.length := by
  induction l generalizing before with
  | nil => rfl
  | cons g l ih => simp [State.fundsFrom, ih]

/-- The funds are read from the flows and the reuse share. -/
theorem State.ReadsAs.fundsFrom {s t : State} (h : s.ReadsAs t) (hr : t.sweep.sR = s.sweep.sR) (before : Nat)
    (l : List Grant) : t.fundsFrom before l = s.fundsFrom before l := by
  induction l generalizing before with
  | nil => rfl
  | cons g l ih => simp only [State.fundsFrom, ih, h.flow, hr]

/-- What a grant list's flow is read from: its channels. -/
theorem State.flowOf_eq_of_channels {l l' : List Grant} (h : l'.map Grant.channel = l.map Grant.channel) :
    s.flowOf l' = s.flowOf l := by
  have (l : List Grant) : s.flowOf l = ((l.map Grant.channel).map s.flow).sum := by
    simp [State.flowOf, Function.comp_def]
  rw [this, this, h]

theorem State.flowOf_cons (g : Grant) (l : List Grant) : s.flowOf (g :: l) = s.flow g.channel + s.flowOf l := by
  simp [State.flowOf]

theorem State.flowOf_perm {l l' : List Grant} (h : l.Perm l') : s.flowOf l = s.flowOf l' := (h.map _).sum_eq

theorem State.flowOf_sublist {l l' : List Grant} (h : l.Sublist l') : s.flowOf l ≤ s.flowOf l' :=
  (h.map _).sum_le_sum (by simp)

/-- The fund of each place follows from the flows up to it (R127). -/
theorem State.fundsFrom_getElem? (before : Nat) (l : List Grant) (i : Nat) :
    (s.fundsFrom before l)[i]? = (l[i]?).map (fun g =>
      { g with fund := if s.sweep.sR < before + s.flowOf (l.take (i + 1)) then .fresh else .reuse }) := by
  induction l generalizing before i with
  | nil => simp [State.fundsFrom]
  | cons g l ih =>
    cases i with
    | zero => simp [State.fundsFrom, State.flowOf]
    | succ i =>
      simp only [State.fundsFrom, List.getElem?_cons_succ, ih, List.take_succ_cons, State.flowOf_cons, Nat.add_assoc]

/-- The last grant funds of a list of grants followed. -/
def State.followFunds (l : List Grant) : State := l.foldl State.followFund s

@[simp] theorem State.followFunds_grants (l : List Grant) : (s.followFunds l).sweep.grants = s.sweep.grants := by
  induction l generalizing s with
  | nil => rfl
  | cons g l ih => exact ih (s.followFund g)

@[simp] theorem State.followFunds_waiting (l : List Grant) : (s.followFunds l).sweep.waiting = s.sweep.waiting := by
  induction l generalizing s with
  | nil => rfl
  | cons g l ih => exact ih (s.followFund g)

@[simp] theorem State.followFunds_water (l : List Grant) : (s.followFunds l).water = s.water := by
  induction l generalizing s with
  | nil => rfl
  | cons g l ih => exact ih (s.followFund g)

/-- Following the funds moves no other item of a channel. -/
theorem State.followFunds_field {α : Type} (p : Channel → α) (hp : ∀ ch f, p { ch with lastFund := f } = p ch)
    (l : List Grant) (d : Nat) : p ((s.followFunds l).channel d) = p (s.channel d) := by
  induction l generalizing s with
  | nil => rfl
  | cons g l ih => exact (ih (s.followFund g)).trans (State.onChannel_field p (fun ch => hp ch _) s _ d)

theorem State.followFunds_channel (l : List Grant) (d : Nat) :
    (s.followFunds l).channel d = { s.channel d with lastFund := ((s.followFunds l).channel d).lastFund } := by
  have h := s.followFunds_field (fun ch => { ch with lastFund := none }) (fun _ _ => rfl) l d
  generalize (s.followFunds l).channel d = x at h
  generalize s.channel d = y at h
  cases x
  cases y
  simp only [Channel.mk.injEq] at h ⊢
  tauto

theorem State.followFunds_channel_of_notMem {l : List Grant} {d : Nat} (h : d ∉ l.map Grant.channel) :
    (s.followFunds l).channel d = s.channel d := by
  induction l generalizing s with
  | nil => rfl
  | cons g l ih =>
    rw [List.map_cons, List.mem_cons, not_or] at h
    exact (ih (s.followFund g) h.2).trans (State.channel_onChannel_of_ne h.1)

theorem State.followFunds_lastFund {l : List Grant} {g : Grant} (hn : (l.map Grant.channel).Nodup) (hg : g ∈ l)
    (hc : g.channel < s.sweep.channels.length) : ((s.followFunds l).channel g.channel).lastFund = some g.fund := by
  induction l generalizing s with
  | nil => cases hg
  | cons h l ih =>
    rw [List.map_cons, List.nodup_cons] at hn
    obtain rfl | hg := List.mem_cons.mp hg
    · have := State.followFunds_channel_of_notMem (s.followFund g) hn.1
      rw [show s.followFunds (g :: l) = (s.followFund g).followFunds l from rfl, this, State.followFund,
        State.channel_onChannel_self hc]
    · exact ih (s.followFund h) hn.2 hg (by rwa [State.followFund, State.onChannel_length])

theorem State.deriveFunds_eq : s.deriveFunds =
    (s.setSweep { s.sweep with grants := s.fundsFrom 0 s.sweep.grants }).followFunds (s.fundsFrom 0 s.sweep.grants) := rfl

@[simp] theorem State.deriveFunds_grants : s.deriveFunds.sweep.grants = s.fundsFrom 0 s.sweep.grants := by
  rw [s.deriveFunds_eq, State.followFunds_grants]
  rfl

@[simp] theorem State.deriveFunds_waiting : s.deriveFunds.sweep.waiting = s.sweep.waiting := by
  rw [s.deriveFunds_eq, State.followFunds_waiting]
  rfl

@[simp] theorem State.deriveFunds_water : s.deriveFunds.water = s.water := by
  rw [s.deriveFunds_eq, State.followFunds_water]
  rfl

theorem State.deriveFunds_channel (d : Nat) :
    s.deriveFunds.channel d = { s.channel d with lastFund := (s.deriveFunds.channel d).lastFund } :=
  State.followFunds_channel _ _ d

theorem State.deriveFunds_channel_of_notMem {d : Nat} (h : d ∉ s.sweep.grants.map Grant.channel) :
    s.deriveFunds.channel d = s.channel d :=
  State.followFunds_channel_of_notMem _ (by rwa [State.fundsFrom_map_channel])

theorem State.deriveFunds_lastFund {g : Grant} (hn : (s.sweep.grants.map Grant.channel).Nodup)
    (hg : g ∈ s.fundsFrom 0 s.sweep.grants) (hc : g.channel < s.sweep.channels.length) :
    (s.deriveFunds.channel g.channel).lastFund = some g.fund :=
  State.followFunds_lastFund _ (by rwa [State.fundsFrom_map_channel]) hg hc

/-! ## Releases -/

@[simp] theorem State.release_waiting (c : Nat) : (s.release c).sweep.waiting = s.sweep.waiting := by
  rw [State.release, State.noticeGt_sweep, State.deriveFunds_waiting]
  rfl

theorem State.release_grants (c : Nat) :
    (s.release c).sweep.grants = s.fundsFrom 0 (s.sweep.grants.filter (fun g => g.channel ≠ c)) := by
  rw [State.release, State.noticeGt_sweep, State.deriveFunds_grants]
  refine State.ReadsAs.fundsFrom (State.SweepOnly.readsAs ?_) ?_ 0 _ <;> rfl

theorem State.release_map_channel (c : Nat) : (s.release c).sweep.grants.map Grant.channel =
    (s.sweep.grants.map Grant.channel).filter (fun d => d ≠ c) := by
  rw [State.release_grants, State.fundsFrom_map_channel, List.filter_map]
  rfl

@[simp] theorem State.release_notices (c : Nat) : (s.release c).water.gtNotices = s.water.gtNotices + 1 := by
  rw [State.release, State.noticeGt, State.setWater_water, State.deriveFunds_water]
  rfl

theorem State.release_channel (c d : Nat) :
    (s.release c).channel d = { s.channel d with lastFund := ((s.release c).channel d).lastFund } :=
  State.deriveFunds_channel _ d

/-- The channel released, like every channel without a grant, stays as it was. -/
theorem State.release_channel_of_notMem {c d : Nat} (h : d = c ∨ d ∉ s.sweep.grants.map Grant.channel) :
    (s.release c).channel d = s.channel d := by
  refine State.deriveFunds_channel_of_notMem _ (fun hm => ?_)
  obtain ⟨g, hg, rfl⟩ := List.mem_map.mp hm
  obtain ⟨hg, hne⟩ := List.mem_filter.mp hg
  obtain rfl | h := h
  · exact absurd rfl (of_decide_eq_true hne)
  · exact h (List.mem_map_of_mem hg)

/-! ## Step starts -/

theorem State.startStep_channel_of_ne {c d : Nat} (h : d ≠ c) : (s.startStep c).channel d = s.channel d := by
  unfold State.startStep
  split
  · rfl
  · exact State.channel_onChannel_of_ne h

theorem State.startStep_of_none {c : Nat} (h : (s.channel c).cursor = none) : s.startStep c = s := by
  rw [State.startStep, h]

/-- A channel whose step at cursor `k` has been started (R120). -/
def State.started (c : Nat) (k : Cursor) : Channel :=
  { s.channel c with
    state := .slewing, aim := some ((s.stepAim c k).1, (s.stepAim c k).2.1), bias := (s.stepAim c k).2.2,
    dryFlag := s.inActiveArc c (s.stepAim c k).1, slewTimer := some (seconds (s.channelCfg c).slewTimeout),
    valveTimer := none, dwellTimer := none, valve := false }

theorem State.startStep_eq {c : Nat} {k : Cursor} (h : (s.channel c).cursor = some k) :
    s.startStep c = s.onChannel c (fun ch =>
      { ch with state := .slewing, aim := some ((s.stepAim c k).1, (s.stepAim c k).2.1), bias := (s.stepAim c k).2.2,
                dryFlag := s.inActiveArc c (s.stepAim c k).1, slewTimer := some (seconds (s.channelCfg c).slewTimeout),
                valveTimer := none, dwellTimer := none, valve := false }) := by
  rw [State.startStep, h]

theorem State.startStep_channel {c : Nat} {k : Cursor} (h : (s.channel c).cursor = some k) :
    (s.startStep c).channel c = s.started c k := by
  have hc : c < s.sweep.channels.length := by
    by_contra hc
    rw [State.channel_of_length_le (Nat.le_of_not_lt hc)] at h
    cases h
  rw [s.startStep_eq h, State.channel_onChannel_self hc]
  rfl

@[simp] theorem State.startStep_grants (c : Nat) : (s.startStep c).sweep.grants = s.sweep.grants := by
  unfold State.startStep
  split <;> rfl

@[simp] theorem State.startStep_waiting (c : Nat) : (s.startStep c).sweep.waiting = s.sweep.waiting := by
  unfold State.startStep
  split <;> rfl

@[simp] theorem State.startStep_water (c : Nat) : (s.startStep c).water = s.water := by
  unfold State.startStep
  split <;> rfl

/-- A step start leaves the cursor, the bank and the RING index. -/
theorem State.startStep_keepsPlace (c d : Nat) : s.KeepsPlace (s.startStep c) d := by
  unfold State.startStep
  split
  · exact ⟨rfl, rfl⟩
  · constructor
    · exact State.onChannel_field Channel.bank (by exact fun _ => rfl) s c d
    · exact State.onChannel_field Channel.cursor (by exact fun _ => rfl) s c d

/-! ## Passes begun -/

theorem State.moveToLeg_channel_of_ne {c d : Nat} (j : Nat) (h : d ≠ c) : (s.moveToLeg c j).channel d = s.channel d :=
  State.channel_onChannel_of_ne h

theorem State.moveToLeg_channel {c : Nat} (j : Nat) (h : c < s.sweep.channels.length) :
    (s.moveToLeg c j).channel c = { s.channel c with
      cursor := some ⟨j, 0⟩,
      ringIndex := if (s.leg c j).pattern = .ring then (s.leg c j).a0 else (s.channel c).ringIndex } :=
  State.channel_onChannel_self h

theorem State.beginPass_of_some {c : Nat} {k : Cursor} (h : (s.channel c).cursor = some k) : s.beginPass c = s := by
  rw [State.beginPass, h]

theorem State.beginPass_of_eligible {c j : Nat} (h : (s.channel c).cursor = none) (hj : s.eligibleFrom c 0 = some j) :
    s.beginPass c = s.moveToLeg c j := by
  rw [State.beginPass, h, hj]

theorem State.beginPass_of_none {c : Nat} (hj : s.eligibleFrom c 0 = none) : s.beginPass c = s := by
  rw [State.beginPass, hj]
  split
  · contradiction
  · rfl

theorem State.beginPass_channel_of_ne {c d : Nat} (h : d ≠ c) : (s.beginPass c).channel d = s.channel d := by
  unfold State.beginPass
  split
  · exact s.moveToLeg_channel_of_ne _ h
  · rfl

@[simp] theorem State.beginPass_grants (c : Nat) : (s.beginPass c).sweep.grants = s.sweep.grants := by
  unfold State.beginPass
  split <;> rfl

@[simp] theorem State.beginPass_waiting (c : Nat) : (s.beginPass c).sweep.waiting = s.sweep.waiting := by
  unfold State.beginPass
  split <;> rfl

@[simp] theorem State.beginPass_water (c : Nat) : (s.beginPass c).water = s.water := by
  unfold State.beginPass
  split <;> rfl

/-- A pass begins at a leg whose level was the channel's priority already (R119, R128). -/
theorem State.beginPass_priority (c d : Nat) : (s.beginPass c).priority d = s.priority d := by
  by_cases hd : d = c
  · subst hd
    cases hk : (s.channel d).cursor with
    | some k => rw [s.beginPass_of_some hk]
    | none =>
      cases hj : s.eligibleFrom d 0 with
      | none => rw [s.beginPass_of_none hj]
      | some j =>
        obtain hd | hd := Nat.lt_or_ge d s.sweep.channels.length
        · have hb : ((s.moveToLeg d j).channel d).bank = (s.channel d).bank := by rw [s.moveToLeg_channel j hd]
          rw [s.beginPass_of_eligible hk hj]
          simp only [State.priority, hk, hj, s.moveToLeg_channel j hd, (s.moveToLeg_within d j).readsAs.leg hb,
            (s.moveToLeg_within d j).readsAs.levels]
        · rw [s.beginPass_of_eligible hk hj]
          have same := State.KeepsPlace.priority (s := s) (t := s.moveToLeg d j) (c := d)
          exact same ⟨congrArg _ (State.channel_onChannel_of_le hd), congrArg _ (State.channel_onChannel_of_le hd)⟩
            (s.moveToLeg_within d j).readsAs
  · refine (s.beginPass_within c).readsAs.priority ?_ ?_ <;> rw [s.beginPass_channel_of_ne hd]

/-- A channel with a step to take has a cursor once its pass has begun. -/
theorem State.beginPass_cursor {c : Nat} (h : s.hasStep c = true) (hc : c < s.sweep.channels.length) :
    ∃ k, ((s.beginPass c).channel c).cursor = some k := by
  cases hk : (s.channel c).cursor with
  | some k => exact ⟨k, by rw [s.beginPass_of_some hk, hk]⟩
  | none =>
    have hw : s.hasWork c = true := by simpa [State.hasStep, hk] using h
    obtain ⟨j, hj⟩ := Option.isSome_iff_exists.mp hw
    exact ⟨⟨j, 0⟩, by rw [s.beginPass_of_eligible hk hj, s.moveToLeg_channel j hc]⟩

/-! ## Grants -/

/-- The grant that channel `c` would be given now, with its fund (R127). -/
def State.newGrant (c : Nat) : Grant := ⟨c, if s.granted + s.flow c > s.sweep.sR then .fresh else .reuse⟩

/-- Channel `c` moved from the waiting order to the grant list, its pass not yet begun (R127, R128). -/
def State.enlist (c : Nat) : State :=
  ((s.setSweep { s.sweep with
    waiting := s.sweep.waiting.filter (fun d => d != c),
    grants := s.insertGrant (s.newGrant c) s.sweep.grants }).followFund (s.newGrant c)).noticeGt

theorem State.grant_eq (c : Nat) : s.grant c = ((s.enlist c).beginPass c).startStep c := rfl

theorem State.enlist_within (c : Nat) : s.Within (s.enlist c) :=
  ((s.setLists_within _ _ _ rfl).trans (State.followFund_within _ _)).trans (State.noticeGt_within _)

theorem State.enlist_channel_of_ne {c d : Nat} (h : d ≠ c) : (s.enlist c).channel d = s.channel d :=
  State.channel_onChannel_of_ne h

theorem State.enlist_channel {c : Nat} (h : c < s.sweep.channels.length) :
    (s.enlist c).channel c = { s.channel c with lastFund := some (s.newGrant c).fund } :=
  State.channel_onChannel_self h

theorem State.enlist_field {α : Type} (p : Channel → α) (hp : ∀ ch f, p { ch with lastFund := f } = p ch) (c d : Nat) :
    p ((s.enlist c).channel d) = p (s.channel d) :=
  State.onChannel_field p (fun ch => hp ch _) (s.setSweep _) c d

theorem State.enlist_keepsPlace (c d : Nat) : s.KeepsPlace (s.enlist c) d :=
  ⟨s.enlist_field Channel.bank (fun _ _ => rfl) c d, s.enlist_field Channel.cursor (fun _ _ => rfl) c d⟩

@[simp] theorem State.grant_grants (c : Nat) : (s.grant c).sweep.grants = s.insertGrant (s.newGrant c) s.sweep.grants := by
  rw [State.grant_eq, State.startStep_grants, State.beginPass_grants]
  rfl

@[simp] theorem State.grant_waiting (c : Nat) : (s.grant c).sweep.waiting = s.sweep.waiting.filter (fun d => d != c) := by
  rw [State.grant_eq, State.startStep_waiting, State.beginPass_waiting]
  rfl

@[simp] theorem State.grant_notices (c : Nat) : (s.grant c).water.gtNotices = s.water.gtNotices + 1 := by
  rw [State.grant_eq, State.startStep_water, State.beginPass_water]
  rfl

theorem State.grant_channel_of_ne {c d : Nat} (h : d ≠ c) : (s.grant c).channel d = s.channel d := by
  rw [State.grant_eq, State.startStep_channel_of_ne _ h, State.beginPass_channel_of_ne _ h, s.enlist_channel_of_ne h]

/-- A grant leaves every priority as it was. -/
theorem State.grant_priority (c d : Nat) : (s.grant c).priority d = s.priority d := by
  rw [State.grant_eq, (State.startStep_keepsPlace _ c d).priority (State.startStep_within _ c).readsAs,
    State.beginPass_priority, (s.enlist_keepsPlace c d).priority (s.enlist_within c).readsAs]

theorem State.enlist_hasWork (c d : Nat) : (s.enlist c).hasWork d = s.hasWork d :=
  (s.enlist_within c).readsAs.hasWork (s.enlist_keepsPlace c d).1

theorem State.enlist_hasStep (c d : Nat) : (s.enlist c).hasStep d = s.hasStep d := by
  rw [State.hasStep, State.hasStep, s.enlist_hasWork, (s.enlist_keepsPlace c d).2]

/-- The channel granted stands at the start of a step, of its cursor's or of a pass it begins (R128). -/
theorem State.grant_channel {c : Nat} (h : s.hasStep c = true) (hc : c < s.sweep.channels.length) :
    ∃ k, (((s.enlist c).beginPass c).channel c).cursor = some k ∧ (s.grant c).channel c = ((s.enlist c).beginPass c).started c k := by
  obtain ⟨k, hk⟩ := (s.enlist c).beginPass_cursor (c := c) (by rwa [s.enlist_hasStep]) (by rwa [(s.enlist_within c).length])
  exact ⟨k, hk, by rw [State.grant_eq, State.startStep_channel _ hk]⟩

theorem State.grant_state {c : Nat} (h : s.hasStep c = true) (hc : c < s.sweep.channels.length) :
    ((s.grant c).channel c).state = .slewing := by
  obtain ⟨k, -, hk⟩ := s.grant_channel h hc
  rw [hk]
  rfl

end

end Sys2Proof.Machine
end

