-- ==== Sys2Proof/Proofs/SweepChannels.lean ====
section
/-! A property of every channel, kept by all operations of the sweep engine once it is kept by the few updates that they make of a
channel. -/

namespace Sys2Proof.Machine

/-- Every channel has the property of its number. -/
def State.Each (P : Nat → Channel → Prop) (s : State) : Prop := ∀ c, c < s.sweep.channels.length → P c (s.channel c)

/-- The updates that leave a channel's valve and aim alone, or stop it: funds and marks, a moved cursor, a bank swap, a stop. -/
structure KeepRule (P : Nat → Channel → Prop) : Prop where
  fund : ∀ c ch f, P c ch → P c { ch with lastFund := f }
  mark : ∀ c ch m, P c ch → P c { ch with mark := m }
  place : ∀ c ch k i n, n = ch.laps ∨ n ≤ 65535 → P c ch → P c { ch with cursor := k, ringIndex := i, laps := n }
  bank : ∀ c ch k bk w, P c ch → P c { ch with cursor := k, bank := bk, swapPending := w }
  stop : ∀ c ch st, st.runs = false → P c ch → P c { ch.stopped with state := st }

/-- A property that every update of the sweep engine keeps. `D` tells the azimuths inside active arcs, and `W` is what is left of the
property between the closing of a step's valve and the channel's next state (R124). -/
structure ChannelRule (D : Nat → Nat → Bool) (P W : Nat → Channel → Prop) : Prop where
  keep : KeepRule P
  keepClosed : KeepRule W
  close : ∀ c ch, P c ch → W c { ch with valve := false, dwellTimer := none }
  start : ∀ c ch a e n t, P c ch ∨ W c ch → P c { ch with
    state := .slewing, aim := some (a, e), bias := n, dryFlag := D c a, slewTimer := t, valveTimer := none, dwellTimer := none,
    valve := false }
  stopClosed : ∀ c ch st, st.runs = false → W c ch → P c { ch.stopped with state := st }
  denied : ∀ c ch, ch.state = .denied → W c ch → P c ch
  rest : ∀ c ch st, ch.state.runs = false → st.runs = false → P c ch → P c { ch with state := st }

section
variable {P W : Nat → Channel → Prop} {s : State}

theorem State.Each.of_channels {t : State} (h : s.Each P) (k : t.sweep.channels = s.sweep.channels) : t.Each P := by
  intro c hc
  rw [State.channel_eq_of_channels k]
  exact h c (by rwa [k] at hc)

theorem State.Each.noticeGt (h : s.Each P) : s.noticeGt.Each P := h.of_channels rfl

theorem State.Each.onChannel {c : Nat} {u : Channel → Channel} (h : s.Each P)
    (hu : P c (s.channel c) → P c (u (s.channel c))) : (s.onChannel c u).Each P := by
  intro d hd
  rw [State.onChannel_length] at hd
  by_cases hdc : d = c
  · subst hdc
    rw [State.channel_onChannel_self hd]
    exact hu (h d hd)
  · rw [State.channel_onChannel_of_ne hdc]
    exact h d hd

theorem State.Each.fold {α : Type} {f : State → α → State} (hf : ∀ (t : State) (a : α), t.Each P → (f t a).Each P)
    (l : List α) (h : s.Each P) : (l.foldl f s).Each P := by
  induction l generalizing s with
  | nil => exact h
  | cons a l ih => exact ih (hf s a h)

theorem State.Each.guard {p : Prop} [Decidable p] {t : State} (h : s.Each P) (k : t.Each P) :
    (if p then t else s).Each P := by
  split
  · exact k
  · exact h

/-! ## Updates that keep -/

section
variable (K : KeepRule P)
include K

theorem KeepRule.followFunds (l : List Grant) (h : s.Each P) : (s.followFunds l).Each P :=
  .fold (fun _ _ h => h.onChannel (K.fund _ _ _)) l h

theorem KeepRule.deriveFunds (h : s.Each P) : s.deriveFunds.Each P :=
  K.followFunds _ (h.of_channels (t := s.setSweep _) rfl)

theorem KeepRule.release (c : Nat) (h : s.Each P) : (s.release c).Each P :=
  State.Each.noticeGt (K.deriveFunds (h.of_channels (t := s.setSweep _) rfl))

theorem KeepRule.moveToLeg (c j : Nat) (h : s.Each P) : (s.moveToLeg c j).Each P :=
  h.onChannel (K.place _ _ _ _ _ (.inl rfl))

theorem KeepRule.moveToNextStep (c : Nat) (k : Cursor) (h : s.Each P) : (s.moveToNextStep c k).Each P := by
  refine h.onChannel (fun hP => ?_)
  split
  · refine K.place _ _ _ _ _ ?_ hP
    split
    · exact .inr (Nat.min_le_left _ _)
    · exact .inl rfl
  · exact K.place _ _ _ _ _ (.inl rfl) hP

theorem KeepRule.takeSwap {c : Nat} {ch : Channel} (bk : Bank) (h : P c { ch with cursor := none }) :
    P c ({ ch with cursor := none }.takeSwap bk) := by
  unfold Channel.takeSwap
  split
  · exact K.bank _ _ none _ _ h
  · exact h

theorem KeepRule.endPass (c : Nat) (h : s.Each P) : (s.endPass c).Each P :=
  h.onChannel (fun hP => K.takeSwap _ (K.place _ _ none _ _ (.inl rfl) hP))

theorem KeepRule.advanceCursor (c : Nat) (h : s.Each P) : (s.advanceCursor c).Each P := by
  unfold State.advanceCursor
  split
  · exact K.endPass c h
  · split
    · exact K.moveToNextStep c _ h
    · split
      · exact K.moveToLeg c _ h
      · exact K.endPass c h

theorem KeepRule.revokeLast (h : s.Each P) : s.revokeLast.Each P := by
  unfold State.revokeLast
  split
  · exact h
  · exact State.Each.noticeGt (K.deriveFunds ((h.onChannel (K.stop _ _ .denied rfl)).of_channels (t := State.setSweep _ _) rfl))

theorem KeepRule.revokeUntilContained (n : Nat) (h : s.Each P) : (State.revokeUntilContained n s).Each P := by
  induction n generalizing s with
  | zero => exact h
  | succ n ih =>
    unfold State.revokeUntilContained
    split
    · exact h
    · exact ih (K.revokeLast h)

theorem KeepRule.contain (h : s.Each P) : s.contain.Each P := K.revokeUntilContained _ h

theorem KeepRule.remark (h : s.Each P) : s.remark.Each P := by
  intro c hc
  have hc' : c < s.sweep.channels.length := by rwa [s.remark_within.length] at hc
  have := K.mark c _ (decide (s.preempted = some c)) (h c hc')
  rw [State.channel_eq_getElem hc]
  rw [State.channel_eq_getElem hc'] at this
  simpa [State.remark] using this

theorem KeepRule.beginPass (c : Nat) (h : s.Each P) : (s.beginPass c).Each P := by
  unfold State.beginPass
  split
  · exact K.moveToLeg c _ h
  · exact h

theorem KeepRule.treatCursor (c : Nat) (h : s.Each P) : (s.treatCursor c).Each P := by
  unfold State.treatCursor
  split
  · exact h
  · split
    · exact h
    · split
      · exact K.moveToLeg c _ h
      · exact K.endPass c h

end

/-! ## All updates -/

section
variable {D : Nat → Nat → Bool} (R : ChannelRule D P W)
include R

theorem ChannelRule.startStep (c : Nat) (hD : s.inActiveArc = D) (h : s.Each P) : (s.startStep c).Each P := by
  unfold State.startStep
  split
  · exact h
  · dsimp only
    rw [hD]
    exact h.onChannel (fun hP => R.start _ _ _ _ _ _ (.inl hP))

theorem ChannelRule.grant (c : Nat) (hD : s.inActiveArc = D) (h : s.Each P) : (s.grant c).Each P := by
  rw [State.grant_eq]
  have enlisted : (s.enlist c).Each P :=
    State.Each.of_channels ((h.of_channels (t := s.setSweep _) rfl).onChannel (R.keep.fund _ _ _)) rfl
  have reads := ((s.enlist_within c).trans (State.beginPass_within _ c)).readsAs
  exact R.startStep c (by rw [← hD]; exact funext₂ reads.inActiveArc) (R.keep.beginPass c enlisted)

theorem ChannelRule.scanWalk (l : List Nat) (hD : s.inActiveArc = D) (h : s.Each P) : (s.scanWalk l).Each P := by
  induction l generalizing s with
  | nil => exact h
  | cons c l ih =>
    show (State.scanWalk (if s.grantable c then s.grant c else s) l).Each P
    split
    · exact ih (by rw [← hD]; exact funext₂ (s.grant_within c).readsAs.inActiveArc) (R.grant c hD h)
    · exact ih hD h

theorem ChannelRule.grantScan (hD : s.inActiveArc = D) (h : s.Each P) : s.grantScan.Each P := by
  unfold State.grantScan
  split
  · exact R.keep.remark (R.scanWalk _ hD h)
  · exact h

/-- What an operation makes of a state within which the arcs stand can be followed by a scan. -/
theorem ChannelRule.scanAfter {t : State} (hD : s.inActiveArc = D) (hw : s.Within t) (h : t.Each P) : t.grantScan.Each P :=
  R.grantScan (by rw [← hD]; exact funext₂ hw.readsAs.inActiveArc) h

theorem ChannelRule.handOver (sR sF : Nat) (hD : s.inActiveArc = D) (h : s.Each P) : (s.handOver sR sF).Each P := by
  have shared : (s.withShares sR sF).Each P := h.of_channels rfl
  rw [State.handOver_eq]
  split
  · exact R.keep.contain shared
  · exact R.grantScan (by rw [← hD]; exact funext₂ (s.setSweep_only _).readsAs.inActiveArc) shared

theorem ChannelRule.faultChannel (c : Nat) (hD : s.inActiveArc = D) (h : s.Each P) : (s.faultChannel c).Each P :=
  R.scanAfter hD ((s.onChannel_within c _).trans (State.release_within _ c))
    (R.keep.release c (h.onChannel (R.keep.stop _ _ .faulted rfl)))

theorem ChannelRule.treatLevel (c : Nat) (h : s.Each P) : (s.treatLevel c).Each P := by
  have rested {t : State} (st : ChannelState) (ht : t.Each P) (hs : (t.channel c).state.runs = false) (hst : st.runs = false) :
      (t.onChannel c (fun ch => { ch with state := st })).Each P := ht.onChannel (R.rest _ _ _ hs hst)
  have joins : (s.joinState c).runs = false := by unfold State.joinState; split <;> rfl
  have treated (hs : (s.channel c).state.runs = false) : ((s.treatCursor c).channel c).state.runs = false := by
    rw [← hs]
    unfold State.treatCursor State.moveToLeg State.endPass
    split
    · rfl
    · split
      · rfl
      · split
        · exact congrArg _ (State.onChannel_field Channel.state (by exact fun _ => rfl) s c c)
        · refine congrArg _ (State.onChannel_field Channel.state (fun ch => ?_) s c c)
          unfold Channel.takeSwap
          split <;> rfl
  unfold State.treatLevel
  split
  case h_1 hs => exact h.guard (rested _ h (by rw [hs]; rfl) joins)
  case h_2 hs | h_3 hs | h_4 hs =>
    dsimp only
    split
    · exact R.keep.treatCursor c h
    · exact rested .idle (R.keep.treatCursor c h) (treated (by rw [hs]; rfl)) rfl
  all_goals exact h

theorem ChannelRule.levelNotice (old : State) (hD : s.inActiveArc = D) (h : s.Each P) : (State.levelNotice old s).Each P := by
  have treated := State.Each.fold (fun t c => R.treatLevel (s := t) c) s.channelNumbers h
  refine R.scanAfter hD ?_ (R.keep.contain (treated.of_channels (t := State.settleGrants old (State.settleWaiting old _)) rfl))
  exact (((State.Within.of_fold State.treatLevel_within _ s).trans (State.settleWaiting_within _ old)).trans
    (State.settleGrants_within _ old)).trans (State.contain_within _)

theorem ChannelRule.windTest (c : Nat) (h : s.Each P) : (s.windTest c).Each P := by
  unfold State.windTest
  dsimp only
  split
  · exact h.onChannel (R.keep.stop _ _ .windHeld rfl)
  · split
    · exact R.keep.release c (h.onChannel (R.keep.stop _ _ .windHeld rfl))
    · split
      · rename_i hs
        refine h.onChannel (R.rest _ _ _ (by rw [hs.1]; rfl) ?_)
        split <;> rfl
      · exact h

theorem ChannelRule.windHold (hD : s.inActiveArc = D) (h : s.Each P) : s.windHold.Each P := by
  have tested := State.Each.fold (fun t c => R.windTest (s := t) c) s.channelNumbers h
  have settled : (State.settleWaiting s (s.channelNumbers.foldl State.windTest s)).Each P := tested.of_channels rfl
  unfold State.windHold
  dsimp only
  split
  · exact R.scanAfter hD ((State.Within.of_fold State.windTest_within _ s).trans (State.settleWaiting_within _ s)) settled
  · exact settled

theorem ChannelRule.bankChannel (c : Nat) (h : s.Each P) : (s.bankChannel c).Each P := by
  have pended : (s.onChannel c (fun ch => { ch with swapPending := decide (ch.bank ≠ s.sweep.requested) })).Each P :=
    h.onChannel (R.keep.bank _ _ _ _ _)
  unfold State.bankChannel
  split
  · exact h
  · dsimp only
    split
    · exact R.treatLevel c (R.keep.endPass c pended)
    · exact pended

theorem ChannelRule.bankOrder (bk : Bank) (hD : s.inActiveArc = D) (h : s.Each P) : (s.bankOrder bk).Each P := by
  have banked := State.Each.fold (fun t c => R.bankChannel (s := t) c)
    (s.setSweep { s.sweep with requested := bk }).channelNumbers (h.of_channels (t := s.setSweep { s.sweep with requested := bk }) rfl)
  have settled := banked.of_channels (t := State.settleWaiting s _) rfl
  unfold State.bankOrder
  dsimp only
  split
  · refine R.grantScan ?_ settled
    rw [← hD]
    exact funext₂ (((s.setSweep_only _).trans (State.Within.of_fold State.bankChannel_within _ _).only).trans
      (State.settleWaiting_only s _)).readsAs.inActiveArc
  · exact settled

theorem ChannelRule.sweepHush (h : s.Each P) : s.sweepHush.Each P := by
  have hushed : (s.setSweep { s.sweep with
      channels := s.sweep.channels.map (Channel.hush s.sweep.requested), grants := [], waiting := [] }).Each P := by
    intro c hc
    have hc' : c < s.sweep.channels.length := by simpa using hc
    have hP := h c hc'
    rw [State.channel_eq_getElem hc'] at hP
    rw [State.channel_eq_getElem hc]
    simp only [State.setSweep_sweep, List.getElem_map, Channel.hush]
    split
    · exact hP
    · exact R.keep.takeSwap _ (R.keep.bank c _ none _ _ (R.keep.stop _ _ .hushed rfl hP))
  unfold State.sweepHush
  dsimp only
  split
  · exact hushed
  · exact hushed.of_channels rfl

theorem ChannelRule.wakeChannel (c : Nat) (h : s.Each P) : (s.wakeChannel c).Each P := by
  unfold State.wakeChannel
  split
  · rename_i hs
    refine h.onChannel (R.rest _ _ _ (by rw [hs]; rfl) ?_)
    unfold State.joinState
    split
    · split <;> rfl
    · rfl
  · exact h

theorem ChannelRule.sweepWake (hD : s.inActiveArc = D) (h : s.Each P) : s.sweepWake.Each P :=
  R.scanAfter hD ((State.Within.of_fold State.wakeChannel_within _ s).trans (State.settleWaiting_within _ s))
    ((State.Each.fold (fun t c => R.wakeChannel (s := t) c) s.channelNumbers h).of_channels
      (t := State.settleWaiting s _) rfl)

theorem ChannelRule.changeMode (m : Mode) (hD : s.inActiveArc = D) (h : s.Each P) : (s.changeMode m).Each P := by
  have moded : (s.setStation { s.station with mode := m }).Each P := h.of_channels rfl
  unfold State.changeMode
  dsimp only
  split
  · exact R.sweepWake hD moded
  · exact R.sweepHush moded

end

/-! ## The end of a step -/

/-- The property with its weaker form at the channel whose valve has just closed. -/
def closedAt (P W : Nat → Channel → Prop) (c d : Nat) (ch : Channel) : Prop := if d = c then W d ch else P d ch

/-- An update of the channel closed that brings the property back there. -/
theorem State.Each.restored {c : Nat} {t : State} (h : s.Each (closedAt P W c)) (hl : t.sweep.channels.length = s.sweep.channels.length)
    (other : ∀ d, d ≠ c → t.channel d = s.channel d)
    (self : c < s.sweep.channels.length → W c (s.channel c) → P c (t.channel c)) : t.Each P := by
  intro d hd
  rw [hl] at hd
  have hP := h d hd
  unfold closedAt at hP
  by_cases hdc : d = c
  · subst hdc
    rw [if_pos rfl] at hP
    exact self hd hP
  · rw [if_neg hdc] at hP
    rwa [other d hdc]

section
variable {D : Nat → Nat → Bool} (R : ChannelRule D P W)
include R

theorem ChannelRule.keepClosedAt (c : Nat) : KeepRule (closedAt P W c) where
  fund d ch f := by unfold closedAt; split; exacts [R.keepClosed.fund d ch f, R.keep.fund d ch f]
  mark d ch m := by unfold closedAt; split; exacts [R.keepClosed.mark d ch m, R.keep.mark d ch m]
  place d ch k i n hn := by unfold closedAt; split; exacts [R.keepClosed.place d ch k i n hn, R.keep.place d ch k i n hn]
  bank d ch k bk w := by unfold closedAt; split; exacts [R.keepClosed.bank d ch k bk w, R.keep.bank d ch k bk w]
  stop d ch st hst := by unfold closedAt; split; exacts [R.keepClosed.stop d ch st hst, R.keep.stop d ch st hst]

theorem ChannelRule.closeStep (c : Nat) (h : s.Each P) : (s.closeStep c).Each (closedAt P W c) := by
  intro d hd
  have hd' : d < s.sweep.channels.length := by rwa [(s.closeStep_within c).length] at hd
  unfold closedAt
  split
  · rename_i hdc
    subst hdc
    rw [State.closeStep, State.channel_onChannel_self hd']
    exact R.close _ _ (h d hd')
  · rename_i hdc
    rw [State.closeStep, State.channel_onChannel_of_ne hdc]
    exact h d hd'

theorem ChannelRule.startStepClosed {c : Nat} {k : Cursor} (hD : s.inActiveArc = D) (hk : (s.channel c).cursor = some k)
    (h : s.Each (closedAt P W c)) : (s.startStep c).Each P := by
  refine h.restored (s.startStep_within c).length (fun d hd => s.startStep_channel_of_ne hd) (fun _ hW => ?_)
  rw [s.startStep_channel hk, State.started, hD]
  exact R.start _ _ _ _ _ _ (.inr hW)

theorem ChannelRule.stoppedClosed {c : Nat} (st : ChannelState) (hst : st.runs = false) (h : s.Each (closedAt P W c)) :
    (s.onChannel c (fun ch => { ch.stopped with state := st })).Each P := by
  refine h.restored (s.onChannel_length c _) (fun d hd => State.channel_onChannel_of_ne hd) (fun hc hW => ?_)
  rw [State.channel_onChannel_self hc]
  exact R.stopClosed _ _ _ hst hW

end

/-! ## A cursor kept -/

/-- A containment leaves every cursor. -/
theorem State.contain_cursor (s : State) (c : Nat) : (s.contain.channel c).cursor = (s.channel c).cursor := by
  unfold State.contain
  generalize s.sweep.grants.length = n
  induction n generalizing s with
  | zero => rfl
  | succ n ih =>
    unfold State.revokeUntilContained
    split
    · rfl
    · rw [ih]
      unfold State.revokeLast
      split
      · rfl
      · refine (congrArg Channel.cursor (State.deriveFunds_channel _ c)).trans ?_
        exact State.onChannel_field Channel.cursor (by exact fun _ => rfl) s _ c

section
variable {D : Nat → Nat → Bool} (R : ChannelRule D P W)
include R

theorem ChannelRule.continueStep {old : State} {c : Nat} {k : Cursor} (hD : s.inActiveArc = D)
    (hk : (s.channel c).cursor = some k) (h : s.Each (closedAt P W c)) : (State.continueStep old s c).Each P := by
  unfold State.continueStep
  dsimp only
  generalize hx : (if ((State.settleGrants old s).priority c).num < (old.priority c).num
      then (State.settleGrants old s).contain else State.settleGrants old s) = x
  have settled : (State.settleGrants old s).Each (closedAt P W c) := h.of_channels rfl
  obtain ⟨within, kept, cursor⟩ : s.Within x ∧ x.Each (closedAt P W c) ∧ (x.channel c).cursor = some k := by
    rw [← hx]
    split
    · refine ⟨(s.settleGrants_within old).trans (State.contain_within _), (R.keepClosedAt c).contain settled, ?_⟩
      rw [State.contain_cursor]
      exact hk
    · exact ⟨s.settleGrants_within old, settled, hk⟩
  split
  · rename_i hdenied
    exact kept.restored rfl (fun _ _ => rfl) (fun _ hW => R.denied _ _ hdenied hW)
  · exact R.startStepClosed (by rw [← hD]; exact funext₂ within.readsAs.inActiveArc) cursor kept

theorem ChannelRule.preemptionRelease {c : Nat} (hD : s.inActiveArc = D) (h : s.Each (closedAt P W c)) :
    (s.preemptionRelease c).Each P := by
  have released (st : ChannelState) (hst : st.runs = false) :=
    R.keep.release c (R.stoppedClosed st hst h)
  unfold State.preemptionRelease
  dsimp only
  split
  · refine R.scanAfter hD ?_ ((released _ rfl).of_channels (t := State.setSweep _ _) rfl)
    exact ((s.onChannel_within c _).trans (State.release_within _ c)).trans (State.setLists_within _ _ _ _ rfl)
  · exact R.scanAfter hD ((s.onChannel_within c _).trans (State.release_within _ c)) (released _ rfl)

theorem ChannelRule.passEnd {old : State} {c : Nat} (hD : s.inActiveArc = D) (hc : c < s.sweep.channels.length)
    (h : s.Each (closedAt P W c)) : (State.passEnd old s c).Each P := by
  have released (st : ChannelState) (hst : st.runs = false) :=
    R.keep.release c (R.stoppedClosed st hst h)
  unfold State.passEnd
  split
  · exact R.scanAfter hD ((s.onChannel_within c _).trans (State.release_within _ c)) (released .idle rfl)
  · rename_i j hj
    split
    · refine R.scanAfter hD ?_ ((released .waiting rfl).of_channels (t := State.setSweep _ _) rfl)
      exact ((s.onChannel_within c _).trans (State.release_within _ c)).trans (State.setLists_within _ _ _ _ rfl)
    · refine R.continueStep (k := ⟨j, 0⟩) ?_ ?_ ((R.keepClosedAt c).moveToLeg c j h)
      · rw [← hD]
        exact funext₂ (s.moveToLeg_within c j).readsAs.inActiveArc
      · rw [s.moveToLeg_channel j hc]

theorem ChannelRule.stepEnd {c : Nat} (hD : s.inActiveArc = D) (hc : c < s.sweep.channels.length) (h : s.Each P) :
    (s.stepEnd c).Each P := by
  have advanced := (R.keepClosedAt c).advanceCursor c (R.closeStep c h)
  have within := (s.closeStep_within c).trans (State.advanceCursor_within _ c)
  have hD' : ((s.closeStep c).advanceCursor c).inActiveArc = D := by
    rw [← hD]
    exact funext₂ within.readsAs.inActiveArc
  rw [State.stepEnd_eq]
  split
  · exact R.preemptionRelease hD' advanced
  · split
    · exact R.passEnd hD' (by rwa [within.length]) advanced
    · rename_i hsome
      obtain ⟨k, hk⟩ := Option.ne_none_iff_exists'.mp hsome
      exact R.continueStep hD' hk advanced

end

end

end Sys2Proof.Machine
end

