-- ==== Sys2Proof/Proofs/SweepMoves.lean ====
section
/-! Every step as the sweep engine sees it: a chain of the engine's own events and of changes elsewhere that it does not read. -/

namespace Sys2Proof.Machine

/-- To the sweep engine `t` stands as `s`: the readings, the channels, the lists, the shares, and whether the mode is AUTO; the low run
of the pressure watch may have moved within its range (R137). -/
structure State.Alike (s t : State) : Prop where
  reads : s.ReadsAs t
  channels : t.sweep.channels = s.sweep.channels
  grants : t.sweep.grants = s.sweep.grants
  waiting : t.sweep.waiting = s.sweep.waiting
  requested : t.sweep.requested = s.sweep.requested
  sR : t.sweep.sR = s.sweep.sR
  sF : t.sweep.sF = s.sweep.sF
  lowRun : s.sweep.lowRun ≤ 2 → t.sweep.lowRun ≤ 2
  auto : t.station.mode = .auto ↔ s.station.mode = .auto

/-- What a step can do, as seen from the sweep engine. -/
inductive State.Moves : State → State → Prop
  | stays {s t : State} (h : s.Alike t) : Moves s t
  | trans {s t u : State} (h : Moves s t) (k : Moves t u) : Moves s u
  | time (s : State) : Moves s s.blocksPassTime
  | reset (s : State) : Moves s s.inReset
  | load (s : State) (cfg : StationCfg) : Moves s (s.loadSucceeds cfg)
  | handOver (s : State) (sR sF : Nat) : Moves s (s.handOver sR sF)
  | completion (s : State) (snap : Snapshot) (weightsFirst : Bool) : Moves s (s.complete snap weightsFirst)
  | windHold (s : State) : Moves s s.windHold
  | recomputation (s : State) : Moves s s.recomputeMachines
  | slewEnds {s : State} {c : Nat} (h : (s.channel c).state = .slewing) : Moves s (s.slewEnds c)
  | valveOpens {s : State} {c : Nat} (h : (s.channel c).state = .opening) : Moves s (s.valveOpens c)
  | fault {s : State} {c : Nat} (h : (s.channel c).state.runs = true) : Moves s (s.faultChannel c)
  | stepEnd {s : State} {c : Nat} (h : (s.channel c).state = .spraying ∨ (s.channel c).state = .dry) : Moves s (s.stepEnd c)
  | changeMode (s : State) (m : Mode) : Moves s (s.changeMode m)
  | bankOrder (s : State) (requested : Bank) : Moves s (s.bankOrder requested)

/-! ## Changes that the sweep engine does not read -/

section
variable {s t : State}

theorem State.Alike.refl (s : State) : s.Alike s := ⟨.refl s, rfl, rfl, rfl, rfl, rfl, rfl, id, Iff.rfl⟩

theorem State.Moves.refl (s : State) : s.Moves s := .stays (.refl s)

/-- A change outside the configuration, the station, the final levels, the machine unit and the sweep engine. -/
theorem State.Reaches.alike {bs : List Block} (h : State.Reaches bs s t)
    (hb : .cfg ∉ bs ∧ .station ∉ bs ∧ .risk ∉ bs ∧ .machines ∉ bs ∧ .sweep ∉ bs := by decide) : s.Alike t := by
  obtain ⟨cfg, station, risk, machines, sweep⟩ := hb
  have hsweep : t.sweep = s.sweep := h .sweep sweep
  have hstation : t.station = s.station := h .station station
  have hrisk : t.risk = s.risk := h .risk risk
  have hmachines : t.machines = s.machines := h .machines machines
  refine ⟨⟨h .cfg cfg, fun f => ?_, congrArg Machines.arcs hmachines⟩, congrArg Sweep.channels hsweep, congrArg Sweep.grants hsweep,
    congrArg Sweep.waiting hsweep, congrArg Sweep.requested hsweep, congrArg Sweep.sR hsweep, congrArg Sweep.sF hsweep,
    (congrArg Sweep.lowRun hsweep).trans_le, ?_⟩
  · rw [State.finalLevel, State.finalLevel, hrisk]
  · rw [hstation]

/-- Changes outside the blocks that the sweep engine reads. -/
theorem State.Reaches.moves {bs : List Block} (h : State.Reaches bs s t)
    (hb : .cfg ∉ bs ∧ .station ∉ bs ∧ .risk ∉ bs ∧ .machines ∉ bs ∧ .sweep ∉ bs := by decide) : s.Moves t :=
  .stays (h.alike hb)

theorem State.setStation_alike (s : State) {x : Station} (h : x.mode = .auto ↔ s.station.mode = .auto) :
    s.Alike (s.setStation x) := ⟨⟨rfl, fun _ => rfl, rfl⟩, rfl, rfl, rfl, rfl, rfl, rfl, id, h⟩

theorem State.setStation_moves (s : State) {x : Station} (h : x.mode = s.station.mode) : s.Moves (s.setStation x) :=
  .stays (s.setStation_alike (by rw [h]))

/-- The readings stand where every face record keeps its final level. -/
theorem State.finalLevel_of_faces {l : List FaceRecord} (h : l.map FaceRecord.level = s.risk.faces.map FaceRecord.level)
    (x : Risk) (hx : x.faces = l) (f : Nat) : (s.setRisk x).finalLevel f = s.finalLevel f := by
  have key : (x.faces[f - 1]?).map FaceRecord.level = (s.risk.faces[f - 1]?).map FaceRecord.level := by
    rw [hx, ← List.getElem?_map, ← List.getElem?_map, h]
  unfold State.finalLevel
  exact if_congr Iff.rfl rfl (congrArg (Option.getD · Level.quiet) key)

theorem State.setRisk_alike (s : State) {x : Risk} (h : x.faces.map FaceRecord.level = s.risk.faces.map FaceRecord.level) :
    s.Alike (s.setRisk x) :=
  ⟨⟨rfl, State.finalLevel_of_faces h x rfl, rfl⟩, rfl, rfl, rfl, rfl, rfl, rfl, id, Iff.rfl⟩

/-- An update of one face that leaves its final level. -/
theorem map_level_modify (l : List FaceRecord) (i : Nat) {u : FaceRecord → FaceRecord} (hu : ∀ r, (u r).level = r.level) :
    (l.modify i u).map FaceRecord.level = l.map FaceRecord.level := by
  apply List.ext_getElem?
  intro j
  rw [List.getElem?_map, List.getElem?_map, List.getElem?_modify]
  split
  · cases l[j]? with
    | none => rfl
    | some r => exact congrArg some (hu r)
  · exact congrArg _ (id_map _)

theorem State.setMachines_alike (s : State) {x : Machines} (h : x.arcs = s.machines.arcs) : s.Alike (s.setMachines x) :=
  ⟨⟨rfl, fun _ => rfl, h⟩, rfl, rfl, rfl, rfl, rfl, rfl, id, Iff.rfl⟩

end

/-! ## The blocks' operations -/

section
variable (s : State)

theorem State.shareComputation_moves : s.Moves s.shareComputation :=
  .trans ((s.setWater_reaches _).moves) (.handOver _ _ _)

theorem State.setWater_shareComputation_moves (x : Water) : s.Moves (s.setWater x).shareComputation :=
  .trans ((s.setWater_reaches x).moves) (State.shareComputation_moves _)

theorem State.setPeerList_shareComputation_moves (l : List Peer) : s.Moves (s.setPeerList l).shareComputation :=
  .trans (s.setPeerList_reaches l).moves (State.shareComputation_moves _)

theorem State.setMachines_recomputeMachines_moves {x : Machines} (h : x.arcs = s.machines.arcs) :
    s.Moves (s.setMachines x).recomputeMachines := .trans (.stays (s.setMachines_alike h)) (.recomputation _)

theorem State.Moves.of_guard {t : State} {p : Prop} [Decidable p] (h : p → s.Moves t) : s.Moves (if p then t else s) := by
  split
  next hp => exact h hp
  next => exact .refl s

theorem State.takePond_moves (f : Frame) : s.Moves (s.takePond f) :=
  .of_guard s (fun _ => s.setWater_shareComputation_moves _)

theorem State.takeReport_moves (f : Frame) : s.Moves (s.takeReport f) := by
  unfold State.takeReport
  dsimp only
  split
  · split
    · split
      · exact s.setPeerList_shareComputation_moves _
      · exact (s.setPeerList_reaches _).moves
    · split
      · exact s.setPeerList_shareComputation_moves _
      · split
        · exact s.setPeerList_shareComputation_moves _
        · exact (s.setPeers_reaches _).moves
  · exact .refl s

theorem State.takeMachine_moves (f : Frame) : s.Moves (s.takeMachine f) := by
  unfold State.takeMachine State.withMachine
  dsimp only
  split
  · split
    · exact s.setMachines_recomputeMachines_moves rfl
    · split
      · exact s.setMachines_recomputeMachines_moves rfl
      · exact .stays (s.setMachines_alike rfl)
  · exact .refl s

theorem State.startEvaluation_moves : s.Moves s.startEvaluation :=
  .trans (.stays (s.setRisk_alike (by simp [Function.comp_def, FaceRecord.dropExpired])))
    (.trans (State.selectForecast_reaches _).moves (.stays (State.setRisk_alike _ rfl)))

theorem State.forceOrder_moves (face level minutes : Nat) : s.Moves (s.forceOrder face level minutes) := by
  unfold State.forceOrder
  split
  · exact .refl s
  · split
    · exact .stays (s.setRisk_alike (map_level_modify _ _ (fun _ => rfl)))
    · split
      · exact .stays (s.setRisk_alike (map_level_modify _ _ (fun _ => rfl)))
      · exact .refl s

theorem State.takePulse_moves (c : Nat) : s.Moves (s.takePulse c) := by
  have volume : s.Moves (s.volumeNotice (s.channelCfg c).weight (s.pulseFund c)) := (s.volumeNotice_reaches _ _).moves
  unfold State.takePulse
  dsimp only
  split
  · exact volume
  · exact volume.trans (.stays (State.setRisk_alike _ (map_level_modify _ _ (fun _ => rfl))))

theorem State.closeSample_moves (vane : BitVec 4) : s.Moves (s.closeSample vane) := by
  have decided : s.Moves (s.takeSample vane).decideWind :=
    .trans (s.setWind_reaches _).moves (State.decideWind_reaches _).moves
  refine .trans ?_ (.windHold _)
  split
  · exact decided
  · exact decided.trans (State.recomputeEscalation_reaches _ _).moves

theorem State.collapse_moves : s.Moves s.collapse :=
  .trans (s.setStation_moves (x := { s.station with breakRequest := true }) rfl) (State.setLine_reaches _ _).moves

theorem State.samplePressure_moves (reading : Nat) : s.Moves (s.samplePressure reading) := by
  have sampled (run : Nat) (hr : run ≤ 2) :
      s.Moves (s.setSweep { s.sweep with lowRun := run, pressureTimer := some (seconds 1) }) :=
    .stays ⟨⟨rfl, fun _ => rfl, rfl⟩, rfl, rfl, rfl, rfl, rfl, rfl, fun _ => hr, Iff.rfl⟩
  unfold State.samplePressure
  dsimp only
  split
  · exact (sampled 0 (Nat.zero_le _)).trans (State.collapse_moves _)
  next hr => exact sampled _ (by omega)

theorem State.enterHush_moves (r : Remembered) : s.Moves (s.enterHush r) := by
  refine .trans ?_ (.changeMode _ _)
  exact s.setStation_moves rfl

theorem State.hush_moves : s.Moves s.hush := by
  unfold State.hush
  split
  · exact s.enterHush_moves _
  · exact s.enterHush_moves _
  · exact s.enterHush_moves _
  · exact s.setStation_moves rfl
  · exact .refl s
  · exact .refl s

theorem State.toldOfBreak_moves : s.Moves s.toldOfBreak := by
  refine .trans ?_ (State.hush_moves _)
  exact s.setStation_moves rfl

theorem State.endHush_moves : s.Moves s.endHush := by
  unfold State.endHush
  split
  · refine .trans ?_ (.changeMode _ _)
    exact s.setStation_moves rfl
  · exact .refl s

theorem State.modeOrder_moves (g : Target) : s.Moves (s.modeOrder g) := by
  unfold State.modeOrder
  split
  · exact s.setStation_moves rfl
  · exact .of_guard s (fun _ => .changeMode _ _)
  · exact .of_guard s (fun _ => .changeMode _ _)
  · split
    · exact s.setStation_moves rfl
    · exact s.setStation_moves rfl
    · exact s.setStation_moves rfl
    · exact .refl s
  · exact .refl s
  · exact .refl s

theorem State.listeningEnds_moves : s.Moves s.listeningEnds := by
  unfold State.listeningEnds
  dsimp only
  split
  · refine .trans ?_ (.changeMode _ _)
    exact s.setStation_moves rfl
  · exact .trans (s.setStation_moves (x := { s.station with listeningTimer := none }) rfl) (State.setStation_moves _ rfl)
  · exact s.setStation_moves rfl

theorem State.assembleReport_moves : s.Moves s.assembleReport :=
  .trans (s.setLine_reaches _).moves (State.setStation_moves _ rfl)

theorem State.dispatch_moves (mine : Frame → Bool) {owner : State → Frame → State}
    (h : ∀ (t : State) (f : Frame), t.Moves (owner t f)) : s.Moves (s.dispatch mine owner) := by
  obtain stays | ⟨f, -, -, -, -, ⟨-, conflict⟩ | ⟨-, owned⟩⟩ := s.dispatch_cases mine owner
  · rw [stays]
    exact .refl s
  · rw [conflict]
    exact .trans s.takeFree_reaches.moves (State.setDispatcher_reaches _ _).moves
  · rw [owned]
    exact .trans s.takeFree_reaches.moves (h _ f)

theorem State.dispatch_order_moves (code : Nat) {act : State → Frame → State}
    (h : ∀ (t : State) (f : Frame), t.Moves (act t f)) :
    s.Moves (s.dispatch (ofOrder code) (fun t f => t.obey f act)) :=
  s.dispatch_moves _ (fun t f => .of_guard t (fun _ => h t f))

theorem State.obeyMode_moves (f : Frame) : s.Moves (s.obeyMode f) := by
  unfold State.obeyMode
  split
  · exact s.modeOrder_moves _
  · exact s.modeOrder_moves _
  · exact .refl s

theorem State.obeyBank_moves (f : Frame) : s.Moves (s.obeyBank f) := by
  unfold State.obeyBank
  split
  · exact .bankOrder s _
  · exact .bankOrder s _
  · exact .refl s

end

/-! ## The step -/

/-- Every command is a move of the sweep engine. -/
theorem State.after_moves (s : State) (c : Instr) : s.Moves (s.after c) := by
  cases c with
  | reset => exact .reset s
  | resetRelease => exact .of_guard s (fun _ => s.setStation_moves rfl)
  | loadSuccess memory =>
    refine .of_guard s (fun _ => ?_)
    split
    · exact .load s _
    · exact .refl s
  | loadFailure memory =>
    refine .of_guard s (fun hl => ?_)
    split
    · exact .refl s
    · have hm : s.station.mode = .starting := by
        simp only [State.loading, Bool.and_eq_true, decide_eq_true_eq] at hl
        exact hl.1
      exact .stays (s.setStation_alike (by simp [hm]))
  | sampleClose vane => exact .of_guard s (fun _ => s.closeSample_moves vane)
  | yardClockAdvance | anemometerPulse | heldTimerExpiry | dispatchForecast | dispatchMonitor | monitorSilenceCrossing _
  | holdExpiry _ | idleGapComplete | frameReceived _ | frameStart | arbitrationLost _ _ _ | clash _ _ _ | frameSent
  | selfSilenceExpiry | dispatchOrderZero | startEdge _ | bitRead _ | dominantRunEnd | frameDiscardedAtDispatch | orderIgnored =>
    exact (s.after_reaches _).moves (by simp [touched])
  | evaluationTimerExpiry =>
    refine .of_guard s (fun _ => ?_)
    have restarted := State.Moves.stays (s.setRisk_alike (x := { s.risk with timer := some (seconds s.cfg.interval) }) rfl)
    dsimp only
    split
    · exact restarted
    · exact restarted.trans (State.startEvaluation_moves _)
  | evaluationCompletion weightsFirst =>
    rw [State.after_evaluationCompletion]
    split
    · exact .completion s _ _
    · exact .refl s
  | overrideExpiry face =>
    rw [State.after_overrideExpiry]
    split
    · exact .refl s
    · exact .stays (s.setRisk_alike (map_level_modify _ _ (fun _ => rfl)))
  | dispatchMachine => exact s.dispatch_moves _ State.takeMachine_moves
  | machineStaleCrossing id | machineRemoval id => exact .of_guard s (fun _ => s.setMachines_recomputeMachines_moves rfl)
  | dispatchReport => exact s.dispatch_moves _ State.takeReport_moves
  | peerStaleCrossing id | peerRemoval id => exact .of_guard s (fun _ => s.setPeerList_shareComputation_moves _)
  | dispatchPond => exact s.dispatch_moves _ State.takePond_moves
  | pondSilenceExpiry | gtNotice => exact .of_guard s (fun _ => s.setWater_shareComputation_moves _)
  | onAim c => exact .of_guard s .slewEnds
  | slewTimeout c => exact .of_guard s (fun h => .fault (by rw [h.1]; rfl))
  | valveOpenReport c => exact .of_guard s .valveOpens
  | valveTimeout c => exact .of_guard s (fun h => .fault (by rw [h.1]; rfl))
  | dwellExpiry c => exact .of_guard s (fun h => .stepEnd h.1)
  | flowPulse c => exact .of_guard s (fun _ => s.takePulse_moves c)
  | pressureSample reading => exact .of_guard s (fun _ => s.samplePressure_moves reading)
  | breakSendEnd =>
    refine .of_guard s (fun _ => ?_)
    dsimp only
    split
    · exact .trans (s.setLine_reaches _).moves (State.toldOfBreak_moves _)
    · exact (s.setLine_reaches _).moves
  | breakHeard => exact .of_guard s (fun _ => .trans (s.setLine_reaches _).moves (State.toldOfBreak_moves _))
  | dispatchOrderMode => exact s.dispatch_order_moves 1 State.obeyMode_moves
  | dispatchOrderBank => exact s.dispatch_order_moves 2 State.obeyBank_moves
  | dispatchOrderForce => exact s.dispatch_order_moves 3 (fun t f => t.forceOrder_moves _ _ _)
  | dispatchOrderResume => exact s.dispatch_order_moves 4 (fun t _ => .of_guard t (fun _ => t.endHush_moves))
  | listeningTimerExpiry => exact .of_guard s (fun _ => s.listeningEnds_moves)
  | hushHoldExpiry => exact .of_guard s (fun _ => s.endHush_moves)
  | reportTimerExpiry => exact .of_guard s (fun _ => s.assembleReport_moves)
  | faultPatternTick =>
    rw [State.after_faultPatternTick]
    split
    · exact s.setStation_moves rfl
    · exact .refl s

theorem State.timePasses_moves (s : State) : s.Moves s.timePasses := by
  unfold State.timePasses
  split
  · exact .refl s
  · exact s.setStation_moves rfl
  all_goals exact .time s

/-- Every step is a move of the sweep engine. -/
theorem step_moves {s t : State} (h : step s = .next t) : s.Moves t := by
  obtain rfl | ⟨c, rest, rfl⟩ := step_cases h
  · exact s.timePasses_moves
  · refine .trans ?_ (State.after_moves { s with pending := rest } c)
    exact .stays ⟨⟨rfl, fun _ => rfl, rfl⟩, rfl, rfl, rfl, rfl, rfl, rfl, id, Iff.rfl⟩

end Sys2Proof.Machine
end

