-- ==== Sys2Proof/Proofs/SweepSafety.lean ====
section
/-! What every move of the sweep engine keeps of every channel: valves as their states say (8.3), no spray into an active arc (R123,
R134), the lap counts in range (R118); and the modes' own items (R138, R173, R174). -/

namespace Sys2Proof.Machine

/-! ## Activation notices, channel by channel -/

/-- A channel whose aim lies inside an active arc, after its activation notice (R134). -/
def Channel.dried (dwell : Nat) (ch : Channel) : Channel :=
  match ch.state with
  | .spraying => { ch with state := .dry, valve := false, dryFlag := true }
  | .opening =>
    { ch with state := .dry, valve := false, dryFlag := true, valveTimer := none, dwellTimer := some (seconds dwell) }
  | .slewing => { ch with dryFlag := true }
  | .idle | .waiting | .dry | .denied | .windHeld | .faulted | .hushed => ch

/-- The channel's present aim lies inside an active arc. -/
def State.aimsInside (s : State) (c : Nat) : Bool := (s.channel c).aim.any (fun a => s.inActiveArc c a.1)

section
variable {s : State} {c d : Nat}

theorem State.activationNotice_channel_of_ne (h : d ≠ c) : (s.activationNotice c).channel d = s.channel d := by
  unfold State.activationNotice
  dsimp only
  split
  · rfl
  · split
    · split
      · exact State.channel_onChannel_of_ne h
      · exact State.channel_onChannel_of_ne h
      · exact State.channel_onChannel_of_ne h
      all_goals rfl
    · rfl

theorem State.lt_length_of_aim {a : Nat × Nat} (h : (s.channel c).aim = some a) : c < s.sweep.channels.length := by
  by_contra hc
  rw [State.channel_of_length_le (Nat.le_of_not_lt hc)] at h
  cases h

theorem State.activationNotice_channel_self (s : State) (c : Nat) : (s.activationNotice c).channel c =
    if s.aimsInside c = true then (s.channel c).dried (s.currentLeg c).dwell else s.channel c := by
  unfold State.activationNotice State.aimsInside
  dsimp only
  split
  · rename_i haim
    rw [haim]
    rfl
  · rename_i a haim
    rw [haim, Option.any_some]
    split
    · have hc := State.lt_length_of_aim haim
      unfold Channel.dried
      cases hs : (s.channel c).state with
      | spraying | opening => exact State.channel_onChannel_self hc
      | slewing =>
        refine (State.channel_onChannel_self hc).trans ?_
        dsimp only
        rw [hs]
      | idle | waiting | dry | denied | windHeld | faulted | hushed => rfl
    · rfl

/-- A notice leaves every other channel's notice what it would be. -/
theorem State.activationNotice_comm (h : d ≠ c) : ((s.activationNotice c).activationNotice d).channel d =
    (s.activationNotice d).channel d := by
  have kept := State.activationNotice_channel_of_ne (s := s) h
  have reads := (s.activationNotice_within c).readsAs
  have inside : (s.activationNotice c).aimsInside d = s.aimsInside d := by
    simp only [State.aimsInside, kept, reads.inActiveArc]
  have leg : (s.activationNotice c).currentLeg d = s.currentLeg d := by
    simp only [State.currentLeg, kept, reads.leg (congrArg Channel.bank kept)]
  rw [State.activationNotice_channel_self, State.activationNotice_channel_self, inside, leg, kept]

/-- Several notices: each channel noticed takes its own, as from the state before. -/
theorem State.activationNotices_channel {l : List Nat} (hl : l.Nodup) (s : State) (d : Nat) :
    (l.foldl State.activationNotice s).channel d = if d ∈ l then (s.activationNotice d).channel d else s.channel d := by
  induction l generalizing s with
  | nil => rfl
  | cons c l ih =>
    obtain ⟨hc, hl⟩ := List.nodup_cons.mp hl
    rw [List.foldl_cons, ih hl]
    by_cases hd : d = c
    · subst hd
      simp [hc]
    · simp only [List.mem_cons, hd, false_or]
      rw [State.activationNotice_comm hd, State.activationNotice_channel_of_ne hd]

theorem State.activationNotices_within (l : List Nat) (s : State) : s.Within (l.foldl State.activationNotice s) :=
  .of_fold State.activationNotice_within l s

end

/-- The machine unit with its recomputed factors and arcs, before the notices (R73). -/
def State.rederived (s : State) : State :=
  s.setMachines { s.machines with
    kf := (List.range s.faceCount).map (fun i => s.disturbance (i + 1)), arcs := s.derivedArcs }

theorem State.recomputeMachines_eq (s : State) :
    s.recomputeMachines = (s.activatedChannels s.derivedArcs).foldl State.activationNotice s.rederived := rfl

theorem State.activatedChannels_nodup (s : State) (arcs : List (List Bool)) : (s.activatedChannels arcs).Nodup :=
  List.nodup_range.filter _

theorem State.recomputeMachines_within (s : State) : s.rederived.Within s.recomputeMachines :=
  State.activationNotices_within _ _

/-- A recomputation, channel by channel: a notice where an arc became ACTIVE, and else the channel as it was (R77). -/
theorem State.recomputeMachines_channel (s : State) (c : Nat) : s.recomputeMachines.channel c =
    if c ∈ s.activatedChannels s.derivedArcs then (s.rederived.activationNotice c).channel c else s.channel c := by
  rw [State.recomputeMachines_eq, State.activationNotices_channel (s.activatedChannels_nodup _)]
  rfl

/-! ## A property of every channel through a move -/

/-- The channels of a load that succeeds (R139): HUSHED, with the image's bank. -/
theorem State.loadSucceeds_channels (s : State) (cfg : StationCfg) : (s.loadSucceeds cfg).sweep.channels =
    cfg.channels.map (fun _ => { initialChannel cfg.bank with state := .hushed }) := by
  have hush : (s.loadSucceeds cfg).sweep.channels =
      (cfg.channels.map (fun _ => initialChannel cfg.bank)).map (Channel.hush cfg.bank) := by
    unfold State.loadSucceeds State.changeMode State.sweepHush
    dsimp only
    rw [if_neg (by decide)]
    split <;> rfl
  rw [hush, List.map_map]
  rfl

/-- A property of channels that every move of the sweep engine keeps. It may speak of the azimuths inside active arcs; `A` is what else
it needs of the state. -/
structure SweepRule (P W : (Nat → Nat → Bool) → Nat → Channel → Prop) (A : State → Prop) : Prop where
  rule : ∀ D, ChannelRule D (P D) (W D)
  dry : ∀ D c ch t, ch.state = .slewing → ch.dryFlag = true → P D c ch →
    P D c { ch with state := .dry, slewTimer := none, dwellTimer := t }
  opens : ∀ D c ch f t, ch.state = .slewing → ch.dryFlag = false → P D c ch →
    P D c { ch with state := .opening, slewTimer := none, valve := true, lastFace := f, valveTimer := t }
  sprays : ∀ D c ch t, ch.state = .opening → P D c ch →
    P D c { ch with state := .spraying, valveTimer := none, dwellTimer := t }
  time : ∀ D c ch, P D c ch → P D c ch.passTime
  initial : ∀ D c bk, P D c { initialChannel bk with state := .hushed }
  moves : ∀ {s t : State}, s.Moves t → A s → A t
  recomputation : ∀ s : State, A s → s.Each (P s.inActiveArc) → s.recomputeMachines.Each (P s.recomputeMachines.inActiveArc)

theorem State.inActiveArc_eq_of {s t : State} (cfg : t.cfg = s.cfg) (arcs : t.machines.arcs = s.machines.arcs) :
    t.inActiveArc = s.inActiveArc := by
  funext c a
  simp only [State.inActiveArc, State.activeArcs, State.channelCfg, cfg, arcs]

theorem State.ReadsAs.inActiveArc_eq {s t : State} (h : s.ReadsAs t) : t.inActiveArc = s.inActiveArc := funext₂ h.inActiveArc

theorem State.Within.inActiveArc_eq {s t : State} (h : s.Within t) : t.inActiveArc = s.inActiveArc := h.readsAs.inActiveArc_eq

theorem State.weightNotice_arcs (old s : State) : (State.weightNotice old s).inActiveArc = s.inActiveArc := by
  have h := s.weightNotice_reaches old
  exact State.inActiveArc_eq_of (h .cfg (by decide)) (congrArg Machines.arcs (h .machines (by decide)))

theorem State.complete_arcs (s : State) (snap : Snapshot) (weightsFirst : Bool) :
    (s.complete snap weightsFirst).inActiveArc = s.inActiveArc := by
  have h := s.complete_reaches snap weightsFirst
  exact State.inActiveArc_eq_of (h .cfg (by decide)) (congrArg Machines.arcs (h .machines (by decide)))

section
variable {D : Nat → Nat → Bool} {P W : Nat → Channel → Prop} (R : ChannelRule D P W) {s t : State}
include R

theorem ChannelRule.weightNotice (old : State) (hD : s.inActiveArc = D) (h : s.Each P) : (State.weightNotice old s).Each P := by
  unfold State.weightNotice
  split
  · exact h
  · exact R.handOver _ _ hD (h.of_channels rfl)

theorem ChannelRule.complete (snap : Snapshot) (weightsFirst : Bool) (hD : s.inActiveArc = D) (h : s.Each P) :
    (s.complete snap weightsFirst).Each P := by
  have published : (s.publish (s.completedFaces snap)).Each P := h.of_channels rfl
  unfold State.complete
  dsimp only
  split
  · have settled : (State.settleLists s (s.publish (s.completedFaces snap))).Each P := published.of_channels rfl
    refine R.levelNotice _ ?_ (R.weightNotice s hD settled)
    exact (State.weightNotice_arcs s _).trans hD
  · refine R.weightNotice s ?_ (R.levelNotice s hD published)
    exact (State.levelNotice_only s _).readsAs.inActiveArc_eq.trans hD

end

/-- A millisecond passes over each channel (log 1). -/
theorem State.blocksPassTime_channel {s : State} {c : Nat} (h : c < s.sweep.channels.length) :
    s.blocksPassTime.channel c = (s.channel c).passTime := by
  have h' : c < s.blocksPassTime.sweep.channels.length := by simpa [State.blocksPassTime] using h
  rw [State.channel_eq_getElem h, State.channel_eq_getElem h']
  exact List.getElem_map ..

theorem State.blocksPassTime_length (s : State) : s.blocksPassTime.sweep.channels.length = s.sweep.channels.length :=
  List.length_map _

/-- Every move keeps the property. -/
theorem SweepRule.each_of_moves {P W : (Nat → Nat → Bool) → Nat → Channel → Prop} {A : State → Prop} (R : SweepRule P W A)
    {s t : State} (h : s.Moves t) (hA : A s) (hs : s.Each (P s.inActiveArc)) : t.Each (P t.inActiveArc) := by
  have within {s t : State} (hw : s.SweepOnly t) (ht : t.Each (P s.inActiveArc)) : t.Each (P t.inActiveArc) := by
    rwa [hw.readsAs.inActiveArc_eq]
  induction h with
  | stays h =>
    rw [h.reads.inActiveArc_eq]
    exact hs.of_channels h.channels
  | trans h _ ih ih' => exact ih' (R.moves h hA) (ih hA hs)
  | time s =>
    intro c hc
    rw [State.blocksPassTime_length] at hc
    rw [State.blocksPassTime_channel hc]
    exact R.time _ _ _ (hs c hc)
  | reset s => exact fun c hc => absurd hc (Nat.not_lt_zero c)
  | load s cfg =>
    intro c hc
    have hc' := hc
    rw [State.loadSucceeds_channels, List.length_map] at hc'
    rw [State.channel_eq_getElem hc]
    simp only [State.loadSucceeds_channels, List.getElem_map]
    exact R.initial _ _ _
  | handOver s sR sF =>
    exact within (s.handOver_only sR sF) ((R.rule _).handOver sR sF rfl hs)
  | completion s snap weightsFirst =>
    rw [State.complete_arcs]
    exact (R.rule _).complete snap weightsFirst rfl hs
  | windHold s => exact within s.windHold_only ((R.rule _).windHold rfl hs)
  | recomputation s => exact R.recomputation s hA hs
  | @slewEnds s c h =>
    refine within (s.slewEnds_only c) (hs.onChannel (fun hP => ?_))
    split
    next hd => exact R.dry _ _ _ _ h hd hP
    next hd => exact R.opens _ _ _ _ _ h (by simpa using hd) hP
  | @valveOpens s c h => exact within (s.valveOpens_only c) (hs.onChannel (R.sprays _ _ _ _ h))
  | @fault s c => exact within (s.faultChannel_only c) ((R.rule _).faultChannel c rfl hs)
  | @stepEnd s c h =>
    refine within (s.stepEnd_only c) ((R.rule _).stepEnd rfl (State.lt_length_of_state_ne_idle ?_) hs)
    obtain h | h := h <;> rw [h] <;> decide
  | changeMode s m =>
    have h := s.changeMode_reaches m
    rw [State.inActiveArc_eq_of (h .cfg (by decide)) (congrArg Machines.arcs (h .machines (by decide)))]
    exact (R.rule _).changeMode m rfl hs
  | bankOrder s bk => exact within (s.bankOrder_only bk) ((R.rule _).bankOrder bk rfl hs)

end Sys2Proof.Machine
end

