-- ==== Sys2Proof/Proofs/ChannelInvariants.lean ====
section
/-! The channel invariants: valves as the states say (O57), every valve shut outside AUTO (O57), no spray into an active arc (O60), the lap
counts in range (for O55). -/

namespace Sys2Proof.Machine

/-! ## Valves and lap counts -/

/-- The valve stands open in OPENING and SPRAYING alone (8.3). -/
def ValveTells (ch : Channel) : Prop := ch.valve = true ↔ ch.state = .opening ∨ ch.state = .spraying

theorem ChannelState.not_open_of_not_runs {st : ChannelState} (h : st.runs = false) : ¬ (st = .opening ∨ st = .spraying) := by
  rintro (rfl | rfl) <;> cases h

theorem valveTells_of_shut {ch : Channel} (hv : ch.valve = false) (hs : ¬ (ch.state = .opening ∨ ch.state = .spraying)) :
    ValveTells ch := ⟨fun h => absurd (hv.symm.trans h) (by decide), fun h => absurd h hs⟩

theorem valve_keepRule (P : Channel → Prop) (shut : ∀ ch, ch.valve = false → ¬ (ch.state = .opening ∨ ch.state = .spraying) → P ch)
    (same : ∀ ch ch' : Channel, ch'.valve = ch.valve → ch'.state = ch.state → P ch → P ch') : KeepRule (fun _ => P) where
  fund _ ch _ := same ch _ rfl rfl
  mark _ ch _ := same ch _ rfl rfl
  place _ ch _ _ _ _ := same ch _ rfl rfl
  bank _ ch _ _ _ := same ch _ rfl rfl
  stop _ _ _ hst _ := shut _ rfl (ChannelState.not_open_of_not_runs hst)

theorem valve_channelRule (D : Nat → Nat → Bool) :
    ChannelRule D (fun _ => ValveTells) (fun _ ch => ch.valve = false) where
  keep := valve_keepRule _ (fun _ => valveTells_of_shut) (fun ch ch' hv hs h => by rw [ValveTells, hv, hs]; exact h)
  keepClosed := valve_keepRule _ (fun _ hv _ => hv) (fun _ _ hv _ h => hv.trans h)
  close _ _ _ := rfl
  start _ _ _ _ _ _ _ := valveTells_of_shut rfl (by simp)
  stopClosed _ _ _ hst _ := valveTells_of_shut rfl (ChannelState.not_open_of_not_runs hst)
  denied _ _ hs hv := valveTells_of_shut hv (by simp [hs])
  rest _ _ _ hch hst h := valveTells_of_shut
    (Bool.eq_false_iff.mpr (fun hv => ChannelState.not_open_of_not_runs hch (h.mp hv))) (ChannelState.not_open_of_not_runs hst)

theorem valveTells_dried {ch : Channel} (dwell : Nat) (h : ValveTells ch) : ValveTells (ch.dried dwell) := by
  unfold Channel.dried
  split
  · exact valveTells_of_shut rfl (by simp)
  · exact valveTells_of_shut rfl (by simp)
  all_goals exact h

theorem laps_dried (dwell : Nat) (ch : Channel) : (ch.dried dwell).laps = ch.laps := by
  unfold Channel.dried
  split <;> rfl

/-- A property that the drying of a channel keeps, whatever the arcs, is kept by a recomputation. -/
theorem State.Each.recomputation {P : Channel → Prop} {s : State} (dried : ∀ dwell ch, P ch → P (ch.dried dwell))
    (h : s.Each (fun _ => P)) : s.recomputeMachines.Each (fun _ => P) := by
  intro c hc
  have hc' : c < s.sweep.channels.length := by rwa [s.recomputeMachines_within.length] at hc
  have hP : P (s.rederived.channel c) := h c hc'
  rw [State.recomputeMachines_channel]
  split
  · rw [State.activationNotice_channel_self]
    split
    · exact dried _ _ hP
    · exact hP
  · exact hP

theorem valve_sweepRule : SweepRule (fun _ _ => ValveTells) (fun _ _ ch => ch.valve = false) (fun _ => True) where
  rule := valve_channelRule
  dry _ _ _ _ hs _ h := valveTells_of_shut (by rw [ValveTells, hs] at h; simpa using h) (by simp)
  opens _ _ _ _ _ _ _ _ := ⟨fun _ => .inl rfl, fun _ => rfl⟩
  sprays _ _ _ _ hs h := ⟨fun _ => .inr rfl, fun _ => h.mpr (.inl hs)⟩
  time _ _ _ h := h
  initial _ _ _ := valveTells_of_shut rfl (by simp)
  moves _ h := h
  recomputation _ _ h := h.recomputation (fun dwell _ => valveTells_dried dwell)

theorem laps_keepRule : KeepRule (fun _ ch => ch.laps ≤ 65535) where
  fund _ _ _ h := h
  mark _ _ _ h := h
  place _ _ _ _ _ hn h := hn.elim (fun e => e ▸ h) id
  bank _ _ _ _ _ h := h
  stop _ _ _ _ h := h

theorem laps_channelRule (D : Nat → Nat → Bool) : ChannelRule D (fun _ ch => ch.laps ≤ 65535) (fun _ ch => ch.laps ≤ 65535) where
  keep := laps_keepRule
  keepClosed := laps_keepRule
  close _ _ h := h
  start _ _ _ _ _ _ h := h.elim id id
  stopClosed _ _ _ _ h := h
  denied _ _ _ h := h
  rest _ _ _ _ _ h := h

theorem laps_sweepRule :
    SweepRule (fun _ _ ch => ch.laps ≤ 65535) (fun _ _ ch => ch.laps ≤ 65535) (fun _ => True) where
  rule := laps_channelRule
  dry _ _ _ _ _ _ h := h
  opens _ _ _ _ _ _ _ h := h
  sprays _ _ _ _ _ h := h
  time _ _ _ h := h
  initial _ _ _ := Nat.zero_le _
  moves _ h := h
  recomputation _ _ h := h.recomputation (fun dwell ch h => (laps_dried dwell ch).trans_le h)

theorem State.valvesTell_iff (s : State) : s.ValvesTell ↔ s.Each (fun _ => ValveTells) := State.forall_channel

theorem State.ValvesTell.step {s t : State} (hs : s.ValvesTell) (h : step s = .next t) : t.ValvesTell :=
  t.valvesTell_iff.mpr (valve_sweepRule.each_of_moves (step_moves h) trivial (s.valvesTell_iff.mp hs))

theorem State.laps_step {s t : State} (hs : ∀ ch ∈ s.sweep.channels, ch.laps ≤ 65535) (h : step s = .next t) :
    ∀ ch ∈ t.sweep.channels, ch.laps ≤ 65535 :=
  State.forall_channel.mpr (laps_sweepRule.each_of_moves (step_moves h) trivial (State.forall_channel.mp hs))

/-! ## Aims outside the active arcs -/

/-- The channel does not spray, and is not about to, at an aim among the azimuths `D` of its number (R122, R123, R134). -/
def AimsClear (D : Nat → Nat → Bool) (c : Nat) (ch : Channel) : Prop :=
  ch.state = .opening ∨ ch.state = .spraying ∨ (ch.state = .slewing ∧ ch.dryFlag = false) → ∀ a ∈ ch.aim, D c a.1 = false

section
variable {D : Nat → Nat → Bool} {c : Nat} {ch : Channel}

theorem aimsClear_of_not_runs (h : ch.state.runs = false) : AimsClear D c ch := by
  rintro (hs | hs | ⟨hs, -⟩) <;> rw [hs] at h <;> cases h

theorem aimsClear_of_dry (h : ch.state = .dry) : AimsClear D c ch := by
  rintro (hs | hs | ⟨hs, -⟩) <;> rw [hs] at h <;> cases h

theorem aimsClear_keepRule (D : Nat → Nat → Bool) : KeepRule (AimsClear D) where
  fund _ _ _ h := h
  mark _ _ _ h := h
  place _ _ _ _ _ _ h := h
  bank _ _ _ _ _ h := h
  stop _ _ _ hst _ := aimsClear_of_not_runs hst

theorem aimsClear_channelRule (D : Nat → Nat → Bool) : ChannelRule D (AimsClear D) (AimsClear D) where
  keep := aimsClear_keepRule D
  keepClosed := aimsClear_keepRule D
  close _ _ h := h
  start c ch a e n t _ := by
    rintro (hs | hs | ⟨-, hd⟩) b hb
    · cases hs
    · cases hs
    · obtain rfl := Option.mem_some_iff.mp hb
      exact hd
  stopClosed _ _ _ hst _ := aimsClear_of_not_runs hst
  denied _ _ _ h := h
  rest _ _ _ _ hst _ := aimsClear_of_not_runs hst

/-- A dried channel is clear of any arcs. -/
theorem aimsClear_dried (D : Nat → Nat → Bool) (c dwell : Nat) (ch : Channel) : AimsClear D c (ch.dried dwell) := by
  unfold Channel.dried
  split
  case h_1 | h_2 => exact aimsClear_of_dry rfl
  case h_3 hs =>
    rintro (h | h | ⟨-, h⟩)
    · exact absurd (hs.symm.trans h) (by decide)
    · exact absurd (hs.symm.trans h) (by decide)
    · exact absurd h (by simp)
  case h_6 hs => exact aimsClear_of_dry hs
  all_goals
    rename_i hs
    exact aimsClear_of_not_runs (by rw [hs]; rfl)

end

/-- Each shadow entry has its arc state (R76). -/
def State.ArcsFit (s : State) : Prop := s.machines.arcs.map List.length = s.cfg.channels.map (fun ch => ch.shadow.length)

theorem State.derivedArcs_fit (s : State) :
    s.derivedArcs.map List.length = s.cfg.channels.map (fun ch => ch.shadow.length) := by
  simp [State.derivedArcs, Function.comp_def]

theorem State.ArcsFit.of_eq {s t : State} (h : s.ArcsFit) (cfg : t.cfg = s.cfg) (arcs : t.machines.arcs = s.machines.arcs) :
    t.ArcsFit := by
  rw [State.ArcsFit, cfg, arcs]
  exact h

theorem State.Reaches.arcsFit {bs : List Block} {s t : State} (h : State.Reaches bs s t) (hs : s.ArcsFit)
    (hb : .cfg ∉ bs ∧ .machines ∉ bs := by decide) : t.ArcsFit :=
  hs.of_eq (h .cfg hb.1) (congrArg Machines.arcs (h .machines hb.2))

theorem State.SweepOnly.arcsFit {s t : State} (h : s.SweepOnly t) (hs : s.ArcsFit) : t.ArcsFit := h.reaches.arcsFit hs

theorem State.Moves.arcsFit {s t : State} (h : s.Moves t) (hs : s.ArcsFit) : t.ArcsFit := by
  induction h with
  | stays h => exact hs.of_eq h.reads.cfg h.reads.arcs
  | trans _ _ ih ih' => exact ih' (ih hs)
  | time s => exact hs
  | reset s => rfl
  | load s cfg =>
    have fits : ((s.configured cfg).startTimers).ArcsFit := by
      simp [State.ArcsFit, State.startTimers, State.configured, Function.comp_def]
    exact (State.changeMode_reaches _ _).arcsFit fits
  | handOver s sR sF => exact (s.handOver_only sR sF).arcsFit hs
  | completion s snap weightsFirst => exact (s.complete_reaches snap weightsFirst).arcsFit hs
  | windHold s => exact s.windHold_only.arcsFit hs
  | recomputation s =>
    have derived : s.rederived.ArcsFit := s.derivedArcs_fit
    exact s.recomputeMachines_within.only.arcsFit derived
  | slewEnds => exact (State.slewEnds_only _ _).arcsFit hs
  | valveOpens => exact (State.valveOpens_only _ _).arcsFit hs
  | fault => exact (State.faultChannel_only _ _).arcsFit hs
  | stepEnd => exact (State.stepEnd_only _ _).arcsFit hs
  | changeMode s m => exact (s.changeMode_reaches m).arcsFit hs
  | bankOrder s bk => exact (s.bankOrder_only bk).arcsFit hs

/-- With no arc activated, every arc active afterwards was active before. -/
theorem mem_zip_of_not_activated {α : Type} {l : List α} {before after : List Bool} (hl : before.length = l.length)
    (h : activated before after = false) {x : α} (hx : (x, true) ∈ l.zip after) : (x, true) ∈ l.zip before := by
  obtain ⟨i, hi, heq⟩ := List.mem_iff_getElem.mp hx
  rw [List.getElem_zip, Prod.mk.injEq] at heq
  rw [List.length_zip] at hi
  have hb : i < before.length := by omega
  have ha : i < after.length := by omega
  have active : before[i] = true := by
    rw [activated, List.any_eq_false] at h
    have := h (before[i], after[i]) (List.mem_iff_getElem.mpr ⟨i, by simp; omega, List.getElem_zip⟩)
    simpa [heq.2] using this
  exact List.mem_iff_getElem.mpr ⟨i, by simp; omega, by rw [List.getElem_zip, heq.1, active]⟩

/-- A channel that gained no arc aims into no more of them after a recomputation (R77). -/
theorem State.inActiveArc_of_not_activated {s : State} {c a : Nat} (hs : s.ArcsFit)
    (hc : c ∉ s.activatedChannels s.derivedArcs) (h : s.rederived.inActiveArc c a = true) : s.inActiveArc c a = true := by
  unfold State.inActiveArc State.activeArcs at h ⊢
  rw [List.any_append, Bool.or_eq_true] at h ⊢
  refine h.imp_right (fun h => ?_)
  rw [List.any_eq_true] at h ⊢
  obtain ⟨r, hr, hra⟩ := h
  refine ⟨r, ?_, hra⟩
  simp only [List.mem_map, List.mem_filter] at hr ⊢
  obtain ⟨⟨e, b⟩, ⟨he, hb⟩, rfl⟩ := hr
  obtain rfl : b = true := hb
  refine ⟨(e, true), ⟨?_, rfl⟩, rfl⟩
  obtain hlen | hlen := Nat.lt_or_ge c s.cfg.channels.length
  · have hlength : (s.machines.arcs.getD c []).length = (s.channelCfg c).shadow.length := by
      have hs' := congrArg (fun l => l[c]?) hs
      simp only [List.getElem?_map, List.getElem?_eq_getElem hlen, Option.map_some] at hs'
      rw [State.channelCfg, List.getD_eq_getElem?_getD, List.getD_eq_getElem?_getD, List.getElem?_eq_getElem hlen]
      cases harcs : s.machines.arcs[c]? with
      | none => rw [harcs] at hs'; cases hs'
      | some l => rw [harcs] at hs'; exact Option.some.inj hs'
    refine mem_zip_of_not_activated hlength ?_ he
    by_contra hact
    exact hc (List.mem_filter.mpr ⟨List.mem_range.mpr hlen, (Bool.not_eq_false _).mp hact⟩)
  · have : s.rederived.channelCfg c = ChannelCfg.absent := by
      rw [State.channelCfg, List.getD_eq_default _ _ (by exact hlen)]
    rw [this] at he
    cases he

theorem aimsClear_sweepRule : SweepRule AimsClear AimsClear State.ArcsFit where
  rule := aimsClear_channelRule
  dry _ _ _ _ _ _ _ := aimsClear_of_dry rfl
  opens _ _ _ _ _ hs hd h := fun _ => h (.inr (.inr ⟨hs, hd⟩))
  sprays _ _ _ _ hs h := fun _ => h (.inl hs)
  time _ _ _ h := h
  initial _ _ _ := aimsClear_of_not_runs rfl
  moves := State.Moves.arcsFit
  recomputation s hs h := by
    intro c hc
    have hc' : c < s.sweep.channels.length := by rwa [s.recomputeMachines_within.length] at hc
    rw [s.recomputeMachines_within.inActiveArc_eq, State.recomputeMachines_channel]
    split
    · rw [State.activationNotice_channel_self]
      split
      · exact aimsClear_dried _ _ _ _
      next outside =>
        intro _ a ha
        rw [State.aimsInside, Option.mem_def.mp ha, Option.any_some] at outside
        simpa using outside
    next unnoticed =>
      intro hs' a ha
      by_contra hin
      exact absurd (State.inActiveArc_of_not_activated hs unnoticed (by simpa using hin)) (by simp [h c hc' hs' a ha])

theorem State.sprayClear_iff (s : State) : s.SprayClear ↔ s.ArcsFit ∧ s.Each (AimsClear s.inActiveArc) :=
  and_congr_right fun _ => forall_congr' fun _ => imp_congr_left State.mem_channelNumbers

/-- Settles O60: a move keeps every channel clear of the active arcs, and an open valve is one of OPENING or SPRAYING. -/
theorem stepKeepsArcsDry : Obligations.StepKeepsArcsDry := by
  intro s t hs hv h
  obtain ⟨fits, clear⟩ := s.sprayClear_iff.mp hs
  have moved := step_moves h
  have clear' := aimsClear_sweepRule.each_of_moves moved fits clear
  refine ⟨t.sprayClear_iff.mpr ⟨moved.arcsFit fits, clear'⟩, fun c hc => ?_⟩
  have hlen : c < t.sweep.channels.length := by
    by_contra hlen
    rw [State.valveOutput, List.getElem?_eq_none (Nat.le_of_not_lt hlen)] at hc
    cases hc
  have hvalve : (t.channel c).valve = true := by
    rw [State.valveOutput, List.getElem?_eq_getElem hlen] at hc
    rw [State.channel_eq_getElem hlen]
    exact hc
  refine clear' c hlen ?_
  obtain hs | hs := ((t.valvesTell_iff.mp (hv.step h)) c hlen).mp hvalve
  · exact .inl hs
  · exact .inr (.inl hs)

end Sys2Proof.Machine
end

