-- ==== Sys2Proof/Proofs/ModeInvariants.lean ====
section
/-! The modes' invariants: outside AUTO nothing is granted, waits or sprays (R138), and a hush's items stand exactly while the mode is
HUSHED (R173, R174). -/

namespace Sys2Proof.Machine

theorem foldl_eq_self {α β : Type} {f : β → α → β} {b : β} {l : List α} (h : ∀ a ∈ l, f b a = b) : l.foldl f b = b := by
  induction l with
  | nil => rfl
  | cons a l ih =>
    rw [List.foldl_cons, h a List.mem_cons_self]
    exact ih (fun x hx => h x (List.mem_cons_of_mem a hx))

/-! ## A sweep engine shut -/

/-- A channel rests as outside AUTO: HUSHED or FAULTED. -/
def Channel.Shut (ch : Channel) : Prop := ch.state = .hushed ∨ ch.state = .faulted

/-- The sweep engine as R138 leaves it outside AUTO. -/
structure State.Shut (s : State) : Prop where
  grants : s.sweep.grants = []
  waiting : s.sweep.waiting = []
  channels : s.Each (fun _ => Channel.Shut)

section
variable {s t : State} {c : Nat}

theorem Channel.Shut.not_runs {ch : Channel} (h : ch.Shut) : ch.state.runs = false := by
  obtain h | h := h <;> rw [h] <;> rfl

theorem Channel.Shut.not_waits {ch : Channel} (h : ch.Shut) : ch.state.waits = false := by
  obtain h | h := h <;> rw [h] <;> rfl

theorem State.Shut.not_runs (h : s.Shut) (c : Nat) : (s.channel c).state.runs = false := by
  by_contra hr
  have hr : (s.channel c).state.runs = true := by simpa using hr
  exact absurd ((h.channels c (State.lt_length_of_runs hr)).not_runs) (by simp [hr])

theorem State.Shut.not_waits (h : s.Shut) (c : Nat) : (s.channel c).state.waits = false := by
  by_contra hw
  have hw : (s.channel c).state.waits = true := by simpa using hw
  exact absurd ((h.channels c (State.lt_length_of_waits hw)).not_waits) (by simp [hw])

theorem State.Shut.of_eq (h : s.Shut) (channels : t.sweep.channels = s.sweep.channels) (grants : t.sweep.grants = s.sweep.grants)
    (waiting : t.sweep.waiting = s.sweep.waiting) : t.Shut :=
  ⟨grants.trans h.grants, waiting.trans h.waiting, h.channels.of_channels channels⟩

theorem State.Shut.contained (h : s.Shut) : s.contained = true := by
  simp [State.contained, State.granted, State.flowOf, State.allHeavy, h.grants]

theorem State.grantScan_of_not_auto (hm : s.station.mode ≠ .auto) : s.grantScan = s := if_neg hm

theorem State.Shut.settleWaiting (old : State) (h : s.Shut) : (State.settleWaiting old s).Shut := by
  refine ⟨h.grants, List.eq_nil_iff_forall_not_mem.mpr (fun c hc => ?_), h.channels.of_channels rfl⟩
  rw [State.mem_settleWaiting, h.not_waits c] at hc
  cases hc

theorem State.Shut.settleGrants (old : State) (h : s.Shut) : State.settleGrants old s = s :=
  State.settleGrants_of_same (by simp [h.grants])

theorem State.treatLevel_of_shut (h : (s.channel c).Shut) : s.treatLevel c = s := by
  unfold State.treatLevel
  obtain h | h := h <;> rw [h]

theorem State.Shut.levelNotice (old : State) (h : s.Shut) (hm : s.station.mode ≠ .auto) : (State.levelNotice old s).Shut := by
  have treated : s.channelNumbers.foldl State.treatLevel s = s :=
    foldl_eq_self (fun c hc => State.treatLevel_of_shut (h.channels c (State.mem_channelNumbers.mp hc)))
  have settled := h.settleWaiting old
  unfold State.levelNotice
  dsimp only
  rw [treated, settled.settleGrants, State.contain_of_contained _ settled.contained, State.grantScan_of_not_auto (by exact hm)]
  exact settled

theorem State.Shut.handOver (sR sF : Nat) (h : s.Shut) (hm : s.station.mode ≠ .auto) : (s.handOver sR sF).Shut := by
  have shared : (s.withShares sR sF).Shut := h.of_eq rfl rfl rfl
  rw [State.handOver_eq, shared.contained, if_neg (by simp), State.grantScan_of_not_auto (by exact hm)]
  exact shared

theorem State.Shut.weightNotice (old : State) (h : s.Shut) (hm : s.station.mode ≠ .auto) : (State.weightNotice old s).Shut := by
  unfold State.weightNotice
  split
  · exact h
  · exact State.Shut.handOver _ _ (h.of_eq rfl rfl rfl) hm

theorem State.Reaches.mode {bs : List Block} (h : State.Reaches bs s t) (hm : s.station.mode ≠ .auto)
    (hb : .station ∉ bs := by decide) : t.station.mode ≠ .auto := by
  rwa [h .station hb]

theorem State.Shut.complete (snap : Snapshot) (weightsFirst : Bool) (h : s.Shut) (hm : s.station.mode ≠ .auto) :
    (s.complete snap weightsFirst).Shut := by
  have published : (s.publish (s.completedFaces snap)).Shut := h.of_eq rfl rfl rfl
  unfold State.complete
  dsimp only
  split
  · have settled : (State.settleLists s (s.publish (s.completedFaces snap))).Shut := by
      rw [State.settleLists, (published.settleWaiting s).settleGrants]
      exact published.settleWaiting s
    exact (settled.weightNotice s hm).levelNotice _ ((State.weightNotice_reaches _ s).mode hm)
  · exact (published.levelNotice s hm).weightNotice s ((State.levelNotice_only s _).reaches.mode hm)

theorem State.windTest_of_shut (h : (s.channel c).Shut) : s.windTest c = s := by
  unfold State.windTest
  dsimp only
  rw [h.not_waits, h.not_runs]
  obtain h | h := h <;> simp [h]

theorem State.Shut.windHold (h : s.Shut) (hm : s.station.mode ≠ .auto) : s.windHold.Shut := by
  have tested : s.channelNumbers.foldl State.windTest s = s :=
    foldl_eq_self (fun c hc => State.windTest_of_shut (h.channels c (State.mem_channelNumbers.mp hc)))
  unfold State.windHold
  dsimp only
  rw [tested, State.grantScan_of_not_auto (by exact hm), ite_self]
  exact h.settleWaiting s

theorem Channel.dried_of_not_runs {ch : Channel} (dwell : Nat) (h : ch.state.runs = false) : ch.dried dwell = ch := by
  unfold Channel.dried
  split
  case h_1 hs | h_2 hs | h_3 hs =>
    rw [hs] at h
    cases h
  all_goals rfl

theorem State.activationNotices_grants (l : List Nat) (s : State) :
    (l.foldl State.activationNotice s).sweep.grants = s.sweep.grants ∧
      (l.foldl State.activationNotice s).sweep.waiting = s.sweep.waiting := by
  induction l generalizing s with
  | nil => exact ⟨rfl, rfl⟩
  | cons c l ih =>
    rw [List.foldl_cons, (ih _).1, (ih _).2]
    unfold State.activationNotice
    dsimp only
    split
    · exact ⟨rfl, rfl⟩
    · split
      · split <;> exact ⟨rfl, rfl⟩
      · exact ⟨rfl, rfl⟩

theorem State.recomputeMachines_grants (s : State) : s.recomputeMachines.sweep.grants = s.sweep.grants :=
  (State.activationNotices_grants _ s.rederived).1

theorem State.recomputeMachines_waiting (s : State) : s.recomputeMachines.sweep.waiting = s.sweep.waiting :=
  (State.activationNotices_grants _ s.rederived).2

theorem State.Shut.recomputation (h : s.Shut) : s.recomputeMachines.Shut := by
  refine ⟨s.recomputeMachines_grants.trans h.grants, s.recomputeMachines_waiting.trans h.waiting,
    State.Each.recomputation (fun dwell ch hch => ?_) h.channels⟩
  rwa [Channel.dried_of_not_runs dwell hch.not_runs]

theorem State.endPass_state (c d : Nat) : ((s.endPass c).channel d).state = (s.channel d).state :=
  State.onChannel_field Channel.state (fun ch => by unfold Channel.takeSwap; split <;> rfl) s c d

theorem State.bankChannel_of_shut (hc : c < s.sweep.channels.length) (hs : s.Shut) :
    (s.bankChannel c).Shut := by
  have pended : (s.onChannel c (fun ch => { ch with swapPending := decide (ch.bank ≠ s.sweep.requested) })).Shut :=
    ⟨hs.grants, hs.waiting, hs.channels.onChannel id⟩
  unfold State.bankChannel
  split
  · exact hs
  · dsimp only
    split
    · have ended : ((s.onChannel c (fun ch => { ch with swapPending := decide (ch.bank ≠ s.sweep.requested) })).endPass c).Shut := by
        refine ⟨hs.grants, hs.waiting, fun d hd => ?_⟩
        show Channel.Shut (State.channel (State.endPass _ c) d)
        unfold Channel.Shut
        rw [State.endPass_state]
        exact pended.channels d (by rwa [(State.endPass_within _ c).length] at hd)
      rw [State.treatLevel_of_shut (ended.channels c (by rwa [(State.endPass_within _ c).length, State.onChannel_length]))]
      exact ended
    · exact pended

theorem State.Shut.bankOrder (bk : Bank) (h : s.Shut) (hm : s.station.mode ≠ .auto) : (s.bankOrder bk).Shut := by
  have banked (l : List Nat) (u : State) (hu : u.Shut) (hl : ∀ c ∈ l, c < u.sweep.channels.length) :
      (l.foldl State.bankChannel u).Shut := by
    induction l generalizing u with
    | nil => exact hu
    | cons c l ih =>
      have hc := hl c List.mem_cons_self
      refine ih _ (State.bankChannel_of_shut hc hu) (fun d hd => ?_)
      rw [(u.bankChannel_within c).length]
      exact hl d (List.mem_cons_of_mem c hd)
  have settled := (banked (s.setSweep { s.sweep with requested := bk }).channelNumbers
    (s.setSweep { s.sweep with requested := bk }) (h.of_eq rfl rfl rfl) (fun c hc => State.mem_channelNumbers.mp hc)).settleWaiting s
  unfold State.bankOrder
  dsimp only
  split
  · rw [State.grantScan_of_not_auto]
    · exact settled
    · exact (State.SweepOnly.reaches ((s.setSweep_only _).trans (State.Within.of_fold State.bankChannel_within _ _).only)).mode hm
  · exact settled

theorem Channel.hush_state (bk : Bank) (ch : Channel) :
    (ch.hush bk).state = if ch.state = .faulted then .faulted else .hushed := by
  unfold Channel.hush Channel.takeSwap
  split
  next h => exact h
  next => split <;> rfl

/-- A hush leaves no grant, no channel waiting, and every channel HUSHED or FAULTED (R138). -/
theorem State.sweepHush_shut (s : State) : s.sweepHush.Shut := by
  have hushed : (s.setSweep { s.sweep with
      channels := s.sweep.channels.map (Channel.hush s.sweep.requested), grants := [], waiting := [] }).Shut := by
    refine ⟨rfl, rfl, fun c hc => ?_⟩
    rw [State.channel_eq_getElem hc]
    simp only [State.setSweep_sweep, List.getElem_map, Channel.Shut, Channel.hush_state]
    split
    · exact .inr rfl
    · exact .inl rfl
  unfold State.sweepHush
  dsimp only
  split
  · exact hushed
  · exact hushed.of_eq rfl rfl rfl

theorem State.changeMode_mode (m : Mode) : (s.changeMode m).station.mode = m := by rw [State.changeMode_station]

theorem State.changeMode_shut {m : Mode} (h : m ≠ .auto) : (s.changeMode m).Shut := by
  rw [State.changeMode]
  dsimp only
  rw [if_neg h]
  exact State.sweepHush_shut _

/-- Every move leaves the sweep engine shut outside AUTO, where it found it so. -/
theorem State.Moves.shut (h : s.Moves t) (hs : s.station.mode ≠ .auto → s.Shut) : t.station.mode ≠ .auto → t.Shut := by
  induction h with
  | stays h => exact fun hm => (hs (mt h.auto.mpr hm)).of_eq h.channels h.grants h.waiting
  | trans _ _ ih ih' => exact ih' (ih hs)
  | time s =>
    intro hm
    obtain ⟨grants, waiting, channels⟩ := hs hm
    refine ⟨grants, waiting, fun c hc => ?_⟩
    rw [State.blocksPassTime_length] at hc
    rw [State.blocksPassTime_channel hc]
    exact channels c hc
  | reset s => exact fun _ => ⟨rfl, rfl, fun c hc => absurd hc (Nat.not_lt_zero c)⟩
  | load s cfg => exact fun _ => State.changeMode_shut (by decide)
  | handOver s sR sF =>
    intro hm
    rw [(s.handOver_only sR sF).station] at hm
    exact (hs hm).handOver sR sF hm
  | completion s snap weightsFirst =>
    intro hm
    rw [s.complete_reaches snap weightsFirst .station (by decide)] at hm
    exact (hs hm).complete snap weightsFirst hm
  | windHold s =>
    intro hm
    rw [s.windHold_only.station] at hm
    exact (hs hm).windHold hm
  | recomputation s =>
    intro hm
    rw [s.recomputeMachines_within.only.station] at hm
    exact (hs hm).recomputation
  | @slewEnds s c h =>
    intro hm
    exact absurd ((hs hm).not_runs c) (by simp [h, ChannelState.runs])
  | @valveOpens s c h =>
    intro hm
    exact absurd ((hs hm).not_runs c) (by simp [h, ChannelState.runs])
  | @fault s c h =>
    intro hm
    rw [(s.faultChannel_only c).station] at hm
    exact absurd ((hs hm).not_runs c) (by simp [h])
  | @stepEnd s c h =>
    intro hm
    rw [(s.stepEnd_only c).station] at hm
    exact absurd ((hs hm).not_runs c) (by obtain h | h := h <;> simp [h, ChannelState.runs])
  | changeMode s m =>
    intro hm
    rw [State.changeMode_mode] at hm
    exact State.changeMode_shut hm
  | bankOrder s bk =>
    intro hm
    rw [(s.bankOrder_only bk).station] at hm
    exact (hs hm).bankOrder bk hm

theorem State.closedOutsideAuto_iff : s.ClosedOutsideAuto ↔ (s.station.mode ≠ .auto → s.Shut) :=
  imp_congr_right fun _ => ⟨fun ⟨grants, waiting, channels⟩ => ⟨grants, waiting, State.forall_channel.mp channels⟩,
    fun ⟨grants, waiting, channels⟩ => ⟨grants, waiting, State.forall_channel.mpr channels⟩⟩

/-- With the sweep engine shut and the valves telling, no valve output is asserted. -/
theorem State.Shut.valveOutput (h : s.Shut) (hv : s.ValvesTell) (c : Nat) : s.valveOutput c = false := by
  rw [State.valveOutput]
  cases hch : s.sweep.channels[c]? with
  | none => rfl
  | some ch =>
    have hm := List.mem_of_getElem? hch
    refine Bool.eq_false_iff.mpr (fun hopen => ChannelState.not_open_of_not_runs ?_ ((hv ch hm).mp hopen))
    exact (State.forall_channel.mpr h.channels ch hm).not_runs

end

/-! ## The hush's items -/

/-- The remembered mode and the hush hold timer stand exactly while the mode is HUSHED (R173, R174). -/
def Station.HushTells (st : Station) : Prop :=
  (st.remembered.isSome = true ↔ st.mode = .hushed) ∧ (st.hushTimer.isSome = true ↔ st.mode = .hushed)

section
variable {s t : State}

theorem Station.HushTells.of_eq {x y : Station} (h : x.HushTells) (mode : y.mode = x.mode) (remembered : y.remembered = x.remembered)
    (timer : y.hushTimer = x.hushTimer) : y.HushTells := by
  rw [Station.HushTells, mode, remembered, timer]
  exact h

theorem Station.HushTells.none {x : Station} (h : x.HushTells) (hm : x.mode ≠ .hushed) :
    x.remembered = Option.none ∧ x.hushTimer = Option.none := by
  constructor
  · exact Option.not_isSome_iff_eq_none.mp (mt h.1.mp hm)
  · exact Option.not_isSome_iff_eq_none.mp (mt h.2.mp hm)

theorem Station.HushTells.change {x : Station} {m : Mode} (h : x.HushTells) (hx : x.mode ≠ .hushed) (hm : m ≠ .hushed) :
    Station.HushTells { x with mode := m } := by
  obtain ⟨remembered, timer⟩ := h.none hx
  simp [Station.HushTells, remembered, timer, hm]

theorem Target.mode_ne_hushed (g : Target) : g.mode ≠ .hushed := by cases g <;> decide
theorem Remembered.mode_ne_hushed (r : Remembered) : r.mode ≠ .hushed := by cases r <;> decide

theorem State.enterHush_hushTells (r : Remembered) : (s.enterHush r).station.HushTells := by
  simp [State.enterHush, Station.HushTells, State.fullHush]

theorem State.hush_hushTells (h : s.station.HushTells) : s.hush.station.HushTells := by
  unfold State.hush
  split
  · exact State.enterHush_hushTells _
  · exact State.enterHush_hushTells _
  · exact State.enterHush_hushTells _
  · rename_i hm
    exact ⟨h.1, by simp [State.fullHush, hm]⟩
  · exact h
  · exact h

theorem State.endHush_hushTells (h : s.station.HushTells) : s.endHush.station.HushTells := by
  unfold State.endHush
  split
  · rename_i r _
    simp [Station.HushTells, r.mode_ne_hushed]
  · exact h

theorem State.modeOrder_hushTells (g : Target) (h : s.station.HushTells) : (s.modeOrder g).station.HushTells := by
  unfold State.modeOrder
  split
  · exact h
  · rename_i hm
    split
    · rw [State.changeMode_station]
      exact h.change (by simp [hm]) (by decide)
    · exact h
  · rename_i hm
    split
    · rw [State.changeMode_station]
      exact h.change (by simp [hm]) (by decide)
    · exact h
  · rename_i hm
    split
    · exact h
    · exact ⟨by simp [hm], h.2⟩
    · exact ⟨by simp [hm], h.2⟩
    · exact h
  · exact h
  · exact h

theorem State.listeningEnds_hushTells (h : s.station.HushTells) : s.listeningEnds.station.HushTells := by
  have stopped : Station.HushTells { s.station with listeningTimer := none } := h
  unfold State.listeningEnds
  dsimp only
  split
  · rename_i hm
    rw [State.changeMode_station]
    exact stopped.change (by simp [hm]) (Target.mode_ne_hushed _)
  · rename_i hm hr
    exact ⟨by simp [hm], h.2⟩
  · exact stopped

/-- What a dispatch's owner keeps of the station, whatever the queue, the dispatch keeps. -/
theorem State.dispatch_station {P : Station → Prop} (mine : Frame → Bool) {owner : State → Frame → State}
    (h : ∀ (t : State) (f : Frame), P t.station → P (owner t f).station) (hs : P s.station) :
    P (s.dispatch mine owner).station := by
  obtain stays | ⟨f, -, -, -, -, ⟨-, conflict⟩ | ⟨-, owned⟩⟩ := s.dispatch_cases mine owner
  · rwa [stays]
  · rwa [conflict]
  · rw [owned]
    exact h _ f hs

theorem State.loadSucceeds_hushTells (cfg : StationCfg) (h : s.station.HushTells) (hm : s.station.mode = .starting) :
    (s.loadSucceeds cfg).station.HushTells := by
  rw [State.loadSucceeds, State.changeMode_station]
  have started : ((s.configured cfg).startTimers).station.HushTells := h
  exact started.change (by show s.station.mode ≠ .hushed; simp [hm]) (by decide)

theorem State.loading_mode (h : s.loading = true) : s.station.mode = .starting := by
  simp only [State.loading, Bool.and_eq_true, decide_eq_true_eq] at h
  exact h.1

/-- Every command keeps a hush's items exactly while the mode is HUSHED. -/
theorem State.after_hushTells (c : Instr) (h : s.station.HushTells) : (s.after c).station.HushTells := by
  have guarded {p : Prop} [Decidable p] {t : State} (ht : p → t.station.HushTells) :
      (if p then t else s).station.HushTells := by
    split
    next hp => exact ht hp
    next => exact h
  cases c with
  | reset => simp [State.after_reset, State.inReset, State.reset, Station.reset, Station.HushTells]
  | resetRelease => exact guarded (fun _ => h)
  | loadSuccess memory =>
    refine guarded (fun hl => ?_)
    split
    · exact State.loadSucceeds_hushTells _ h (State.loading_mode hl)
    · exact h
  | loadFailure memory =>
    refine guarded (fun hl => ?_)
    split
    · exact h
    · exact h.change (m := .fault) (by simp [State.loading_mode hl]) (by decide)
  | pressureSample reading =>
    refine guarded (fun _ => ?_)
    unfold State.samplePressure
    dsimp only
    split <;> exact h
  | breakSendEnd =>
    refine guarded (fun _ => ?_)
    dsimp only
    split
    · exact State.hush_hushTells (s := (s.setLine _).setStation _) h
    · exact h
  | breakHeard => exact guarded (fun _ => State.hush_hushTells (s := (s.setLine _).setStation _) h)
  | dispatchOrderMode =>
    refine State.dispatch_station _ (fun t f ht => ?_) h
    unfold State.obey State.obeyMode
    split
    · split
      · exact State.modeOrder_hushTells _ ht
      · exact State.modeOrder_hushTells _ ht
      · exact ht
    · exact ht
  | dispatchOrderResume =>
    refine State.dispatch_station _ (fun t f ht => ?_) h
    unfold State.obey State.resume
    dsimp only
    split
    · split
      · exact State.endHush_hushTells ht
      · exact ht
    · exact ht
  | listeningTimerExpiry => exact guarded (fun _ => State.listeningEnds_hushTells h)
  | hushHoldExpiry => exact guarded (fun _ => State.endHush_hushTells h)
  | reportTimerExpiry => exact guarded (fun _ => h)
  | faultPatternTick =>
    rw [State.after_faultPatternTick]
    split <;> exact h
  | _ =>
    rw [s.after_reaches _ .station (by simp [touched])]
    exact h

theorem State.timePasses_hushTells (h : s.station.HushTells) : s.timePasses.station.HushTells := by
  unfold State.timePasses
  split
  · exact h
  · exact h
  all_goals exact ⟨h.1, by simpa [State.blocksPassTime, countDown] using h.2⟩

theorem State.HushTells.step (hs : s.HushTells) (h : step s = .next t) : t.HushTells :=
  step_keeps (P := fun s => s.station.HushTells) (fun _ _ h => h) (fun _ => State.timePasses_hushTells)
    (fun _ c => State.after_hushTells c) hs h

end

/-- Settles O57: the valves by the channels' states, the hush's items command by command, and the sweep engine shut outside AUTO. -/
theorem stepKeepsValvesShut : Obligations.StepKeepsValvesShut := by
  refine ⟨fun s t hs h => hs.step h, fun s t hs h => hs.step h, fun s t hs hv h => ?_⟩
  have shut := (step_moves h).shut (State.closedOutsideAuto_iff.mp hs)
  exact ⟨State.closedOutsideAuto_iff.mpr shut, fun hm => (shut hm).valveOutput (hv.step h)⟩

end Sys2Proof.Machine
end

