-- ==== Sys2Proof/Proofs/GrantOrders.lean ====
section
/-! The two lists of the sweep engine, operation by operation: that they name exactly the running and the waiting channels, that they
stand in order of priority, and that the grants stand within the shares. -/

namespace Sys2Proof.Machine

/-! ## Priorities kept -/

/-- Every channel has the priority it had. -/
def State.SamePriority (s t : State) : Prop := ∀ c, t.priority c = s.priority c

section
variable {s t u : State} {c d : Nat}

theorem State.SamePriority.refl (s : State) : s.SamePriority s := fun _ => rfl

theorem State.SamePriority.trans (h : s.SamePriority t) (k : t.SamePriority u) : s.SamePriority u := fun c => (k c).trans (h c)

theorem State.SamePriority.of_place (h : ∀ c, s.KeepsPlace t c) (r : s.ReadsAs t) : s.SamePriority t := fun c => (h c).priority r

theorem State.SamePriority.of_guard {p : Prop} [Decidable p] (h : s.SamePriority t) : s.SamePriority (if p then t else s) := by
  split
  · exact h
  · exact .refl s

theorem State.onChannel_keepsPlace {u : Channel → Channel} (bank : ∀ ch, (u ch).bank = ch.bank)
    (cursor : ∀ ch, (u ch).cursor = ch.cursor) (s : State) (c d : Nat) : s.KeepsPlace (s.onChannel c u) d :=
  ⟨State.onChannel_field Channel.bank bank s c d, State.onChannel_field Channel.cursor cursor s c d⟩

theorem State.onChannel_samePriority {u : Channel → Channel} (bank : ∀ ch, (u ch).bank = ch.bank)
    (cursor : ∀ ch, (u ch).cursor = ch.cursor) (s : State) (c : Nat) : s.SamePriority (s.onChannel c u) :=
  .of_place (State.onChannel_keepsPlace bank cursor s c) (s.onChannel_within c u).readsAs

theorem State.release_keepsPlace (s : State) (c d : Nat) : s.KeepsPlace (s.release c) d := by
  rw [State.KeepsPlace, s.release_channel c d]
  exact ⟨rfl, rfl⟩

theorem State.release_samePriority (s : State) (c : Nat) : s.SamePriority (s.release c) :=
  .of_place (s.release_keepsPlace c) (s.release_within c).readsAs

theorem State.grant_samePriority (s : State) (c : Nat) : s.SamePriority (s.grant c) := s.grant_priority c

theorem State.SamePriority.insertFront (h : s.SamePriority t) (c : Nat) (l : List Nat) :
    t.insertFront c l = s.insertFront c l := by
  simp only [State.insertFront, show ∀ d, t.priority d = s.priority d from h]

/-! ## One revocation -/

/-- The last grant `g` taken away, before the funds of the rest are re-derived (R129). -/
def State.revoked (s : State) (g : Grant) : State :=
  (s.onChannel g.channel (fun ch => { ch.stopped with state := .denied })).setSweep
    { (s.onChannel g.channel (fun ch => { ch.stopped with state := .denied })).sweep with
      grants := s.sweep.grants.dropLast, waiting := s.insertFront g.channel s.sweep.waiting }

theorem State.denied_samePriority (s : State) (c : Nat) :
    s.SamePriority (s.onChannel c (fun ch => { ch.stopped with state := .denied })) :=
  State.onChannel_samePriority (by exact fun _ => rfl) (by exact fun _ => rfl) s c

theorem State.revokeLast_of_last {g : Grant} (h : s.sweep.grants.getLast? = some g) :
    s.revokeLast = (s.revoked g).deriveFunds.noticeGt := by
  unfold State.revokeLast State.revoked
  rw [h, ← (s.denied_samePriority g.channel).insertFront]
  rfl

theorem State.revokeLast_of_nil (h : s.sweep.grants.getLast? = none) : s.revokeLast = s := by
  rw [State.revokeLast, h]

theorem State.revoked_within (s : State) (g : Grant) : s.Within (s.revoked g) :=
  (s.onChannel_within g.channel _).trans (State.setLists_within _ _ _ _ rfl)

theorem State.revoked_channel_of_ne {g : Grant} (h : d ≠ g.channel) : (s.revoked g).channel d = s.channel d :=
  State.channel_onChannel_of_ne h

theorem State.revoked_channel {g : Grant} (h : g.channel < s.sweep.channels.length) :
    (s.revoked g).channel g.channel = { (s.channel g.channel).stopped with state := .denied } :=
  State.channel_onChannel_self h

theorem State.revoked_keepsPlace (s : State) (g : Grant) (d : Nat) : s.KeepsPlace (s.revoked g) d :=
  State.onChannel_keepsPlace (by exact fun _ => rfl) (by exact fun _ => rfl) s g.channel d

section
variable {g : Grant} (h : s.sweep.grants.getLast? = some g)
include h

theorem State.revokeLast_waiting : s.revokeLast.sweep.waiting = s.insertFront g.channel s.sweep.waiting := by
  rw [State.revokeLast_of_last h, State.noticeGt_sweep, State.deriveFunds_waiting]
  rfl

theorem State.revokeLast_grants : s.revokeLast.sweep.grants = s.fundsFrom 0 s.sweep.grants.dropLast := by
  rw [State.revokeLast_of_last h, State.noticeGt_sweep, State.deriveFunds_grants]
  exact (s.revoked_within g).readsAs.fundsFrom (s.revoked_within g).sR 0 _

theorem State.revokeLast_map_channel :
    s.revokeLast.sweep.grants.map Grant.channel = s.sweep.grants.dropLast.map Grant.channel := by
  rw [State.revokeLast_grants h, State.fundsFrom_map_channel]

theorem State.revokeLast_channel (d : Nat) : s.revokeLast.channel d =
    { (s.revoked g).channel d with lastFund := (s.revokeLast.channel d).lastFund } := by
  rw [State.revokeLast_of_last h]
  exact State.deriveFunds_channel _ d

end

theorem State.revokeLast_keepsPlace (s : State) (d : Nat) : s.KeepsPlace s.revokeLast d := by
  cases h : s.sweep.grants.getLast? with
  | none =>
    rw [State.revokeLast_of_nil h]
    exact ⟨rfl, rfl⟩
  | some g =>
    obtain ⟨bank, cursor⟩ := s.revoked_keepsPlace g d
    rw [State.KeepsPlace, State.revokeLast_channel h d]
    exact ⟨bank, cursor⟩

theorem State.revokeLast_samePriority (s : State) : s.SamePriority s.revokeLast :=
  .of_place s.revokeLast_keepsPlace s.revokeLast_within.readsAs

/-- An induction over the revocations of a containment: a property kept by each of them is kept by all. -/
theorem State.contain_induction {P : State → Prop} (revoke : ∀ t : State, t.contained = false → P t → P t.revokeLast)
    (hs : P s) : P s.contain := by
  unfold State.contain
  generalize s.sweep.grants.length = n
  induction n generalizing s with
  | zero => exact hs
  | succ n ih =>
    unfold State.revokeUntilContained
    split
    · exact hs
    next hn => exact ih (revoke s (by simpa using hn) hs)

theorem State.contain_keepsPlace (s : State) (c : Nat) : s.KeepsPlace s.contain c := by
  refine State.contain_induction (P := fun t => s.KeepsPlace t c) (fun t _ ht => ?_) ⟨rfl, rfl⟩
  obtain ⟨bank, cursor⟩ := t.revokeLast_keepsPlace c
  exact ⟨bank.trans ht.1, cursor.trans ht.2⟩

theorem State.remark_channel (s : State) (c : Nat) :
    s.remark.channel c = { s.channel c with mark := (s.remark.channel c).mark } := by
  obtain hc | hc := Nat.lt_or_ge c s.sweep.channels.length
  · have hc' : c < s.remark.sweep.channels.length := by rwa [s.remark_within.length]
    rw [State.channel_eq_getElem hc, State.channel_eq_getElem hc']
    simp [State.remark]
  · rw [State.channel_of_length_le hc, State.channel_of_length_le (by rwa [s.remark_within.length])]

theorem State.remark_keepsPlace (s : State) (c : Nat) : s.KeepsPlace s.remark c := by
  rw [State.KeepsPlace, s.remark_channel c]
  exact ⟨rfl, rfl⟩

theorem State.remark_samePriority (s : State) : s.SamePriority s.remark :=
  .of_place s.remark_keepsPlace s.remark_within.readsAs

/-! ## Exactly the running and the waiting channels -/

/-- The grant list names exactly the running channels, each once (R127). -/
structure State.GrantsTell (s : State) : Prop where
  nodup : (s.sweep.grants.map Grant.channel).Nodup
  mem : ∀ c, c ∈ s.sweep.grants.map Grant.channel ↔ (s.channel c).state.runs = true

/-- The waiting order names exactly the waiting channels, each once (R119). -/
structure State.WaitingTells (s : State) : Prop where
  nodup : s.sweep.waiting.Nodup
  mem : ∀ c, c ∈ s.sweep.waiting ↔ (s.channel c).state.waits = true

/-- Both lists tell. -/
structure State.Tells (s : State) : Prop where
  grants : s.GrantsTell
  waiting : s.WaitingTells

theorem State.ordersTell_iff : s.OrdersTell ↔ s.Tells := by
  constructor
  · rintro ⟨hg, hw, grants, waiting, running, waits⟩
    refine ⟨⟨hg, fun c => ⟨fun h => ?_, fun h => running c ?_ h⟩⟩, ⟨hw, fun c => ⟨waiting c, fun h => waits c ?_ h⟩⟩⟩
    · obtain ⟨g, hg, rfl⟩ := List.mem_map.mp h
      exact grants g hg
    · exact State.mem_channelNumbers.mpr (State.lt_length_of_runs h)
    · exact State.mem_channelNumbers.mpr (State.lt_length_of_waits h)
  · rintro ⟨⟨hg, grants⟩, ⟨hw, waiting⟩⟩
    exact ⟨hg, hw, fun g h => (grants _).mp (List.mem_map_of_mem h), fun c => (waiting c).mp, fun c _ => (grants c).mpr,
      fun c _ => (waiting c).mpr⟩

theorem State.GrantsTell.lt_length (h : s.GrantsTell) {g : Grant} (hg : g ∈ s.sweep.grants) :
    g.channel < s.sweep.channels.length :=
  State.lt_length_of_runs ((h.mem _).mp (List.mem_map_of_mem hg))

theorem State.GrantsTell.of_eq (h : s.GrantsTell) (grants : t.sweep.grants.map Grant.channel = s.sweep.grants.map Grant.channel)
    (runs : ∀ c, (t.channel c).state.runs = (s.channel c).state.runs) : t.GrantsTell := by
  refine ⟨by rw [grants]; exact h.nodup, fun c => ?_⟩
  rw [grants, runs]
  exact h.mem c

theorem State.WaitingTells.of_eq (h : s.WaitingTells) (waiting : t.sweep.waiting = s.sweep.waiting)
    (waits : ∀ c, (t.channel c).state.waits = (s.channel c).state.waits) : t.WaitingTells := by
  refine ⟨by rw [waiting]; exact h.nodup, fun c => ?_⟩
  rw [waiting, waits]
  exact h.mem c

theorem State.Tells.of_eq (h : s.Tells) (grants : t.sweep.grants.map Grant.channel = s.sweep.grants.map Grant.channel)
    (waiting : t.sweep.waiting = s.sweep.waiting) (state : ∀ c, (t.channel c).state = (s.channel c).state) : t.Tells :=
  ⟨h.grants.of_eq grants (fun c => by rw [state]), h.waiting.of_eq waiting (fun c => by rw [state])⟩

theorem State.WaitingTells.of_settle (old : State) (h : old.sweep.waiting.Nodup) : (State.settleWaiting old s).WaitingTells :=
  ⟨State.settleWaiting_nodup h, fun _ => State.mem_settleWaiting⟩

theorem State.GrantsTell.settleGrants (old : State) (h : s.GrantsTell) : (State.settleGrants old s).GrantsTell := by
  have perm := (State.settleGrants_perm (old := old) (fun g hg => h.lt_length hg)).map Grant.channel
  exact ⟨perm.nodup_iff.mpr h.nodup, fun c => perm.mem_iff.trans (h.mem c)⟩

/-- A running channel stopped and released leaves the grant list (R126, R131, R133). -/
theorem State.GrantsTell.release {u : Channel → Channel} (h : s.GrantsTell) (hu : (u (s.channel c)).state.runs = false) :
    ((s.onChannel c u).release c).GrantsTell := by
  have map := (s.onChannel c u).release_map_channel c
  refine ⟨by rw [map]; exact h.nodup.filter _, fun d => ?_⟩
  rw [map, List.mem_filter, State.release_channel]
  by_cases hd : d = c
  · subst hd
    simp only [ne_eq, not_true_eq_false, decide_false, Bool.false_eq_true, and_false, false_iff, Bool.not_eq_true]
    obtain hc | hc := Nat.lt_or_ge d s.sweep.channels.length
    · rw [State.channel_onChannel_self hc, hu]
    · rw [State.channel_of_length_le (by rwa [State.onChannel_length])]
      rfl
  · rw [State.channel_onChannel_of_ne hd, ← h.mem d]
    simp [State.onChannel, hd]

theorem State.release_waitingTells {u : Channel → Channel} (h : s.WaitingTells)
    (hu : (u (s.channel c)).state.waits = (s.channel c).state.waits) : ((s.onChannel c u).release c).WaitingTells := by
  refine h.of_eq (State.release_waiting _ c) (fun d => ?_)
  rw [State.release_channel]
  by_cases hd : d = c
  · subst hd
    obtain hc | hc := Nat.lt_or_ge d s.sweep.channels.length
    · rw [State.channel_onChannel_self hc, hu]
    · rw [State.channel_onChannel_of_le hc]
  · rw [State.channel_onChannel_of_ne hd]

theorem ChannelState.runs_eq_false_of_waits {st : ChannelState} (h : st.waits = true) : st.runs = false := by
  obtain rfl | rfl := (ChannelState.waits_iff st).mp h <;> rfl

theorem State.Tells.revokeLast (h : s.Tells) : s.revokeLast.Tells := by
  cases hl : s.sweep.grants.getLast? with
  | none => rwa [State.revokeLast_of_nil hl]
  | some g =>
    have split : s.sweep.grants.dropLast ++ [g] = s.sweep.grants := List.dropLast_append_getLast? g hl
    have hg : g ∈ s.sweep.grants := by rw [← split]; simp
    have runs : (s.channel g.channel).state.runs = true := (h.grants.mem _).mp (List.mem_map_of_mem hg)
    have hc := State.lt_length_of_runs runs
    have notWaiting : g.channel ∉ s.sweep.waiting := fun hw =>
      absurd ((h.waiting.mem _).mp hw) (by simp [ChannelState.waits_eq_false_of_runs runs])
    have nodup := h.grants.nodup
    rw [← split, List.map_append, List.map_singleton] at nodup
    obtain ⟨nodup, -, apart⟩ := List.nodup_append.mp nodup
    have state (d : Nat) : (s.revokeLast.channel d).state = if d = g.channel then .denied else (s.channel d).state := by
      rw [State.revokeLast_channel hl]
      split
      next hd => rw [hd, State.revoked_channel hc]
      next hd => rw [State.revoked_channel_of_ne hd]
    refine ⟨⟨by rwa [State.revokeLast_map_channel hl], fun d => ?_⟩, ⟨?_, fun d => ?_⟩⟩
    · rw [State.revokeLast_map_channel hl, state]
      split
      next hd =>
        subst hd
        exact iff_of_false (fun hm => apart _ hm _ List.mem_cons_self rfl) (by decide)
      next hd =>
        rw [← h.grants.mem d]
        conv_rhs => rw [← split]
        simp [hd]
    · rw [State.revokeLast_waiting hl, (s.insertFront_perm _ _).nodup_iff]
      exact List.nodup_cons.mpr ⟨notWaiting, h.waiting.nodup⟩
    · rw [State.revokeLast_waiting hl, (s.insertFront_perm _ _).mem_iff, List.mem_cons, state]
      split
      next hd => exact iff_of_true (.inl hd) rfl
      next hd => rw [← h.waiting.mem d]; simp [hd]

theorem State.Tells.contain (h : s.Tells) : s.contain.Tells :=
  State.contain_induction (fun _ _ => State.Tells.revokeLast) h

theorem State.Tells.grant (h : s.Tells) (hc : c ∈ s.sweep.waiting) (hs : s.hasStep c = true) : (s.grant c).Tells := by
  have waits := (h.waiting.mem c).mp hc
  have hlen := State.lt_length_of_waits waits
  have notGranted : c ∉ s.sweep.grants.map Grant.channel := fun hg =>
    absurd ((h.grants.mem c).mp hg) (by simp [ChannelState.runs_eq_false_of_waits waits])
  have perm := (s.insertGrant_perm (s.newGrant c) s.sweep.grants).map Grant.channel
  refine ⟨⟨?_, fun d => ?_⟩, ⟨?_, fun d => ?_⟩⟩
  · rw [State.grant_grants, perm.nodup_iff]
    exact List.nodup_cons.mpr ⟨notGranted, h.grants.nodup⟩
  · rw [State.grant_grants, perm.mem_iff, List.map_cons, List.mem_cons]
    by_cases hd : d = c
    · subst hd
      rw [s.grant_state hs hlen]
      exact iff_of_true (.inl rfl) rfl
    · rw [State.grant_channel_of_ne _ hd, ← h.grants.mem d]
      exact or_iff_right hd
  · rw [State.grant_waiting]
    exact h.waiting.nodup.filter _
  · rw [State.grant_waiting, List.mem_filter]
    by_cases hd : d = c
    · subst hd
      rw [s.grant_state hs hlen]
      exact iff_of_false (by simp) (by decide)
    · rw [State.grant_channel_of_ne _ hd, ← h.waiting.mem d]
      simp [hd]

theorem State.hasStep_of_grantable (h : s.grantable c = true) : s.hasStep c = true := by
  simp only [State.grantable, Bool.and_eq_true] at h
  exact h.1.1

theorem State.fits_of_grantable (h : s.grantable c = true) : s.fits c s.granted s.sweep.grants = true := by
  simp only [State.grantable, Bool.and_eq_true] at h
  exact h.2

/-- A walk over channels that wait, each once: a property of telling states that every grant keeps. -/
theorem State.scanWalk_induction {P : State → Prop}
    (grant : ∀ (t : State) (c : Nat), t.Tells → c ∈ t.sweep.waiting → t.grantable c = true → P t → P (t.grant c))
    {l : List Nat} (hl : l.Nodup) (sub : ∀ c ∈ l, c ∈ s.sweep.waiting) (h : s.Tells) (hs : P s) :
    (s.scanWalk l).Tells ∧ P (s.scanWalk l) := by
  induction l generalizing s with
  | nil => exact ⟨h, hs⟩
  | cons c l ih =>
    obtain ⟨hc, hl⟩ := List.nodup_cons.mp hl
    have waits := sub c List.mem_cons_self
    show (State.scanWalk (if s.grantable c then s.grant c else s) l).Tells ∧
      P (State.scanWalk (if s.grantable c then s.grant c else s) l)
    split
    next hg =>
      refine ih hl (fun d hd => ?_) (h.grant waits (State.hasStep_of_grantable hg)) (grant s c h waits hg hs)
      rw [State.grant_waiting, List.mem_filter]
      exact ⟨sub d (List.mem_cons_of_mem c hd), by simpa using fun hdc : d = c => hc (hdc ▸ hd)⟩
    next => exact ih hl (fun d hd => sub d (List.mem_cons_of_mem c hd)) h hs

theorem State.Tells.remark (h : s.Tells) : s.remark.Tells :=
  h.of_eq rfl rfl (fun c => by rw [State.remark_channel])

theorem State.Tells.grantScan (h : s.Tells) : s.grantScan.Tells := by
  unfold State.grantScan
  split
  · exact ((State.scanWalk_induction (P := fun _ => True) (fun _ _ _ _ _ _ => trivial) h.waiting.nodup (fun _ => id) h
      trivial).1).remark
  · exact h

theorem State.Tells.handOver (sR sF : Nat) (h : s.Tells) : (s.handOver sR sF).Tells := by
  have shared : (s.withShares sR sF).Tells := h.of_eq rfl rfl (fun _ => rfl)
  rw [State.handOver_eq]
  split
  · exact shared.contain
  · exact shared.grantScan

/-! ## Order of priority -/

/-- Both lists stand in order of priority, highest first (R119, R127). -/
structure State.Descends (s : State) : Prop where
  grants : s.GrantsDescend s.sweep.grants
  waiting : s.ChannelsDescend s.sweep.waiting

theorem State.SamePriority.channelsDescend (h : s.SamePriority t) {l : List Nat} (hl : s.ChannelsDescend l) :
    t.ChannelsDescend l := hl.congr (fun c _ => h c)

theorem State.SamePriority.grantsDescend (h : s.SamePriority t) {l : List Grant} (hl : s.GrantsDescend l) :
    t.GrantsDescend l := hl.congr (fun g _ => h g.channel)

theorem State.GrantsDescend.of_channels {l l' : List Grant} (h : s.GrantsDescend l)
    (hl : l'.map Grant.channel = l.map Grant.channel) : s.GrantsDescend l' := by
  rw [State.grantsDescend_iff, hl, ← State.grantsDescend_iff]
  exact h

theorem State.Descends.of_eq (h : s.Descends) (same : s.SamePriority t) (grants : t.sweep.grants = s.sweep.grants)
    (waiting : t.sweep.waiting = s.sweep.waiting) : t.Descends := by
  refine ⟨?_, ?_⟩
  · rw [grants]
    exact same.grantsDescend h.grants
  · rw [waiting]
    exact same.channelsDescend h.waiting

theorem State.Descends.revokeLast (h : s.Descends) : s.revokeLast.Descends := by
  cases hl : s.sweep.grants.getLast? with
  | none => rwa [State.revokeLast_of_nil hl]
  | some g =>
    refine ⟨?_, ?_⟩
    · refine (s.revokeLast_samePriority.grantsDescend ?_)
      exact State.GrantsDescend.of_channels (List.Pairwise.sublist (List.dropLast_sublist _) h.grants)
        (State.revokeLast_map_channel hl)
    · rw [State.revokeLast_waiting hl]
      exact s.revokeLast_samePriority.channelsDescend (s.insertFront_descends _ h.waiting)

theorem State.Descends.contain (h : s.Descends) : s.contain.Descends :=
  State.contain_induction (fun _ _ => State.Descends.revokeLast) h

theorem State.Descends.grant (c : Nat) (h : s.Descends) : (s.grant c).Descends := by
  refine ⟨?_, ?_⟩
  · rw [State.grant_grants]
    exact (s.grant_samePriority c).grantsDescend (s.insertGrant_descends _ h.grants)
  · rw [State.grant_waiting]
    exact (s.grant_samePriority c).channelsDescend (List.Pairwise.filter _ h.waiting)

theorem State.Descends.scanWalk (l : List Nat) (h : s.Descends) : (s.scanWalk l).Descends := by
  induction l generalizing s with
  | nil => exact h
  | cons c l ih =>
    show (State.scanWalk (if s.grantable c then s.grant c else s) l).Descends
    split
    · exact ih (h.grant c)
    · exact ih h

theorem State.Descends.grantScan (h : s.Descends) : s.grantScan.Descends := by
  unfold State.grantScan
  split
  · exact (h.scanWalk _).of_eq (State.remark_samePriority _) rfl rfl
  · exact h

theorem State.Descends.handOver (sR sF : Nat) (h : s.Descends) : (s.handOver sR sF).Descends := by
  have shared : (s.withShares sR sF).Descends := h.of_eq (.of_place (fun _ => ⟨rfl, rfl⟩) (s.setSweep_only _).readsAs) rfl rfl
  rw [State.handOver_eq]
  split
  · exact shared.contain
  · exact shared.grantScan

/-- A release of `c` leaves the grant list in order where the other grants stood in order. -/
theorem State.release_grantsDescend (c : Nat) (h : s.GrantsDescend (s.sweep.grants.filter (fun g => g.channel ≠ c))) :
    (s.release c).GrantsDescend (s.release c).sweep.grants := by
  refine (s.release_samePriority c).grantsDescend (h.of_channels ?_)
  rw [State.release_grants, State.fundsFrom_map_channel]

theorem State.Descends.release (c : Nat) (h : s.Descends) : (s.release c).Descends := by
  refine ⟨State.release_grantsDescend c (List.Pairwise.filter _ h.grants), ?_⟩
  rw [State.release_waiting]
  exact (s.release_samePriority c).channelsDescend h.waiting

/-! ## Within the shares -/

theorem State.contained_iff : s.contained = true ↔
    s.granted ≤ s.sweep.sR + s.sweep.sF ∧ ((∀ g ∈ s.sweep.grants, s.priority g.channel = .heavy) ∨ s.granted ≤ s.sweep.sR) := by
  simp [State.contained, State.allHeavy, List.all_eq_true]

theorem State.grantsHold_iff : s.GrantsHold ↔ s.contained = true := by
  rw [State.contained_iff]
  refine and_congr_right fun _ => ?_
  constructor
  · intro h
    by_cases hall : ∀ g ∈ s.sweep.grants, s.priority g.channel = .heavy
    · exact .inl hall
    · push Not at hall
      exact .inr (h hall)
  · rintro (hall | hle) ⟨g, hg, hne⟩
    · exact absurd (hall g hg) hne
    · exact hle

/-- Fewer grants, of no lower priority, stand within shares no smaller. -/
theorem State.contained_mono (h : s.contained = true) (granted : t.granted ≤ s.granted) (sR : s.sweep.sR ≤ t.sweep.sR)
    (sF : s.sweep.sF ≤ t.sweep.sF) (heavy : (∀ g ∈ s.sweep.grants, s.priority g.channel = .heavy) →
      ∀ g ∈ t.sweep.grants, t.priority g.channel = .heavy) : t.contained = true := by
  rw [State.contained_iff] at h ⊢
  exact ⟨by omega, h.2.imp heavy (by omega)⟩

theorem State.granted_of_channels (r : s.ReadsAs t) (h : t.sweep.grants.map Grant.channel = s.sweep.grants.map Grant.channel) :
    t.granted = s.granted := by
  rw [State.granted, State.granted, r.flowOf]
  exact s.flowOf_eq_of_channels h

theorem State.contained_of_eq (h : s.contained = true) (r : s.ReadsAs t) (same : s.SamePriority t)
    (grants : t.sweep.grants.map Grant.channel = s.sweep.grants.map Grant.channel) (sR : s.sweep.sR ≤ t.sweep.sR)
    (sF : s.sweep.sF ≤ t.sweep.sF) : t.contained = true := by
  refine State.contained_mono h (State.granted_of_channels r grants).le sR sF (fun hall g hg => ?_)
  have hm : g.channel ∈ s.sweep.grants.map Grant.channel := by
    rw [← grants]
    exact List.mem_map_of_mem hg
  obtain ⟨g', hg', hch⟩ := List.mem_map.mp hm
  rw [same, ← hch, hall g' hg']

/-- A release of `c` from grants that stood within the shares, whatever has become of the priority of `c`. -/
theorem State.contained_release_of (h : s.contained = true) (c : Nat) (r : s.ReadsAs t) (other : ∀ d, d ≠ c → t.priority d = s.priority d)
    (grants : t.sweep.grants = s.sweep.grants) (sR : t.sweep.sR = s.sweep.sR) (sF : t.sweep.sF = s.sweep.sF) :
    (t.release c).contained = true := by
  have w := t.release_within c
  refine State.contained_mono h ?_ (by rw [w.sR, sR]) (by rw [w.sF, sF]) (fun hall g hg => ?_)
  · rw [State.granted, State.granted, w.readsAs.flowOf, r.flowOf, State.release_grants,
      State.flowOf_eq_of_channels _ (State.fundsFrom_map_channel ..), grants]
    exact State.flowOf_sublist _ List.filter_sublist
  · have hm : g.channel ∈ (t.release c).sweep.grants.map Grant.channel := List.mem_map_of_mem hg
    rw [State.release_map_channel, List.mem_filter, grants] at hm
    obtain ⟨g', hg', hch⟩ := List.mem_map.mp hm.1
    rw [t.release_samePriority c, other _ (of_decide_eq_true hm.2), ← hch, hall g' hg']

theorem State.contained_release (h : s.contained = true) (c : Nat) : (s.release c).contained = true :=
  State.contained_release_of h c (.refl s) (fun _ _ => rfl) rfl rfl rfl

theorem State.granted_grant (s : State) (c : Nat) : (s.grant c).granted = s.granted + s.flow c := by
  rw [State.granted, (s.grant_within c).readsAs.flowOf, State.grant_grants, s.flowOf_perm (s.insertGrant_perm _ _),
    State.flowOf_cons, State.granted, Nat.add_comm]
  rfl

theorem State.fits_iff (c total : Nat) (others : List Grant) : s.fits c total others = true ↔
    total + s.flow c ≤ s.sweep.sR ∨ (s.priority c = .heavy ∧ (∀ g ∈ others, s.priority g.channel = .heavy)
      ∧ total + s.flow c ≤ s.sweep.sR + s.sweep.sF) := by
  simp [State.fits, State.allHeavy, List.all_eq_true, and_assoc]

/-- A grant that fits leaves the grants within the shares (R128). -/
theorem State.contained_grant (c : Nat) (h : s.fits c s.granted s.sweep.grants = true) : (s.grant c).contained = true := by
  have w := s.grant_within c
  rw [State.contained_iff, State.granted_grant, w.sR, w.sF]
  rw [State.fits_iff] at h
  obtain hle | ⟨heavy, all, hle⟩ := h
  · exact ⟨by omega, .inr hle⟩
  · refine ⟨hle, .inl (fun g hg => ?_)⟩
    rw [State.grant_grants, (s.insertGrant_perm _ _).mem_iff, List.mem_cons] at hg
    rw [s.grant_samePriority c]
    obtain rfl | hg := hg
    · exact heavy
    · exact all g hg

theorem State.contained_scanWalk (l : List Nat) (h : s.contained = true) : (s.scanWalk l).contained = true := by
  induction l generalizing s with
  | nil => exact h
  | cons c l ih =>
    show (State.scanWalk (if s.grantable c then s.grant c else s) l).contained = true
    split
    next hg => exact ih (s.contained_grant c (State.fits_of_grantable hg))
    next => exact ih h

theorem State.contained_grantScan (h : s.contained = true) : s.grantScan.contained = true := by
  unfold State.grantScan
  split
  · have w := (s.scanWalk s.sweep.waiting).remark_within
    exact State.contained_of_eq (s.contained_scanWalk _ h) w.readsAs (State.remark_samePriority _) rfl w.sR.ge w.sF.ge
  · exact h

/-- With as many revocations as there are grants the list comes to stand within the shares (R129). -/
theorem State.contained_contain (s : State) : s.contain.contained = true := by
  have key (n : Nat) (s : State) (h : s.sweep.grants.length ≤ n) : (State.revokeUntilContained n s).contained = true := by
    induction n generalizing s with
    | zero =>
      have hnil : s.sweep.grants = [] := List.eq_nil_of_length_eq_zero (Nat.le_zero.mp h)
      simp [State.revokeUntilContained, State.contained, State.granted, State.flowOf, State.allHeavy, hnil]
    | succ n ih =>
      unfold State.revokeUntilContained
      split
      next hc => exact hc
      next =>
        refine ih s.revokeLast ?_
        cases hl : s.sweep.grants.getLast? with
        | none =>
          rw [State.revokeLast_of_nil hl, List.getLast?_eq_none_iff.mp hl]
          exact Nat.zero_le n
        | some g =>
          rw [State.revokeLast_grants hl, State.fundsFrom_length, List.length_dropLast]
          omega
  exact key _ s le_rfl

/-- A hand-over leaves the grants within the shares, where they stood within them (R127, R129). -/
theorem State.contained_handOver (sR sF : Nat) (h : s.contained = true) : (s.handOver sR sF).contained = true := by
  rw [State.handOver_eq]
  split
  · exact State.contained_contain _
  next hk =>
    refine State.contained_grantScan ?_
    by_contra hc
    refine hk ⟨?_, by simpa using hc⟩
    by_contra hs
    push Not at hs
    exact hc (State.contained_of_eq h (s.setSweep_only _).readsAs (.of_place (fun _ => ⟨rfl, rfl⟩) (s.setSweep_only _).readsAs) rfl
      hs.1 hs.2)

end

end Sys2Proof.Machine
end

