-- ==== Sys2Proof/Proofs/OrderInvariants.lean ====
section
/-! The two lists event by event, and the invariants of the lists (O58) and of the shares (O59). -/

namespace Sys2Proof.Machine

/-! ## Treatments that leave the grants -/

/-- From `s` to `t` the lists stand, and every running channel runs on with its bank and cursor; no other channel runs. -/
structure State.KeepsGrants (s t : State) : Prop where
  grants : t.sweep.grants = s.sweep.grants
  waiting : t.sweep.waiting = s.sweep.waiting
  runs : ∀ c, (t.channel c).state.runs = (s.channel c).state.runs
  place : ∀ c, (s.channel c).state.runs = true → s.KeepsPlace t c

section
variable {s t u : State} {c d : Nat}

theorem State.KeepsGrants.refl (s : State) : s.KeepsGrants s := ⟨rfl, rfl, fun _ => rfl, fun _ _ => ⟨rfl, rfl⟩⟩

theorem State.KeepsGrants.trans (h : s.KeepsGrants t) (k : t.KeepsGrants u) : s.KeepsGrants u where
  grants := k.grants.trans h.grants
  waiting := k.waiting.trans h.waiting
  runs c := (k.runs c).trans (h.runs c)
  place c hc := by
    obtain ⟨bank, cursor⟩ := h.place c hc
    obtain ⟨bank', cursor'⟩ := k.place c ((h.runs c).trans hc)
    exact ⟨bank'.trans bank, cursor'.trans cursor⟩

theorem State.KeepsGrants.of_fold {α : Type} {f : State → α → State} (h : ∀ (s : State) (a : α), State.KeepsGrants s (f s a))
    (l : List α) (s : State) : s.KeepsGrants (l.foldl f s) := by
  induction l generalizing s with
  | nil => exact .refl s
  | cons a l ih => exact (h s a).trans (ih (f s a))

theorem State.KeepsGrants.of_guard {p : Prop} [Decidable p] (h : p → s.KeepsGrants t) : s.KeepsGrants (if p then t else s) := by
  split
  next hp => exact h hp
  next => exact .refl s

theorem State.KeepsGrants.tells (k : s.KeepsGrants t) (h : s.GrantsTell) : t.GrantsTell := h.of_eq (by rw [k.grants]) k.runs

theorem State.KeepsGrants.priority (k : s.KeepsGrants t) (h : s.GrantsTell) (r : s.ReadsAs t) :
    ∀ g ∈ s.sweep.grants, t.priority g.channel = s.priority g.channel := fun _ hg =>
  (k.place _ ((h.mem _).mp (List.mem_map_of_mem hg))).priority r

theorem State.KeepsGrants.grantsDescend (k : s.KeepsGrants t) (h : s.GrantsTell) (r : s.ReadsAs t)
    (hd : s.GrantsDescend s.sweep.grants) : t.GrantsDescend t.sweep.grants := by
  rw [k.grants]
  exact hd.congr (k.priority h r)

theorem State.KeepsGrants.contained (k : s.KeepsGrants t) (h : s.GrantsTell) (w : s.Within t) (hc : s.contained = true) :
    t.contained = true := by
  refine State.contained_mono hc (State.granted_of_channels w.readsAs (by rw [k.grants])).le w.sR.ge w.sF.ge (fun hall g hg => ?_)
  rw [k.grants] at hg
  rw [k.priority h w.readsAs g hg, hall g hg]

/-- An update of a channel that does not run, after which it does not run. -/
theorem State.onChannel_keepsGrants {u : Channel → Channel} (hs : (s.channel c).state.runs = false)
    (hu : (u (s.channel c)).state.runs = false) : s.KeepsGrants (s.onChannel c u) := by
  refine ⟨rfl, rfl, fun d => ?_, fun d hd => ?_⟩
  · by_cases hdc : d = c
    · subst hdc
      obtain hlen | hlen := Nat.lt_or_ge d s.sweep.channels.length
      · rw [State.channel_onChannel_self hlen, hu, hs]
      · rw [State.channel_onChannel_of_le hlen]
    · rw [State.channel_onChannel_of_ne hdc]
  · have hdc : d ≠ c := by
      rintro rfl
      rw [hs] at hd
      cases hd
    rw [State.KeepsPlace, State.channel_onChannel_of_ne hdc]
    exact ⟨rfl, rfl⟩

theorem State.joinState_not_runs (s : State) (c : Nat) : (s.joinState c).runs = false := by
  unfold State.joinState
  split <;> rfl

theorem State.moveToLeg_state (s : State) (c j d : Nat) : ((s.moveToLeg c j).channel d).state = (s.channel d).state :=
  State.onChannel_field Channel.state (by exact fun _ => rfl) s c d

theorem State.treatCursor_state (s : State) (c d : Nat) : ((s.treatCursor c).channel d).state = (s.channel d).state := by
  unfold State.treatCursor
  split
  · rfl
  · split
    · rfl
    · split
      · exact s.moveToLeg_state c _ d
      · exact State.endPass_state c d

theorem Channel.takeSwap_state (ch : Channel) (bk : Bank) : (ch.takeSwap bk).state = ch.state := by
  unfold Channel.takeSwap
  split <;> rfl

theorem State.treatCursor_keepsGrants (hs : (s.channel c).state.runs = false) : s.KeepsGrants (s.treatCursor c) := by
  unfold State.treatCursor
  split
  · exact .refl s
  · split
    · exact .refl s
    · split
      · exact State.onChannel_keepsGrants hs hs
      · exact State.onChannel_keepsGrants hs (by rw [Channel.takeSwap_state]; exact hs)

theorem State.treatLevel_keepsGrants (s : State) (c : Nat) : s.KeepsGrants (s.treatLevel c) := by
  have treated (hs : (s.channel c).state.runs = false) : s.KeepsGrants (if (s.treatCursor c).hasWork c then s.treatCursor c
      else (s.treatCursor c).onChannel c (fun ch => { ch with state := .idle })) := by
    have cursor := State.treatCursor_keepsGrants hs
    split
    · exact cursor
    · exact cursor.trans (State.onChannel_keepsGrants (by rw [s.treatCursor_state, hs]) rfl)
  unfold State.treatLevel
  split
  case h_1 hs => exact .of_guard (fun _ => State.onChannel_keepsGrants (by rw [hs]; rfl) (s.joinState_not_runs c))
  case h_2 hs | h_3 hs | h_4 hs => exact treated (by rw [hs]; rfl)
  all_goals exact .refl s

theorem State.swapPending_keepsGrants (s : State) (c : Nat) (f : Channel → Bool) :
    s.KeepsGrants (s.onChannel c (fun ch => { ch with swapPending := f ch })) :=
  ⟨rfl, rfl, fun d => congrArg _ (State.onChannel_field Channel.state (by exact fun _ => rfl) s c d),
    fun d _ => State.onChannel_keepsPlace (by exact fun _ => rfl) (by exact fun _ => rfl) s c d⟩

theorem Channel.not_runs_of_swapsAtOnce {ch : Channel} (h : ch.swapsAtOnce = true) : ch.state.runs = false := by
  unfold Channel.swapsAtOnce at h
  cases hs : ch.state with
  | idle | waiting | hushed | windHeld | denied | faulted => rfl
  | slewing | opening | spraying | dry => simp [hs] at h

theorem State.bankChannel_keepsGrants (s : State) (c : Nat) : s.KeepsGrants (s.bankChannel c) := by
  unfold State.bankChannel
  split
  · exact .refl s
  · refine (s.swapPending_keepsGrants c _).trans (.of_guard (fun hs => ?_))
    have hr := Channel.not_runs_of_swapsAtOnce hs
    exact (State.onChannel_keepsGrants hr (by rw [Channel.takeSwap_state]; exact hr)).trans (State.treatLevel_keepsGrants _ c)

theorem State.wakeChannel_keepsGrants (s : State) (c : Nat) : s.KeepsGrants (s.wakeChannel c) := by
  refine .of_guard (fun hs => State.onChannel_keepsGrants (by rw [hs]; rfl) ?_)
  dsimp only
  split
  · exact s.joinState_not_runs c
  · rfl

/-- After treatments the waiting order is put in order and tells again. -/
theorem State.KeepsGrants.settled (k : s.KeepsGrants t) (old : State) (h : s.GrantsTell) (hw : old.sweep.waiting.Nodup) :
    (State.settleWaiting old t).Tells := ⟨(k.tells h).of_eq rfl (fun _ => rfl), .of_settle old hw⟩

/-! ## Wind hold -/

theorem State.windTest_tells (c : Nat) (h : s.GrantsTell) : (s.windTest c).GrantsTell := by
  unfold State.windTest
  dsimp only
  split
  next hs =>
    rw [Bool.and_eq_true] at hs
    exact (State.onChannel_keepsGrants (ChannelState.runs_eq_false_of_waits hs.1) rfl).tells h
  · split
    · exact h.release rfl
    · split
      next hs =>
        refine (State.onChannel_keepsGrants (by rw [hs.1]; rfl) ?_).tells h
        dsimp only
        split <;> rfl
      · exact h

theorem State.windTest_grantsDescend (c : Nat) (h : s.GrantsDescend s.sweep.grants) :
    (s.windTest c).GrantsDescend (s.windTest c).sweep.grants := by
  have updated {v : Channel → Channel} (bank : ∀ ch, (v ch).bank = ch.bank) (cursor : ∀ ch, (v ch).cursor = ch.cursor) :
      (s.onChannel c v).GrantsDescend s.sweep.grants := (State.onChannel_samePriority bank cursor s c).grantsDescend h
  unfold State.windTest
  dsimp only
  split
  · exact updated (fun _ => rfl) (fun _ => rfl)
  · split
    · refine State.release_grantsDescend c (List.Pairwise.filter _ ?_)
      exact updated (fun _ => rfl) (fun _ => rfl)
    · split
      · exact updated (fun _ => rfl) (fun _ => rfl)
      · exact h

theorem State.windTest_contained (c : Nat) (h : s.contained = true) : (s.windTest c).contained = true := by
  have updated {v : Channel → Channel} (bank : ∀ ch, (v ch).bank = ch.bank) (cursor : ∀ ch, (v ch).cursor = ch.cursor) :
      (s.onChannel c v).contained = true :=
    State.contained_of_eq h (s.onChannel_within c v).readsAs (State.onChannel_samePriority bank cursor s c) rfl le_rfl le_rfl
  unfold State.windTest
  dsimp only
  split
  · exact updated (fun _ => rfl) (fun _ => rfl)
  · split
    · exact State.contained_release (updated (by exact fun _ => rfl) (by exact fun _ => rfl)) c
    · split
      · exact updated (fun _ => rfl) (fun _ => rfl)
      · exact h

/-- The wind tests, all channels in turn, keep what each of them keeps. -/
theorem State.foldl_induction {P : State → Prop} {f : State → Nat → State} (hf : ∀ (t : State) (c : Nat), P t → P (f t c))
    (l : List Nat) (h : P s) : P (l.foldl f s) := by
  induction l generalizing s with
  | nil => exact h
  | cons c l ih => exact ih (hf s c h)

/-- The sweep engine after the tests of R133 and the settling of the waiting order, before the scan. -/
def State.windTested (s : State) : State := State.settleWaiting s (s.channelNumbers.foldl State.windTest s)

theorem State.windHold_eq (s : State) :
    s.windHold = if State.releasedOrJoined s s.windTested then s.windTested.grantScan else s.windTested := rfl

theorem State.Tells.windTested (h : s.Tells) : s.windTested.Tells :=
  ⟨(State.foldl_induction (P := State.GrantsTell) (fun _ c => State.windTest_tells c) _ h.grants).of_eq rfl (fun _ => rfl),
    .of_settle s h.waiting.nodup⟩

theorem State.Tells.windHold (h : s.Tells) : s.windHold.Tells := by
  rw [State.windHold_eq]
  split
  · exact h.windTested.grantScan
  · exact h.windTested

theorem State.Descends.windHold (h : s.Descends) : s.windHold.Descends := by
  have tested : s.windTested.Descends :=
    ⟨State.foldl_induction (P := fun t => t.GrantsDescend t.sweep.grants) (fun _ c => State.windTest_grantsDescend c) _ h.grants,
      State.settleWaiting_descends h.waiting⟩
  rw [State.windHold_eq]
  split
  · exact tested.grantScan
  · exact tested

theorem State.contained_windHold (h : s.contained = true) : s.windHold.contained = true := by
  have tested : s.windTested.contained = true :=
    State.foldl_induction (P := fun t => t.contained = true) (fun _ c => State.windTest_contained c) s.channelNumbers h
  rw [State.windHold_eq]
  split
  · exact State.contained_grantScan tested
  · exact tested

/-! ## Level notices and completions -/

theorem State.treatLevels_keepsGrants (s : State) : s.KeepsGrants (s.channelNumbers.foldl State.treatLevel s) :=
  .of_fold State.treatLevel_keepsGrants _ s

theorem State.Tells.levelNotice {old : State} (h : s.GrantsTell) (hw : old.sweep.waiting.Nodup) :
    (State.levelNotice old s).Tells := by
  have settled := s.treatLevels_keepsGrants.settled old h hw
  exact (State.Tells.contain ⟨settled.grants.settleGrants old, settled.waiting.of_eq rfl (fun _ => rfl)⟩).grantScan

theorem State.Descends.settleGrants {old : State} (hg : old.GrantsDescend s.sweep.grants)
    (hw : s.ChannelsDescend s.sweep.waiting) : (State.settleGrants old s).Descends :=
  ⟨(State.settleGrants_descends hg).congr (fun _ _ => rfl), hw.congr (fun _ _ => rfl)⟩

theorem State.Descends.levelNotice {old : State} (h : old.Descends) (hg : s.sweep.grants = old.sweep.grants) :
    (State.levelNotice old s).Descends := by
  refine (State.Descends.contain (State.Descends.settleGrants ?_ (State.settleWaiting_descends h.waiting))).grantScan
  rw [State.settleWaiting_grants, s.treatLevels_keepsGrants.grants, hg]
  exact h.grants

theorem State.contained_levelNotice (old : State) : (State.levelNotice old s).contained = true :=
  State.contained_grantScan (State.contained_contain _)

theorem State.Tells.weightNotice (old : State) (h : s.Tells) : (State.weightNotice old s).Tells := by
  unfold State.weightNotice
  split
  · exact h
  · exact State.Tells.handOver _ _ (h.of_eq rfl rfl (fun _ => rfl))

theorem State.Descends.weightNotice (old : State) (h : s.Descends) : (State.weightNotice old s).Descends := by
  unfold State.weightNotice
  split
  · exact h
  · exact State.Descends.handOver _ _ (h.of_eq (.refl s) rfl rfl)

theorem State.contained_weightNotice (old : State) (h : s.contained = true) : (State.weightNotice old s).contained = true := by
  unfold State.weightNotice
  split
  · exact h
  · exact State.contained_handOver _ _ h

/-- The lists in the order of the levels just published, before the notices. -/
theorem State.Tells.settleLists (old : State) (h : s.GrantsTell) (hw : old.sweep.waiting.Nodup) :
    (State.settleLists old s).Tells := by
  have settled := (State.KeepsGrants.refl s).settled old h hw
  exact ⟨settled.grants.settleGrants old, settled.waiting.of_eq rfl (fun _ => rfl)⟩

theorem State.Descends.settleLists {old : State} (h : old.Descends) (hg : s.sweep.grants = old.sweep.grants) :
    (State.settleLists old s).Descends := by
  refine State.Descends.settleGrants ?_ (State.settleWaiting_descends h.waiting)
  rw [State.settleWaiting_grants, hg]
  exact h.grants

theorem State.Tells.complete (snap : Snapshot) (weightsFirst : Bool) (h : s.Tells) : (s.complete snap weightsFirst).Tells := by
  have published : (s.publish (s.completedFaces snap)).GrantsTell := h.grants.of_eq rfl (fun _ => rfl)
  unfold State.complete
  dsimp only
  split
  · have noticed := State.Tells.weightNotice s (State.Tells.settleLists s published h.waiting.nodup)
    exact State.Tells.levelNotice noticed.grants noticed.waiting.nodup
  · exact State.Tells.weightNotice s (State.Tells.levelNotice published h.waiting.nodup)

theorem State.Descends.complete (snap : Snapshot) (weightsFirst : Bool) (h : s.Descends) :
    (s.complete snap weightsFirst).Descends := by
  unfold State.complete
  dsimp only
  split
  · exact State.Descends.levelNotice (State.Descends.weightNotice s (h.settleLists rfl)) rfl
  · exact State.Descends.weightNotice s (h.levelNotice rfl)

theorem State.contained_complete (snap : Snapshot) (weightsFirst : Bool) : (s.complete snap weightsFirst).contained = true := by
  unfold State.complete
  dsimp only
  split
  · exact State.contained_levelNotice _
  · exact State.contained_weightNotice s (State.contained_levelNotice _)

/-! ## Bank orders and mode changes -/

/-- The channels through a BANK order and the waiting order settled, before the scan (R135). -/
def State.banked (s : State) (requested : Bank) : State :=
  State.settleWaiting s
    (s.channelNumbers.foldl State.bankChannel (s.setSweep { s.sweep with requested := requested }))

theorem State.bankOrder_eq (s : State) (requested : Bank) : s.bankOrder requested =
    if s.channelNumbers.any (fun c => decide (((s.banked requested).channel c).bank ≠ (s.channel c).bank))
    then (s.banked requested).grantScan else s.banked requested := rfl

theorem State.requested_keepsGrants (s : State) (requested : Bank) :
    s.KeepsGrants (s.setSweep { s.sweep with requested := requested }) :=
  ⟨rfl, rfl, fun _ => rfl, fun _ _ => ⟨rfl, rfl⟩⟩

theorem State.bankChannels_keepsGrants (s : State) (requested : Bank) :
    s.KeepsGrants (s.channelNumbers.foldl State.bankChannel (s.setSweep { s.sweep with requested := requested })) :=
  (s.requested_keepsGrants requested).trans (.of_fold State.bankChannel_keepsGrants _ _)

theorem State.Tells.bankOrder (requested : Bank) (h : s.Tells) : (s.bankOrder requested).Tells := by
  have banked : (s.banked requested).Tells := (s.bankChannels_keepsGrants requested).settled s h.grants h.waiting.nodup
  rw [State.bankOrder_eq]
  split
  · exact banked.grantScan
  · exact banked

theorem State.banked_only (s : State) (requested : Bank) : s.SweepOnly (s.banked requested) :=
  ((s.setSweep_only _).trans (State.Within.of_fold State.bankChannel_within _ _).only).trans (State.settleWaiting_only s _)

theorem State.Descends.bankOrder (requested : Bank) (ht : s.Tells) (h : s.Descends) : (s.bankOrder requested).Descends := by
  have banked : (s.banked requested).Descends := by
    refine ⟨?_, State.settleWaiting_descends h.waiting⟩
    have reads := ((s.setSweep_only { s.sweep with requested := requested }).trans
      (State.Within.of_fold State.bankChannel_within s.channelNumbers _).only).readsAs
    exact (s.bankChannels_keepsGrants requested).grantsDescend ht.grants reads h.grants
  rw [State.bankOrder_eq]
  split
  · exact banked.grantScan
  · exact banked

theorem State.contained_bankOrder (requested : Bank) (ht : s.Tells) (h : s.contained = true) :
    (s.bankOrder requested).contained = true := by
  have requested_contained : (s.setSweep { s.sweep with requested := requested }).contained = true := h
  have banked : (s.banked requested).contained = true :=
    (State.KeepsGrants.of_fold State.bankChannel_keepsGrants s.channelNumbers _).contained
      (ht.grants.of_eq (t := s.setSweep { s.sweep with requested := requested }) rfl (fun _ => rfl))
      (State.Within.of_fold State.bankChannel_within _ _) requested_contained
  rw [State.bankOrder_eq]
  split
  · exact State.contained_grantScan banked
  · exact banked

/-- The HUSHED channels out of their state and the waiting order settled, before the scan (R138). -/
def State.woken (s : State) : State := State.settleWaiting s (s.channelNumbers.foldl State.wakeChannel s)

theorem State.sweepWake_eq (s : State) : s.sweepWake = s.woken.grantScan := rfl

theorem State.wakeChannels_keepsGrants (s : State) : s.KeepsGrants (s.channelNumbers.foldl State.wakeChannel s) :=
  .of_fold State.wakeChannel_keepsGrants _ s

theorem State.Tells.sweepWake (h : s.Tells) : s.sweepWake.Tells :=
  (s.wakeChannels_keepsGrants.settled s h.grants h.waiting.nodup).grantScan

theorem State.Descends.sweepWake (ht : s.Tells) (h : s.Descends) : s.sweepWake.Descends :=
  State.Descends.grantScan (s := s.woken)
    ⟨s.wakeChannels_keepsGrants.grantsDescend ht.grants (State.Within.of_fold State.wakeChannel_within _ s).readsAs h.grants,
      State.settleWaiting_descends h.waiting⟩

theorem State.contained_sweepWake (ht : s.Tells) (h : s.contained = true) : s.sweepWake.contained = true :=
  State.contained_grantScan (s := s.woken)
    (s.wakeChannels_keepsGrants.contained ht.grants (State.Within.of_fold State.wakeChannel_within _ s) h)

theorem State.Shut.tells (h : s.Shut) : s.Tells := by
  refine ⟨⟨by simp [h.grants], fun c => ?_⟩, ⟨by simp [h.waiting], fun c => ?_⟩⟩
  · simp [h.grants, h.not_runs c]
  · simp [h.waiting, h.not_waits c]

theorem State.Shut.descends (h : s.Shut) : s.Descends := by
  refine ⟨?_, ?_⟩
  · rw [h.grants]
    exact List.Pairwise.nil
  · rw [h.waiting]
    exact List.Pairwise.nil

theorem State.Tells.changeMode (m : Mode) (h : s.Tells) : (s.changeMode m).Tells := by
  by_cases hm : m = .auto
  · rw [State.changeMode]
    dsimp only
    rw [if_pos hm]
    exact State.Tells.sweepWake (h.of_eq rfl rfl (fun _ => rfl))
  · exact (State.changeMode_shut hm).tells

theorem State.setStation_samePriority (s : State) (x : Station) : s.SamePriority (s.setStation x) := fun _ => rfl

theorem State.Descends.changeMode (m : Mode) (ht : s.Tells) (h : s.Descends) : (s.changeMode m).Descends := by
  by_cases hm : m = .auto
  · rw [State.changeMode]
    dsimp only
    rw [if_pos hm]
    exact State.Descends.sweepWake (ht.of_eq rfl rfl (fun _ => rfl)) (h.of_eq (s.setStation_samePriority _) rfl rfl)
  · exact (State.changeMode_shut hm).descends

theorem State.contained_changeMode (m : Mode) (ht : s.Tells) (h : s.contained = true) : (s.changeMode m).contained = true := by
  by_cases hm : m = .auto
  · rw [State.changeMode]
    dsimp only
    rw [if_pos hm]
    exact State.contained_sweepWake (ht.of_eq rfl rfl (fun _ => rfl)) h
  · exact (State.changeMode_shut hm).contained

/-! ## The end of a step and the end of a channel's grant -/

/-- A running channel that goes out of both lists (R125, R126, R131). -/
theorem State.Tells.leave {u : Channel → Channel} (h : s.Tells) (hc : (s.channel c).state.runs = true)
    (runs : (u (s.channel c)).state.runs = false) (waits : (u (s.channel c)).state.waits = false) :
    ((s.onChannel c u).release c).Tells :=
  ⟨h.grants.release runs,
    State.release_waitingTells h.waiting (by rw [waits, ChannelState.waits_eq_false_of_runs hc])⟩

/-- A running channel that goes from the grant list to the waiting order (R125, R131). -/
theorem State.Tells.rejoin {u : Channel → Channel} {l : List Nat} (h : s.Tells) (hc : (s.channel c).state.runs = true)
    (waits : (u (s.channel c)).state.waits = true) (hl : l.Perm (c :: s.sweep.waiting)) :
    (((s.onChannel c u).release c).setSweep { ((s.onChannel c u).release c).sweep with waiting := l }).Tells := by
  have notWaiting : c ∉ s.sweep.waiting := fun hw =>
    absurd ((h.waiting.mem c).mp hw) (by simp [ChannelState.waits_eq_false_of_runs hc])
  refine ⟨(h.grants.release (ChannelState.runs_eq_false_of_waits waits)).of_eq rfl (fun _ => rfl),
    ⟨hl.nodup_iff.mpr (List.nodup_cons.mpr ⟨notWaiting, h.waiting.nodup⟩), fun d => ?_⟩⟩
  show d ∈ l ↔ _
  rw [hl.mem_iff, List.mem_cons]
  show _ ↔ (((s.onChannel c u).release c).channel d).state.waits = true
  rw [State.release_channel]
  by_cases hd : d = c
  · subst hd
    rw [State.channel_onChannel_self (State.lt_length_of_runs hc)]
    exact iff_of_true (.inl rfl) waits
  · rw [State.channel_onChannel_of_ne hd, ← h.waiting.mem d]
    exact or_iff_right hd

theorem State.Tells.faultChannel (h : s.Tells) (hc : (s.channel c).state.runs = true) : (s.faultChannel c).Tells :=
  (h.leave hc rfl rfl).grantScan

theorem State.stopped_samePriority (s : State) (c : Nat) (st : ChannelState) :
    s.SamePriority (s.onChannel c (fun ch => { ch.stopped with state := st })) :=
  State.onChannel_samePriority (by exact fun _ => rfl) (by exact fun _ => rfl) s c

theorem State.Descends.faultChannel (c : Nat) (h : s.Descends) : (s.faultChannel c).Descends :=
  (State.Descends.release c (h.of_eq (s.stopped_samePriority c .faulted) rfl rfl)).grantScan

theorem State.contained_faultChannel (c : Nat) (h : s.contained = true) : (s.faultChannel c).contained = true :=
  State.contained_grantScan (State.contained_release
    (State.contained_of_eq h (s.onChannel_within c _).readsAs (s.stopped_samePriority c .faulted) rfl le_rfl le_rfl) c)

/-- `t` is `s` with another place of the running channel `c` in its plan, the lists as they were. -/
structure State.Advances (s t : State) (c : Nat) : Prop where
  within : s.Within t
  grants : t.sweep.grants = s.sweep.grants
  waiting : t.sweep.waiting = s.sweep.waiting
  state : ∀ d, (t.channel d).state = (s.channel d).state
  other : ∀ d, d ≠ c → t.channel d = s.channel d

theorem State.Advances.refl (s : State) (c : Nat) : s.Advances s c := ⟨.refl s, rfl, rfl, fun _ => rfl, fun _ _ => rfl⟩

theorem State.Advances.trans (h : s.Advances t c) (k : t.Advances u c) : s.Advances u c :=
  ⟨h.within.trans k.within, k.grants.trans h.grants, k.waiting.trans h.waiting, fun d => (k.state d).trans (h.state d),
    fun d hd => (k.other d hd).trans (h.other d hd)⟩

theorem State.onChannel_advances {u : Channel → Channel} (state : ∀ ch, (u ch).state = ch.state) (s : State) (c : Nat) :
    s.Advances (s.onChannel c u) c :=
  ⟨s.onChannel_within c u, rfl, rfl, State.onChannel_field Channel.state state s c, fun _ hd => State.channel_onChannel_of_ne hd⟩

theorem State.moveToLeg_advances (s : State) (c j : Nat) : s.Advances (s.moveToLeg c j) c :=
  State.onChannel_advances (by exact fun _ => rfl) s c

theorem State.endPass_advances (s : State) (c : Nat) : s.Advances (s.endPass c) c :=
  State.onChannel_advances (by exact fun _ => Channel.takeSwap_state _ _) s c

theorem State.moveToNextStep_advances (s : State) (c : Nat) (k : Cursor) : s.Advances (s.moveToNextStep c k) c := by
  refine State.onChannel_advances (fun ch => ?_) s c
  split <;> rfl

theorem State.advanceCursor_advances (s : State) (c : Nat) : s.Advances (s.advanceCursor c) c := by
  unfold State.advanceCursor
  split
  · exact s.endPass_advances c
  · split
    · exact s.moveToNextStep_advances c _
    · split
      · exact s.moveToLeg_advances c _
      · exact s.endPass_advances c

theorem State.closeStep_advances (s : State) (c : Nat) : s.Advances (s.closeStep c) c :=
  State.onChannel_advances (by exact fun _ => rfl) s c

theorem State.Advances.tells (h : s.Advances t c) (ht : s.Tells) : t.Tells := ht.of_eq (by rw [h.grants]) h.waiting h.state

theorem State.Advances.priority (h : s.Advances t c) (hd : d ≠ c) : t.priority d = s.priority d := by
  refine h.within.readsAs.priority ?_ ?_ <;> rw [h.other d hd]

/-- Without `c` the grant list stands in order, whatever has become of the priority of `c`. -/
theorem State.Advances.filter_descends (h : s.Advances t c) (hg : s.GrantsDescend s.sweep.grants) :
    t.GrantsDescend (t.sweep.grants.filter (fun g => g.channel ≠ c)) := by
  rw [h.grants]
  refine State.GrantsDescend.congr (s := s) (List.Pairwise.filter _ hg) (fun g hg => h.priority ?_)
  exact of_decide_eq_true (List.mem_filter.mp hg).2

/-- The running channel `c` is not in the waiting order, which stands in order whatever has become of the priority of `c`. -/
theorem State.Advances.waiting_descends (h : s.Advances t c) (ht : s.Tells) (hc : (s.channel c).state.runs = true)
    (hw : s.ChannelsDescend s.sweep.waiting) : t.ChannelsDescend t.sweep.waiting := by
  rw [h.waiting]
  refine hw.congr (fun d hd => h.priority ?_)
  rintro rfl
  exact absurd ((ht.waiting.mem d).mp hd) (by simp [ChannelState.waits_eq_false_of_runs hc])

/-- A running channel whose place may have changed leaves the grant list, stopped (R125, R131). -/
theorem State.Advances.release_descends (h : s.Advances t c) (st : ChannelState) (ht : s.Tells)
    (hc : (s.channel c).state.runs = true) (hd : s.Descends) :
    ((t.onChannel c (fun ch => { ch.stopped with state := st })).release c).Descends := by
  have same := t.stopped_samePriority c st
  refine ⟨State.release_grantsDescend c (same.grantsDescend (h.filter_descends hd.grants)), ?_⟩
  rw [State.release_waiting]
  exact (same.trans (State.release_samePriority _ c)).channelsDescend (h.waiting_descends ht hc hd.waiting)

theorem State.Advances.release_contained (h : s.Advances t c) (st : ChannelState) (hs : s.contained = true) :
    ((t.onChannel c (fun ch => { ch.stopped with state := st })).release c).contained = true := by
  have w := h.within.trans (t.onChannel_within c (fun ch => { ch.stopped with state := st }))
  exact State.contained_release_of hs c w.readsAs
    (fun d hd => (t.stopped_samePriority c st d).trans (h.priority hd)) h.grants w.sR w.sF

/-- What `c` reads once stopped is what the state before reads: the step's place decides whether it waits. -/
theorem State.Tells.preemptionRelease (h : s.Tells) (hc : (s.channel c).state.runs = true) : (s.preemptionRelease c).Tells := by
  unfold State.preemptionRelease
  dsimp only
  split
  next hw =>
    refine State.Tells.grantScan (h.rejoin hc ?_ ?_)
    · rfl
    · refine (State.insertFront_perm _ _ _).trans ?_
      rw [State.release_waiting]
      rfl
  next hw =>
    exact (h.leave hc rfl rfl).grantScan

theorem State.contain_state (s : State) (c : Nat) :
    (s.contain.channel c).state = (s.channel c).state ∨ (s.contain.channel c).state = .denied := by
  refine State.contain_induction (P := fun t => (t.channel c).state = (s.channel c).state ∨ (t.channel c).state = .denied)
    (fun t _ ht => ?_) (.inl rfl)
  cases hl : t.sweep.grants.getLast? with
  | none => rwa [State.revokeLast_of_nil hl]
  | some g =>
    rw [State.revokeLast_channel hl]
    dsimp only
    by_cases hg : c = g.channel
    · subst hg
      obtain hlen | hlen := Nat.lt_or_ge g.channel t.sweep.channels.length
      · rw [State.revoked_channel hlen]
        exact .inr rfl
      · have same : (t.revoked g).channel g.channel = t.channel g.channel := State.channel_onChannel_of_le hlen
        rwa [same]
    · rwa [State.revoked_channel_of_ne hg]

/-- A running channel with a cursor starts a step and runs on. -/
theorem State.Tells.startStep (h : s.Tells) (hc : (s.channel c).state.runs = true) : (s.startStep c).Tells := by
  cases hk : (s.channel c).cursor with
  | none => rwa [s.startStep_of_none hk]
  | some k =>
    have started := s.startStep_channel hk
    have state (d : Nat) : (s.channel d).state.runs = ((s.startStep c).channel d).state.runs ∧
        (s.channel d).state.waits = ((s.startStep c).channel d).state.waits := by
      by_cases hd : d = c
      · subst hd
        rw [started, hc, ChannelState.waits_eq_false_of_runs hc]
        exact ⟨rfl, rfl⟩
      · rw [s.startStep_channel_of_ne hd]
        exact ⟨rfl, rfl⟩
    exact ⟨h.grants.of_eq (by rw [State.startStep_grants]) (fun d => (state d).1.symm),
      h.waiting.of_eq (State.startStep_waiting _ c) (fun d => (state d).2.symm)⟩

/-- The grant list settled and, after a fall of the level, contained: where a step that goes on starts from (R124, R125). -/
def State.resettled (old s : State) (c : Nat) : State :=
  if ((State.settleGrants old s).priority c).num < (old.priority c).num then (State.settleGrants old s).contain
  else State.settleGrants old s

theorem State.continueStep_eq (old s : State) (c : Nat) : State.continueStep old s c =
    if ((State.resettled old s c).channel c).state = .denied then State.resettled old s c
    else (State.resettled old s c).startStep c := rfl

theorem State.Tells.settleGrants (old : State) (h : s.Tells) : (State.settleGrants old s).Tells :=
  ⟨h.grants.settleGrants old, h.waiting.of_eq rfl (fun _ => rfl)⟩

theorem State.Tells.resettled (old : State) (c : Nat) (h : s.Tells) : (State.resettled old s c).Tells := by
  unfold State.resettled
  split
  · exact (h.settleGrants old).contain
  · exact h.settleGrants old

theorem State.resettled_state (old s : State) (c d : Nat) : ((State.resettled old s c).channel d).state = (s.channel d).state ∨
    ((State.resettled old s c).channel d).state = .denied := by
  unfold State.resettled
  split
  · exact State.contain_state _ d
  · exact .inl rfl

theorem State.Tells.continueStep (old : State) (h : s.Tells) (hc : (s.channel c).state.runs = true) :
    (State.continueStep old s c).Tells := by
  rw [State.continueStep_eq]
  split
  · exact h.resettled old c
  next hd => exact (h.resettled old c).startStep (by rwa [(State.resettled_state old s c c).resolve_right hd])

theorem State.Tells.passEnd (old : State) (h : s.Tells) (hc : (s.channel c).state.runs = true) : (State.passEnd old s c).Tells := by
  unfold State.passEnd
  split
  · exact (h.leave hc rfl rfl).grantScan
  · split
    · refine State.Tells.grantScan (h.rejoin hc rfl ?_)
      refine (State.insertBack_perm _ _ _).trans ?_
      rw [State.release_waiting]
      rfl
    · exact State.Tells.continueStep old ((s.moveToLeg_advances c _).tells h) (by rwa [s.moveToLeg_state])

theorem State.stepEnd_advances (s : State) (c : Nat) : s.Advances ((s.closeStep c).advanceCursor c) c :=
  (s.closeStep_advances c).trans (State.advanceCursor_advances _ c)

theorem State.Tells.stepEnd (h : s.Tells) (hc : (s.channel c).state.runs = true) : (s.stepEnd c).Tells := by
  have advanced := s.stepEnd_advances c
  have tells := advanced.tells h
  have runs : (((s.closeStep c).advanceCursor c).channel c).state.runs = true := by rwa [advanced.state]
  rw [State.stepEnd_eq]
  split
  · exact tells.preemptionRelease runs
  · split
    · exact tells.passEnd _ runs
    · exact tells.continueStep _ runs

theorem State.Advances.preemptionRelease_descends (h : s.Advances t c) (ht : s.Tells) (hc : (s.channel c).state.runs = true)
    (hd : s.Descends) : (t.preemptionRelease c).Descends := by
  have released (st : ChannelState) := h.release_descends st ht hc hd
  unfold State.preemptionRelease
  dsimp only
  split
  · refine State.Descends.grantScan ⟨(released .waiting).grants, ?_⟩
    exact State.insertFront_descends _ c (released .waiting).waiting
  · exact (released .idle).grantScan

theorem State.resettled_descends {old : State} (h : old.GrantsDescend s.sweep.grants) (hw : s.ChannelsDescend s.sweep.waiting) :
    (State.resettled old s c).Descends := by
  have settled : (State.settleGrants old s).Descends := .settleGrants h hw
  unfold State.resettled
  split
  · exact settled.contain
  · exact settled

theorem State.Descends.startStep (c : Nat) (h : s.Descends) : (s.startStep c).Descends :=
  h.of_eq (.of_place (s.startStep_keepsPlace c) (s.startStep_within c).readsAs) (State.startStep_grants _ c)
    (State.startStep_waiting _ c)

theorem State.Advances.continueStep_descends (h : s.Advances t c) (ht : s.Tells) (hc : (s.channel c).state.runs = true)
    (hd : s.Descends) : (State.continueStep s t c).Descends := by
  have settled : (State.resettled s t c).Descends :=
    State.resettled_descends (by rw [h.grants]; exact hd.grants) (h.waiting_descends ht hc hd.waiting)
  rw [State.continueStep_eq]
  split
  · exact settled
  · exact settled.startStep c

theorem State.Advances.passEnd_descends (h : s.Advances t c) (ht : s.Tells) (hc : (s.channel c).state.runs = true)
    (hd : s.Descends) : (State.passEnd s t c).Descends := by
  have released (st : ChannelState) := h.release_descends st ht hc hd
  unfold State.passEnd
  split
  · exact (released .idle).grantScan
  · split
    · refine State.Descends.grantScan ⟨(released .waiting).grants, ?_⟩
      exact State.insertBack_descends _ c (released .waiting).waiting
    · exact (h.trans (t.moveToLeg_advances c _)).continueStep_descends ht hc hd

theorem State.closeStep_samePriority (s : State) (c : Nat) : s.SamePriority (s.closeStep c) :=
  State.onChannel_samePriority (by exact fun _ => rfl) (by exact fun _ => rfl) s c

theorem State.Descends.stepEnd (ht : s.Tells) (hc : (s.channel c).state.runs = true) (h : s.Descends) : (s.stepEnd c).Descends := by
  have closed := s.closeStep_advances c
  have advanced := (s.closeStep c).advanceCursor_advances c
  have tells := closed.tells ht
  have runs : ((s.closeStep c).channel c).state.runs = true := by rwa [closed.state]
  have descends : (s.closeStep c).Descends := h.of_eq (s.closeStep_samePriority c) rfl rfl
  rw [State.stepEnd_eq]
  split
  · exact advanced.preemptionRelease_descends tells runs descends
  · split
    · exact advanced.passEnd_descends tells runs descends
    · exact advanced.continueStep_descends tells runs descends

theorem Level.eq_heavy_of_num_le {l : Level} (h : Level.heavy.num ≤ l.num) : l = .heavy := by
  cases l with
  | heavy => rfl
  | quiet | watch | prewet | spray => exact absurd h (by decide)

theorem State.Advances.resettled_contained (h : s.Advances t c) (ht : s.Tells) (hs : s.contained = true) :
    (State.resettled s t c).contained = true := by
  unfold State.resettled
  split
  · exact State.contained_contain _
  next hlow =>
    have tells := h.tells ht
    have perm := State.settleGrants_perm (old := s) (s := t) (fun g hg => tells.grants.lt_length hg)
    refine State.contained_mono hs ?_ h.within.sR.ge h.within.sF.ge (fun hall g hg => ?_)
    · rw [State.granted, State.granted, (State.settleGrants_within t s).readsAs.flowOf, t.flowOf_perm perm, h.grants,
        h.within.readsAs.flowOf]
    · rw [perm.mem_iff, h.grants] at hg
      have heavy := hall g hg
      by_cases hgc : g.channel = c
      · rw [hgc] at heavy ⊢
        rw [heavy] at hlow
        exact Level.eq_heavy_of_num_le (Nat.le_of_not_lt hlow)
      · rw [State.settleGrants_priority, h.priority hgc, heavy]

theorem State.contained_startStep (c : Nat) (h : s.contained = true) : (s.startStep c).contained = true := by
  have w := s.startStep_within c
  exact State.contained_of_eq h w.readsAs (.of_place (s.startStep_keepsPlace c) w.readsAs) (by rw [State.startStep_grants]) w.sR.ge
    w.sF.ge

theorem State.Advances.continueStep_contained (h : s.Advances t c) (ht : s.Tells) (hs : s.contained = true) :
    (State.continueStep s t c).contained = true := by
  rw [State.continueStep_eq]
  split
  · exact h.resettled_contained ht hs
  · exact State.contained_startStep c (h.resettled_contained ht hs)

theorem State.contained_stepEnd (ht : s.Tells) (hs : s.contained = true) : (s.stepEnd c).contained = true := by
  have closed := s.closeStep_advances c
  have advanced := (s.closeStep c).advanceCursor_advances c
  have tells := closed.tells ht
  have contained : (s.closeStep c).contained = true :=
    State.contained_of_eq hs closed.within.readsAs (s.closeStep_samePriority c) rfl le_rfl le_rfl
  have released (st : ChannelState) := advanced.release_contained st contained
  rw [State.stepEnd_eq]
  split
  · unfold State.preemptionRelease
    dsimp only
    split
    · exact State.contained_grantScan (released .waiting)
    · exact State.contained_grantScan (released .idle)
  · split
    · unfold State.passEnd
      split
      · exact State.contained_grantScan (released .idle)
      · split
        · exact State.contained_grantScan (released .waiting)
        · exact (advanced.trans (State.moveToLeg_advances _ c _)).continueStep_contained tells contained
    · exact advanced.continueStep_contained tells contained

/-! ## Every move -/

/-- To the lists `t` stands as `s`: the same lists and readings, every channel running or waiting as before with its place. -/
structure State.ListsAlike (s t : State) : Prop where
  reads : s.ReadsAs t
  grants : t.sweep.grants = s.sweep.grants
  waiting : t.sweep.waiting = s.sweep.waiting
  runs : ∀ c, (t.channel c).state.runs = (s.channel c).state.runs
  waits : ∀ c, (t.channel c).state.waits = (s.channel c).state.waits
  place : ∀ c, s.KeepsPlace t c
  sR : t.sweep.sR = s.sweep.sR
  sF : t.sweep.sF = s.sweep.sF

theorem State.ListsAlike.tells (h : s.ListsAlike t) (ht : s.Tells) : t.Tells :=
  ⟨ht.grants.of_eq (by rw [h.grants]) h.runs, ht.waiting.of_eq h.waiting h.waits⟩

theorem State.ListsAlike.descends (h : s.ListsAlike t) (hd : s.Descends) : t.Descends :=
  hd.of_eq (.of_place h.place h.reads) h.grants h.waiting

theorem State.ListsAlike.contained (h : s.ListsAlike t) (hs : s.contained = true) : t.contained = true :=
  State.contained_of_eq hs h.reads (.of_place h.place h.reads) (by rw [h.grants]) h.sR.ge h.sF.ge

theorem State.Alike.listsAlike (h : s.Alike t) : s.ListsAlike t where
  reads := h.reads
  grants := h.grants
  waiting := h.waiting
  runs c := by rw [State.channel_eq_of_channels h.channels]
  waits c := by rw [State.channel_eq_of_channels h.channels]
  place c := .of_channels h.channels c
  sR := h.sR
  sF := h.sF

/-- An update of a running channel that keeps it running with its place. -/
theorem State.onChannel_listsAlike {u : Channel → Channel} (hs : (s.channel c).state.runs = true)
    (hu : (u (s.channel c)).state.runs = true) (bank : ∀ ch, (u ch).bank = ch.bank) (cursor : ∀ ch, (u ch).cursor = ch.cursor) :
    s.ListsAlike (s.onChannel c u) := by
  have runs (d : Nat) : ((s.onChannel c u).channel d).state.runs = (s.channel d).state.runs ∧
      ((s.onChannel c u).channel d).state.waits = (s.channel d).state.waits := by
    by_cases hd : d = c
    · subst hd
      rw [State.channel_onChannel_self (State.lt_length_of_runs hs), hu, hs, ChannelState.waits_eq_false_of_runs hu,
        ChannelState.waits_eq_false_of_runs hs]
      exact ⟨rfl, rfl⟩
    · rw [State.channel_onChannel_of_ne hd]
      exact ⟨rfl, rfl⟩
  exact ⟨(s.onChannel_within c u).readsAs, rfl, rfl, fun d => (runs d).1, fun d => (runs d).2,
    State.onChannel_keepsPlace bank cursor s c, rfl, rfl⟩

theorem State.slewEnds_listsAlike (h : (s.channel c).state = .slewing) : s.ListsAlike (s.slewEnds c) := by
  refine State.onChannel_listsAlike (by rw [h]; rfl) ?_ (fun ch => ?_) (fun ch => ?_)
  · show (ite _ _ _ : Channel).state.runs = true
    split <;> rfl
  all_goals split <;> rfl

theorem State.valveOpens_listsAlike (h : (s.channel c).state = .opening) : s.ListsAlike (s.valveOpens c) :=
  State.onChannel_listsAlike (by rw [h]; rfl) rfl (fun _ => rfl) (fun _ => rfl)

theorem State.blocksPassTime_readsAs (s : State) : s.ReadsAs s.blocksPassTime := by
  refine ⟨rfl, fun f => ?_, rfl⟩
  exact State.finalLevel_of_faces (s := s) (l := s.risk.faces.map FaceRecord.passTime)
    (by simp [Function.comp_def, FaceRecord.passTime]) s.blocksPassTime.risk rfl f

theorem State.blocksPassTime_listsAlike (s : State) : s.ListsAlike s.blocksPassTime := by
  have passed (c : Nat) : (s.blocksPassTime.channel c).state = (s.channel c).state ∧ s.KeepsPlace s.blocksPassTime c := by
    rw [State.KeepsPlace]
    obtain hc | hc := Nat.lt_or_ge c s.sweep.channels.length
    · rw [State.blocksPassTime_channel hc]
      exact ⟨rfl, rfl, rfl⟩
    · rw [State.channel_of_length_le hc, State.channel_of_length_le (by rwa [State.blocksPassTime_length])]
      exact ⟨rfl, rfl, rfl⟩
  exact ⟨s.blocksPassTime_readsAs, rfl, rfl, fun c => by rw [(passed c).1], fun c => by rw [(passed c).1],
    fun c => (passed c).2, rfl, rfl⟩

theorem Channel.dried_class (dwell : Nat) (ch : Channel) : (ch.dried dwell).state.runs = ch.state.runs ∧
    (ch.dried dwell).state.waits = ch.state.waits ∧ (ch.dried dwell).bank = ch.bank ∧ (ch.dried dwell).cursor = ch.cursor := by
  unfold Channel.dried
  split
  case h_1 hs | h_2 hs | h_3 hs => simp [hs, ChannelState.runs, ChannelState.waits]
  all_goals simp

theorem State.recomputeMachines_tells (h : s.Tells) : s.recomputeMachines.Tells := by
  have kept (c : Nat) : (s.recomputeMachines.channel c).state.runs = (s.channel c).state.runs ∧
      (s.recomputeMachines.channel c).state.waits = (s.channel c).state.waits := by
    rw [State.recomputeMachines_channel]
    split
    · rw [State.activationNotice_channel_self]
      split
      · obtain ⟨runs, waits, -, -⟩ := Channel.dried_class (s.rederived.currentLeg c).dwell (s.rederived.channel c)
        exact ⟨runs, waits⟩
      · exact ⟨rfl, rfl⟩
    · exact ⟨rfl, rfl⟩
  exact ⟨h.grants.of_eq (by rw [s.recomputeMachines_grants]) (fun c => (kept c).1),
    h.waiting.of_eq s.recomputeMachines_waiting (fun c => (kept c).2)⟩

/-- The priorities and the flows do not read the machine unit. -/
theorem State.recomputeMachines_samePriority (s : State) : s.SamePriority s.recomputeMachines := by
  have derived : s.SamePriority s.rederived := fun _ => rfl
  refine derived.trans (.of_place (fun c => ?_) s.recomputeMachines_within.readsAs)
  rw [State.KeepsPlace, State.recomputeMachines_channel]
  split
  · rw [State.activationNotice_channel_self]
    split
    · obtain ⟨-, -, bank, cursor⟩ := Channel.dried_class (s.rederived.currentLeg c).dwell (s.rederived.channel c)
      exact ⟨bank, cursor⟩
    · exact ⟨rfl, rfl⟩
  · exact ⟨rfl, rfl⟩

theorem State.recomputeMachines_contained (h : s.contained = true) : s.recomputeMachines.contained = true := by
  have derived : s.rederived.contained = true := h
  have w := s.recomputeMachines_within
  exact State.contained_of_eq derived w.readsAs s.recomputeMachines_samePriority (by rw [s.recomputeMachines_grants]; rfl)
    w.sR.ge w.sF.ge

theorem State.inReset_shut (s : State) : s.inReset.Shut := ⟨rfl, rfl, fun c hc => absurd hc (Nat.not_lt_zero c)⟩

theorem State.loadSucceeds_shut (s : State) (cfg : StationCfg) : (s.loadSucceeds cfg).Shut := State.changeMode_shut (by decide)

theorem ChannelState.runs_of_ends {st : ChannelState} (h : st = .spraying ∨ st = .dry) : st.runs = true := by
  obtain rfl | rfl := h <;> rfl

/-- Every move keeps the lists telling. -/
theorem State.Moves.tells (h : s.Moves t) (hs : s.Tells) : t.Tells := by
  induction h with
  | stays h => exact h.listsAlike.tells hs
  | trans _ _ ih ih' => exact ih' (ih hs)
  | time s => exact s.blocksPassTime_listsAlike.tells hs
  | reset s => exact s.inReset_shut.tells
  | load s cfg => exact (s.loadSucceeds_shut cfg).tells
  | handOver s sR sF => exact hs.handOver sR sF
  | completion s snap weightsFirst => exact hs.complete snap weightsFirst
  | windHold s => exact hs.windHold
  | recomputation s => exact State.recomputeMachines_tells hs
  | slewEnds h => exact (State.slewEnds_listsAlike h).tells hs
  | valveOpens h => exact (State.valveOpens_listsAlike h).tells hs
  | fault h => exact hs.faultChannel h
  | stepEnd h => exact hs.stepEnd (ChannelState.runs_of_ends h)
  | changeMode s m => exact hs.changeMode m
  | bankOrder s bk => exact hs.bankOrder bk

/-- Every move keeps the lists in order of priority. -/
theorem State.Moves.descends (h : s.Moves t) (ht : s.Tells) (hs : s.Descends) : t.Descends := by
  induction h with
  | stays h => exact h.listsAlike.descends hs
  | trans h _ ih ih' => exact ih' (h.tells ht) (ih ht hs)
  | time s => exact s.blocksPassTime_listsAlike.descends hs
  | reset s => exact s.inReset_shut.descends
  | load s cfg => exact (s.loadSucceeds_shut cfg).descends
  | handOver s sR sF => exact hs.handOver sR sF
  | completion s snap weightsFirst => exact hs.complete snap weightsFirst
  | windHold s => exact hs.windHold
  | recomputation s =>
    exact hs.of_eq s.recomputeMachines_samePriority s.recomputeMachines_grants s.recomputeMachines_waiting
  | slewEnds h => exact (State.slewEnds_listsAlike h).descends hs
  | valveOpens h => exact (State.valveOpens_listsAlike h).descends hs
  | fault => exact hs.faultChannel _
  | stepEnd h => exact hs.stepEnd ht (ChannelState.runs_of_ends h)
  | changeMode s m => exact hs.changeMode m ht
  | bankOrder s bk => exact hs.bankOrder bk ht

/-- Every move keeps the grants within the shares. -/
theorem State.Moves.contained (h : s.Moves t) (ht : s.Tells) (hs : s.contained = true) : t.contained = true := by
  induction h with
  | stays h => exact h.listsAlike.contained hs
  | trans h _ ih ih' => exact ih' (h.tells ht) (ih ht hs)
  | time s => exact s.blocksPassTime_listsAlike.contained hs
  | reset s => exact s.inReset_shut.contained
  | load s cfg => exact (s.loadSucceeds_shut cfg).contained
  | handOver s sR sF => exact State.contained_handOver sR sF hs
  | completion s snap weightsFirst => exact State.contained_complete snap weightsFirst
  | windHold s => exact State.contained_windHold hs
  | recomputation s => exact State.recomputeMachines_contained hs
  | slewEnds h => exact (State.slewEnds_listsAlike h).contained hs
  | valveOpens h => exact (State.valveOpens_listsAlike h).contained hs
  | fault => exact State.contained_faultChannel _ hs
  | stepEnd => exact State.contained_stepEnd ht hs
  | changeMode s m => exact State.contained_changeMode m ht hs
  | bankOrder s bk => exact State.contained_bankOrder bk ht hs

end

/-- Settles O58: both lists stay telling, and in order of priority, through every move of the sweep engine. -/
theorem stepKeepsOrders : Obligations.StepKeepsOrders := by
  constructor
  · intro s t hs h
    exact State.ordersTell_iff.mpr ((step_moves h).tells (State.ordersTell_iff.mp hs))
  · intro s t ht ⟨grants, waiting⟩ h
    obtain ⟨grants', waiting'⟩ := (step_moves h).descends (State.ordersTell_iff.mp ht) ⟨grants, waiting⟩
    exact ⟨grants', waiting'⟩

/-- Settles O59: what R127 says of the granted total is what every move keeps and every containment restores. -/
theorem stepKeepsGrantsWithinShares : Obligations.StepKeepsGrantsWithinShares := by
  intro s t ht hs h
  exact State.grantsHold_iff.mpr ((step_moves h).contained (State.ordersTell_iff.mp ht) (State.grantsHold_iff.mp hs))

end Sys2Proof.Machine
end

