-- ==== Sys2Proof/Proofs/Tables.lean ====
section
/-! The machine list and the peer table: records placed by id, the oldest STALE record given up (R70, R84), and the order and the capacity
that every command keeps (R70, R83). -/

namespace Sys2Proof.Machine

/-! ## Records placed by id -/

section
variable {α : Type} (key : α → Nat)

/-- A record put in its place by key, over the record of the same key if there is one. -/
def putBy (r : α) : List α → List α
  | [] => [r]
  | x :: rest => if key r < key x then r :: x :: rest else if key r = key x then r :: rest else x :: putBy r rest

/-- The records stand in ascending order of their keys. -/
def Ascends (l : List α) : Prop := l.Pairwise (fun x y => key x < key y)

/-- The stale record of greatest age, the first of them among equals. -/
def oldestBy (stale : α → Bool) (age : α → Nat) : List α → Option α
  | [] => none
  | x :: rest =>
    match oldestBy stale age rest with
    | none => if stale x then some x else none
    | some v => if stale x && decide (age v ≤ age x) then some x else some v

variable {key} {r x v : α} {l : List α}

theorem mem_putBy_imp (h : x ∈ putBy key r l) : x = r ∨ x ∈ l := by
  induction l with
  | nil => exact .inl (List.mem_singleton.mp h)
  | cons y rest ih =>
    unfold putBy at h
    split at h
    · exact List.mem_cons.mp h
    · split at h
      · exact (List.mem_cons.mp h).imp_right (List.mem_cons_of_mem y)
      · obtain rfl | h := List.mem_cons.mp h
        · exact .inr List.mem_cons_self
        · exact (ih h).imp_right (List.mem_cons_of_mem y)

theorem putBy_ascends (h : Ascends key l) : Ascends key (putBy key r l) := by
  induction l with
  | nil => exact List.pairwise_singleton _ r
  | cons y rest ih =>
    obtain ⟨first, rest_ascends⟩ := List.pairwise_cons.mp h
    unfold putBy
    split
    next hlt =>
      refine List.pairwise_cons.mpr ⟨fun z hz => ?_, h⟩
      obtain rfl | hz := List.mem_cons.mp hz
      · exact hlt
      · exact hlt.trans (first z hz)
    next hlt =>
      split
      next heq => exact List.pairwise_cons.mpr ⟨fun z hz => heq ▸ first z hz, rest_ascends⟩
      next hne =>
        refine List.pairwise_cons.mpr ⟨fun z hz => ?_, ih rest_ascends⟩
        obtain rfl | hz := mem_putBy_imp hz
        · omega
        · exact first z hz

/-- The record stands in the list, with every record of another key. -/
theorem mem_putBy (h : Ascends key l) : x ∈ putBy key r l ↔ x = r ∨ (x ∈ l ∧ key x ≠ key r) := by
  induction l with
  | nil => simp [putBy]
  | cons y rest ih =>
    obtain ⟨first, rest_ascends⟩ := List.pairwise_cons.mp h
    unfold putBy
    split
    next hlt =>
      rw [List.mem_cons]
      refine or_congr_right ⟨fun hx => ⟨hx, ?_⟩, And.left⟩
      obtain rfl | hx := List.mem_cons.mp hx
      · omega
      · have := first x hx
        omega
    next hlt =>
      split
      next heq =>
        rw [List.mem_cons, List.mem_cons]
        refine or_congr_right ⟨fun hx => ⟨.inr hx, ?_⟩, fun ⟨hx, hne⟩ => hx.resolve_left (fun hxy => hne (hxy ▸ heq.symm))⟩
        have := first x hx
        omega
      next hne =>
        rw [List.mem_cons, ih rest_ascends, List.mem_cons]
        constructor
        · rintro (rfl | rfl | ⟨hx, hk⟩)
          · exact .inr ⟨.inl rfl, fun hk => hne hk.symm⟩
          · exact .inl rfl
          · exact .inr ⟨.inr hx, hk⟩
        · rintro (rfl | ⟨rfl | hx, hk⟩)
          · exact .inr (.inl rfl)
          · exact .inl rfl
          · exact .inr (.inr ⟨hx, hk⟩)

theorem putBy_length_le : (putBy key r l).length ≤ l.length + 1 := by
  induction l with
  | nil => exact le_rfl
  | cons y rest ih =>
    unfold putBy
    split
    · exact le_rfl
    · split
      · exact Nat.le_succ _
      · exact Nat.succ_le_succ ih

/-- A record over one of its key leaves the length. -/
theorem putBy_length_of_mem (h : Ascends key l) (hx : x ∈ l) (hk : key x = key r) : (putBy key r l).length = l.length := by
  induction l with
  | nil => cases hx
  | cons y rest ih =>
    obtain ⟨first, rest_ascends⟩ := List.pairwise_cons.mp h
    unfold putBy
    split
    next hlt =>
      exfalso
      obtain rfl | hx := List.mem_cons.mp hx
      · omega
      · have := first x hx
        omega
    next hlt =>
      split
      next => rfl
      next hne =>
        obtain rfl | hx := List.mem_cons.mp hx
        · exact absurd hk.symm hne
        · exact congrArg Nat.succ (ih rest_ascends hx)

theorem length_filter_key_lt (hv : v ∈ l) : (l.filter (fun x => decide (key x ≠ key v))).length < l.length :=
  List.length_filter_lt_length_iff_exists.mpr ⟨v, hv, by simp⟩

variable {stale : α → Bool} {age : α → Nat}

theorem oldestBy_eq_none_iff : oldestBy stale age l = none ↔ ∀ x ∈ l, stale x = false := by
  induction l with
  | nil => simp [oldestBy]
  | cons y rest ih =>
    unfold oldestBy
    split
    next h =>
      rw [List.forall_mem_cons, ← ih, h]
      simp
    next v h =>
      rw [List.forall_mem_cons, ← ih, h]
      split <;> simp

/-- The record given up is stale, of the greatest age among the stale, and of the lowest key among equals. -/
theorem oldestBy_eq_some (h : Ascends key l) (hv : oldestBy stale age l = some v) : v ∈ l ∧ stale v = true ∧
    ∀ x ∈ l, stale x = true → age x < age v ∨ (age x = age v ∧ key v ≤ key x) := by
  induction l generalizing v with
  | nil => cases hv
  | cons y rest ih =>
    obtain ⟨first, rest_ascends⟩ := List.pairwise_cons.mp h
    unfold oldestBy at hv
    split at hv
    next hnone =>
      split at hv
      next hy =>
        obtain rfl := Option.some.inj hv
        refine ⟨List.mem_cons_self, hy, fun x hx hs => ?_⟩
        obtain rfl | hx := List.mem_cons.mp hx
        · exact .inr ⟨rfl, le_rfl⟩
        · rw [oldestBy_eq_none_iff.mp hnone x hx] at hs
          cases hs
      next => cases hv
    next w hw =>
      obtain ⟨hmem, hstale, oldest⟩ := ih rest_ascends hw
      split at hv
      next hy =>
        obtain rfl := Option.some.inj hv
        rw [Bool.and_eq_true, decide_eq_true_eq] at hy
        refine ⟨List.mem_cons_self, hy.1, fun x hx hs => ?_⟩
        obtain rfl | hx := List.mem_cons.mp hx
        · exact .inr ⟨rfl, le_rfl⟩
        · have := first x hx
          have := oldest x hx hs
          omega
      next hy =>
        obtain rfl := Option.some.inj hv
        rw [Bool.and_eq_true, decide_eq_true_eq, not_and] at hy
        refine ⟨List.mem_cons_of_mem y hmem, hstale, fun x hx hs => ?_⟩
        obtain rfl | hx := List.mem_cons.mp hx
        · have := hy hs
          omega
        · exact oldest x hx hs

/-- A list of capacity `n` takes a record of a key it holds, or any while it has room. -/
theorem putBy_length_le_of_room {n : Nat} (h : Ascends key l) (hl : l.length ≤ n)
    (room : (∃ x ∈ l, key x = key r) ∨ l.length < n) : (putBy key r l).length ≤ n := by
  obtain ⟨x, hx, hk⟩ | hlt := room
  · rwa [putBy_length_of_mem h hx hk]
  · exact putBy_length_le.trans hlt

end

theorem putMachine_eq (r : MachineRecord) (l : List MachineRecord) : putMachine r l = putBy MachineRecord.id r l := by
  induction l with
  | nil => rfl
  | cons m rest ih => rw [putMachine, putBy, ih]

theorem putPeer_eq (r : Peer) (l : List Peer) : putPeer r l = putBy Peer.id r l := by
  induction l with
  | nil => rfl
  | cons p rest ih => rw [putPeer, putBy, ih]

theorem oldestMachine_eq (l : List MachineRecord) :
    oldestMachine l = oldestBy MachineRecord.stale MachineRecord.wholeAge l := by
  induction l with
  | nil => rfl
  | cons m rest ih =>
    rw [oldestMachine, oldestBy, ih]
    cases oldestBy MachineRecord.stale MachineRecord.wholeAge rest <;> rfl

theorem oldestPeer_eq (l : List Peer) : oldestPeer l = oldestBy Peer.stale (fun p => p.age / 1000) l := by
  induction l with
  | nil => rfl
  | cons p rest ih =>
    rw [oldestPeer, oldestBy, ih]
    cases oldestBy Peer.stale (fun p => p.age / 1000) rest <;> rfl

/-! ## What every command makes of the two tables -/

/-- The list in ascending id, at most 8 records long (R70; log 25). -/
def Machines.ListHolds (x : Machines) : Prop := x.list.length ≤ 8 ∧ Ascends MachineRecord.id x.list

/-- The table in ascending id, at most 32 records long (6.1, R83, R84). -/
def Peers.ListHolds (x : Peers) : Prop := x.list.length ≤ 32 ∧ Ascends Peer.id x.list

theorem State.recomputeMachines_machines (s : State) : s.recomputeMachines.machines =
    { s.machines with kf := (List.range s.faceCount).map (fun i => s.disturbance (i + 1)), arcs := s.derivedArcs } :=
  s.recomputeMachines_within.only.machines

theorem State.shareComputation_peers (s : State) : s.shareComputation.peers = s.peers := s.shareComputation_reaches .peers (by decide)

/-- What a Machine frame makes of the machine unit: nothing, a count, or a record put into the list, into room made by the oldest STALE
one if need be. -/
theorem State.takeMachine_cases (s : State) (f : Frame) :
    s.takeMachine f = s ∨
    s.takeMachine f = s.setMachines { s.machines with refused := bump s.machines.refused } ∨
    (s.takeMachine f = s.withMachine (machineRecord f) s.machines.list ∧
      ((∃ m ∈ s.machines.list, m.id = f.sender) ∨ s.machines.list.length < 8)) ∨
    ∃ v, oldestMachine s.machines.list = some v ∧
      s.takeMachine f = s.withMachine (machineRecord f) (s.machines.list.filter (fun m => m.id ≠ v.id)) := by
  unfold State.takeMachine
  dsimp only
  split
  · split
    next hroom =>
      refine .inr (.inr (.inl ⟨rfl, ?_⟩))
      simpa [List.any_eq_true, machineRecord] using hroom
    · split
      next v hv => exact .inr (.inr (.inr ⟨v, hv, rfl⟩))
      · exact .inr (.inl rfl)
  · exact .inl rfl

/-- What a Report frame makes of the peer table. -/
theorem State.takeReport_peers (s : State) (f : Frame) :
    (s.takeReport f).peers = s.peers ∨
    (s.takeReport f).peers = { s.peers with refused := bump s.peers.refused } ∨
    ((s.takeReport f).peers = { s.peers with list := putPeer (peerRecord f) s.peers.list } ∧
      ((∃ p ∈ s.peers.list, p.id = f.sender) ∨ s.peers.list.length < 32)) ∨
    ∃ v, oldestPeer s.peers.list = some v ∧
      (s.takeReport f).peers = { s.peers with
        list := putPeer (peerRecord f) (s.peers.list.filter (fun p => p.id ≠ v.id)) } := by
  unfold State.takeReport
  dsimp only
  split
  · split
    next before hfind =>
      refine .inr (.inr (.inl ⟨?_, .inl ⟨before, List.mem_of_find?_eq_some hfind, ?_⟩⟩))
      · split
        · rw [State.shareComputation_peers]
          rfl
        · rfl
      · have := List.find?_some hfind
        simpa [peerRecord] using this
    · split
      next hroom =>
        refine .inr (.inr (.inl ⟨?_, .inr hroom⟩))
        rw [State.shareComputation_peers]
        rfl
      · split
        next v hv =>
          refine .inr (.inr (.inr ⟨v, hv, ?_⟩))
          rw [State.shareComputation_peers]
          rfl
        · exact .inr (.inl rfl)
  · exact .inl rfl

section
variable {s : State}

theorem State.takeMachine_refused (f : Frame) (h : s.machines.refused ≤ 255) : (s.takeMachine f).machines.refused ≤ 255 := by
  obtain e | e | ⟨e, -⟩ | ⟨v, -, e⟩ := s.takeMachine_cases f
  · rwa [e]
  · rw [e]
    exact bump_le _
  · rw [e, State.withMachine, State.recomputeMachines_machines]
    exact h
  · rw [e, State.withMachine, State.recomputeMachines_machines]
    exact h

theorem State.takeMachine_listHolds (f : Frame) (h : s.machines.ListHolds) : (s.takeMachine f).machines.ListHolds := by
  obtain ⟨short, ascends⟩ := h
  obtain e | e | ⟨e, room⟩ | ⟨v, hv, e⟩ := s.takeMachine_cases f
  · rw [e]
    exact ⟨short, ascends⟩
  · rw [e]
    exact ⟨short, ascends⟩
  · rw [e, State.withMachine, State.recomputeMachines_machines, Machines.ListHolds]
    simp only [State.setMachines_machines, putMachine_eq]
    exact ⟨putBy_length_le_of_room ascends short room, putBy_ascends ascends⟩
  · rw [e, State.withMachine, State.recomputeMachines_machines, Machines.ListHolds]
    simp only [State.setMachines_machines, putMachine_eq]
    rw [oldestMachine_eq] at hv
    have shorter := length_filter_key_lt (key := MachineRecord.id) (oldestBy_eq_some ascends hv).1
    exact ⟨putBy_length_le.trans (by omega), putBy_ascends (List.Pairwise.filter _ ascends)⟩

theorem State.takeReport_refused (f : Frame) (h : s.peers.refused ≤ 255) : (s.takeReport f).peers.refused ≤ 255 := by
  obtain e | e | ⟨e, -⟩ | ⟨v, -, e⟩ := s.takeReport_peers f
  · rwa [e]
  · rw [e]
    exact bump_le _
  · rw [e]
    exact h
  · rw [e]
    exact h

theorem State.takeReport_listHolds (f : Frame) (h : s.peers.ListHolds) : (s.takeReport f).peers.ListHolds := by
  obtain ⟨short, ascends⟩ := h
  obtain e | e | ⟨e, room⟩ | ⟨v, hv, e⟩ := s.takeReport_peers f
  · rw [e]
    exact ⟨short, ascends⟩
  · rw [e]
    exact ⟨short, ascends⟩
  · rw [e, Peers.ListHolds, putPeer_eq]
    exact ⟨putBy_length_le_of_room ascends short room, putBy_ascends ascends⟩
  · rw [e, Peers.ListHolds, putPeer_eq]
    rw [oldestPeer_eq] at hv
    have shorter := length_filter_key_lt (key := Peer.id) (oldestBy_eq_some ascends hv).1
    exact ⟨putBy_length_le.trans (by omega), putBy_ascends (List.Pairwise.filter _ ascends)⟩

/-- An update that keeps the keys keeps the order. -/
theorem Ascends.map {α : Type} {key : α → Nat} {l : List α} {u : α → α} (h : Ascends key l) (hu : ∀ x, key (u x) = key x) :
    Ascends key (l.map u) := by
  rw [Ascends, List.pairwise_map]
  simp only [hu]
  exact h

theorem Machines.ListHolds.map {x y : Machines} {u : MachineRecord → MachineRecord} (h : x.ListHolds) (hu : ∀ m, (u m).id = m.id)
    (e : y.list = x.list.map u) : y.ListHolds := by
  rw [Machines.ListHolds, e, List.length_map]
  exact ⟨h.1, Ascends.map h.2 hu⟩

theorem Machines.ListHolds.filter {x y : Machines} {p : MachineRecord → Bool} (h : x.ListHolds) (e : y.list = x.list.filter p) :
    y.ListHolds := by
  rw [Machines.ListHolds, e]
  exact ⟨(List.length_filter_le ..).trans h.1, List.Pairwise.filter p h.2⟩

theorem Peers.ListHolds.map {x y : Peers} {u : Peer → Peer} (h : x.ListHolds) (hu : ∀ p, (u p).id = p.id)
    (e : y.list = x.list.map u) : y.ListHolds := by
  rw [Peers.ListHolds, e, List.length_map]
  exact ⟨h.1, Ascends.map h.2 hu⟩

theorem Peers.ListHolds.filter {x y : Peers} {p : Peer → Bool} (h : x.ListHolds) (e : y.list = x.list.filter p) :
    y.ListHolds := by
  rw [Peers.ListHolds, e]
  exact ⟨(List.length_filter_le ..).trans h.1, List.Pairwise.filter p h.2⟩

/-- What a dispatch's owner keeps of a state, whatever its dispatcher, the dispatch keeps. -/
theorem State.dispatch_keeps {P : State → Prop} (mine : Frame → Bool) {owner : State → Frame → State}
    (queue : ∀ (t : State) (x : Dispatcher), P t → P (t.setDispatcher x)) (own : ∀ (t : State) (f : Frame), P t → P (owner t f))
    (h : P s) : P (s.dispatch mine owner) := by
  obtain stays | ⟨f, -, -, -, -, ⟨-, conflict⟩ | ⟨-, owned⟩⟩ := s.dispatch_cases mine owner
  · rwa [stays]
  · rw [conflict]
    exact queue _ _ (queue _ _ h)
  · rw [owned]
    exact own _ f (queue _ _ h)

theorem State.of_guard {P : State → Prop} {p : Prop} [Decidable p] {t : State} (h : P s) (ht : p → P t) :
    P (if p then t else s) := by
  split
  next hp => exact ht hp
  next => exact h

/-- A load touches K_f and the arcs alone in the machine unit (R79). -/
theorem State.loadSucceeds_machines (s : State) (cfg : StationCfg) : (s.loadSucceeds cfg).machines =
    { s.machines with kf := cfg.faces.map (fun _ => 64), arcs := cfg.channels.map (fun c => c.shadow.map (fun _ => false)) } :=
  State.changeMode_reaches _ .listening .machines (by decide)

theorem State.after_machinesRefused (c : Instr) (h : s.machines.refused ≤ 255) : (s.after c).machines.refused ≤ 255 := by
  have recomputed (x : Machines) (hx : x.refused = s.machines.refused) :
      (s.setMachines x).recomputeMachines.machines.refused ≤ 255 := by
    rw [State.recomputeMachines_machines]
    exact hx.trans_le h
  cases c with
  | reset => exact Nat.zero_le _
  | loadSuccess memory =>
    refine State.of_guard (P := fun t => t.machines.refused ≤ 255) h (fun _ => ?_)
    split
    · rw [State.loadSucceeds_machines]
      exact h
    · exact h
  | dispatchMachine =>
    exact State.dispatch_keeps (P := fun t => t.machines.refused ≤ 255) _ (fun _ _ h => h)
      (fun _ f => State.takeMachine_refused f) h
  | machineStaleCrossing id | machineRemoval id =>
    exact State.of_guard (P := fun t => t.machines.refused ≤ 255) h (fun _ => recomputed _ rfl)
  | _ =>
    rw [s.after_reaches _ .machines (by simp [touched])]
    exact h

theorem State.after_machinesListHolds (c : Instr) (h : s.machines.ListHolds) : (s.after c).machines.ListHolds := by
  cases c with
  | reset => exact ⟨Nat.zero_le _, List.Pairwise.nil⟩
  | loadSuccess memory =>
    refine State.of_guard (P := fun t => t.machines.ListHolds) h (fun _ => ?_)
    split
    · rw [State.loadSucceeds_machines]
      exact h
    · exact h
  | dispatchMachine =>
    exact State.dispatch_keeps (P := fun t => t.machines.ListHolds) _ (fun _ _ h => h)
      (fun _ f => State.takeMachine_listHolds f) h
  | machineStaleCrossing id =>
    refine State.of_guard (P := fun t => t.machines.ListHolds) h (fun _ => ?_)
    rw [State.recomputeMachines_machines]
    refine h.map (u := fun m => if m.id = id then m.cross else m) (fun m => ?_) rfl
    split <;> rfl
  | machineRemoval id =>
    refine State.of_guard (P := fun t => t.machines.ListHolds) h (fun _ => ?_)
    rw [State.recomputeMachines_machines]
    exact h.filter rfl
  | _ =>
    rw [s.after_reaches _ .machines (by simp [touched])]
    exact h

theorem State.after_peersRefused (c : Instr) (h : s.peers.refused ≤ 255) : (s.after c).peers.refused ≤ 255 := by
  cases c with
  | reset => exact Nat.zero_le _
  | dispatchReport =>
    exact State.dispatch_keeps (P := fun t => t.peers.refused ≤ 255) _ (fun _ _ h => h)
      (fun _ f => State.takeReport_refused f) h
  | peerStaleCrossing id | peerRemoval id =>
    refine State.of_guard (P := fun t => t.peers.refused ≤ 255) h (fun _ => ?_)
    rw [State.shareComputation_peers]
    exact h
  | _ =>
    rw [s.after_reaches _ .peers (by simp [touched])]
    exact h

theorem State.after_peersListHolds (c : Instr) (h : s.peers.ListHolds) : (s.after c).peers.ListHolds := by
  cases c with
  | reset => exact ⟨Nat.zero_le _, List.Pairwise.nil⟩
  | dispatchReport =>
    exact State.dispatch_keeps (P := fun t => t.peers.ListHolds) _ (fun _ _ h => h) (fun _ f => State.takeReport_listHolds f) h
  | peerStaleCrossing id =>
    refine State.of_guard (P := fun t => t.peers.ListHolds) h (fun _ => ?_)
    rw [State.shareComputation_peers]
    refine h.map (u := fun p => if p.id = id then p.cross else p) (fun p => ?_) rfl
    split <;> rfl
  | peerRemoval id =>
    refine State.of_guard (P := fun t => t.peers.ListHolds) h (fun _ => ?_)
    rw [State.shareComputation_peers]
    exact h.filter rfl
  | _ =>
    rw [s.after_reaches _ .peers (by simp [touched])]
    exact h

end

end Sys2Proof.Machine
end

