-- ==== Sys2Proof/Proofs/LineCounts.lean ====
section
/-! The line interface's counts and the receive queue: what every command makes of them (R151, R157, R161, R163). -/

namespace Sys2Proof.Machine

/-! ## The receive queue -/

/-- The commands that dispatch a frame (R162). -/
def dispatches : Instr → Bool
  | .dispatchForecast | .dispatchMonitor | .dispatchMachine | .dispatchReport | .dispatchPond | .dispatchOrderMode
  | .dispatchOrderBank | .dispatchOrderForce | .dispatchOrderResume | .dispatchOrderZero | .orderIgnored
  | .frameDiscardedAtDispatch => true
  | _ => false

/-- A dispatcher that has taken the oldest free frame of `s`, counting an id conflict or not (R162, R163). -/
def State.HasDispatched (s : State) (d : Dispatcher) : Prop :=
  (∃ f, s.oldestFree = some f) ∧ (d = s.takeFree.dispatcher ∨ d = s.takeFree.idConflict.dispatcher)

section
variable {s : State}

theorem State.dispatch_dispatcher {bs : List Block} (mine : Frame → Bool) {owner : State → Frame → State}
    (h : ∀ (t : State) (f : Frame), State.Reaches bs t (owner t f)) (hb : .dispatcher ∉ bs := by decide) :
    (s.dispatch mine owner).dispatcher = s.dispatcher ∨ s.HasDispatched (s.dispatch mine owner).dispatcher := by
  obtain stays | ⟨f, hf, -, -, -, ⟨-, conflict⟩ | ⟨-, owned⟩⟩ := s.dispatch_cases mine owner
  · exact .inl (by rw [stays])
  · exact .inr ⟨⟨f, hf⟩, .inr (by rw [conflict])⟩
  · refine .inr ⟨⟨f, hf⟩, .inl ?_⟩
    rw [owned]
    exact h _ f .dispatcher hb

theorem State.dispatch_order_dispatcher {bs : List Block} (code : Nat) {act : State → Frame → State}
    (h : ∀ (t : State) (f : Frame), State.Reaches bs t (act t f)) (hb : .dispatcher ∉ bs := by decide) :
    (s.dispatch (ofOrder code) (fun t f => t.obey f act)).dispatcher = s.dispatcher ∨
      s.HasDispatched (s.dispatch (ofOrder code) (fun t f => t.obey f act)).dispatcher :=
  s.dispatch_dispatcher _ (fun t f => t.obey_reaches h f) hb

/-- A dispatch takes the oldest free frame or leaves the dispatcher as it was. -/
theorem State.after_dispatcher_of_dispatches (c : Instr) (hc : dispatches c = true) :
    (s.after c).dispatcher = s.dispatcher ∨ s.HasDispatched (s.after c).dispatcher := by
  cases c with
  | dispatchForecast => exact s.dispatch_dispatcher _ (fun t f => t.takeForecast_reaches f)
  | dispatchMonitor => exact s.dispatch_dispatcher _ (fun t f => t.takeMonitor_reaches f)
  | dispatchMachine => exact s.dispatch_dispatcher _ (fun t f => t.takeMachine_reaches f)
  | dispatchReport => exact s.dispatch_dispatcher _ (fun t f => t.takeReport_reaches f)
  | dispatchPond => exact s.dispatch_dispatcher _ (fun t f => t.takePond_reaches f)
  | dispatchOrderMode => exact s.dispatch_order_dispatcher 1 (fun t f => t.obeyMode_reaches f)
  | dispatchOrderBank => exact s.dispatch_order_dispatcher 2 (fun t f => t.obeyBank_reaches f)
  | dispatchOrderForce => exact s.dispatch_order_dispatcher 3 (fun t f => t.forceOrder_reaches _ _ _)
  | dispatchOrderResume => exact s.dispatch_order_dispatcher 4 (fun t _ => t.resume_reaches)
  | dispatchOrderZero => exact s.dispatch_order_dispatcher 5 (fun t _ => t.zeroVolumes_reaches)
  | orderIgnored => exact s.dispatch_dispatcher (bs := []) _ (fun t _ => .refl t _)
  | frameDiscardedAtDispatch =>
    rw [State.after_frameDiscardedAtDispatch]
    split
    next f hf =>
      split
      · exact .inl rfl
      · split
        · exact .inr ⟨⟨f, hf⟩, .inl rfl⟩
        · split
          · exact .inr ⟨⟨f, hf⟩, .inr rfl⟩
          · exact .inl rfl
    · exact .inl rfl
  | _ => cases hc

theorem State.readBit_of_not_inFrame (h : ∀ fromReady chars bits, s.line.rx ≠ .inFrame fromReady chars bits) (x : Samples) :
    s.readBit x = s := by
  unfold State.readBit
  split
  next hrx => exact absurd hrx (h _ _ _)
  all_goals rfl

/-- The line after the samples of a bit and the transmitter's watch (R143, R150, R151). -/
def Line.watched (period : Nat) (chars : Frame) (bits : List Bool) (x : Samples) (l : Line) : Line :=
  match (l.sample period x).sending with
  | some f => (l.sample period x).heed period (readBack f chars.length bits.length x.majority)
  | none => l.sample period x

/-- What becomes of a bit received (R146): the line as it stands, the station's own frame sent, or another's delivered. -/
def State.receiveBit (s : State) (l : Line) (completed : Option Frame) : State :=
  match completed with
  | none => s.setLine l
  | some f => if l.sending.isSome then s.setLine l.sent else (s.setLine l).deliver f

theorem State.readBit_eq {fromReady : Bool} {chars : Frame} {bits : List Bool} (h : s.line.rx = .inFrame fromReady chars bits)
    (x : Samples) : s.readBit x =
      s.receiveBit ((s.line.watched s.cfg.period chars bits x).receive s.cfg x.majority).1
        ((s.line.watched s.cfg.period chars bits x).receive s.cfg x.majority).2 := by
  unfold State.readBit
  rw [h]
  rfl

theorem State.receiveBit_dispatcher (l : Line) (completed : Option Frame) :
    (s.receiveBit l completed).dispatcher = s.dispatcher ∨ ∃ f, (s.receiveBit l completed).dispatcher = s.dispatcher.take f := by
  unfold State.receiveBit
  split
  · exact .inl rfl
  next f =>
    split
    · exact .inl rfl
    · exact .inr ⟨f, rfl⟩

theorem State.readBit_dispatcher (x : Samples) :
    (s.readBit x).dispatcher = s.dispatcher ∨ ∃ f, (s.readBit x).dispatcher = s.dispatcher.take f := by
  cases h : s.line.rx with
  | inFrame fromReady chars bits =>
    rw [State.readBit_eq h]
    exact State.receiveBit_dispatcher _ _
  | stopped | awaitGap | ready =>
    rw [State.readBit_of_not_inFrame (by simp [h])]
    exact .inl rfl

theorem State.readPlace_dispatcher (char bit : Nat) (x : Samples) (kinds : List ReadBack) :
    (s.readPlace char bit x kinds).dispatcher = s.dispatcher ∨
      ∃ f, (s.readPlace char bit x kinds).dispatcher = s.dispatcher.take f := by
  unfold State.readPlace
  split
  · split
    · exact State.readBit_dispatcher x
    · exact .inl rfl
  · exact .inl rfl

/-- Every other command but RESET leaves the dispatcher or hands it a frame (R160, R161). -/
theorem State.after_dispatcher_of_not_dispatches (c : Instr) (hc : dispatches c = false) (hr : c ≠ .reset) :
    (s.after c).dispatcher = s.dispatcher ∨ ∃ f, (s.after c).dispatcher = s.dispatcher.take f := by
  have guarded {p : Prop} [Decidable p] {t : State}
      (ht : t.dispatcher = s.dispatcher ∨ ∃ f, t.dispatcher = s.dispatcher.take f) :
      (if p then t else s).dispatcher = s.dispatcher ∨ ∃ f, (if p then t else s).dispatcher = s.dispatcher.take f := by
    split
    · exact ht
    · exact .inl rfl
  cases c with
  | reset => exact absurd rfl hr
  | dispatchForecast | dispatchMonitor | dispatchMachine | dispatchReport | dispatchPond | dispatchOrderMode | dispatchOrderBank
  | dispatchOrderForce | dispatchOrderResume | dispatchOrderZero | orderIgnored | frameDiscardedAtDispatch => cases hc
  | frameReceived f =>
    rw [State.after_frameReceived]
    split
    · exact guarded (.inr ⟨f, rfl⟩)
    · exact .inl rfl
  | arbitrationLost char bit x | clash char bit x => exact guarded (State.readPlace_dispatcher char bit x _)
  | bitRead x => exact guarded (State.readBit_dispatcher x)
  | _ => exact .inl (s.after_reaches _ .dispatcher (by simp [touched]))

/-- The dispatcher's counts in their range (R161, R163). -/
def Dispatcher.CountsHold (d : Dispatcher) : Prop := d.checkFail ≤ 255 ∧ d.overrun ≤ 255 ∧ d.idConflict ≤ 255

theorem Dispatcher.CountsHold.take {d : Dispatcher} (h : d.CountsHold) (f : Frame) : (d.take f).CountsHold := by
  obtain ⟨checkFail, overrun, idConflict⟩ := h
  obtain ⟨-, -, e⟩ | ⟨-, -, e⟩ | ⟨-, e⟩ := d.take_cases f <;> rw [e]
  · exact ⟨checkFail, overrun, idConflict⟩
  · exact ⟨checkFail, bump_le _, idConflict⟩
  · exact ⟨bump_le _, overrun, idConflict⟩

theorem Dispatcher.take_length {d : Dispatcher} (h : d.queue.length ≤ 8) (f : Frame) : (d.take f).queue.length ≤ 8 := by
  obtain ⟨-, hlt, e⟩ | ⟨-, -, e⟩ | ⟨-, e⟩ := d.take_cases f <;> rw [e]
  · simp only [List.length_append, List.length_singleton]
    omega
  · exact h
  · exact h

theorem State.after_dispatcherCounts (c : Instr) (h : s.dispatcher.CountsHold) : (s.after c).dispatcher.CountsHold := by
  by_cases hr : c = .reset
  · subst hr
    exact ⟨Nat.zero_le _, Nat.zero_le _, Nat.zero_le _⟩
  · cases hc : dispatches c with
    | true =>
      obtain e | ⟨-, e | e⟩ := State.after_dispatcher_of_dispatches (s := s) c hc <;> rw [e]
      · exact h
      · exact h
      · exact ⟨h.1, h.2.1, bump_le _⟩
    | false =>
      obtain e | ⟨f, e⟩ := State.after_dispatcher_of_not_dispatches (s := s) c hc hr <;> rw [e]
      · exact h
      · exact h.take f

theorem State.after_queueLength (c : Instr) (h : s.dispatcher.queue.length ≤ 8) :
    (s.after c).dispatcher.queue.length ≤ 8 := by
  have erased : (s.dispatcher.queue.eraseP (fun f => !s.holds f)).length ≤ 8 := (List.length_eraseP_le ..).trans h
  by_cases hr : c = .reset
  · subst hr
    exact Nat.zero_le _
  · cases hc : dispatches c with
    | true =>
      obtain e | ⟨-, e | e⟩ := State.after_dispatcher_of_dispatches (s := s) c hc <;> rw [e]
      · exact h
      · exact erased
      · exact erased
    | false =>
      obtain e | ⟨f, e⟩ := State.after_dispatcher_of_not_dispatches (s := s) c hc hr <;> rw [e]
      · exact h
      · exact Dispatcher.take_length h f

end

/-! ## The line counts -/

/-- The line interface's counts and its run of clashes in their ranges (R151, R157). -/
structure Line.CountsHold (l : Line) : Prop where
  noise : l.noise ≤ 255
  framing : l.framing ≤ 255
  clashes : l.clashes ≤ 255
  superseded : l.superseded ≤ 255
  clashRun : l.clashRun ≤ 7

namespace Line.CountsHold
variable {l : Line}

theorem countClash (period : Nat) (h : l.CountsHold) : (Line.countClash period l).CountsHold := by
  obtain ⟨noise, framing, -, superseded, clashRun⟩ := h
  unfold Line.countClash
  split
  · exact ⟨noise, framing, bump_le _, superseded, Nat.zero_le _⟩
  · exact ⟨noise, framing, bump_le _, superseded, by dsimp only; omega⟩

theorem discard (h : l.CountsHold) : l.discard.CountsHold := ⟨h.noise, bump_le _, h.clashes, h.superseded, h.clashRun⟩

theorem resolve (period : Nat) (h : l.CountsHold) : (l.resolve period).CountsHold := by
  have counted : Line.CountsHold (if l.deferredFraming then { l with framing := bump l.framing, deferredFraming := false } else l) := by
    split
    · exact ⟨h.noise, bump_le _, h.clashes, h.superseded, h.clashRun⟩
    · exact h
  unfold Line.resolve
  dsimp only
  generalize (if l.deferredFraming then _ else l : Line) = l1 at counted ⊢
  split
  · obtain ⟨noise, framing, clashes, superseded, clashRun⟩ := counted
    exact countClash period ⟨noise, framing, clashes, superseded, clashRun⟩
  · exact counted

theorem returnToSlot (h : l.CountsHold) : l.returnToSlot.CountsHold := by
  obtain ⟨noise, framing, clashes, superseded, clashRun⟩ := h
  unfold Line.returnToSlot
  split
  · exact ⟨noise, framing, clashes, superseded, clashRun⟩
  · exact ⟨noise, framing, clashes, superseded, clashRun⟩
  · exact ⟨noise, framing, clashes, bump_le _, clashRun⟩

theorem place (f : Frame) (h : l.CountsHold) : (l.place f).CountsHold := by
  obtain ⟨noise, framing, clashes, superseded, clashRun⟩ := h
  unfold Line.place
  split
  · exact ⟨noise, framing, clashes, superseded, clashRun⟩
  · exact ⟨noise, framing, clashes, bump_le _, clashRun⟩

theorem sent (h : l.CountsHold) : l.sent.CountsHold := ⟨h.noise, h.framing, h.clashes, h.superseded, Nat.zero_le _⟩

theorem heed (period : Nat) (r : ReadBack) (h : l.CountsHold) : (l.heed period r).CountsHold := by
  have returned := h.returnToSlot
  cases r with
  | same => exact h
  | lost => exact returned
  | clashed => exact returned.countClash period
  | clashing => exact ⟨returned.noise, returned.framing, returned.clashes, returned.superseded, returned.clashRun⟩

/-- A change of items other than the counts. -/
theorem of_eq {x : Line} (h : l.CountsHold) (noise : x.noise = l.noise) (framing : x.framing = l.framing)
    (clashes : x.clashes = l.clashes) (superseded : x.superseded = l.superseded) (clashRun : x.clashRun = l.clashRun) :
    x.CountsHold :=
  ⟨noise ▸ h.noise, framing ▸ h.framing, clashes ▸ h.clashes, superseded ▸ h.superseded, clashRun ▸ h.clashRun⟩

theorem accept (cfg : StationCfg) (fromReady : Bool) (chars : Frame) (h : l.CountsHold) :
    (l.accept cfg fromReady chars).1.CountsHold := by
  unfold Line.accept
  split
  · exact h.of_eq rfl rfl rfl rfl rfl
  · split
    · exact h.discard
    · split
      · exact h.of_eq rfl rfl rfl rfl rfl
      · exact h.of_eq rfl rfl rfl rfl rfl

theorem receive (cfg : StationCfg) (v : Bool) (h : l.CountsHold) : (l.receive cfg v).1.CountsHold := by
  unfold Line.receive
  split
  · split
    · split
      · dsimp only
        split
        · exact ⟨bump_le _, h.framing, h.clashes, h.superseded, h.clashRun⟩
        · exact h.of_eq rfl rfl rfl rfl rfl
      · exact h.discard
    · split
      · exact h.of_eq rfl rfl rfl rfl rfl
      · split
        · split
          · exact h.of_eq rfl rfl rfl rfl rfl
          · split
            · exact h.discard
            · exact h.of_eq rfl rfl rfl rfl rfl
        · split
          · exact h.accept cfg _ _
          · exact h.of_eq rfl rfl rfl rfl rfl
  all_goals exact h

theorem sample (period : Nat) (x : Samples) (h : l.CountsHold) : (l.sample period x).CountsHold := by
  have sampled : Line.CountsHold { l with
      noise := if x.agree then l.noise else bump l.noise, gap := if x.anyDominant then some 0 else l.gap, joinOpen := false } := by
    refine ⟨?_, h.framing, h.clashes, h.superseded, h.clashRun⟩
    dsimp only
    split
    · exact h.noise
    · exact bump_le _
  unfold Line.sample
  dsimp only
  split
  · exact (sampled.resolve period).of_eq rfl rfl rfl rfl rfl
  · exact sampled

theorem edge (period measure : Nat) (h : l.CountsHold) : (l.edge period measure).CountsHold :=
  (h.resolve period).of_eq rfl rfl rfl rfl rfl

theorem gapComplete (period : Nat) (h : l.CountsHold) : (l.gapComplete period).CountsHold := by
  have resolved := h.resolve period
  unfold Line.gapComplete
  dsimp only
  cases l.rx with
  | inFrame fromReady chars bits => exact resolved.discard.of_eq rfl rfl rfl rfl rfl
  | stopped | awaitGap | ready => exact resolved.of_eq rfl rfl rfl rfl rfl

theorem start (h : l.CountsHold) : l.start.CountsHold := by
  unfold Line.start
  split
  · exact h
  · exact h.of_eq rfl rfl rfl rfl rfl

theorem broken (h : l.CountsHold) : l.broken.CountsHold := h.returnToSlot.of_eq rfl rfl rfl rfl rfl

theorem requestBreak (h : l.CountsHold) : l.requestBreak.CountsHold := by
  unfold Line.requestBreak
  split
  · exact h
  · exact h.returnToSlot.of_eq rfl rfl rfl rfl rfl

end Line.CountsHold

section
variable {s : State}

theorem Line.CountsHold.watched {l : Line} (h : l.CountsHold) (period : Nat) (chars : Frame) (bits : List Bool) (x : Samples) :
    (l.watched period chars bits x).CountsHold := by
  unfold Line.watched
  split
  · exact (h.sample period x).heed _ _
  · exact h.sample period x

theorem State.readBit_counts (x : Samples) (h : s.line.CountsHold) : (s.readBit x).line.CountsHold := by
  cases hrx : s.line.rx with
  | inFrame fromReady chars bits =>
    have received := (h.watched s.cfg.period chars bits x).receive s.cfg x.majority
    rw [State.readBit_eq hrx]
    unfold State.receiveBit
    split
    · exact received
    · split
      · exact received.sent
      · exact received
  | stopped | awaitGap | ready =>
    rw [State.readBit_of_not_inFrame (by simp [hrx])]
    exact h

theorem State.readPlace_counts (char bit : Nat) (x : Samples) (kinds : List ReadBack) (h : s.line.CountsHold) :
    (s.readPlace char bit x kinds).line.CountsHold := by
  unfold State.readPlace
  split
  · split
    · exact State.readBit_counts x (s := s.setLine _) (h.of_eq rfl rfl rfl rfl rfl)
    · exact h
  · exact h

theorem State.toldOfBreak_line (s : State) : s.toldOfBreak.line = s.line := s.toldOfBreak_reaches .line (by decide)

theorem State.loadSucceeds_line (s : State) (cfg : StationCfg) : (s.loadSucceeds cfg).line = s.line.starts :=
  State.changeMode_reaches _ .listening .line (by decide)

/-- Every command keeps the line counts in their ranges. -/
theorem State.after_lineCounts (c : Instr) (h : s.line.CountsHold) : (s.after c).line.CountsHold := by
  have guarded {p : Prop} [Decidable p] {t : State} (ht : t.line.CountsHold) : (if p then t else s).line.CountsHold :=
    State.of_guard (P := fun t => t.line.CountsHold) h (fun _ => ht)
  cases c with
  | reset => exact ⟨Nat.zero_le _, Nat.zero_le _, Nat.zero_le _, Nat.zero_le _, Nat.zero_le _⟩
  | loadSuccess memory =>
    refine guarded ?_
    split
    · rw [State.loadSucceeds_line]
      exact h.of_eq rfl rfl rfl rfl rfl
    · exact h
  | pressureSample reading =>
    refine guarded ?_
    unfold State.samplePressure
    dsimp only
    split
    · exact h.requestBreak
    · exact h
  | breakSendEnd =>
    refine guarded ?_
    dsimp only
    split
    · rw [State.toldOfBreak_line]
      exact h.of_eq rfl rfl rfl rfl rfl
    · exact h.of_eq rfl rfl rfl rfl rfl
  | breakHeard =>
    refine guarded ?_
    rw [State.toldOfBreak_line]
    exact h.broken
  | idleGapComplete => exact guarded (h.gapComplete _)
  | frameReceived f =>
    rw [State.after_frameReceived]
    split
    · exact guarded ((h.resolve s.cfg.period).of_eq rfl rfl rfl rfl rfl)
    · exact h
  | frameStart => exact guarded h.start
  | arbitrationLost char bit x | clash char bit x => exact guarded (State.readPlace_counts char bit x _ h)
  | frameSent =>
    rw [State.after_frameSent]
    split
    · exact guarded h.sent
    · exact h
  | selfSilenceExpiry => exact guarded (h.of_eq rfl rfl rfl rfl rfl)
  | reportTimerExpiry => exact guarded (h.place _)
  | startEdge measure => exact guarded (h.edge _ _)
  | bitRead x => exact guarded (State.readBit_counts x h)
  | dominantRunEnd => exact guarded ((h.resolve s.cfg.period).of_eq rfl rfl rfl rfl rfl)
  | _ =>
    rw [s.after_reaches _ .line (by simp [touched])]
    exact h

end

end Sys2Proof.Machine
end

