-- ==== Sys2Proof/Proofs/Ranges.lean ====
section
/-! The remaining ranges: the wind unit's counts and its ring (R2, R4, R7), the low run (R137), the count page (R164), and the forecast
store (R20, R27); and with them the invariants of O55. -/

namespace Sys2Proof.Machine

/-! ## The low run -/

section
variable {s t : State}

theorem State.handOver_lowRun (s : State) (sR sF : Nat) : (s.handOver sR sF).sweep.lowRun = s.sweep.lowRun :=
  (s.handOver_within sR sF).lowRun

theorem State.weightNotice_lowRun (old s : State) : (State.weightNotice old s).sweep.lowRun = s.sweep.lowRun := by
  unfold State.weightNotice
  split
  · rfl
  · exact State.handOver_lowRun _ _ _

theorem State.complete_lowRun (s : State) (snap : Snapshot) (weightsFirst : Bool) :
    (s.complete snap weightsFirst).sweep.lowRun = s.sweep.lowRun := by
  unfold State.complete
  dsimp only
  split
  · rw [(State.levelNotice_within _ _).lowRun, State.weightNotice_lowRun]
    rfl
  · rw [State.weightNotice_lowRun, (State.levelNotice_within _ _).lowRun]
    rfl

theorem State.changeMode_lowRun (s : State) (m : Mode) : (s.changeMode m).sweep.lowRun = s.sweep.lowRun := by
  unfold State.changeMode
  dsimp only
  split
  · exact (State.sweepWake_within _).lowRun
  · exact (State.sweepHush_within _).lowRun

theorem State.bankOrder_lowRun (s : State) (bk : Bank) : (s.bankOrder bk).sweep.lowRun = s.sweep.lowRun := by
  have banked : (s.banked bk).sweep.lowRun = s.sweep.lowRun := (State.Within.of_fold State.bankChannel_within _ _).lowRun
  rw [State.bankOrder_eq]
  split
  · rw [(State.grantScan_within _).lowRun, banked]
  · exact banked

/-- Every move keeps the low run in its range. -/
theorem State.Moves.lowRun (h : s.Moves t) (hs : s.sweep.lowRun ≤ 2) : t.sweep.lowRun ≤ 2 := by
  induction h with
  | stays h => exact h.lowRun hs
  | trans _ _ ih ih' => exact ih' (ih hs)
  | time s => exact hs
  | reset s => exact Nat.zero_le _
  | load s cfg =>
    rw [State.loadSucceeds, State.changeMode_lowRun]
    exact hs
  | handOver s sR sF => rwa [State.handOver_lowRun]
  | completion s snap weightsFirst => rwa [State.complete_lowRun]
  | windHold s => rwa [s.windHold_within.lowRun]
  | recomputation s =>
    rw [s.recomputeMachines_within.lowRun]
    exact hs
  | @slewEnds s c => rwa [(s.slewEnds_within c).lowRun]
  | @valveOpens s c => rwa [(s.valveOpens_within c).lowRun]
  | @fault s c => rwa [(s.faultChannel_within c).lowRun]
  | @stepEnd s c => rwa [(s.stepEnd_within c).lowRun]
  | changeMode s m => rwa [State.changeMode_lowRun]
  | bankOrder s bk => rwa [State.bankOrder_lowRun]

/-! ## The count page -/

theorem State.enterHush_page (s : State) (r : Remembered) : (s.enterHush r).station.page = s.station.page := by
  rw [State.enterHush, State.changeMode_station]
  rfl

theorem State.hush_page (s : State) : s.hush.station.page = s.station.page := by
  unfold State.hush
  split
  · exact s.enterHush_page _
  · exact s.enterHush_page _
  · exact s.enterHush_page _
  all_goals rfl

theorem State.endHush_page (s : State) : s.endHush.station.page = s.station.page := by
  unfold State.endHush
  split
  · rw [State.changeMode_station]
    rfl
  · rfl

theorem State.modeOrder_page (s : State) (g : Target) : (s.modeOrder g).station.page = s.station.page := by
  unfold State.modeOrder
  split
  · rfl
  · split
    · rw [State.changeMode_station]
    · rfl
  · split
    · rw [State.changeMode_station]
    · rfl
  · split <;> rfl
  · rfl
  · rfl

theorem State.listeningEnds_page (s : State) : s.listeningEnds.station.page = s.station.page := by
  unfold State.listeningEnds
  dsimp only
  split
  · rw [State.changeMode_station]
    rfl
  all_goals rfl

theorem State.after_page (c : Instr) (h : s.station.page ≤ 3) : (s.after c).station.page ≤ 3 := by
  have guarded {p : Prop} [Decidable p] {t : State} (ht : t.station.page ≤ 3) : (if p then t else s).station.page ≤ 3 :=
    State.of_guard (P := fun t => t.station.page ≤ 3) h (fun _ => ht)
  cases c with
  | reset => exact Nat.zero_le _
  | resetRelease => exact guarded h
  | loadSuccess memory =>
    refine guarded ?_
    split
    · rw [State.loadSucceeds, State.changeMode_station]
      exact h
    · exact h
  | loadFailure memory =>
    refine guarded ?_
    split <;> exact h
  | pressureSample reading =>
    refine guarded ?_
    unfold State.samplePressure
    dsimp only
    split <;> exact h
  | breakSendEnd =>
    refine guarded ?_
    dsimp only
    split
    · rw [State.toldOfBreak, State.hush_page]
      exact h
    · exact h
  | breakHeard =>
    refine guarded ?_
    rw [State.toldOfBreak, State.hush_page]
    exact h
  | dispatchOrderMode =>
    refine State.dispatch_station (P := fun x => x.page ≤ 3) _ (fun t f ht => ?_) h
    unfold State.obey State.obeyMode
    split
    · split
      · rwa [State.modeOrder_page]
      · rwa [State.modeOrder_page]
      · exact ht
    · exact ht
  | dispatchOrderResume =>
    refine State.dispatch_station (P := fun x => x.page ≤ 3) _ (fun t f ht => ?_) h
    refine State.of_guard (P := fun t => t.station.page ≤ 3) ht (fun _ => ?_)
    refine State.of_guard (P := fun t => t.station.page ≤ 3) ht (fun _ => ?_)
    rwa [State.endHush_page]
  | listeningTimerExpiry =>
    refine guarded ?_
    rwa [State.listeningEnds_page]
  | hushHoldExpiry =>
    refine guarded ?_
    rwa [State.endHush_page]
  | reportTimerExpiry => exact guarded (by show (s.station.page + 1) % 4 ≤ 3; omega)
  | faultPatternTick =>
    rw [State.after_faultPatternTick]
    split <;> exact h
  | _ =>
    rw [s.after_reaches _ .station (by simp [touched])]
    exact h

/-! ## The wind unit -/

/-- What the cascade leaves of the wind unit: all but the source, U_eff and the held value with its timer (R10). -/
theorem State.decideWind_wind (s : State) : ∃ source heldValue heldTimer uEff, s.decideWind.wind =
    { s.wind with source := source, heldValue := heldValue, heldTimer := heldTimer, uEff := uEff } := by
  have held (s : State) : ∃ source heldValue heldTimer uEff, s.windHeld.wind =
      { s.wind with source := source, heldValue := heldValue, heldTimer := heldTimer, uEff := uEff } := by
    unfold State.windHeld
    split <;> exact ⟨_, _, _, _, rfl⟩
  unfold State.decideWind State.windBorrowed
  split
  · exact ⟨_, _, _, _, rfl⟩
  · split
    · exact ⟨_, _, _, _, rfl⟩
    · have same : s.selectForecast.wind = s.wind := s.selectForecast_reaches .wind (by decide)
      dsimp only
      split
      · rw [← same]
        exact ⟨_, _, _, _, rfl⟩
      · rw [← same]
        exact held _

/-- The escalation and the wind hold that a close ends with leave the wind unit. -/
theorem State.closeSample_wind (s : State) (vane : BitVec 4) :
    (s.closeSample vane).wind = (s.takeSample vane).decideWind.wind := by
  unfold State.closeSample
  dsimp only
  rw [(State.windHold_only _).wind]
  split <;> rfl

theorem Wind.write_length {w : Wind} (x : Sample) (h : w.writeIndex < 30 ∧ w.ring.length = if w.full then 30 else w.writeIndex) :
    (w.write x).writeIndex < 30 ∧
      (w.write x).ring.length = if (w.write x).full then 30 else (w.write x).writeIndex := by
  obtain ⟨index, length⟩ := h
  refine ⟨Nat.mod_lt _ (by decide), ?_⟩
  unfold Wind.write
  dsimp only
  cases hf : w.full with
  | true =>
    rw [hf, if_pos rfl] at length
    rw [if_pos (by omega), List.length_set, length]
    rfl
  | false =>
    rw [hf, if_neg (by decide)] at length
    rw [if_neg (by omega), List.length_append, length, Bool.false_or, List.length_singleton]
    by_cases hlast : w.writeIndex = 29
    · simp [hlast]
    · rw [if_neg (by simpa using hlast), Nat.mod_eq_of_lt (by omega)]

/-- The wind unit's counts in their range, its ring with its places and its index (R2, R4, R7). -/
theorem State.after_windCounts (c : Instr) (h : s.wind.count ≤ 65535 ∧ s.wind.zeroRun ≤ 150) :
    (s.after c).wind.count ≤ 65535 ∧ (s.after c).wind.zeroRun ≤ 150 := by
  have guarded {p : Prop} [Decidable p] {t : State} (ht : t.wind.count ≤ 65535 ∧ t.wind.zeroRun ≤ 150) :
      (if p then t else s).wind.count ≤ 65535 ∧ (if p then t else s).wind.zeroRun ≤ 150 :=
    State.of_guard (P := fun t => t.wind.count ≤ 65535 ∧ t.wind.zeroRun ≤ 150) h (fun _ => ht)
  cases c with
  | reset => exact ⟨Nat.zero_le _, Nat.zero_le _⟩
  | loadSuccess memory =>
    refine guarded ?_
    split
    · rw [State.loadSucceeds, State.changeMode_reaches _ _ .wind (by decide)]
      exact ⟨Nat.zero_le _, h.2⟩
    · exact h
  | sampleClose vane =>
    refine guarded ?_
    obtain ⟨_, _, _, _, e⟩ := (s.takeSample vane).decideWind_wind
    rw [State.closeSample_wind, e]
    refine ⟨Nat.zero_le _, ?_⟩
    show zeroRunAfter _ _ ≤ 150
    unfold zeroRunAfter
    split
    · exact Nat.min_le_left _ _
    · exact Nat.zero_le _
  | anemometerPulse =>
    rw [State.after_anemometerPulse]
    split
    · exact h
    · exact ⟨Nat.min_le_left _ _, h.2⟩
  | heldTimerExpiry =>
    rw [State.after_heldTimerExpiry]
    split <;> exact h
  | _ =>
    rw [s.after_reaches _ .wind (by simp [touched])]
    exact h

theorem State.after_ring (c : Instr)
    (h : s.wind.writeIndex < 30 ∧ s.wind.ring.length = if s.wind.full then 30 else s.wind.writeIndex) :
    (s.after c).wind.writeIndex < 30 ∧
      (s.after c).wind.ring.length = if (s.after c).wind.full then 30 else (s.after c).wind.writeIndex := by
  have guarded {p : Prop} [Decidable p] {t : State}
      (ht : t.wind.writeIndex < 30 ∧ t.wind.ring.length = if t.wind.full then 30 else t.wind.writeIndex) :=
    State.of_guard (P := fun t => t.wind.writeIndex < 30 ∧ t.wind.ring.length = if t.wind.full then 30 else t.wind.writeIndex)
      (p := p) h (fun _ => ht)
  cases c with
  | reset => exact ⟨Nat.succ_pos 29, rfl⟩
  | loadSuccess memory =>
    refine guarded ?_
    split
    · rw [State.loadSucceeds, State.changeMode_reaches _ _ .wind (by decide)]
      exact h
    · exact h
  | sampleClose vane =>
    refine guarded ?_
    obtain ⟨_, _, _, _, e⟩ := (s.takeSample vane).decideWind_wind
    rw [State.closeSample_wind, e]
    exact Wind.write_length (w := { s.wind with count := 0, sampleTimer := some (seconds 2) }) _ h
  | anemometerPulse =>
    rw [State.after_anemometerPulse]
    split <;> exact h
  | heldTimerExpiry =>
    rw [State.after_heldTimerExpiry]
    split <;> exact h
  | _ =>
    rw [s.after_reaches _ .wind (by simp [touched])]
    exact h

/-! ## The forecast store -/

/-- The store's six places, its recency order and its selected window (R20, R26, R27). -/
structure Forecast.Holds (f : Forecast) : Prop where
  places : f.places.length = 6
  recency : List.Perm f.recency [0, 1, 2, 3, 4, 5]
  selected : ∀ p ∈ f.selected, (f.window p).isSome = true

section
variable {f : Forecast}

theorem Forecast.Holds.mem_recency (h : f.Holds) {p : Nat} : p ∈ f.recency ↔ p < 6 := by
  rw [h.recency.mem_iff]
  simp only [List.mem_cons, List.not_mem_nil, or_false]
  omega

theorem Forecast.Holds.nodup (h : f.Holds) : f.recency.Nodup := h.recency.nodup_iff.mpr (by decide)

theorem touch_perm {p : Nat} {order : List Nat} (hn : order.Nodup) (hp : p ∈ order) : (touch p order).Perm order := by
  have erased : order.filter (fun q => q ≠ p) = order.erase p := by
    rw [hn.erase_eq_filter]
    refine List.filter_congr (fun q _ => ?_)
    by_cases hq : q = p <;> simp [hq]
  rw [touch, erased]
  exact (List.perm_cons_erase hp).symm

theorem Forecast.youngest_mem {now p : Nat} {l : List Nat} (h : f.youngest now l = some p) : p ∈ l := by
  induction l generalizing p with
  | nil => cases h
  | cons q rest ih =>
    unfold Forecast.youngest at h
    split at h
    · rw [Option.some.inj h]
      exact List.mem_cons_self
    next r hr =>
      split at h <;> obtain rfl := Option.some.inj h
      · exact List.mem_cons_of_mem _ (ih hr)
      · exact List.mem_cons_self

/-- The place that a selection chooses stands in the recency order and holds a candidate (R26). -/
theorem Forecast.choice_mem {gateway p : Nat} (h : f.choice gateway = some p) :
    ∃ now, f.clock = some now ∧ p ∈ f.recency ∧ f.candidate now p = true := by
  unfold Forecast.choice at h
  split at h
  · cases h
  next now hnow =>
    have mem := Forecast.youngest_mem h
    have candidate : p ∈ f.recency.filter (f.candidate now) := by
      split at mem
      · exact mem
      · exact List.mem_of_mem_filter mem
    obtain ⟨hp, hc⟩ := List.mem_filter.mp candidate
    exact ⟨now, hnow, hp, hc⟩

theorem Forecast.window_of_candidate {now p : Nat} (h : f.candidate now p = true) : (f.window p).isSome = true := by
  unfold Forecast.candidate at h
  split at h
  next hw => rw [hw]; rfl
  · cases h

theorem Forecast.window_put {p q : Nat} {w : Window} (hp : p < f.places.length) :
    (f.put p w).window q = if q = p then some w else f.window q := by
  unfold Forecast.window Forecast.put
  dsimp only
  rw [List.getElem?_set]
  by_cases hq : p = q
  · rw [if_pos hq, if_pos hp, if_pos hq.symm]
    rfl
  · rw [if_neg hq, if_neg (fun e => hq e.symm)]

theorem Forecast.Holds.put (h : f.Holds) {p : Nat} (hp : p ∈ f.recency) (w : Window) : (f.put p w).Holds := by
  have hlt : p < f.places.length := by
    rw [h.places]
    exact h.mem_recency.mp hp
  refine ⟨(List.length_set ..).trans h.places, (touch_perm h.nodup hp).trans h.recency, fun q hq => ?_⟩
  rw [Forecast.window_put hlt]
  split
  · rfl
  · exact h.selected q hq

theorem Forecast.sameKey_mem {p : Nat} {w : Window} (h : f.sameKey w = some p) : p ∈ f.recency := List.mem_of_find?_eq_some h

theorem Forecast.placeFor_mem {now p : Nat} (h : f.placeFor now = some p) : p ∈ f.recency := by
  unfold Forecast.placeFor at h
  dsimp only at h
  split at h
  next q hq =>
    rw [← Option.some.inj h]
    exact List.mem_reverse.mp (List.mem_of_find?_eq_some hq)
  · split at h
    next q hq =>
      rw [← Option.some.inj h]
      exact List.mem_reverse.mp (List.mem_of_mem_filter (List.mem_of_find?_eq_some hq))
    · exact List.mem_reverse.mp (List.mem_of_mem_filter (List.mem_of_head? h))

theorem Forecast.Holds.store (h : f.Holds) (now : Nat) (w : Window) : (f.store now w).Holds := by
  unfold Forecast.store
  split
  next p hp =>
    split
    · exact h
    · exact h.put (Forecast.sameKey_mem hp) w
  · split
    next p hp => exact h.put (Forecast.placeFor_mem hp) w
    · exact h

theorem Forecast.Holds.setClock (h : f.Holds) (t : Nat) : (f.setClock t).Holds := ⟨h.places, h.recency, h.selected⟩

end

theorem State.selectForecast_holds (h : s.forecast.Holds) : s.selectForecast.forecast.Holds := by
  unfold State.selectForecast
  split
  · exact ⟨h.places, h.recency, fun p hp => absurd hp (by simp)⟩
  next p hp =>
    obtain ⟨now, -, hmem, hcand⟩ := Forecast.choice_mem hp
    refine ⟨h.places, (touch_perm h.nodup hmem).trans h.recency, fun q hq => ?_⟩
    obtain rfl : p = q := Option.some.inj hq
    exact Forecast.window_of_candidate hcand

/-- A selection alone moves the forecast store at a close (R13). -/
theorem State.decideWind_forecast (s : State) :
    s.decideWind.forecast = s.forecast ∨ s.decideWind.forecast = s.selectForecast.forecast := by
  have held (u : State) : u.windHeld.forecast = u.forecast := u.windHeld_reaches .forecast (by decide)
  unfold State.decideWind State.windBorrowed
  split
  · exact .inl rfl
  · split
    · exact .inl rfl
    · dsimp only
      split
      · exact .inr rfl
      · exact .inr (held _)

theorem State.closeSample_forecast (s : State) (vane : BitVec 4) :
    (s.closeSample vane).forecast = (s.takeSample vane).decideWind.forecast := by
  unfold State.closeSample
  dsimp only
  rw [(State.windHold_only _).forecast]
  split <;> rfl

theorem State.takeForecast_holds (x : Frame) (h : s.forecast.Holds) : (s.takeForecast x).forecast.Holds := by
  unfold State.takeForecast
  split
  · exact (h.setClock _).store _ _
  · exact h

theorem State.advanceClock_forecast (s : State) (now : Nat) :
    (s.advanceClock now).forecast = s.forecast.setClock ((now + 1) % 86400) := by
  unfold State.advanceClock
  dsimp only
  split <;> rfl

theorem State.startEvaluation_forecast (s : State) :
    s.startEvaluation.forecast = s.dropExpiredOverrides.selectForecast.forecast := rfl

theorem Forecast.reset_holds : Forecast.reset.Holds := ⟨by decide, by decide, by decide⟩

/-- Every command keeps the store's places, order and selected window. -/
theorem State.after_storeHolds (c : Instr) (h : s.forecast.Holds) : (s.after c).forecast.Holds := by
  have guarded {p : Prop} [Decidable p] {t : State} (ht : t.forecast.Holds) : (if p then t else s).forecast.Holds :=
    State.of_guard (P := fun t => t.forecast.Holds) h (fun _ => ht)
  cases c with
  | reset => exact Forecast.reset_holds
  | sampleClose vane =>
    refine guarded ?_
    rw [State.closeSample_forecast]
    obtain e | e := (s.takeSample vane).decideWind_forecast <;> rw [e]
    · exact h
    · exact State.selectForecast_holds (s := s.takeSample vane) h
  | dispatchForecast =>
    exact State.dispatch_keeps (P := fun t => t.forecast.Holds) _ (fun _ _ h => h) (fun _ f => State.takeForecast_holds f) h
  | yardClockAdvance =>
    rw [State.after_yardClockAdvance]
    split
    · refine guarded ?_
      rw [State.advanceClock_forecast]
      exact h.setClock _
    · exact h
  | evaluationTimerExpiry =>
    refine guarded ?_
    dsimp only
    split
    · exact h
    · rw [State.startEvaluation_forecast]
      exact State.selectForecast_holds h
  | _ =>
    rw [s.after_reaches _ .forecast (by simp [touched])]
    exact h

end

/-! ## The ranges through a step -/

section
variable {s : State}

theorem State.timePasses_of_cases {P : State → Prop} (rest : P s) (pattern : P s.patternPassesTime) (blocks : P s.blocksPassTime) :
    P s.timePasses := by
  unfold State.timePasses
  split
  · exact rest
  · exact pattern
  all_goals exact blocks

/-- The counts of the blocks beyond the sweep engine. -/
def State.BlockCountsHold (s : State) : Prop :=
  s.line.CountsHold ∧ s.dispatcher.CountsHold ∧ s.machines.refused ≤ 255 ∧ s.peers.refused ≤ 255 ∧
  (s.wind.count ≤ 65535 ∧ s.wind.zeroRun ≤ 150) ∧ s.station.page ≤ 3

theorem State.countsHold_iff : s.CountsHold ↔
    s.BlockCountsHold ∧ s.sweep.lowRun ≤ 2 ∧ ∀ ch ∈ s.sweep.channels, ch.laps ≤ 65535 := by
  constructor
  · rintro ⟨noise, framing, clashes, superseded, checkFail, overrun, idConflict, machines, peers, count, zeroRun, clashRun, lowRun,
      page, laps⟩
    exact ⟨⟨⟨noise, framing, clashes, superseded, clashRun⟩, ⟨checkFail, overrun, idConflict⟩, machines, peers, ⟨count, zeroRun⟩,
      page⟩, lowRun, laps⟩
  · rintro ⟨⟨⟨noise, framing, clashes, superseded, clashRun⟩, ⟨checkFail, overrun, idConflict⟩, machines, peers, ⟨count, zeroRun⟩,
      page⟩, lowRun, laps⟩
    exact ⟨noise, framing, clashes, superseded, checkFail, overrun, idConflict, machines, peers, count, zeroRun, clashRun, lowRun,
      page, laps⟩

theorem State.BlockCountsHold.after (h : s.BlockCountsHold) (c : Instr) : (s.after c).BlockCountsHold := by
  obtain ⟨line, dispatcher, machines, peers, wind, page⟩ := h
  exact ⟨State.after_lineCounts c line, State.after_dispatcherCounts c dispatcher, State.after_machinesRefused c machines,
    State.after_peersRefused c peers, State.after_windCounts c wind, State.after_page c page⟩

theorem State.BlockCountsHold.timePasses (h : s.BlockCountsHold) : s.timePasses.BlockCountsHold := by
  refine State.timePasses_of_cases h h ?_
  obtain ⟨line, dispatcher, machines, peers, wind, page⟩ := h
  exact ⟨line.of_eq rfl rfl rfl rfl rfl, dispatcher, machines, peers, wind, page⟩

theorem State.CountsHold.step {t : State} (hs : s.CountsHold) (h : step s = .next t) : t.CountsHold := by
  obtain ⟨blocks, lowRun, laps⟩ := State.countsHold_iff.mp hs
  refine State.countsHold_iff.mpr ⟨?_, (step_moves h).lowRun lowRun, State.laps_step laps h⟩
  exact step_keeps (P := State.BlockCountsHold) (fun _ _ h => h) (fun _ h => h.timePasses) (fun _ c h => h.after c) blocks h

theorem State.ListsHold.after (h : s.ListsHold) (c : Instr) : (s.after c).ListsHold := by
  obtain ⟨queue, peers, machines, ring⟩ := h
  exact ⟨State.after_queueLength c queue, State.after_peersListHolds c peers, State.after_machinesListHolds c machines,
    State.after_ring c ring⟩

theorem State.ListsHold.timePasses (h : s.ListsHold) : s.timePasses.ListsHold := by
  refine State.timePasses_of_cases h h ?_
  obtain ⟨queue, peers, machines, ring⟩ := h
  have peersHold : Peers.ListHolds s.blocksPassTime.peers := Peers.ListHolds.map (u := Peer.passTime) peers (fun _ => rfl) rfl
  have machinesHold : Machines.ListHolds s.blocksPassTime.machines :=
    Machines.ListHolds.map (u := MachineRecord.passTime) machines (fun _ => rfl) rfl
  exact ⟨queue, peersHold, machinesHold, ring⟩

theorem State.storeHolds_iff : s.StoreHolds ↔ s.forecast.Holds :=
  ⟨fun ⟨places, recency, selected⟩ => ⟨places, recency, selected⟩, fun ⟨places, recency, selected⟩ => ⟨places, recency, selected⟩⟩

end

/-- Settles O55: counts and lists block by block, the low run and the laps through the moves of the sweep engine. -/
theorem stepKeepsRanges : Obligations.StepKeepsRanges := by
  refine ⟨fun s t hs h => State.CountsHold.step hs h, fun s t hs h => ?_, fun s t hs h => ?_⟩
  · exact step_keeps (P := State.ListsHold) (fun _ _ h => h) (fun _ h => State.ListsHold.timePasses h)
      (fun _ c h => State.ListsHold.after h c) hs h
  · refine State.storeHolds_iff.mpr (step_keeps (P := fun s => s.forecast.Holds) (fun _ _ h => h) (fun s h => ?_)
      (fun _ c h => State.after_storeHolds c h) (State.storeHolds_iff.mp hs) h)
    exact State.timePasses_of_cases (P := fun s => s.forecast.Holds) h h ⟨h.places, h.recency, h.selected⟩

end Sys2Proof.Machine
end

