-- ==== Sys2Proof/Proofs/ImageRanges.lean ====
section
/-! An image that passes the nine stages (R165): what each stage leaves certain of the values, and with it O6. -/

namespace Sys2Proof.Machine

/-! ## Sections measured -/

section
variable {size least most n : Nat} {b rest : List Byte} {l : List (List Byte)}

/-- Blocks taken are as many as asked, each of the size asked. -/
theorem takeBlocks_spec (h : takeBlocks size n b = some (l, rest)) : l.length = n ∧ ∀ x ∈ l, x.length = size := by
  induction n generalizing b l rest with
  | zero =>
    obtain ⟨rfl, -⟩ := Prod.mk.inj (Option.some.inj h)
    exact ⟨rfl, by simp⟩
  | succ n ih =>
    unfold takeBlocks at h
    split at h
    · cases h
    next hlen =>
      split at h
      next r hr =>
        obtain ⟨rfl, -⟩ := Prod.mk.inj (Option.some.inj h)
        obtain ⟨length, sizes⟩ := ih hr
        refine ⟨by simp [length], fun x hx => ?_⟩
        obtain rfl | hx := List.mem_cons.mp hx
        · simp only [List.length_take]
          omega
        · exact sizes x hx
      · cases h

/-- A table's count lies in its bounds, and its blocks have its size. -/
theorem takeTable_spec (h : takeTable size least most b = some (l, rest)) :
    (least ≤ l.length ∧ l.length ≤ most) ∧ ∀ x ∈ l, x.length = size := by
  unfold takeTable at h
  split at h
  · cases h
  · split at h
    · cases h
    next hcount =>
      obtain ⟨length, sizes⟩ := takeBlocks_spec h
      exact ⟨by omega, sizes⟩

/-- A channel's part with its tables within their bounds (R165). -/
structure RawChannel.Measured (c : RawChannel) : Prop where
  shadow : c.shadow.length ≤ 16
  arcs : c.arcs.length ≤ 2
  planA : 1 ≤ c.planA.length ∧ c.planA.length ≤ 8
  planB : 1 ≤ c.planB.length ∧ c.planB.length ≤ 8

theorem takeChannel_measured {c : RawChannel} (h : takeChannel b = some (c, rest)) : c.Measured := by
  simp only [takeChannel, Option.bind_eq_some_iff, Option.map_eq_some_iff, Prod.mk.injEq, Prod.exists] at h
  obtain ⟨_, _, -, shadow, _, hshadow, arcs, _, harcs, planA, _, hplanA, planB, _, hplanB, rfl, -⟩ := h
  exact ⟨(takeTable_spec hshadow).1.2, (takeTable_spec harcs).1.2, (takeTable_spec hplanA).1, (takeTable_spec hplanB).1⟩

theorem takeChannels_spec {cs : List RawChannel} (h : takeChannels n b = some (cs, rest)) :
    cs.length = n ∧ ∀ c ∈ cs, c.Measured := by
  induction n generalizing b cs rest with
  | zero =>
    obtain ⟨rfl, -⟩ := Prod.mk.inj (Option.some.inj h)
    exact ⟨rfl, by simp⟩
  | succ n ih =>
    simp only [takeChannels, Option.bind_eq_some_iff, Option.map_eq_some_iff, Prod.mk.injEq, Prod.exists] at h
    obtain ⟨c, _, hc, cs', _, hcs, rfl, -⟩ := h
    obtain ⟨length, measured⟩ := ih hcs
    refine ⟨by simp [length], fun x hx => ?_⟩
    obtain rfl | hx := List.mem_cons.mp hx
    · exact takeChannel_measured hc
    · exact measured x hx

/-- The image's sections are as many as its header and its tables say. -/
structure RawImage.Measured (r : RawImage) (image : List Byte) : Prop where
  station : r.station = image.take 52
  faces : r.faces.length = field image 48 1
  faceMap : r.faceMap.length ≤ 12
  mapEntries : ∀ x ∈ r.faceMap, x.length = 3
  relations : r.relations.length ≤ 8
  relationEntries : ∀ x ∈ r.relations, x.length = 4
  channelCount : r.channels.length = field image 49 1
  channels : ∀ c ∈ r.channels, c.Measured

theorem measureImage_measured {image : List Byte} {r : RawImage} (h : measureImage image = some r) : r.Measured image := by
  simp only [measureImage, Option.bind_eq_some_iff, Prod.exists] at h
  obtain ⟨faces, _, hfaces, faceMap, _, hfaceMap, relations, _, hrelations, channels, _, hchannels, h⟩ := h
  split at h
  · obtain rfl := Option.some.inj h
    exact ⟨rfl, (takeBlocks_spec hfaces).1, (takeTable_spec hfaceMap).1.2, (takeTable_spec hfaceMap).2,
      (takeTable_spec hrelations).1.2, (takeTable_spec hrelations).2, (takeChannels_spec hchannels).1,
      (takeChannels_spec hchannels).2⟩
  · cases h

end

/-! ## The stages passed -/

/-- What an image that passes has been through (R165). -/
structure RawImage.Passed (r : RawImage) (image : List Byte) : Prop where
  measured : r.Measured image
  station : stationPasses image = true
  faces : r.faces.all facePasses = true
  faceMap : mapPasses r.faces.length r.faceMap = true
  arcs : r.channels.all arcsPass = true
  relations : relationsPass (field r.station 5 1) r.faces.length r.relations = true
  channels : r.channels.all (channelPasses r.faces.length) = true

theorem testSections_passes {r : RawImage} {cfg : StationCfg} (h : testSections r = .passes cfg) :
    r.faces.all facePasses = true ∧ (mapPasses r.faces.length r.faceMap && r.channels.all arcsPass) = true ∧
      relationsPass (field r.station 5 1) r.faces.length r.relations = true ∧
      r.channels.all (channelPasses r.faces.length) = true ∧ cfg = configOf r := by
  unfold testSections at h
  split at h
  · cases h
  next faces =>
    split at h
    · cases h
    next maps =>
      split at h
      · cases h
      next relations =>
        split at h
        · cases h
        next channels =>
          exact ⟨Bool.eq_true_of_not_eq_false faces, Bool.eq_true_of_not_eq_false maps, Bool.eq_true_of_not_eq_false relations,
            Bool.eq_true_of_not_eq_false channels, (LoadResult.passes.inj h).symm⟩

theorem testImage_passes {image : List Byte} {cfg : StationCfg} (h : testImage image = .passes cfg) :
    ∃ r : RawImage, r.Passed image ∧ cfg = configOf r := by
  unfold testImage at h
  split at h
  · cases h
  · split at h
    · cases h
    · split at h
      · cases h
      next station =>
        split at h
        · cases h
        next r hr =>
          obtain ⟨faces, maps, relations, channels, e⟩ := testSections_passes h
          rw [Bool.and_eq_true] at maps
          exact ⟨r, ⟨measureImage_measured hr, Bool.eq_true_of_not_eq_false station, faces, maps.1, maps.2, relations,
            channels⟩, e⟩

theorem loadImage_passes {memory : List Byte} {cfg : StationCfg} (h : loadImage memory = .passes cfg) :
    ∃ (image : List Byte) (r : RawImage), r.Passed image ∧ cfg = configOf r := by
  unfold loadImage at h
  split at h
  · cases h
  · exact ⟨_, testImage_passes h⟩

/-! ## Fields -/

/-- A field within the first `k` bytes is read from them. -/
theorem field_take {b : List Byte} {k i n : Nat} (h : i + n ≤ k) : field (b.take k) i n = field b i n := by
  rw [field, field, List.drop_take, List.take_take, Nat.min_eq_left (by omega)]

theorem field_one (b : List Byte) (i : Nat) : field b i 1 = ((b[i]?).map BitVec.toNat).getD 0 := by
  rw [field, List.take_one, List.head?_drop]
  cases b[i]? with
  | none => rfl
  | some x => simp [bigEndian]

/-- Two bytes are told apart by the fields they make. -/
theorem getElem?_eq_of_field_one {x y : List Byte} {i : Nat} (hx : i < x.length) (hy : i < y.length)
    (h : field x i 1 = field y i 1) : x[i]? = y[i]? := by
  rw [field_one, field_one, List.getElem?_eq_getElem hx, List.getElem?_eq_getElem hy] at h
  rw [List.getElem?_eq_getElem hx, List.getElem?_eq_getElem hy]
  exact congrArg some (BitVec.eq_of_toNat_eq h)

/-- Lists without a repetition stay so under a reading from which the reading before can be had. -/
theorem nodup_map_of_determines {α β γ : Type} {l : List α} {u : α → β} {v : α → γ} (h : (l.map u).Nodup)
    (huv : ∀ x ∈ l, ∀ y ∈ l, v x = v y → u x = u y) : (l.map v).Nodup :=
  List.Nodup.map_on (fun x hx y hy e => List.inj_on_of_nodup_map h hx hy (huv x hx y hy e)) (List.Nodup.of_map u h)

/-! ## What each test says -/

theorem within_iff {lo hi n : Nat} : within lo hi n = true ↔ lo ≤ n ∧ n ≤ hi := by simp [within]

theorem withinInt_iff {lo hi n : Int} : withinInt lo hi n = true ↔ lo ≤ n ∧ n ≤ hi := by simp [withinInt]

/-- The ranges of the station's own values (R35, R68, R95, R142, R166). -/
structure StationCfg.InRange (cfg : StationCfg) : Prop where
  id : 1 ≤ cfg.id ∧ cfg.id ≤ 239
  divisor : 1 ≤ cfg.divisor ∧ cfg.divisor ≤ 8191
  period : 1 ≤ cfg.period
  pond : 1 ≤ cfg.pond ∧ cfg.pond ≤ 239 ∧ cfg.pond ≠ cfg.id
  gateway : 1 ≤ cfg.gateway ∧ cfg.gateway ≤ 239
  thresholds : 1 ≤ cfg.tWatch ∧ cfg.tWatch < cfg.tSpray ∧ cfg.tSpray < cfg.tHeavy ∧ cfg.tHeavy ≤ 992
  hysteresis : cfg.hysteresis ≤ 63 ∧ cfg.hysteresis < cfg.tWatch
  reserve : cfg.reserve ≤ 50
  failsafe : cfg.failsafe ≤ 600
  defaultRh : cfg.defaultRh ≤ 100
  interval : 5 ≤ cfg.interval ∧ cfg.interval ≤ 60
  lead : 15 ≤ cfg.lead ∧ cfg.lead ≤ 120
  monitorSilence : 30 ≤ cfg.monitorSilence ∧ cfg.monitorSilence ≤ 300
  holdTime : 60 ≤ cfg.holdTime ∧ cfg.holdTime ≤ 1800
  pondSilence : 10 ≤ cfg.pondSilence ∧ cfg.pondSilence ≤ 120
  hushHold : 60 ≤ cfg.hushHold ∧ cfg.hushHold ≤ 900
  kReclaim : 64 ≤ cfg.kReclaim
  kStack : 64 ≤ cfg.kStack
  collapse : cfg.collapse ≤ 1000
  aFactor : 1 ≤ cfg.aFactor
  aOffset : cfg.aOffset ≤ 20
  turbidityLimit : cfg.turbidityLimit ≤ 1000

section
variable {r : RawImage} {image : List Byte}

theorem RawImage.Passed.inRange (h : r.Passed image) : (configOf r).InRange ∧ (1 ≤ r.faces.length ∧ r.faces.length ≤ 6) ∧
    (1 ≤ r.channels.length ∧ r.channels.length ≤ 4) := by
  have faces := h.measured.faces
  have channels := h.measured.channelCount
  have passes : stationPasses r.station = true := by
    rw [h.measured.station, ← h.station]
    simp [stationPasses, field_take]
  rw [← field_take (k := 52) (by decide), ← h.measured.station] at faces channels
  simp only [stationPasses, Bool.and_eq_true, within_iff, decide_eq_true_eq] at passes
  have station : (configOf r).InRange := by
    constructor <;> simp only [configOf] <;> omega
  exact ⟨station, by omega, by omega⟩

theorem facePasses_range {b : List Byte} (h : facePasses b = true) :
    (faceOf b).orientation ≤ 15 ∧ (faceOf b).exposure.length = 16 ∧ (∀ e ∈ (faceOf b).exposure, e ≤ 256) ∧
      10 ≤ (faceOf b).threshold ∧ (faceOf b).threshold ≤ 300 ∧ (faceOf b).moisture ≤ 4095 := by
  simp only [facePasses, Bool.and_eq_true, within_iff, decide_eq_true_eq, List.all_eq_true] at h
  obtain ⟨⟨⟨orientation, exposure⟩, threshold⟩, moisture⟩ := h
  refine ⟨orientation, by simp [faceOf], fun e he => ?_, threshold.1, threshold.2, moisture⟩
  obtain ⟨k, hk, rfl⟩ := List.mem_map.mp he
  exact exposure k hk

theorem take_two_eq {x y : List Byte} (hx : 2 ≤ x.length) (hy : 2 ≤ y.length) (h0 : field x 0 1 = field y 0 1)
    (h1 : field x 1 1 = field y 1 1) : x.take 2 = y.take 2 := by
  apply List.ext_getElem?
  intro i
  simp only [List.getElem?_take]
  split
  next hi =>
    obtain rfl | rfl : i = 0 ∨ i = 1 := by omega
    · exact getElem?_eq_of_field_one (by omega) (by omega) h0
    · exact getElem?_eq_of_field_one (by omega) (by omega) h1
  · rfl

theorem RawImage.Passed.faceMap_range (h : r.Passed image) :
    (∀ e ∈ (configOf r).faceMap, 1 ≤ e.index ∧ e.index ≤ r.faces.length) ∧
      ((configOf r).faceMap.map (fun e => (e.pile, e.face))).Nodup := by
  have passes := h.faceMap
  simp only [mapPasses, Bool.and_eq_true, within_iff, decide_eq_true_eq, List.all_eq_true] at passes
  obtain ⟨indices, nodup⟩ := passes
  refine ⟨List.forall_mem_map.mpr indices, ?_⟩
  show ((r.faceMap.map mapEntryOf).map _).Nodup
  rw [List.map_map]
  refine nodup_map_of_determines nodup (fun x hx y hy e => ?_)
  obtain ⟨pile, face⟩ := Prod.mk.inj e
  have lx := h.measured.mapEntries x hx
  have ly := h.measured.mapEntries y hy
  exact take_two_eq (by omega) (by omega) pile face

theorem RawImage.Passed.relations_range (h : r.Passed image) :
    (∀ e ∈ (configOf r).relations, 1 ≤ e.monitor ∧ e.monitor ≤ 239 ∧ e.monitor ≠ (configOf r).id ∧
      e.faces < 2 ^ r.faces.length) ∧ ((configOf r).relations.map Relation.monitor).Nodup := by
  have passes := h.relations
  simp only [relationsPass, Bool.and_eq_true, within_iff, decide_eq_true_eq, List.all_eq_true] at passes
  obtain ⟨ranges, nodup⟩ := passes
  refine ⟨List.forall_mem_map.mpr (fun b hb => ?_), ?_⟩
  · obtain ⟨⟨monitor, own⟩, faces⟩ := ranges b hb
    exact ⟨monitor.1, monitor.2, own, faces⟩
  · show ((r.relations.map relationOf).map _).Nodup
    rw [List.map_map]
    refine nodup_map_of_determines nodup (fun x hx y hy e => ?_)
    have lx := h.measured.relationEntries x hx
    have ly := h.measured.relationEntries y hy
    have first : x[0]? = y[0]? := getElem?_eq_of_field_one (by omega) (by omega) e
    rw [List.take_one, List.take_one, List.head?_eq_getElem?, List.head?_eq_getElem?, first]

/-- The ranges of a leg with `faces` faces configured (R116, R118). -/
structure Leg.InRange (g : Leg) (faces : Nat) : Prop where
  face : 1 ≤ g.face ∧ g.face ≤ faces
  minimum : 2 ≤ g.minimum ∧ g.minimum ≤ 4
  dwell : 1 ≤ g.dwell ∧ g.dwell ≤ 60
  e0 : g.e0 ≤ 600
  parameters : g.parametersPass = true

theorem legPasses_range {faces : Nat} {b : List Byte} (h : legPasses faces b = true) : (legOf b).InRange faces := by
  simp only [legPasses, Bool.and_eq_true, within_iff, decide_eq_true_eq] at h
  obtain ⟨⟨⟨⟨⟨face, minimum⟩, -⟩, dwell⟩, e0⟩, parameters⟩ := h
  exact ⟨face, minimum, dwell, e0, parameters⟩

end

section
variable {g : Leg} (h : g.parametersPass = true)
include h

theorem Leg.hold_range (hp : g.pattern = .hold) : 1 ≤ g.count ∧ g.a0 ≤ 3599 := by
  simpa [Leg.parametersPass, hp] using h

theorem Leg.arc_range (hp : g.pattern = .arc) : 1 ≤ g.count ∧ g.a0 ≤ 3599 ∧ -900 ≤ g.aStep ∧ g.aStep ≤ 900 := by
  simpa [Leg.parametersPass, hp, withinInt_iff, and_assoc] using h

theorem Leg.raster_range (hp : g.pattern = .raster) : g.a0 ≤ 3599 ∧ -900 ≤ g.aStep ∧ g.aStep ≤ 900 ∧ 1 ≤ g.rows ∧ g.rows ≤ 15 ∧
    1 ≤ g.columns ∧ g.columns ≤ 17 ∧ -600 ≤ g.eStep ∧ g.eStep ≤ 600 := by
  simpa [Leg.parametersPass, hp, withinInt_iff, within_iff, and_assoc] using h

theorem Leg.ring_range (hp : g.pattern = .ring) : 1 ≤ g.count ∧ g.ringBase ≤ 3599 ∧ 1 ≤ g.ringLength ∧ g.ringLength ≤ 3600 ∧
    -3599 ≤ g.ringStride ∧ g.ringStride ≤ 3599 ∧ 0 < g.ringStride.natAbs ∧ g.ringStride.natAbs < g.ringLength ∧
    g.ringBase ≤ g.a0 ∧ g.a0 < g.ringBase + g.ringLength := by
  simp only [Leg.parametersPass, hp, withinInt_iff, within_iff, Bool.and_eq_true, decide_eq_true_eq] at h
  omega

theorem Leg.one_le_steps : 1 ≤ g.steps := by
  unfold Leg.steps
  cases hp : g.pattern with
  | hold => exact (Leg.hold_range h hp).1
  | arc => exact (Leg.arc_range h hp).1
  | ring => exact (Leg.ring_range h hp).1
  | raster =>
    obtain ⟨-, -, -, rows, -, columns, -⟩ := Leg.raster_range h hp
    exact Nat.mul_pos rows columns

end

section
variable {r : RawImage} {image : List Byte}

theorem channelPasses_range {faces : Nat} {c : RawChannel} (h : channelPasses faces c = true) :
    (1 ≤ (channelOf c).flow ∧ 20 ≤ (channelOf c).cutoff ∧ (channelOf c).cutoff ≤ 600 ∧ (channelOf c).gain ≤ 100 ∧
      1 ≤ (channelOf c).weight ∧ 1 ≤ (channelOf c).valveTimeout ∧ (channelOf c).valveTimeout ≤ 10 ∧
      2 ≤ (channelOf c).slewTimeout ∧ (channelOf c).slewTimeout ≤ 30) ∧
      ∀ g ∈ (channelOf c).planA ++ (channelOf c).planB, g.InRange faces := by
  simp only [channelPasses, Bool.and_eq_true, within_iff, decide_eq_true_eq, List.all_eq_true] at h
  obtain ⟨⟨⟨⟨⟨⟨⟨flow, cutoff⟩, gain⟩, weight⟩, valve⟩, slew⟩, planA⟩, planB⟩ := h
  refine ⟨⟨flow, cutoff.1, cutoff.2, gain, weight, valve.1, valve.2, slew.1, slew.2⟩, fun g hg => ?_⟩
  obtain hg | hg := List.mem_append.mp hg
  · obtain ⟨b, hb, rfl⟩ := List.mem_map.mp hg
    exact legPasses_range (planA b hb)
  · obtain ⟨b, hb, rfl⟩ := List.mem_map.mp hg
    exact legPasses_range (planB b hb)

theorem arcsPass_range {c : RawChannel} (h : arcsPass c = true) :
    (∀ e ∈ (channelOf c).shadow, e.arc.lo ≤ 3599 ∧ e.arc.hi ≤ 3599) ∧
      ∀ a ∈ (channelOf c).fixed, a.lo ≤ 3599 ∧ a.hi ≤ 3599 := by
  simp only [arcsPass, Bool.and_eq_true, decide_eq_true_eq, List.all_eq_true] at h
  exact ⟨List.forall_mem_map.mpr h.1, List.forall_mem_map.mpr h.2⟩

theorem RawChannel.Measured.lengths {c : RawChannel} (h : c.Measured) :
    (channelOf c).shadow.length ≤ 16 ∧ (channelOf c).fixed.length ≤ 2 ∧
      (1 ≤ (channelOf c).planA.length ∧ (channelOf c).planA.length ≤ 8) ∧
      (1 ≤ (channelOf c).planB.length ∧ (channelOf c).planB.length ≤ 8) := by
  simp only [channelOf, List.length_map]
  exact ⟨h.shadow, h.arcs, h.planA, h.planB⟩

end

/-- Settles O6: the ranges stage by stage, from the image that passed. -/
theorem passedImageIsInRange : Obligations.PassedImageIsInRange := by
  intro memory cfg h
  obtain ⟨image, r, passed, rfl⟩ := loadImage_passes h
  obtain ⟨station, faceCount, channelCount⟩ := passed.inRange
  obtain ⟨mapIndices, mapNodup⟩ := passed.faceMap_range
  obtain ⟨relations, relationsNodup⟩ := passed.relations_range
  have faceLength : (configOf r).faces.length = r.faces.length := List.length_map _
  have channelLength : (configOf r).channels.length = r.channels.length := List.length_map _
  have mapLength : (configOf r).faceMap.length = r.faceMap.length := List.length_map _
  have relationsLength : (configOf r).relations.length = r.relations.length := List.length_map _
  rw [faceLength, channelLength, mapLength, relationsLength]
  refine ⟨station.id, station.divisor, station.period, station.pond, station.gateway, station.thresholds, station.hysteresis,
    station.reserve, station.failsafe, station.defaultRh, station.interval, station.lead, station.monitorSilence, station.holdTime,
    station.pondSilence, station.hushHold, station.kReclaim, station.kStack, station.collapse, station.aFactor, station.aOffset,
    station.turbidityLimit, faceCount, channelCount, passed.measured.faceMap, passed.measured.relations, ?_, mapIndices, mapNodup,
    relations, relationsNodup, ?_⟩
  · exact List.forall_mem_map.mpr (fun b hb => facePasses_range (List.all_eq_true.mp passed.faces b hb))
  · refine List.forall_mem_map.mpr (fun c hc => ?_)
    obtain ⟨⟨flow, cutoff, cutoff', gain, weight, valve, valve', slew, slew'⟩, legs⟩ :=
      channelPasses_range (List.all_eq_true.mp passed.channels c hc)
    obtain ⟨shadows, arcs⟩ := arcsPass_range (List.all_eq_true.mp passed.arcs c hc)
    obtain ⟨shadowLength, arcsLength, planA, planB⟩ := (passed.measured.channels c hc).lengths
    refine ⟨flow, cutoff, cutoff', gain, weight, valve, valve', slew, slew', shadowLength, arcsLength, shadows, arcs, planA, planB,
      fun g hg => ?_⟩
    obtain ⟨face, minimum, dwell, e0, parameters⟩ := legs g hg
    exact ⟨face.1, face.2, minimum.1, minimum.2, dwell.1, dwell.2, e0, Leg.one_le_steps parameters, Leg.hold_range parameters,
      Leg.arc_range parameters, Leg.raster_range parameters, Leg.ring_range parameters⟩

end Sys2Proof.Machine
end

