-- ==== Sys2Proof/Proofs/Figures.lean ====
section
/-! The figures in their ranges (O56): speeds, moistures, ERIs and weights, block by block. -/

namespace Sys2Proof.Machine

/-! ## Speeds -/

theorem foldl_max_le {l : List Nat} {n : Nat} (h : ∀ x ∈ l, x ≤ n) : l.foldl max 0 ≤ n := by
  obtain e | hm := foldl_max_eq_or_mem l 0
  · rw [e]
    exact Nat.zero_le n
  · exact h _ hm

theorem gustSpeed_le {l : List Sample} {n : Nat} (h : ∀ x ∈ l, x.speed ≤ n) : gustSpeed l ≤ n :=
  foldl_max_le (List.forall_mem_map.mpr h)

theorem speed_le_gustSpeed {l : List Sample} {x : Sample} (h : x ∈ l) : x.speed ≤ gustSpeed l :=
  le_foldl_max 0 (List.mem_map_of_mem h)

/-- A mean of speeds lies below the largest of them (R5). -/
theorem meanSpeed_le_gustSpeed (l : List Sample) : meanSpeed l ≤ gustSpeed l := by
  unfold meanSpeed
  refine Nat.div_le_of_le_mul ?_
  have bound := List.sum_le_card_nsmul (l.map Sample.speed) (gustSpeed l)
    (List.forall_mem_map.mpr (fun x hx => speed_le_gustSpeed hx))
  simpa [Nat.mul_comm] using bound

theorem le_blend {m g : Nat} (h : m ≤ g) : m ≤ blend m g := by
  unfold blend
  omega

theorem blend_le {m g n : Nat} (hm : m ≤ n) (hg : g ≤ n) : blend m g ≤ n := by
  unfold blend
  omega

theorem StationCfg.speedOf_le (cfg : StationCfg) (n : Nat) : cfg.speedOf n ≤ 600 := by
  unfold StationCfg.speedOf
  split
  · exact Nat.zero_le _
  · exact Nat.min_le_left _ _

/-- A median of speeds is one of them, or 0 of none (R12). -/
theorem median_le {l : List Nat} {n : Nat} (h : ∀ x ∈ l, x ≤ n) : median l ≤ n := by
  unfold median
  rw [List.getD_eq_getElem?_getD]
  cases hx : (l.insertionSort (· ≤ ·))[(l.length + 1) / 2 - 1]? with
  | none => exact Nat.zero_le n
  | some x => exact h x ((List.perm_insertionSort (· ≤ ·) l).mem_iff.mp (List.mem_of_getElem? hx))

/-! ## The wind unit -/

/-- The wind unit's speeds in their ranges (1.1, R5). -/
structure Wind.FiguresHold (w : Wind) : Prop where
  ring : ∀ x ∈ w.ring, x.speed ≤ 600
  blended : w.mean ≤ w.localSpeed ∧ w.localSpeed ≤ w.gust ∧ w.gust ≤ 600
  held : w.heldValue ≤ 600
  uEff : w.uEff ≤ 600

/-- The windows' speeds in their range (2.1). -/
def Forecast.FiguresHold (f : Forecast) : Prop :=
  ∀ o ∈ f.places, ∀ w ∈ o, ∀ slot ∈ w.slots, slot.mean ≤ 600 ∧ slot.gust ≤ 600

theorem Wind.mem_present {w : Wind} {x : Sample} (h : x ∈ w.present) : x ∈ w.ring := by
  unfold Wind.present at h
  split at h
  · obtain h | h := List.mem_append.mp h
    · exact List.mem_of_mem_drop h
    · exact List.mem_of_mem_take h
  · exact h

theorem Wind.mem_write {w : Wind} {x y : Sample} (h : y ∈ (w.write x).ring) : y = x ∨ y ∈ w.ring := by
  unfold Wind.write at h
  dsimp only at h
  split at h
  · exact (List.mem_or_eq_of_mem_set h).symm
  · obtain h | h := List.mem_append.mp h
    · exact .inr h
    · exact .inl (List.mem_singleton.mp h)

section
variable {s : State}

theorem State.takeSample_figures (vane : BitVec 4) (h : s.wind.FiguresHold) : (s.takeSample vane).wind.FiguresHold := by
  have ring : ∀ x ∈ ({ s.wind with count := 0, sampleTimer := some (seconds 2) }.write
      ⟨s.cfg.speedOf s.wind.count, vaneSector vane⟩ : Wind).ring, x.speed ≤ 600 := by
    intro x hx
    obtain rfl | hx := Wind.mem_write hx
    · exact s.cfg.speedOf_le _
    · exact h.ring x hx
  have gust := gustSpeed_le (fun x hx => ring x (Wind.mem_present hx))
  have mean := meanSpeed_le_gustSpeed ({ s.wind with count := 0, sampleTimer := some (seconds 2) }.write
      ⟨s.cfg.speedOf s.wind.count, vaneSector vane⟩ : Wind).present
  exact ⟨ring, ⟨le_blend mean, blend_le mean le_rfl, gust⟩, h.held, h.uEff⟩

theorem State.windHeld_figures (hf : s.cfg.failsafe ≤ 600) (h : s.wind.FiguresHold) : s.windHeld.wind.FiguresHold := by
  obtain ⟨ring, blended, held, uEff⟩ := h
  unfold State.windHeld
  split
  case h_4 => exact ⟨ring, blended, held, held⟩
  case h_5 | h_6 => exact ⟨ring, blended, held, hf⟩
  all_goals exact ⟨ring, blended, uEff, uEff⟩

theorem State.neighbourSpeeds_le (h : ∀ p ∈ s.peers.list, p.speed ≤ 600) : ∀ u ∈ s.neighbourSpeeds, u ≤ 600 :=
  List.forall_mem_map.mpr (fun p hp => h p (List.mem_of_mem_filter hp))

theorem Window.slotAt_mem {w : Window} {t : Nat} {slot : Slot} (h : w.slotAt t = some slot) : slot ∈ w.slots := by
  unfold Window.slotAt at h
  split at h
  · exact List.mem_of_getElem? h
  · cases h

theorem Forecast.window_mem {f : Forecast} {p : Nat} {w : Window} (h : f.window p = some w) : some w ∈ f.places := by
  unfold Forecast.window at h
  cases ho : f.places[p]? with
  | none =>
    rw [ho] at h
    cases h
  | some o =>
    rw [ho] at h
    obtain rfl : o = some w := h
    exact List.mem_of_getElem? ho

theorem State.currentSlot_le {slot : Slot} (h : s.forecast.FiguresHold) (hs : s.currentSlot = some slot) :
    slot.mean ≤ 600 ∧ slot.gust ≤ 600 := by
  unfold State.currentSlot Forecast.inUse at hs
  split at hs
  next w now hw =>
    split at hw
    · obtain ⟨v, hv, e⟩ := Option.map_eq_some_iff.mp hw
      obtain ⟨rfl, rfl⟩ := Prod.mk.inj e
      exact h _ (Forecast.window_mem hv) v rfl slot (Window.slotAt_mem hs)
    · cases hw
  · cases hs

theorem State.selectForecast_places (s : State) : s.selectForecast.forecast.places = s.forecast.places := by
  unfold State.selectForecast
  split <;> rfl

theorem State.selectForecast_figures (h : s.forecast.FiguresHold) : s.selectForecast.forecast.FiguresHold := by
  rw [Forecast.FiguresHold, State.selectForecast_places]
  exact h

theorem State.decideWind_figures (hf : s.cfg.failsafe ≤ 600) (hp : ∀ p ∈ s.peers.list, p.speed ≤ 600)
    (hs : s.forecast.FiguresHold) (h : s.wind.FiguresHold) : s.decideWind.wind.FiguresHold := by
  have from_ {t : State} (source : WindSource) {u : Nat} (ht : t.wind = s.wind) (hu : u ≤ 600) :
      (t.windFrom source u).wind.FiguresHold := by
    unfold State.windFrom
    rw [State.setWind_wind, ht]
    exact ⟨h.ring, h.blended, h.held, hu⟩
  unfold State.decideWind State.windBorrowed
  split
  · exact from_ .localWind rfl (h.blended.2.1.trans h.blended.2.2)
  · split
    · exact from_ .peer rfl (median_le (State.neighbourSpeeds_le hp))
    · have same : s.selectForecast.wind = s.wind := s.selectForecast_reaches .wind (by decide)
      dsimp only
      split
      next slot hslot =>
        obtain ⟨mean, gust⟩ := State.currentSlot_le (State.selectForecast_figures hs) hslot
        exact from_ .forecast same (blend_le mean gust)
      · refine State.windHeld_figures ?_ (by rwa [same])
        rwa [s.selectForecast_reaches .cfg (by decide)]

end

/-! ## The risk engine -/

/-- The face records and the weights in their ranges (3.1, R41, R50, R52). -/
structure Risk.FiguresHold (x : Risk) : Prop where
  faces : ∀ r ∈ x.faces, r.moisture ≤ 4095 ∧ r.eri ≤ 992 ∧ r.base ≠ .prewet
  weights : x.hw ≤ x.w ∧ x.w ≤ 992

theorem weightAt_le (threshold : Level) {faces : List FaceRecord} {n : Nat} (h : ∀ r ∈ faces, r.eri ≤ n) :
    weightAt threshold faces ≤ n :=
  foldl_max_le (List.forall_mem_map.mpr (fun r hr => h r (List.mem_of_mem_filter hr)))

/-- H_w is taken over fewer faces than W (R50). -/
theorem weightAt_heavy_le (faces : List FaceRecord) : weightAt .heavy faces ≤ weightAt .prewet faces := by
  refine foldl_max_le (List.forall_mem_map.mpr (fun r hr => le_foldl_max 0 (List.mem_map_of_mem ?_)))
  obtain ⟨hr, hl⟩ := List.mem_filter.mp hr
  refine List.mem_filter.mpr ⟨hr, decide_eq_true (Nat.le_trans (by decide) (of_decide_eq_true hl))⟩

section
variable {s : State}

theorem completeFace_figures (cfg : StationCfg) (snap : Snapshot) (f : FaceCfg) (fs : FaceSnapshot) {r : FaceRecord}
    (h : r.moisture ≤ 4095 ∧ r.eri ≤ 992 ∧ r.base ≠ .prewet) :
    (completeFace cfg snap f fs r).moisture ≤ 4095 ∧ (completeFace cfg snap f fs r).eri ≤ 992 ∧
      (completeFace cfg snap f fs r).base ≠ .prewet :=
  ⟨(Nat.sub_le _ _).trans h.1, scaled_le _, cfg.baseLevel_ne_prewet _ h.2.2⟩

theorem State.publish_figures (snap : Snapshot) (h : s.risk.FiguresHold) :
    (s.publish (s.completedFaces snap)).risk.FiguresHold := by
  have faces : ∀ r ∈ s.completedFaces snap, r.moisture ≤ 4095 ∧ r.eri ≤ 992 ∧ r.base ≠ .prewet := by
    intro r hr
    obtain ⟨i, hi, rfl⟩ := List.mem_mapIdx.mp hr
    exact completeFace_figures _ _ _ _ (h.faces _ (List.getElem_mem hi))
  exact ⟨faces, weightAt_heavy_le _, weightAt_le _ (fun r hr => (faces r hr).2.1)⟩

/-- The notices of a completion leave the risk engine as it was published (R48). -/
theorem State.complete_risk (s : State) (snap : Snapshot) (weightsFirst : Bool) :
    (s.complete snap weightsFirst).risk = (s.publish (s.completedFaces snap)).risk := by
  unfold State.complete
  dsimp only
  split
  · rw [(State.levelNotice_only _ _).risk, State.weightNotice_reaches _ _ .risk (by decide)]
    rfl
  · rw [State.weightNotice_reaches _ _ .risk (by decide), (State.levelNotice_only _ _).risk]

/-- An update of one face that keeps the figures. -/
theorem Risk.FiguresHold.modify {x : Risk} (h : x.FiguresHold) (i : Nat) {u : FaceRecord → FaceRecord}
    (hu : ∀ r, r.moisture ≤ 4095 → (u r).moisture ≤ 4095 ∧ (u r).eri = r.eri ∧ (u r).base = r.base) :
    Risk.FiguresHold { x with faces := x.faces.modify i u } := by
  refine ⟨fun r hr => ?_, h.weights⟩
  obtain ⟨j, hj⟩ := List.mem_iff_getElem?.mp hr
  rw [List.getElem?_modify] at hj
  cases hx : x.faces[j]? with
  | none => simp [hx] at hj
  | some q =>
    obtain ⟨moisture, eri, base⟩ := h.faces q (List.mem_of_getElem? hx)
    rw [hx] at hj
    obtain rfl := Option.some.inj hj
    split
    · obtain ⟨moisture', eri', base'⟩ := hu q moisture
      exact ⟨moisture', eri' ▸ eri, base' ▸ base⟩
    · exact ⟨moisture, eri, base⟩

theorem Risk.FiguresHold.map {x : Risk} (h : x.FiguresHold) {u : FaceRecord → FaceRecord}
    (hu : ∀ r, (u r).moisture = r.moisture ∧ (u r).eri = r.eri ∧ (u r).base = r.base) :
    Risk.FiguresHold { x with faces := x.faces.map u } := by
  refine ⟨List.forall_mem_map.mpr (fun r hr => ?_), h.weights⟩
  obtain ⟨moisture, eri, base⟩ := hu r
  rw [moisture, eri, base]
  exact h.faces r hr

theorem State.takePulse_figures (c : Nat) (h : s.risk.FiguresHold) : (s.takePulse c).risk.FiguresHold := by
  have volume : (s.volumeNotice (s.channelCfg c).weight (s.pulseFund c)).risk = s.risk :=
    s.volumeNotice_reaches _ _ .risk (by decide)
  unfold State.takePulse
  dsimp only
  split
  · rwa [volume]
  · unfold State.creditNotice
    rw [State.setRisk_risk, volume]
    exact h.modify _ (fun r _ => ⟨Nat.min_le_left _ _, rfl, rfl⟩)

theorem State.forceOrder_figures (face level minutes : Nat) (h : s.risk.FiguresHold) :
    (s.forceOrder face level minutes).risk.FiguresHold := by
  unfold State.forceOrder
  split
  · exact h
  · split
    · exact h.modify _ (fun r hr => ⟨hr, rfl, rfl⟩)
    · split
      · exact h.modify _ (fun r hr => ⟨hr, rfl, rfl⟩)
      · exact h

theorem State.startEvaluation_figures (h : s.risk.FiguresHold) : s.startEvaluation.risk.FiguresHold := by
  have dropped : s.dropExpiredOverrides.selectForecast.risk = s.dropExpiredOverrides.risk :=
    State.selectForecast_reaches _ .risk (by decide)
  have kept : s.dropExpiredOverrides.risk.FiguresHold := h.map (u := FaceRecord.dropExpired) (fun _ => ⟨rfl, rfl, rfl⟩)
  rw [← dropped] at kept
  exact ⟨kept.faces, kept.weights⟩

/-! ## The forecast store and the peer table -/

theorem forecastWindow_figures (f : Frame) : ∀ slot ∈ (forecastWindow f).slots, slot.mean ≤ 600 ∧ slot.gust ≤ 600 :=
  List.forall_mem_map.mpr (fun _ _ => ⟨Nat.min_le_left _ _, Nat.min_le_left _ _⟩)

theorem Forecast.FiguresHold.put {f : Forecast} (h : f.FiguresHold) (p : Nat) {w : Window}
    (hw : ∀ slot ∈ w.slots, slot.mean ≤ 600 ∧ slot.gust ≤ 600) : (f.put p w).FiguresHold := by
  intro o ho v hv
  obtain ho | rfl := List.mem_or_eq_of_mem_set ho
  · exact h o ho v hv
  · obtain rfl := Option.mem_some_iff.mp hv
    exact hw

theorem Forecast.FiguresHold.store {f : Forecast} (h : f.FiguresHold) (now : Nat) {w : Window}
    (hw : ∀ slot ∈ w.slots, slot.mean ≤ 600 ∧ slot.gust ≤ 600) : (f.store now w).FiguresHold := by
  unfold Forecast.store
  split
  · split
    · exact h
    · exact h.put _ hw
  · split
    · exact h.put _ hw
    · exact h

theorem State.takeForecast_figures (f : Frame) (h : s.forecast.FiguresHold) : (s.takeForecast f).forecast.FiguresHold := by
  unfold State.takeForecast
  split
  · exact Forecast.FiguresHold.store (f := s.forecast.setClock _) h _ (forecastWindow_figures f)
  · exact h

theorem State.takeReport_speeds (f : Frame) (h : ∀ p ∈ s.peers.list, p.speed ≤ 600) :
    ∀ p ∈ (s.takeReport f).peers.list, p.speed ≤ 600 := by
  have put {l : List Peer} (hl : ∀ p ∈ l, p.speed ≤ 600) : ∀ p ∈ putPeer (peerRecord f) l, p.speed ≤ 600 := by
    intro p hp
    rw [putPeer_eq] at hp
    obtain rfl | hp := mem_putBy_imp hp
    · exact Nat.min_le_left _ _
    · exact hl p hp
  obtain e | e | ⟨e, -⟩ | ⟨v, -, e⟩ := s.takeReport_peers f <;> rw [e]
  · exact h
  · exact h
  · exact put h
  · exact put (fun p hp => h p (List.mem_of_mem_filter hp))

/-! ## The figures through a command -/

/-- The figures, block by block. -/
structure State.Figures (s : State) : Prop where
  failsafe : s.cfg.failsafe ≤ 600
  wind : s.wind.FiguresHold
  peers : ∀ p ∈ s.peers.list, p.speed ≤ 600
  forecast : s.forecast.FiguresHold
  risk : s.risk.FiguresHold

theorem State.figuresHold_iff : s.FiguresHold ↔ s.Figures := by
  constructor
  · rintro ⟨failsafe, ring, blended, held, uEff, peers, forecast, faces, hw, w⟩
    exact ⟨failsafe, ⟨ring, blended, held, uEff⟩, peers, forecast, ⟨faces, hw, w⟩⟩
  · rintro ⟨failsafe, ⟨ring, blended, held, uEff⟩, peers, forecast, ⟨faces, hw, w⟩⟩
    exact ⟨failsafe, ring, blended, held, uEff, peers, forecast, faces, hw, w⟩

/-- A change outside the blocks that hold figures. -/
theorem State.Figures.of_reaches {t : State} {bs : List Block} (h : s.Figures) (k : State.Reaches bs s t)
    (hb : .cfg ∉ bs ∧ .wind ∉ bs ∧ .peers ∉ bs ∧ .forecast ∉ bs ∧ .risk ∉ bs) : t.Figures := by
  obtain ⟨cfg, wind, peers, forecast, risk⟩ := hb
  have hcfg : t.cfg = s.cfg := k .cfg cfg
  have hwind : t.wind = s.wind := k .wind wind
  have hpeers : t.peers = s.peers := k .peers peers
  have hforecast : t.forecast = s.forecast := k .forecast forecast
  have hrisk : t.risk = s.risk := k .risk risk
  exact ⟨by rw [hcfg]; exact h.failsafe, by rw [hwind]; exact h.wind, by rw [hpeers]; exact h.peers,
    by rw [hforecast]; exact h.forecast, by rw [hrisk]; exact h.risk⟩

theorem State.inReset_figures (s : State) : s.inReset.Figures :=
  have wind : Wind.reset.FiguresHold := ⟨by decide, by decide, by decide, by decide⟩
  have forecast : Forecast.reset.FiguresHold := by
    unfold Forecast.FiguresHold
    decide
  have risk : Risk.reset.FiguresHold := ⟨by decide, by decide⟩
  ⟨Nat.zero_le _, wind, fun _ hp => absurd hp List.not_mem_nil, forecast, risk⟩

theorem State.loadSucceeds_figures {cfg : StationCfg} {memory : List Byte} (hl : loadImage memory = .passes cfg) (h : s.Figures) :
    (s.loadSucceeds cfg).Figures := by
  obtain ⟨image, r, passed, rfl⟩ := loadImage_passes hl
  have configured : ((s.configured (configOf r)).startTimers).Figures := by
    refine ⟨passed.inRange.1.failsafe, ⟨h.wind.ring, h.wind.blended, h.wind.held, h.wind.uEff⟩, h.peers, h.forecast,
      ⟨List.forall_mem_map.mpr (List.forall_mem_map.mpr (fun b hb => ?_)), h.risk.weights⟩⟩
    obtain ⟨-, -, -, -, -, moisture⟩ := facePasses_range (List.all_eq_true.mp passed.faces b hb)
    exact ⟨moisture, Nat.zero_le _, Level.noConfusion⟩
  exact configured.of_reaches (State.changeMode_reaches _ _) (by decide)

theorem State.Figures.closeSample (h : s.Figures) (vane : BitVec 4) : (s.closeSample vane).Figures := by
  have sampled := s.takeSample_figures vane h.wind
  have decided := State.decideWind_figures (s := s.takeSample vane) h.failsafe h.peers h.forecast sampled
  have reaches := s.closeSample_reaches vane
  refine ⟨?_, ?_, ?_, ?_, ?_⟩
  · rw [reaches .cfg (by decide)]
    exact h.failsafe
  · rw [State.closeSample_wind]
    exact decided
  · rw [reaches .peers (by decide)]
    exact h.peers
  · rw [State.closeSample_forecast]
    obtain e | e := (s.takeSample vane).decideWind_forecast <;> rw [e]
    · exact h.forecast
    · exact State.selectForecast_figures (s := s.takeSample vane) h.forecast
  · rw [reaches .risk (by decide)]
    exact h.risk

theorem State.Figures.setRisk {x : Risk} (h : s.Figures) (hx : x.FiguresHold) : (s.setRisk x).Figures :=
  ⟨h.failsafe, h.wind, h.peers, h.forecast, hx⟩

/-- A peer list with its speeds in range, and the shares computed from it. -/
theorem State.Figures.listed {l : List Peer} (h : s.Figures) (hl : ∀ p ∈ l, p.speed ≤ 600) :
    (s.setPeerList l).shareComputation.Figures :=
  State.Figures.of_reaches (s := s.setPeerList l) ⟨h.failsafe, h.wind, hl, h.forecast, h.risk⟩
    (State.shareComputation_reaches _) (by decide)

theorem State.Figures.dispatch (h : s.Figures) (mine : Frame → Bool) {owner : State → Frame → State}
    (own : ∀ (t : State) (f : Frame), t.Figures → (owner t f).Figures) : (s.dispatch mine owner).Figures :=
  State.dispatch_keeps (P := State.Figures) mine (fun t x ht => ht.of_reaches (t.setDispatcher_reaches x) (by decide)) own h

/-- Every command keeps the figures in their ranges. -/
theorem State.Figures.after (h : s.Figures) (c : Instr) : (s.after c).Figures := by
  have guarded {p : Prop} [Decidable p] {t : State} (ht : p → t.Figures) : (if p then t else s).Figures :=
    State.of_guard (P := State.Figures) h ht
  cases c with
  | reset => exact s.inReset_figures
  | loadSuccess memory =>
    refine guarded (fun _ => ?_)
    split
    next cfg hl => exact State.loadSucceeds_figures hl h
    · exact h
  | sampleClose vane => exact guarded (fun _ => h.closeSample vane)
  | anemometerPulse =>
    rw [State.after_anemometerPulse]
    split
    · exact h
    · exact ⟨h.failsafe, ⟨h.wind.ring, h.wind.blended, h.wind.held, h.wind.uEff⟩, h.peers, h.forecast, h.risk⟩
  | heldTimerExpiry =>
    rw [State.after_heldTimerExpiry]
    split
    · exact ⟨h.failsafe, ⟨h.wind.ring, h.wind.blended, h.wind.held, h.wind.uEff⟩, h.peers, h.forecast, h.risk⟩
    all_goals exact h
  | dispatchForecast =>
    refine h.dispatch _ (fun t f ht => ?_)
    have reaches := t.takeForecast_reaches f
    exact ⟨by rw [reaches .cfg (by decide)]; exact ht.failsafe, by rw [reaches .wind (by decide)]; exact ht.wind,
      by rw [reaches .peers (by decide)]; exact ht.peers, State.takeForecast_figures f ht.forecast,
      by rw [reaches .risk (by decide)]; exact ht.risk⟩
  | yardClockAdvance =>
    rw [State.after_yardClockAdvance]
    split
    next now _ =>
      refine guarded (fun _ => ?_)
      have reaches := s.advanceClock_reaches now
      exact ⟨by rw [reaches .cfg (by decide)]; exact h.failsafe, by rw [reaches .wind (by decide)]; exact h.wind,
        by rw [reaches .peers (by decide)]; exact h.peers, by rw [State.advanceClock_forecast]; exact h.forecast,
        by rw [reaches .risk (by decide)]; exact h.risk⟩
    · exact h
  | evaluationTimerExpiry =>
    refine guarded (fun _ => ?_)
    dsimp only
    have restarted : (s.setRisk { s.risk with timer := some (seconds s.cfg.interval) }).Figures :=
      h.setRisk ⟨h.risk.faces, h.risk.weights⟩
    generalize s.setRisk { s.risk with timer := some (seconds s.cfg.interval) } = t at restarted ⊢
    split
    · exact restarted
    · have reaches := t.startEvaluation_reaches
      exact ⟨by rw [reaches .cfg (by decide)]; exact restarted.failsafe, by rw [reaches .wind (by decide)]; exact restarted.wind,
        by rw [reaches .peers (by decide)]; exact restarted.peers, State.selectForecast_figures (s := t.dropExpiredOverrides) restarted.forecast,
        State.startEvaluation_figures restarted.risk⟩
  | evaluationCompletion weightsFirst =>
    rw [State.after_evaluationCompletion]
    split
    next snap _ =>
      have reaches := s.complete_reaches snap weightsFirst
      exact ⟨by rw [reaches .cfg (by decide)]; exact h.failsafe, by rw [reaches .wind (by decide)]; exact h.wind,
        by rw [reaches .peers (by decide)]; exact h.peers, by rw [reaches .forecast (by decide)]; exact h.forecast,
        by rw [State.complete_risk]; exact State.publish_figures snap h.risk⟩
    · exact h
  | overrideExpiry face =>
    rw [State.after_overrideExpiry]
    split
    · exact h
    · exact h.setRisk (h.risk.modify _ (fun r hr => ⟨hr, rfl, rfl⟩))
  | dispatchReport =>
    refine h.dispatch _ (fun t f ht => ?_)
    have reaches := t.takeReport_reaches f
    exact ⟨by rw [reaches .cfg (by decide)]; exact ht.failsafe, by rw [reaches .wind (by decide)]; exact ht.wind,
      State.takeReport_speeds f ht.peers, by rw [reaches .forecast (by decide)]; exact ht.forecast,
      by rw [reaches .risk (by decide)]; exact ht.risk⟩
  | peerStaleCrossing id =>
    rw [State.after_peerStaleCrossing]
    refine guarded (fun _ => h.listed (List.forall_mem_map.mpr (fun p hp => ?_)))
    split
    · exact h.peers p hp
    · exact h.peers p hp
  | peerRemoval id =>
    rw [State.after_peerRemoval]
    exact guarded (fun _ => h.listed (fun p hp => h.peers p (List.mem_of_mem_filter hp)))
  | flowPulse c =>
    refine guarded (fun _ => ?_)
    have reaches := s.takePulse_reaches c
    exact ⟨by rw [reaches .cfg (by decide)]; exact h.failsafe, by rw [reaches .wind (by decide)]; exact h.wind,
      by rw [reaches .peers (by decide)]; exact h.peers, by rw [reaches .forecast (by decide)]; exact h.forecast,
      State.takePulse_figures c h.risk⟩
  | dispatchOrderForce =>
    rw [State.after_dispatchOrderForce]
    refine h.dispatch _ (fun t f ht => State.of_guard (P := State.Figures) ht (fun _ => ?_))
    have reaches := t.forceOrder_reaches f.arg1 f.arg2 f.arg3
    exact ⟨by rw [State.obeyForce, reaches .cfg (by decide)]; exact ht.failsafe,
      by rw [State.obeyForce, reaches .wind (by decide)]; exact ht.wind,
      by rw [State.obeyForce, reaches .peers (by decide)]; exact ht.peers,
      by rw [State.obeyForce, reaches .forecast (by decide)]; exact ht.forecast, State.forceOrder_figures _ _ _ ht.risk⟩
  | _ => exact h.of_reaches (s.after_reaches _) (by simp [touched])

theorem State.Figures.timePasses (h : s.Figures) : s.timePasses.Figures := by
  refine State.timePasses_of_cases h (h.of_reaches (s.setStation_reaches _) (by decide)) ?_
  have risk := h.risk.map (u := FaceRecord.passTime) (fun _ => ⟨rfl, rfl, rfl⟩)
  exact ⟨h.failsafe, ⟨h.wind.ring, h.wind.blended, h.wind.held, h.wind.uEff⟩, List.forall_mem_map.mpr h.peers, h.forecast,
    ⟨risk.faces, risk.weights⟩⟩

end

/-- Settles O56: the figures through a millisecond and through every command; a load's are those of an image that passed. -/
theorem stepKeepsFigures : Obligations.StepKeepsFigures := by
  intro s t hs h
  refine State.figuresHold_iff.mpr (step_keeps (P := State.Figures) ?_ (fun _ h => h.timePasses) (fun _ c h => h.after c)
    (State.figuresHold_iff.mp hs) h)
  exact fun _ _ h => ⟨h.failsafe, h.wind, h.peers, h.forecast, h.risk⟩

end Sys2Proof.Machine
end

