-- ==== Sys2Proof/Proofs/StartUp.lean ====
section
/-! Reset, the configuration load, FAULT and the passage of time (O3, O4, O5, O7, O54). -/

namespace Sys2Proof.Machine

/-! ## Reset and its release -/

/-- Settles O3: the reset state item by item, and the wave of the read command, bit by bit. -/
theorem resetAndItsRelease : Obligations.ResetAndItsRelease := by
  refine ⟨fun s => ⟨s.inReset, rfl, rfl, ?_⟩, fun s h => ?_, fun s h => ?_⟩
  · have shut (c : Nat) : s.inReset.valveOutput c = false := by
      rw [State.valveOutput]
      rfl
    refine ⟨rfl, rfl, rfl, rfl, rfl, rfl, rfl, rfl, rfl, rfl, rfl, rfl, shut, ?_⟩
    trivial
  · rw [exec_eq_after, State.after_resetRelease, if_pos h]
    rfl
  · rw [State.spiOut, h]
    decide

/-- Settles O54: each invariant evaluated at the reset state. -/
theorem invariantsHoldAtReset : Obligations.InvariantsHoldAtReset := by
  have figures : State.reset.FiguresHold := State.figuresHold_iff.mpr State.reset.inReset_figures
  refine ⟨by decide, by decide, by decide, figures, by decide, by decide, by decide, by decide, fun _ => ⟨rfl, rfl, by decide⟩,
    by decide, by decide, by decide⟩

/-! ## The load -/

section
variable {s : State}

theorem State.loading_of (hm : s.station.mode = .starting) (hs : s.station.spiSelect = true) : s.loading = true := by
  simp [State.loading, hm, hs]

/-- The sweep engine after a change to a mode other than AUTO (R138). -/
theorem State.sweepHush_sweep (s : State) : s.sweepHush.sweep = { s.sweep with
    channels := s.sweep.channels.map (Channel.hush s.sweep.requested), grants := [], waiting := [] } := by
  unfold State.sweepHush
  dsimp only
  split <;> rfl

/-- A load leaves every channel HUSHED, with the rest of its values those of the load (R139, R170). -/
theorem State.loadSucceeds_sweep (s : State) (cfg : StationCfg) : (s.loadSucceeds cfg).sweep = { s.sweep with
    channels := cfg.channels.map (fun _ => { Channel.absent with state := .hushed, bank := cfg.bank }),
    grants := [], waiting := [], requested := cfg.bank, pressureTimer := some 1000 } := by
  have channels := s.loadSucceeds_channels cfg
  unfold State.loadSucceeds State.changeMode at channels ⊢
  dsimp only at channels ⊢
  rw [if_neg (by decide)] at channels ⊢
  rw [State.sweepHush_sweep] at channels ⊢
  dsimp only at channels
  rw [channels]
  rfl

end

/-- Settles O4: the values taken, the timers started and the entry to LISTENING, block by block. -/
theorem loadSuccessEntersListening : Obligations.LoadSuccessEntersListening := by
  intro memory cfg s hm hs hl
  have only := (s.configured cfg).startTimers.changeMode_only .listening
  have water : (s.loadSucceeds cfg).water = { s.water with
      timer := some (cfg.pondSilence * 1000), gtNotices := (s.loadSucceeds cfg).water.gtNotices } := only.water
  have risk : (s.loadSucceeds cfg).risk = { s.risk with
      faces := cfg.faces.map (fun f => ⟨f.moisture, 0, .quiet, false, .quiet, none⟩), timer := some (cfg.interval * 1000) } :=
    only.risk
  refine ⟨s.loadSucceeds cfg, ?_, only.pending, only.cfg, ?_, only.wind, only.forecast, risk, fun rest => ?_, only.fence,
    only.machines, only.peers, water, s.loadSucceeds_sweep cfg, only.line, only.dispatcher⟩
  · rw [exec_eq_after, State.after_loadSuccess, if_pos (State.loading_of hm hs), hl]
  · exact State.changeMode_station _ _
  · obtain ⟨-, -, -, resting, -⟩ := rest
    rw [risk, resting]
    exact ⟨rfl, rfl, rfl⟩

/-! ## A load that fails -/

/-- The stages by their codes (R165): the code of a load that fails lies in 1 to 9. -/
theorem loadImage_fails {memory : List Byte} {n : Nat} (h : loadImage memory = .fails n) : 1 ≤ n ∧ n ≤ 9 := by
  unfold loadImage testImage testSections at h
  repeat' split at h
  all_goals cases h <;> decide

/-- The length read from a memory that does not answer is 0 or 65535, by the level its line idles at (R169). -/
theorem imageLength_nil : imageLength [] < 52 ∨ 2200 < imageLength [] := by
  have levels : ∀ idle : Bool,
      let length := field ((List.range 2).map (fun _ => byteOfBits ((List.range 8).map (fun _ => idle)))) 0 2
      length < 52 ∨ 2200 < length := by decide
  exact levels Config.dataLineIdle

/-- Settles O5: the stages' codes, and stage 1 by the length alone. -/
theorem loadFailureLatchesCode : Obligations.LoadFailureLatchesCode := by
  refine ⟨fun memory n s hm hs hl => ?_, fun memory h => if_pos h, if_pos imageLength_nil⟩
  obtain ⟨low, high⟩ := loadImage_fails hl
  refine ⟨low, high, ?_⟩
  rw [exec_eq_after, State.after_loadFailure, if_pos (State.loading_of hm hs), hl]
  have first : patternTime n 0 = 200 := if_neg (by omega)
  dsimp only
  rw [State.loadFails, first]
  rfl

/-! ## The blocks at rest -/

section
variable {s : State}

theorem State.not_works_of_mode (h : s.station.mode = .starting ∨ s.station.mode = .fault) : s.works = false := by
  obtain h | h := h <;> simp [State.works, h, Mode.works]

/-- In STARTING and FAULT no frame is dispatched. -/
theorem State.dispatch_of_not_works (mine : Frame → Bool) (owner : State → Frame → State) (h : s.works = false) :
    s.dispatch mine owner = s := by
  unfold State.dispatch
  rw [h]
  split <;> rfl

/-- The commands that act on a part at rest: of the reset input, the load, the pulse input and the fault pattern. -/
def actsAtRest : Instr → Bool
  | .reset | .resetRelease | .loadSuccess _ | .loadFailure _ | .anemometerPulse | .faultPatternTick => true
  | _ => false

theorem State.BlocksAtRest.wind_eq (h : s.BlocksAtRest) : s.wind = { Wind.reset with count := s.wind.count } := by
  rw [← h.2.1]

theorem State.BlocksAtRest.channel (h : s.BlocksAtRest) (c : Nat) : s.channel c = Channel.absent := by
  obtain ⟨-, -, -, -, -, -, -, -, sweep, -⟩ := h
  rw [State.channel, sweep]
  rfl

/-- At rest in STARTING and FAULT no other command finds anything to act on. -/
theorem State.after_of_rest (h : s.BlocksAtRest) (hm : s.station.mode = .starting ∨ s.station.mode = .fault) {c : Instr}
    (hc : actsAtRest c = false) : s.after c = s := by
  have works := State.not_works_of_mode hm
  have wind := h.wind_eq
  have channel := h.channel
  obtain ⟨cfg, -, forecast, risk, fence, machines, peers, water, sweep, line, dispatcher, listening, hush, report⟩ := h
  cases c with
  | reset | resetRelease | loadSuccess memory | loadFailure memory | anemometerPulse | faultPatternTick => cases hc
  | sampleClose vane => rw [State.after_sampleClose, wind]; rfl
  | heldTimerExpiry => rw [State.after_heldTimerExpiry, wind]; rfl
  | yardClockAdvance => rw [State.after_yardClockAdvance, forecast]; rfl
  | evaluationTimerExpiry => rw [State.after_evaluationTimerExpiry, risk]; rfl
  | evaluationCompletion weightsFirst => rw [State.after_evaluationCompletion, risk]; rfl
  | overrideExpiry face => 
    rw [State.after_overrideExpiry, risk]
    split
    · rfl
    · simp only [Risk.reset, List.modify_nil]
      show s.setRisk Risk.reset = s
      rw [← risk]
      rfl
  | monitorSilenceCrossing id => rw [State.after_monitorSilenceCrossing, State.crossingMonitor, cfg]; rfl
  | holdExpiry face => rw [State.after_holdExpiry]; exact if_neg (by simp [State.holdDue, fence, Fence.reset])
  | machineStaleCrossing id => rw [State.after_machineStaleCrossing, machines]; rfl
  | machineRemoval id => rw [State.after_machineRemoval, machines]; rfl
  | peerStaleCrossing id => rw [State.after_peerStaleCrossing, peers]; rfl
  | peerRemoval id => rw [State.after_peerRemoval, peers]; rfl
  | pondSilenceExpiry => rw [State.after_pondSilenceExpiry, water]; rfl
  | gtNotice => rw [State.after_gtNotice, water]; rfl
  | onAim c => rw [State.after_onAim, channel]; rfl
  | slewTimeout c => rw [State.after_slewTimeout, channel]; rfl
  | valveOpenReport c => rw [State.after_valveOpenReport, channel]; rfl
  | valveTimeout c => rw [State.after_valveTimeout, channel]; rfl
  | dwellExpiry c => rw [State.after_dwellExpiry, channel]; rfl
  | pressureSample reading => rw [State.after_pressureSample, sweep]; rfl
  | breakSendEnd => rw [State.after_breakSendEnd, line]; rfl
  | selfSilenceExpiry => rw [State.after_selfSilenceExpiry, line]; rfl
  | frameReceived f => rw [State.after_frameReceived, line]; rfl
  | frameSent => rw [State.after_frameSent, line]; rfl
  | frameDiscardedAtDispatch => rw [State.after_frameDiscardedAtDispatch, State.oldestFree, dispatcher]; rfl
  | listeningTimerExpiry => rw [State.after_listeningTimerExpiry, listening]; rfl
  | hushHoldExpiry => rw [State.after_hushHoldExpiry, hush]; exact if_neg (fun h => nomatch h.2)
  | reportTimerExpiry => rw [State.after_reportTimerExpiry, report]; rfl
  | flowPulse c => rw [State.after_flowPulse, works]; exact if_neg (fun h => nomatch h.1)
  | idleGapComplete => rw [State.after_idleGapComplete, works]; exact if_neg (fun h => nomatch h.1)
  | breakHeard => rw [State.after_breakHeard, works]; exact if_neg (fun h => nomatch h.1)
  | frameStart => rw [State.after_frameStart, works]; exact if_neg (fun h => nomatch h.1)
  | arbitrationLost char bit x => rw [State.after_arbitrationLost, works]; rfl
  | clash char bit x => rw [State.after_clash, works]; rfl
  | startEdge measure => rw [State.after_startEdge, works]; rfl
  | bitRead x => rw [State.after_bitRead, works]; rfl
  | dominantRunEnd => rw [State.after_dominantRunEnd, works]; rfl
  | dispatchForecast | dispatchMonitor | dispatchMachine | dispatchReport | dispatchPond =>
    exact State.dispatch_of_not_works _ _ works
  | dispatchOrderMode => rw [State.after_dispatchOrderMode, State.dispatch_of_not_works _ _ works]
  | dispatchOrderBank => rw [State.after_dispatchOrderBank, State.dispatch_of_not_works _ _ works]
  | dispatchOrderForce => rw [State.after_dispatchOrderForce, State.dispatch_of_not_works _ _ works]
  | dispatchOrderResume => rw [State.after_dispatchOrderResume, State.dispatch_of_not_works _ _ works]
  | dispatchOrderZero => rw [State.after_dispatchOrderZero, State.dispatch_of_not_works _ _ works]
  | orderIgnored => rw [State.after_orderIgnored, State.dispatch_of_not_works _ _ works]

/-! ## FAULT is left by reset alone -/

theorem State.toldOfBreak_mode_of_fault (h : s.station.mode = .fault) : s.toldOfBreak.station.mode = .fault := by
  unfold State.toldOfBreak State.hush
  rw [show (s.setStation { s.station with breakRequest := false }).station.mode = .fault from h]
  exact h

/-- In FAULT a command other than RESET leaves the mode (R169). -/
theorem State.after_mode_of_fault (h : s.station.mode = .fault) {c : Instr} (hc : c ≠ .reset) :
    (s.after c).station.mode = .fault := by
  have works := State.not_works_of_mode (.inr h)
  have loading : s.loading = false := by simp [State.loading, h]
  cases c with
  | reset => exact absurd rfl hc
  | resetRelease =>
    rw [State.after_resetRelease]
    split <;> exact h
  | loadSuccess memory => rwa [State.after_loadSuccess, loading]
  | loadFailure memory => rwa [State.after_loadFailure, loading]
  | pressureSample reading =>
    refine State.of_guard (P := fun t => t.station.mode = .fault) h (fun _ => ?_)
    unfold State.samplePressure
    dsimp only
    split <;> exact h
  | breakSendEnd =>
    refine State.of_guard (P := fun t => t.station.mode = .fault) h (fun _ => ?_)
    dsimp only
    split
    · exact State.toldOfBreak_mode_of_fault h
    · exact h
  | breakHeard =>
    rw [State.after_breakHeard, if_neg (fun g => by simp [works] at g)]
    exact h
  | dispatchOrderMode => rwa [State.after_dispatchOrderMode, State.dispatch_of_not_works _ _ works]
  | dispatchOrderResume => rwa [State.after_dispatchOrderResume, State.dispatch_of_not_works _ _ works]
  | listeningTimerExpiry =>
    refine State.of_guard (P := fun t => t.station.mode = .fault) h (fun _ => ?_)
    rw [State.listeningEnds, h]
    exact h
  | hushHoldExpiry =>
    rw [State.after_hushHoldExpiry, if_neg (fun g => by simp [h] at g)]
    exact h
  | reportTimerExpiry => exact State.of_guard (P := fun t => t.station.mode = .fault) h (fun _ => h)
  | faultPatternTick =>
    rw [State.after_faultPatternTick]
    split <;> exact h
  | _ =>
    rw [s.after_reaches _ .station (by simp [touched])]
    exact h

/-! ## The passage of time (log 1) -/

/-- A timer after `n` milliseconds. -/
def runDown (n : Nat) (t : Option Nat) : Option Nat := t.map (fun k => k - n)

theorem runDown_countDown (n : Nat) (t : Option Nat) : runDown n (countDown t) = runDown (n + 1) t := by
  cases t with
  | none => rfl
  | some k => exact congrArg some (show k - 1 - n = k - (n + 1) by omega)

/-- The held timer after `n` milliseconds. -/
def HeldTimer.runDown (n : Nat) : HeldTimer → HeldTimer
  | .running t => .running (t - n)
  | other => other

theorem HeldTimer.runDown_countDown (n : Nat) (t : HeldTimer) : t.countDown.runDown n = t.runDown (n + 1) := by
  cases t with
  | idle | expired => rfl
  | running k => exact congrArg HeldTimer.running (by omega)

/-- An age after `n` further milliseconds, up to its limit. -/
theorem min_add_min (limit age n : Nat) : min limit (min limit (age + 1) + n) = min limit (age + (n + 1)) := by omega

/-- A machine record `n` milliseconds older, up to its limit (R71). -/
def MachineRecord.aged (n : Nat) (m : MachineRecord) : MachineRecord := { m with age := min m.ageLimit (m.age + n) }

/-- A peer record `n` milliseconds older, up to its limit (R85). -/
def Peer.aged (n : Nat) (p : Peer) : Peer := { p with age := min p.ageLimit (p.age + n) }

theorem MachineRecord.aged_passTime (n : Nat) (m : MachineRecord) : m.passTime.aged n = m.aged (n + 1) :=
  congrArg (fun a => { m with age := a }) (min_add_min m.ageLimit m.age n)

theorem Peer.aged_passTime (n : Nat) (p : Peer) : p.passTime.aged n = p.aged (n + 1) :=
  congrArg (fun a => { p with age := a }) (min_add_min p.ageLimit p.age n)

/-- The state after `n` milliseconds in the modes in which the blocks work, for `n` from 1. -/
def State.afterTime (n : Nat) (s : State) : State :=
  { s with
    station := { s.station with
      listeningTimer := runDown n s.station.listeningTimer, hushTimer := runDown n s.station.hushTimer,
      reportTimer := runDown n s.station.reportTimer },
    wind := { s.wind with sampleTimer := runDown n s.wind.sampleTimer, heldTimer := s.wind.heldTimer.runDown n },
    forecast := { s.forecast with advanceTimer := runDown n s.forecast.advanceTimer },
    risk := { s.risk with
      timer := runDown n s.risk.timer,
      faces := s.risk.faces.map (fun r => { r with override := r.override.map (fun o => ⟨o.level, runDown n o.left⟩) }) },
    fence := {
      records := s.fence.records.map (fun r => r.map (fun m =>
        { m with age := min (s.cfg.monitorSilence * 1000) (m.age + n) })),
      held := s.fence.held.map (fun h => ⟨h.value, runDown n h.timer⟩) },
    machines := { s.machines with list := s.machines.list.map (MachineRecord.aged n) },
    peers := { s.peers with list := s.peers.list.map (Peer.aged n) },
    water := { s.water with timer := runDown n s.water.timer },
    sweep := { s.sweep with
      channels := s.sweep.channels.map (fun ch => { ch with
        slewTimer := runDown n ch.slewTimer, valveTimer := runDown n ch.valveTimer, dwellTimer := runDown n ch.dwellTimer }),
      pressureTimer := runDown n s.sweep.pressureTimer },
    line := { s.line with silence := runDown n s.line.silence, joinOpen := false } }

theorem State.blocksPassTime_eq (s : State) : s.blocksPassTime = s.afterTime 1 := by
  have held : s.wind.heldTimer.countDown = s.wind.heldTimer.runDown 1 := by cases s.wind.heldTimer <;> rfl
  rw [State.blocksPassTime, held]
  rfl

theorem State.afterTime_blocksPassTime (n : Nat) (s : State) : s.blocksPassTime.afterTime n = s.afterTime (n + 1) := by
  simp only [State.afterTime, State.blocksPassTime, List.map_map, Function.comp_def, Option.map_map, runDown_countDown,
    HeldTimer.runDown_countDown, MachineRecord.aged_passTime, Peer.aged_passTime, FaceRecord.passTime, MonitorRecord.passTime,
    Channel.passTime, seconds, min_add_min]

theorem State.blocksPassTime_iterate (n : Nat) (s : State) : State.blocksPassTime^[n + 1] s = s.afterTime (n + 1) := by
  induction n generalizing s with
  | zero => exact s.blocksPassTime_eq
  | succ n ih => rw [Function.iterate_succ_apply, ih, State.afterTime_blocksPassTime]

theorem State.timePasses_iterate_of_works (n : Nat) (h : s.works = true) :
    State.timePasses^[n] s = State.blocksPassTime^[n] s := by
  induction n generalizing s with
  | zero => rfl
  | succ n ih => rw [Function.iterate_succ_apply, Function.iterate_succ_apply, State.timePasses_works s h,
      ih (s := s.blocksPassTime) h]

theorem State.timePasses_of_starting (h : s.station.mode = .starting) : s.timePasses = s := by
  rw [State.timePasses, h]

theorem State.timePasses_of_fault (h : s.station.mode = .fault) : s.timePasses = s.patternPassesTime := by
  rw [State.timePasses, h]

theorem State.timePasses_iterate_of_fault (n : Nat) (h : s.station.mode = .fault) : State.timePasses^[n] s =
    { s with station := { s.station with patternTimer := runDown n s.station.patternTimer } } := by
  induction n generalizing s with
  | zero => 
    have stays : runDown 0 s.station.patternTimer = s.station.patternTimer := by cases s.station.patternTimer <;> rfl
    rw [stays]
    rfl
  | succ n ih =>
    rw [Function.iterate_succ_apply, State.timePasses_of_fault h, ih (s := s.patternPassesTime) h, ← runDown_countDown]
    rfl

end

/-- Settles O7: at rest a command by its guard, in FAULT the mode command by command, and time by its iterates. -/
theorem restAndFaultStandStill : Obligations.RestAndFaultStandStill := by
  refine ⟨fun c s rest hm => ?_, fun c s t hm hc h => ?_, fun s h => ⟨step_nil h, ?_⟩, fun n s hm => ?_, fun n s hm => ?_,
    fun n s hw hn => ?_⟩
  · cases c with
    | reset | resetRelease | loadSuccess _ | loadFailure _ | anemometerPulse | faultPatternTick => trivial
    | _ => exact exec_eq_next_iff.mpr (State.after_of_rest rest hm rfl)
  · rw [← exec_eq_next_iff.mp h]
    exact State.after_mode_of_fault hm hc
  · exact State.timePasses_of_cases (P := fun t => t.pending = []) h h h
  · exact Function.iterate_fixed (State.timePasses_of_starting hm) n
  · exact State.timePasses_iterate_of_fault n hm
  · obtain ⟨k, rfl⟩ := Nat.exists_eq_add_of_le' hn
    rw [State.timePasses_iterate_of_works _ hw]
    exact s.blocksPassTime_iterate k

end Sys2Proof.Machine
end

