-- ==== Sys2Proof/Proofs/WindClose.lean ====
section
/-! A sample close: the sample, the figures, the sector notice, the health and the source (O8, O9), and the commands that only mark
(O11). -/

namespace Sys2Proof.Machine

/-- A state by its items. -/
theorem State.eq_mk {t : State} {pending : List Instr} {cfg : StationCfg} {station : Station} {wind : Wind} {forecast : Forecast}
    {risk : Risk} {fence : Fence} {machines : Machines} {peers : Peers} {water : Water} {sweep : Sweep} {line : Line}
    {dispatcher : Dispatcher} (hpending : t.pending = pending) (hcfg : t.cfg = cfg) (hstation : t.station = station)
    (hwind : t.wind = wind) (hforecast : t.forecast = forecast) (hrisk : t.risk = risk) (hfence : t.fence = fence)
    (hmachines : t.machines = machines) (hpeers : t.peers = peers) (hwater : t.water = water) (hsweep : t.sweep = sweep)
    (hline : t.line = line) (hdispatcher : t.dispatcher = dispatcher) :
    t = ⟨pending, cfg, station, wind, forecast, risk, fence, machines, peers, water, sweep, line, dispatcher⟩ := by
  subst hpending hcfg hstation hwind hforecast hrisk hfence hmachines hpeers hwater hsweep hline hdispatcher
  rfl

/-! ## The samples present -/

/-- A sample joins the samples present, and replaces the oldest of a full ring (R4). -/
theorem Wind.present_write {w : Wind} (x : Sample) (hi : w.writeIndex < 30)
    (hl : w.ring.length = if w.full then 30 else w.writeIndex) :
    (w.write x).present = (if w.full then w.present.drop 1 else w.present) ++ [x] := by
  cases hf : w.full with
  | true =>
    simp only [hf, if_true] at hl
    have ring : w.ring = w.ring.take w.writeIndex ++ w.ring[w.writeIndex] :: w.ring.drop (w.writeIndex + 1) := by simp
    have lower : (w.ring.take w.writeIndex).length = w.writeIndex := by simp; omega
    have before : w.present.drop 1 = w.ring.drop (w.writeIndex + 1) ++ w.ring.take w.writeIndex := by
      rw [Wind.present, hf, if_pos rfl, List.drop_append_of_le_length (by simp; omega), List.drop_drop]
    have set : w.ring.set w.writeIndex x = w.ring.take w.writeIndex ++ x :: w.ring.drop (w.writeIndex + 1) := by
      rw [List.set_eq_take_append_cons_drop, if_pos (by omega)]
    have after : (w.write x).present = (w.ring.set w.writeIndex x).drop ((w.writeIndex + 1) % 30) ++
        (w.ring.set w.writeIndex x).take ((w.writeIndex + 1) % 30) := by
      simp [Wind.present, Wind.write, hf, hl, hi]
    rw [if_pos rfl, before, after]
    obtain last | inner : w.writeIndex = 29 ∨ w.writeIndex < 29 := by omega
    · have wrap : (w.writeIndex + 1) % 30 = 0 := by omega
      have none : w.ring.drop (w.writeIndex + 1) = [] := List.drop_eq_nil_of_le (by omega)
      rw [wrap, List.drop_zero, List.take_zero, List.append_nil, set, none, List.nil_append]
    · have step : (w.writeIndex + 1) % 30 = w.writeIndex + 1 := by omega
      have fits : w.writeIndex ≤ w.ring.length := by omega
      have none : (w.ring.take w.writeIndex).drop (w.writeIndex + 1) = [] := List.drop_eq_nil_of_le (by omega)
      have all : (w.ring.take w.writeIndex).take (w.writeIndex + 1) = w.ring.take w.writeIndex :=
        List.take_of_length_le (by omega)
      rw [step, set]
      simp [List.drop_append, List.take_append, fits, none, all]
  | false =>
    simp only [hf, Bool.false_eq_true, if_false] at hl
    have appended : (w.write x).ring = w.ring ++ [x] := if_neg (by omega)
    have before : w.present = w.ring := by simp [Wind.present, hf]
    rw [if_neg (by decide), before, Wind.present, appended]
    split
    next wraps =>
      have wrap : (w.write x).writeIndex = 0 := by
        have last : w.writeIndex = 29 := by simpa [Wind.write, hf] using wraps
        simp [Wind.write, last]
      rw [wrap, List.drop_zero, List.take_zero, List.append_nil]
    · rfl

/-- A gust among the samples (R5). -/
theorem exists_speed_eq_gustSpeed {l : List Sample} (h : l ≠ []) : ∃ x ∈ l, x.speed = gustSpeed l := by
  obtain zero | mem := foldl_max_eq_or_mem (l.map Sample.speed) 0
  · obtain ⟨x, hx⟩ := List.exists_mem_of_ne_nil l h
    have le := speed_le_gustSpeed hx
    rw [gustSpeed, zero] at le ⊢
    exact ⟨x, hx, Nat.le_zero.mp le⟩
  · obtain ⟨x, hx, e⟩ := List.mem_map.mp mem
    exact ⟨x, hx, e⟩

/-! ## The prevailing sector -/

/-- The largest number of times any sector occurs (R6). -/
def mostOccurrences (l : List Sample) : Nat := (l.map (fun x => occurrences l x.sector)).foldl max 0

theorem occurrences_le_most {l : List Sample} {x : Sample} (h : x ∈ l) : occurrences l x.sector ≤ mostOccurrences l :=
  le_foldl_max 0 (List.mem_map_of_mem h)

theorem exists_most {l : List Sample} (h : l ≠ []) : ∃ x ∈ l, occurrences l x.sector = mostOccurrences l := by
  obtain zero | mem := foldl_max_eq_or_mem (l.map (fun x => occurrences l x.sector)) 0
  · obtain ⟨x, hx⟩ := List.exists_mem_of_ne_nil l h
    have le := occurrences_le_most hx
    rw [mostOccurrences, zero] at le ⊢
    exact ⟨x, hx, Nat.le_zero.mp le⟩
  · obtain ⟨x, hx, e⟩ := List.mem_map.mp mem
    exact ⟨x, hx, e⟩

/-- The prevailing sector is that of the newest sample whose sector occurs most often (R6). -/
theorem prevailing_spec {l : List Sample} (h : l ≠ []) : ∃ older x newer, l = older ++ x :: newer ∧ x.sector = prevailing l ∧
    occurrences l x.sector = mostOccurrences l ∧ ∀ y ∈ newer, occurrences l y.sector ≠ mostOccurrences l := by
  have found : (l.reverse.find? (fun x => decide (occurrences l x.sector = mostOccurrences l))).isSome = true := by
    obtain ⟨x, hx, e⟩ := exists_most h
    exact List.find?_isSome.mpr ⟨x, List.mem_reverse.mpr hx, decide_eq_true e⟩
  obtain ⟨x, hx⟩ := Option.isSome_iff_exists.mp found
  have sector : x.sector = prevailing l := by
    rw [prevailing]
    rw [← mostOccurrences, hx]
    rfl
  obtain ⟨most, newer, older, e, others⟩ := List.find?_eq_some_iff_append.mp hx
  refine ⟨older.reverse, x, newer.reverse, ?_, sector, of_decide_eq_true most, fun y hy => ?_⟩
  · rw [← List.reverse_reverse l, e]
    simp
  · simpa using others y (List.mem_reverse.mp hy)

/-- No sector occurs more often than the prevailing one (R6). -/
theorem occurrences_le_prevailing {l : List Sample} (h : l ≠ []) (k : Nat) : occurrences l k ≤ occurrences l (prevailing l) := by
  obtain ⟨older, x, newer, -, sector, most, -⟩ := prevailing_spec h
  rw [← sector, most]
  obtain none | some := Nat.eq_zero_or_pos (occurrences l k)
  · rw [none]
    exact Nat.zero_le _
  · obtain ⟨y, hy, e⟩ := List.countP_pos_iff.mp some
    rw [← of_decide_eq_true e]
    exact occurrences_le_most hy

/-! ## The sector notice -/

/-- The raw escalation reads the relations, the records and the published sector (R59, R60). -/
theorem State.rawEscalation_eq_of {s t : State} (cfg : t.cfg = s.cfg) (records : t.fence.records = s.fence.records)
    (sector : t.wind.sector = s.wind.sector) (face : Nat) : t.rawEscalation face = s.rawEscalation face := by
  rw [State.rawEscalation, State.rawEscalation, cfg, records, sector]

/-- A recomputation with no face expiring compares every face's held value with its raw one (R61, R63). -/
theorem State.recomputeEscalation_none (s : State) : (s.recomputeEscalation none).fence = { s.fence with
    held := s.fence.held.mapIdx (fun k h => h.compare s.cfg.holdTime (s.rawEscalation (k + 1))) } := rfl

/-- A selection that finds no window (R26). -/
theorem State.selectForecast_of_none {s : State} (h : s.forecast.choice s.cfg.gateway = none) :
    s.selectForecast = s.setForecast { s.forecast with selected := none } := by rw [State.selectForecast, h]

/-- A selection of a place, which takes the front of the recency order (R26, R27). -/
theorem State.selectForecast_of_some {s : State} {p : Nat} (h : s.forecast.choice s.cfg.gateway = some p) :
    s.selectForecast = s.setForecast { s.forecast with selected := some p, recency := touch p s.forecast.recency } := by
  rw [State.selectForecast, h]

/-- A selection reads the store and the configuration alone. -/
theorem State.selectForecast_forecast_of_eq {s t : State} (cfg : t.cfg = s.cfg) (forecast : t.forecast = s.forecast) :
    t.selectForecast.forecast = s.selectForecast.forecast := by
  cases choice : s.forecast.choice s.cfg.gateway with
  | none =>
    rw [State.selectForecast_of_none choice, State.selectForecast_of_none (s := t) (by rw [cfg, forecast, choice])]
    exact congrArg (fun f : Forecast => { f with selected := none }) forecast
  | some p =>
    rw [State.selectForecast_of_some choice, State.selectForecast_of_some (s := t) (by rw [cfg, forecast, choice])]
    exact congrArg (fun f : Forecast => { f with selected := some p, recency := touch p f.recency }) forecast

theorem State.selectForecast_eq (s : State) : s.selectForecast = s.setForecast { s.forecast with
    selected := s.selectForecast.forecast.selected, recency := s.selectForecast.forecast.recency } := by
  unfold State.selectForecast
  split <;> rfl

theorem State.selectForecast_forecast (s : State) : s.selectForecast.forecast = { s.forecast with
    selected := s.selectForecast.forecast.selected, recency := s.selectForecast.forecast.recency } :=
  congrArg State.forecast s.selectForecast_eq

/-- A close leaves the fence unit but for the held escalations, compared when another sector is published (R16, R63). -/
theorem State.closeSample_fence (s : State) (vane : BitVec 4) : (s.closeSample vane).fence = { s.fence with
    held := if (s.closeSample vane).wind.sector = s.wind.sector then s.fence.held
      else s.fence.held.mapIdx (fun k h => h.compare s.cfg.holdTime ((s.closeSample vane).rawEscalation (k + 1))) } := by
  have fence : (s.takeSample vane).decideWind.fence = s.fence := State.decideWind_reaches _ .fence (by decide)
  have cfg : (s.takeSample vane).decideWind.cfg = s.cfg := State.decideWind_reaches _ .cfg (by decide)
  have closedCfg : (s.closeSample vane).cfg = s.cfg := s.closeSample_reaches vane .cfg (by decide)
  have records : (s.closeSample vane).fence.records = s.fence.records := by
    rw [State.closeSample, (State.windHold_only _).fence]
    split
    · rw [fence]
    · rw [State.recomputeEscalation_none, fence]
  have raw (face : Nat) : (s.closeSample vane).rawEscalation face = (s.takeSample vane).decideWind.rawEscalation face :=
    State.rawEscalation_eq_of (closedCfg.trans cfg.symm) (records.trans (congrArg Fence.records fence).symm)
      (congrArg Wind.sector (s.closeSample_wind vane)) face
  simp only [raw, s.closeSample_wind]
  rw [State.closeSample, (State.windHold_only _).fence]
  split
  · rw [fence]
  · rw [State.recomputeEscalation_none, fence, cfg]

/-- What a close leaves outside the wind unit (R16). -/
theorem State.closeSample_eq (s : State) (vane : BitVec 4) : s.closeSample vane = { s with
    wind := (s.closeSample vane).wind,
    forecast := { s.forecast with
      selected := (s.closeSample vane).forecast.selected, recency := (s.closeSample vane).forecast.recency },
    fence := { s.fence with held := (s.closeSample vane).fence.held }, sweep := (s.closeSample vane).sweep,
    water := { s.water with gtNotices := (s.closeSample vane).water.gtNotices } } := by
  have reaches := s.closeSample_reaches vane
  have forecast : (s.closeSample vane).forecast = { s.forecast with
      selected := (s.closeSample vane).forecast.selected, recency := (s.closeSample vane).forecast.recency } := by
    rw [State.closeSample_forecast]
    obtain e | e := (s.takeSample vane).decideWind_forecast <;> rw [e]
    · rfl
    · exact State.selectForecast_forecast _
  have fence : (s.closeSample vane).fence = { s.fence with held := (s.closeSample vane).fence.held } := by
    rw [s.closeSample_fence vane]
  have water : (s.closeSample vane).water = { s.water with gtNotices := (s.closeSample vane).water.gtNotices } := by
    have decided : (s.takeSample vane).decideWind.water = s.water := State.decideWind_reaches _ .water (by decide)
    rw [State.closeSample]
    dsimp only
    rw [(State.windHold_only _).water]
    split
    · rw [decided]
    · rw [← decided]
      rfl
  exact State.eq_mk (reaches .pending (by decide)) (reaches .cfg (by decide)) (reaches .station (by decide)) rfl forecast
    (reaches .risk (by decide)) fence (reaches .machines (by decide)) (reaches .peers (by decide)) water rfl
    (reaches .line (by decide)) (reaches .dispatcher (by decide))

/-- Settles O8: the sample, the figures of the samples present, the prevailing sector, and the sector notice. -/
theorem sampleCloseTakesSample : Obligations.SampleCloseTakesSample := by
  intro vane s running hi hl
  refine ⟨s.closeSample vane, ?_, ?_, ?_⟩
  · rw [exec_eq_after, State.after_sampleClose, if_pos running]
  · exact s.closeSample_eq vane
  · have wind := s.closeSample_wind vane
    obtain ⟨_, _, _, _, e⟩ := (s.takeSample vane).decideWind_wind
    rw [e] at wind
    have present : (s.closeSample vane).wind.present = (if s.wind.full then s.wind.present.drop 1 else s.wind.present) ++
        [⟨s.cfg.speedOf s.wind.count, vaneSector vane⟩] := by
      rw [wind]
      exact Wind.present_write (w := { s.wind with count := 0, sampleTimer := some (seconds 2) }) _ hi hl
    have some : (s.closeSample vane).wind.present ≠ [] := by simp [present]
    have mean : (s.closeSample vane).wind.mean = meanSpeed (s.closeSample vane).wind.present := by rw [wind]; rfl
    have gust : (s.closeSample vane).wind.gust = gustSpeed (s.closeSample vane).wind.present := by rw [wind]; rfl
    have speed : (s.closeSample vane).wind.localSpeed =
        blend (s.closeSample vane).wind.mean (s.closeSample vane).wind.gust := by rw [wind]; rfl
    have sector : (s.closeSample vane).wind.sector = prevailing (s.closeSample vane).wind.present := by rw [wind]; rfl
    have below : (s.closeSample vane).wind.mean ≤ (s.closeSample vane).wind.gust := by
      rw [mean, gust]
      exact meanSpeed_le_gustSpeed _
    have fence := s.closeSample_fence vane
    refine ⟨by rw [wind]; rfl, by rw [wind]; rfl, present, by rw [wind]; rfl, by rw [wind]; rfl, mean, fun x hx => ?_, ?_, speed, ?_,
      ?_, fun k => ?_, ?_, by rw [wind]; rfl, fun same => ?_, fun other => ?_⟩
    · rw [gust]
      exact speed_le_gustSpeed hx
    · rw [gust]
      exact exists_speed_eq_gustSpeed some
    · rw [speed]
      exact le_blend below
    · rw [speed]
      exact blend_le below le_rfl
    · rw [sector]
      exact occurrences_le_prevailing some k
    · obtain ⟨older, x, newer, parts, ours, most, others⟩ := prevailing_spec some
      rw [sector]
      refine ⟨older, x, newer, parts, ours, fun y hy => ?_⟩
      have mem : y ∈ (s.closeSample vane).wind.present := by
        rw [parts]
        exact List.mem_append_right _ (List.mem_cons_of_mem _ hy)
      rw [← ours]
      exact lt_of_le_of_ne ((occurrences_le_most mem).trans_eq most.symm) (fun same => others y hy (same.trans most))
    · rw [fence, if_pos same]
    · rw [fence, if_neg other]

/-! ## The health and the source -/

theorem median_mem_sorted {l : List Nat} (h : l ≠ []) :
    (l.insertionSort (· ≤ ·))[(l.length + 1) / 2 - 1]? = some (median l) := by
  have place : (l.length + 1) / 2 - 1 < (l.insertionSort (· ≤ ·)).length := by
    have := List.length_pos_of_ne_nil h
    rw [List.length_insertionSort]
    omega
  rw [median, List.getD_eq_getElem _ _ place, List.getElem?_eq_getElem place]

theorem State.windyNeighbour_iff (s : State) : s.windyNeighbour = true ↔
    ∃ p ∈ s.peers.list, p.stale = false ∧ s.nearby p = true ∧ 30 ≤ p.speed := by
  simp [State.windyNeighbour, and_assoc]

section
variable {s : State}

/-- Row 1 of the cascade (R10). -/
theorem State.decideWind_of_healthy (h : s.wind.health = .healthy) : s.decideWind = s.windFrom .localWind s.wind.localSpeed := by
  rw [State.decideWind, h]

/-- Row 2 (R11, R12). -/
theorem State.decideWind_of_neighbours (h : s.wind.health = .stuck) (hn : s.neighbourSpeeds ≠ []) :
    s.decideWind = s.windFrom .peer (median s.neighbourSpeeds) := by
  rw [State.decideWind, h]
  exact if_pos hn

/-- Row 3 (R13). -/
theorem State.decideWind_of_slot {slot : Slot} (h : s.wind.health = .stuck) (hn : s.neighbourSpeeds = [])
    (hs : s.selectForecast.currentSlot = some slot) :
    s.decideWind = s.selectForecast.windFrom .forecast (blend slot.mean slot.gust) := by
  rw [State.decideWind, h]
  dsimp only
  rw [State.windBorrowed, if_neg (not_not_intro hn)]
  dsimp only
  rw [hs]

/-- Rows 4 to 7 (R14, R15). -/
theorem State.decideWind_of_none (h : s.wind.health = .stuck) (hn : s.neighbourSpeeds = [])
    (hs : s.selectForecast.currentSlot = none) : s.decideWind = s.selectForecast.windHeld := by
  rw [State.decideWind, h]
  dsimp only
  rw [State.windBorrowed, if_neg (not_not_intro hn)]
  dsimp only
  rw [hs]

@[simp] theorem State.selectForecast_wind (s : State) : s.selectForecast.wind = s.wind := s.selectForecast_reaches .wind (by decide)
@[simp] theorem State.selectForecast_cfg (s : State) : s.selectForecast.cfg = s.cfg := s.selectForecast_reaches .cfg (by decide)

/-- Row 4: a source that has just failed is held for 10 minutes (R14). -/
theorem State.windHeld_of_live (h : s.wind.source = .localWind ∨ s.wind.source = .peer ∨ s.wind.source = .forecast) :
    s.windHeld = s.setWind { s.wind with source := .held, heldValue := s.wind.uEff, heldTimer := .running (seconds 600) } := by
  obtain h | h | h := h <;> rw [State.windHeld, h]

/-- Row 5: the held value while its timer runs (R15). -/
theorem State.windHeld_of_running {n : Nat} (h : s.wind.source = .held) (ht : s.wind.heldTimer = .running n) :
    s.windHeld = s.setWind { s.wind with uEff := s.wind.heldValue } := by
  rw [State.windHeld, h, ht]

/-- Row 6: the held timer has expired (R15). -/
theorem State.windHeld_of_expired (h : s.wind.source = .held) (ht : s.wind.heldTimer = .expired) :
    s.windHeld = s.windFailsafe := by
  rw [State.windHeld, h, ht]

/-- Row 7 (R15). -/
theorem State.windHeld_of_failsafe (h : s.wind.source = .failsafe) : s.windHeld = s.windFailsafe := by
  rw [State.windHeld, h]

/-- The store at a close: a selection comes with row 3 and the rows after it (R13). -/
theorem State.decideWind_forecast_eq (s : State) : s.decideWind.forecast =
    if s.wind.health = .stuck ∧ s.neighbourSpeeds = [] then s.selectForecast.forecast else s.forecast := by
  cases h : s.wind.health with
  | healthy =>
    rw [State.decideWind_of_healthy h, if_neg (by simp)]
    rfl
  | stuck =>
    by_cases hn : s.neighbourSpeeds = []
    · rw [if_pos ⟨rfl, hn⟩]
      cases hs : s.selectForecast.currentSlot with
      | some slot =>
        rw [State.decideWind_of_slot h hn hs]
        rfl
      | none =>
        rw [State.decideWind_of_none h hn hs]
        exact State.windHeld_reaches _ .forecast (by decide)
    · rw [State.decideWind_of_neighbours h hn, if_neg (fun k => hn k.2)]
      rfl

end

/-- Settles O9: the median's place, the neighbours, and the seven rows one by one. -/
theorem sampleCloseDecidesSource : Obligations.SampleCloseDecidesSource := by
  refine ⟨fun l h => ⟨l.insertionSort (· ≤ ·), List.perm_insertionSort _ l, List.pairwise_insertionSort _ l, median_mem_sorted h⟩,
    fun p s => decide_eq_true_iff, fun s => ?_, fun vane s running => ?_⟩
  · simp [State.neighbourSpeeds]
  · have sampled : ∃ u, s.takeSample vane = s.setWind u ∧ u.source = s.wind.source ∧ u.heldTimer = s.wind.heldTimer ∧
        u.heldValue = s.wind.heldValue ∧ u.uEff = s.wind.uEff ∧ u.zeroRun = zeroRunAfter s.wind.zeroRun s.wind.count ∧
        u.health = healthAfter s.wind.health u.zeroRun s.wind.count s.windyNeighbour :=
      ⟨_, rfl, rfl, rfl, rfl, rfl, rfl, rfl⟩
    obtain ⟨u, taken, source, timer, value, uEff, run, health⟩ := sampled
    have wind := s.closeSample_wind vane
    have forecast := s.closeSample_forecast vane
    rw [taken] at wind forecast
    have select : (s.setWind u).selectForecast.forecast = s.selectForecast.forecast :=
      State.selectForecast_forecast_of_eq rfl rfl
    have slots : (s.setWind u).selectForecast.currentSlot = s.selectForecast.currentSlot := by
      rw [State.currentSlot, State.currentSlot, select]
    have kept : (s.closeSample vane).wind.health = u.health ∧ (s.closeSample vane).wind.zeroRun = u.zeroRun := by
      obtain ⟨_, _, _, _, e⟩ := (s.setWind u).decideWind_wind
      rw [wind, e]
      exact ⟨rfl, rfl⟩
    obtain ⟨sameHealth, sameRun⟩ := kept
    refine ⟨s.closeSample vane, ?_, ?_, ?_, fun h => ?_, fun h hn => ?_, fun h hn slot hs => ?_, fun h hn hs => ?_⟩
    · rw [exec_eq_after, State.after_sampleClose, if_pos running]
    · rw [sameHealth, sameRun, health, healthAfter]
      simp only [State.windyNeighbour_iff]
    · rw [forecast, State.decideWind_forecast_eq, sameHealth, select]
      rfl
    · rw [sameHealth] at h
      rw [wind, State.decideWind_of_healthy h]
      exact ⟨rfl, rfl, rfl⟩
    · rw [sameHealth] at h
      rw [wind, State.decideWind_of_neighbours (s := s.setWind u) h hn]
      exact ⟨rfl, rfl, rfl⟩
    · rw [sameHealth] at h
      rw [wind, State.decideWind_of_slot (s := s.setWind u) h hn (slots.trans hs)]
      exact ⟨rfl, rfl, rfl⟩
    · rw [sameHealth] at h
      have here : (s.setWind u).selectForecast.wind = u := State.selectForecast_wind _
      rw [wind, State.decideWind_of_none (s := s.setWind u) h hn (slots.trans hs)]
      refine ⟨fun live => ?_, fun n held left => ?_, fun held left => ?_, fun failed => ?_⟩
      · rw [State.windHeld_of_live (by rw [here, source]; exact live), State.setWind_wind, here]
        exact ⟨rfl, uEff, uEff, rfl⟩
      · rw [State.windHeld_of_running (by rw [here, source]; exact held) (by rw [here, timer]; exact left), State.setWind_wind, here]
        exact ⟨source.trans held, value, timer.trans left⟩
      · rw [State.windHeld_of_expired (by rw [here, source]; exact held) (by rw [here, timer]; exact left), State.windFailsafe,
          State.selectForecast_cfg]
        exact ⟨rfl, rfl⟩
      · rw [State.windHeld_of_failsafe (by rw [here, source]; exact failed), State.windFailsafe, State.selectForecast_cfg]
        exact ⟨rfl, rfl⟩

/-- Settles O11: each command by its equation. -/
theorem pulsesAndExpiriesMark : Obligations.PulsesAndExpiriesMark := by
  refine ⟨fun s hr hf => ?_, fun n s h => ?_, fun face s low high => ?_, fun s h => ?_⟩
  · rw [exec_eq_after, State.after_anemometerPulse, if_neg (by simp [hr, hf])]
    rfl
  · rw [exec_eq_after, State.after_heldTimerExpiry, h]
    rfl
  · refine ⟨_, exec_eq_after _ s, ?_⟩
    rw [State.after_overrideExpiry, if_neg (by omega)]
    refine ⟨rfl, by simp, fun i r hr => ?_⟩
    rw [State.setRisk_risk, List.getElem?_modify, hr]
    by_cases same : i + 1 = face
    · simp only [show face - 1 = i by omega, same, if_true]
      rfl
    · simp [show face - 1 ≠ i by omega, same]
  · rw [exec_eq_after, State.after_selfSilenceExpiry, if_pos h]
    rfl

end Sys2Proof.Machine
end

