-- ==== Sys2Proof/Proofs/ForecastStore.lean ====
section
/-! The forecast store: what a Forecast frame stores and where (O12), and what a selection selects (O14). -/

namespace Sys2Proof.Machine

/-! ## Places by their order in a list -/

section
variable {l before after : List Nat} {p q : Nat}

/-- What stands in a list and not before `p` stands at `p` or after it. -/
theorem idxOf_le_of_split (h : l = before ++ p :: after) (hq : q ∉ before) : l.idxOf p ≤ l.idxOf q := by
  have here : l.idxOf p ≤ before.length := by
    rw [h, List.idxOf_append]
    split
    next hp => exact (List.idxOf_lt_length_of_mem hp).le
    · simp
  have there : before.length ≤ l.idxOf q := by
    rw [h, List.idxOf_append_of_notMem hq]
    exact Nat.le_add_right _ _
  exact here.trans there

/-- The first of its kind in a list. -/
theorem idxOf_le_of_find? {kind : Nat → Bool} (h : l.find? kind = some p) (hq : kind q = true) : l.idxOf p ≤ l.idxOf q := by
  obtain ⟨-, before, after, e, others⟩ := List.find?_eq_some_iff_append.mp h
  refine idxOf_le_of_split e (fun hm => ?_)
  simpa [hq] using others q hm

/-- The last of its kind in a list without repetitions. -/
theorem idxOf_le_of_find?_reverse {kind : Nat → Bool} (hn : l.Nodup) (h : l.reverse.find? kind = some p) (hq : kind q = true)
    (hm : q ∈ l) : l.idxOf q ≤ l.idxOf p := by
  obtain ⟨-, after, before, e, others⟩ := List.find?_eq_some_iff_append.mp h
  have split : l = before.reverse ++ p :: after.reverse := by
    rw [← List.reverse_reverse l, e]
    simp
  have notBefore : p ∉ before.reverse := by
    rw [split, List.nodup_append] at hn
    exact fun hp => hn.2.2 p hp p List.mem_cons_self rfl
  have place : l.idxOf p = before.reverse.length := by
    rw [split, List.idxOf_append_of_notMem notBefore, List.idxOf_cons_self, Nat.add_zero]
  rw [place]
  rw [split] at hm
  obtain hb | hc := List.mem_append.mp hm
  · rw [split, List.idxOf_append_of_mem hb]
    exact (List.idxOf_lt_length_of_mem hb).le
  · obtain rfl | ha := List.mem_cons.mp hc
    · exact place.le
    · simpa [hq] using others q (List.mem_reverse.mp ha)

end

/-! ## Storing a window (R22, R23) -/

section
variable {f : Forecast} {w : Window} {now p q : Nat}

/-- The place holds a window of the same gateway and issue time (R22). -/
def Forecast.HoldsLike (f : Forecast) (w : Window) (q : Nat) : Prop :=
  ∃ v, f.window q = some v ∧ v.gateway = w.gateway ∧ v.issue = w.issue

/-- The kinds of place that R23 goes through. -/
def Forecast.EmptyAt (f : Forecast) (q : Nat) : Prop := q < 6 ∧ f.window q = none
def Forecast.UnlockedAt (f : Forecast) (q : Nat) : Prop := q < 6 ∧ f.selected ≠ some q
def Forecast.SpentAt (f : Forecast) (now q : Nat) : Prop := f.UnlockedAt q ∧ ∃ v, f.window q = some v ∧ v.expired now = true

/-- The least recent place of a kind. -/
def Forecast.LeastRecent (f : Forecast) (kind : Nat → Prop) (p : Nat) : Prop :=
  kind p ∧ ∀ q, kind q → f.recency.idxOf q ≤ f.recency.idxOf p

theorem Forecast.lt_of_window {v : Window} (h : f.Holds) (hv : f.window q = some v) : q < 6 := by
  rw [← h.places]
  refine Nat.lt_of_not_le (fun hle => ?_)
  rw [Forecast.window, List.getElem?_eq_none hle] at hv
  cases hv

/-- The search of R22 decides whether a place holds a window like the new one. -/
theorem Forecast.sameKey_find (f : Forecast) (w : Window) : ∃ kind : Nat → Bool, f.sameKey w = f.recency.find? kind ∧
    ∀ q, kind q = true ↔ f.HoldsLike w q := by
  refine ⟨_, rfl, fun q => ?_⟩
  rw [Forecast.HoldsLike]
  cases f.window q <;> simp

theorem Forecast.sameKey_eq_none (hn : ∀ q, ¬ f.HoldsLike w q) : f.sameKey w = none := by
  obtain ⟨kind, e, iff⟩ := f.sameKey_find w
  rw [e]
  exact List.find?_eq_none.mpr (fun q _ hq => hn q ((iff q).mp hq))

/-- Of the places that hold a window like the new one the most recent is taken. -/
theorem Forecast.sameKey_eq_some (h : f.Holds) (hp : f.HoldsLike w p)
    (hmin : ∀ q, f.HoldsLike w q → f.recency.idxOf p ≤ f.recency.idxOf q) : f.sameKey w = some p := by
  obtain ⟨kind, e, iff⟩ := f.sameKey_find w
  obtain ⟨v, hv, -⟩ := id hp
  have mem : p ∈ f.recency := h.mem_recency.mpr (Forecast.lt_of_window h hv)
  obtain ⟨q, hq⟩ := Option.isSome_iff_exists.mp (List.find?_isSome.mpr ⟨p, mem, (iff p).mpr hp⟩)
  have le := idxOf_le_of_find? hq ((iff p).mpr hp)
  have ge := hmin q ((iff q).mp (List.find?_some hq))
  rw [e, hq, (List.idxOf_inj (List.mem_of_find?_eq_some hq)).mp (le_antisymm le ge)]

/-- Some place is unlocked, for at most one is locked. -/
theorem Forecast.exists_unlocked (f : Forecast) : ∃ q, f.UnlockedAt q := by
  by_cases h : f.selected = some 0
  · exact ⟨1, by decide, by rw [h]; decide⟩
  · exact ⟨0, by decide, h⟩

/-- The place for a new window, by the three kinds of R23. -/
theorem Forecast.placeFor_spec (h : f.Holds) (now : Nat) : ∃ p, f.placeFor now = some p ∧
    (f.LeastRecent f.EmptyAt p ∨ ((∀ q, ¬ f.EmptyAt q) ∧ f.LeastRecent (f.SpentAt now) p) ∨
      ((∀ q, ¬ f.EmptyAt q) ∧ (∀ q, ¬ f.SpentAt now q) ∧ f.LeastRecent f.UnlockedAt p)) := by
  have leastRecent {kind : Nat → Bool} {place : Nat → Prop} (iff : ∀ q, q < 6 → (kind q = true ↔ place q))
      (low : ∀ q, place q → q < 6) {p : Nat} (hp : f.recency.reverse.find? kind = some p) : f.LeastRecent place p := by
    have mem := h.mem_recency.mp (List.mem_reverse.mp (List.mem_of_find?_eq_some hp))
    refine ⟨(iff p mem).mp (List.find?_some hp), fun q hq => ?_⟩
    exact idxOf_le_of_find?_reverse h.nodup hp ((iff q (low q hq)).mpr hq) (h.mem_recency.mpr (low q hq))
  have none_ {kind : Nat → Bool} {place : Nat → Prop} (iff : ∀ q, q < 6 → (kind q = true ↔ place q))
      (low : ∀ q, place q → q < 6) (hn : f.recency.reverse.find? kind = none) (q : Nat) : ¬ place q := fun hq =>
    List.find?_eq_none.mp hn q (List.mem_reverse.mpr (h.mem_recency.mpr (low q hq))) ((iff q (low q hq)).mpr hq)
  have empty : ∀ q, q < 6 → ((f.window q).isNone = true ↔ f.EmptyAt q) := fun q hq => by simp [Forecast.EmptyAt, hq]
  have unlocked : ∀ q, q < 6 → (decide (f.selected ≠ some q) = true ↔ f.UnlockedAt q) := fun q hq => by
    simp [Forecast.UnlockedAt, hq]
  have spent : ∀ q, q < 6 → (decide (decide (f.selected ≠ some q) = true ∧
      (match f.window q with | some v => v.expired now | none => false) = true) = true ↔ f.SpentAt now q) := fun q hq => by
    rw [decide_eq_true_iff, unlocked q hq, Forecast.SpentAt]
    cases f.window q <;> simp
  unfold Forecast.placeFor
  dsimp only
  split
  next p hp => exact ⟨p, rfl, .inl (leastRecent empty (fun _ hq => hq.1) hp)⟩
  next hempty =>
    have noneEmpty := none_ empty (fun _ hq => hq.1) hempty
    rw [List.find?_filter, List.head?_filter]
    split
    next p hp => exact ⟨p, rfl, .inr (.inl ⟨noneEmpty, leastRecent spent (fun _ hq => hq.1.1) hp⟩)⟩
    next hspent =>
      have noneSpent := none_ spent (fun _ hq => hq.1.1) hspent
      obtain ⟨q, hq⟩ := f.exists_unlocked
      obtain ⟨p, hp⟩ := Option.isSome_iff_exists.mp (List.find?_isSome (p := fun q => decide (f.selected ≠ some q)).mpr
        ⟨q, List.mem_reverse.mpr (h.mem_recency.mpr hq.1), (unlocked q hq.1).mpr hq⟩)
      exact ⟨p, hp, .inr (.inr ⟨noneEmpty, noneSpent, leastRecent unlocked (fun _ hq => hq.1) hp⟩)⟩

theorem Forecast.store_of_like (h : f.Holds) (hp : f.HoldsLike w p)
    (hmin : ∀ q, f.HoldsLike w q → f.recency.idxOf p ≤ f.recency.idxOf q) :
    f.store now w = if f.selected = some p then f else f.put p w := by
  rw [Forecast.store, Forecast.sameKey_eq_some h hp hmin]

theorem Forecast.store_of_new (h : f.Holds) (hn : ∀ q, ¬ f.HoldsLike w q) : ∃ p, f.store now w = f.put p w ∧
    (f.LeastRecent f.EmptyAt p ∨ ((∀ q, ¬ f.EmptyAt q) ∧ f.LeastRecent (f.SpentAt now) p) ∨
      ((∀ q, ¬ f.EmptyAt q) ∧ (∀ q, ¬ f.SpentAt now q) ∧ f.LeastRecent f.UnlockedAt p)) := by
  obtain ⟨p, hp, kinds⟩ := Forecast.placeFor_spec h now
  refine ⟨p, ?_, kinds⟩
  rw [Forecast.store, Forecast.sameKey_eq_none hn]
  dsimp only
  rw [hp]

/-- A place that R23 names is not the locked one. -/
theorem Forecast.unlocked_of_kinds (h : f.Holds)
    (kinds : f.LeastRecent f.EmptyAt p ∨ ((∀ q, ¬ f.EmptyAt q) ∧ f.LeastRecent (f.SpentAt now) p) ∨
      ((∀ q, ¬ f.EmptyAt q) ∧ (∀ q, ¬ f.SpentAt now q) ∧ f.LeastRecent f.UnlockedAt p)) : f.selected ≠ some p := by
  obtain ⟨⟨-, empty⟩, -⟩ | ⟨-, ⟨⟨-, unlocked⟩, -⟩, -⟩ | ⟨-, -, ⟨-, unlocked⟩, -⟩ := kinds
  · intro locked
    have holds := h.selected p locked
    rw [empty] at holds
    cases holds
  · exact unlocked
  · exact unlocked

theorem Forecast.put_keeps_locked (hp : f.selected ≠ some p) (hq : f.selected = some q) : (f.put p w).window q = f.window q := by
  have other : p ≠ q := fun e => hp (e ▸ hq)
  rw [Forecast.window, Forecast.put, List.getElem?_set_ne other]
  rfl

/-- A store leaves the selection and the locked window (R21, R27). -/
theorem Forecast.store_keeps_locked (h : f.Holds) (now : Nat) (w : Window) : (f.store now w).clock = f.clock ∧
    (f.store now w).advanceTimer = f.advanceTimer ∧ (f.store now w).selected = f.selected ∧
    ∀ q, f.selected = some q → (f.store now w).window q = f.window q := by
  have put (p : Nat) (hp : f.selected ≠ some p) : (f.put p w).clock = f.clock ∧ (f.put p w).advanceTimer = f.advanceTimer ∧
      (f.put p w).selected = f.selected ∧ ∀ q, f.selected = some q → (f.put p w).window q = f.window q :=
    ⟨rfl, rfl, rfl, fun q hq => Forecast.put_keeps_locked hp hq⟩
  unfold Forecast.store
  split
  next p _ =>
    split
    · exact ⟨rfl, rfl, rfl, fun q _ => rfl⟩
    next hp => exact put p hp
  · obtain ⟨p, hp, kinds⟩ := Forecast.placeFor_spec h now
    rw [hp]
    exact put p (Forecast.unlocked_of_kinds h kinds)

end

/-! ## A Forecast frame (R19, R31) -/

theorem forecastAccepted_iff (f : Frame) : forecastAccepted f = true ↔ 1 ≤ f.payload 0 1 ∧ f.payload 0 1 ≤ 239 ∧
    f.payload 1 3 < 86400 ∧ f.payload 4 3 < 86400 ∧ f.payload 9 3 < 86400 ∧ 5 ≤ f.payload 7 1 ∧ f.payload 7 1 ≤ 60 := by
  simp [forecastAccepted, and_assoc]

/-- What a dispatch leaves, its frame handed to its owner. -/
theorem State.exec_dispatch {c : Instr} {s : State} {mine : Frame → Bool} {owner : State → Frame → State} {f : Frame}
    (hc : s.after c = s.dispatch mine owner) (hw : s.works = true) (hf : s.oldestFree = some f) (hv : f.valid = true)
    (hm : mine f = true) (hs : f.sender ≠ s.cfg.id) : exec c s = .next (owner s.takeFree f) := by
  rw [exec_eq_after, hc, State.dispatch_taken s mine owner f hw hf hv hm hs]

theorem ofKind_iff {kind : Nat} {f : Frame} : ofKind kind f = true ↔ f.kind = kind := decide_eq_true_iff

/-- Settles O12: the frame's checks, then the store by the like window it finds or by the three kinds of place. -/
theorem dispatchForecastStores : Obligations.DispatchForecastStores := by
  intro f s hw hf hv hk hs store now w clocked put place like empty unlocked spent leastRecent
  have holds : s.forecast.Holds := ⟨store.1, store.2.1, store.2.2⟩
  have clockedHolds := holds.setClock now
  refine ⟨s.takeFree.takeForecast f,
    State.exec_dispatch (State.after_dispatchForecast s) hw hf hv (ofKind_iff.mpr hk) hs, ?_, fun ranges => ?_, fun outside => ?_⟩
  · have k := s.takeFree.takeForecast_reaches f
    exact State.eq_mk (k .pending (by decide)) (k .cfg (by decide)) (k .station (by decide)) (k .wind (by decide)) rfl
      (k .risk (by decide)) (k .fence (by decide)) (k .machines (by decide)) (k .peers (by decide)) (k .water (by decide))
      (k .sweep (by decide)) (k .line (by decide)) (k .dispatcher (by decide))
  · have stored : (s.takeFree.takeForecast f).forecast = clocked.store now w := by
      rw [State.takeForecast, if_pos ((forecastAccepted_iff f).mpr ranges)]
      rfl
    obtain ⟨clock, timer, selected, window⟩ := Forecast.store_keeps_locked clockedHolds now w
    rw [stored]
    refine ⟨fun p hp hmin => ?_, fun none => ?_, clock, timer, selected, window⟩
    · rw [Forecast.store_of_like (f := clocked) clockedHolds hp hmin]
      exact ⟨fun locked => if_pos locked, fun unlocked => if_neg unlocked⟩
    · exact Forecast.store_of_new (f := clocked) clockedHolds none
  · have refused : ¬ forecastAccepted f = true := by
      rw [forecastAccepted_iff]
      omega
    rw [State.takeForecast, if_neg refused]
    rfl

/-! ## Selection (R26 to R28) -/

section
variable {f : Forecast} {now gateway p q : Nat}

theorem Forecast.youngest_eq_none {l : List Nat} (h : f.youngest now l = none) : l = [] := by
  cases l with
  | nil => rfl
  | cons p rest =>
    unfold Forecast.youngest at h
    split at h
    · cases h
    · split at h <;> cases h

/-- The youngest of a class stands before every other as young (R26). -/
theorem Forecast.youngest_filter {kind : Nat → Bool} {l : List Nat} (h : f.youngest now (l.filter kind) = some p) :
    ∃ before after, l = before ++ p :: after ∧ kind p = true ∧
      (∀ q ∈ before, kind q = true → f.ageAt now p < f.ageAt now q) ∧
      ∀ q ∈ after, kind q = true → f.ageAt now p ≤ f.ageAt now q := by
  induction l generalizing p with
  | nil => cases h
  | cons x l ih =>
    by_cases hx : kind x = true
    · rw [List.filter_cons_of_pos hx] at h
      unfold Forecast.youngest at h
      split at h
      next hnone =>
        obtain rfl := Option.some.inj h
        refine ⟨[], l, rfl, hx, by simp, fun q hq hk => ?_⟩
        have mem := List.mem_filter.mpr ⟨hq, hk⟩
        rw [Forecast.youngest_eq_none hnone] at mem
        cases mem
      next r hr =>
        obtain ⟨before, after, rfl, kr, older, notYounger⟩ := ih hr
        split at h <;> obtain rfl := Option.some.inj h
        next younger =>
          refine ⟨x :: before, after, rfl, kr, fun q hq hk => ?_, notYounger⟩
          obtain rfl | hq := List.mem_cons.mp hq
          · exact younger
          · exact older q hq hk
        next notOlder =>
          have le := Nat.le_of_not_lt notOlder
          refine ⟨[], before ++ r :: after, rfl, hx, by simp, fun q hq hk => ?_⟩
          obtain hq | hq := List.mem_append.mp hq
          · exact le.trans (older q hq hk).le
          · obtain rfl | hq := List.mem_cons.mp hq
            · exact le
            · exact le.trans (notYounger q hq hk)
    · rw [List.filter_cons_of_neg hx] at h
      obtain ⟨before, after, rfl, kp, older, notYounger⟩ := ih h
      refine ⟨x :: before, after, rfl, kp, fun q hq hk => ?_, notYounger⟩
      obtain rfl | hq := List.mem_cons.mp hq
      · exact absurd hk hx
      · exact older q hq hk

theorem Forecast.youngest_le {kind : Nat → Bool} {l : List Nat} (h : f.youngest now (l.filter kind) = some p) (hq : q ∈ l)
    (hk : kind q = true) :
    f.ageAt now p ≤ f.ageAt now q ∧ (f.ageAt now p = f.ageAt now q → l.idxOf p ≤ l.idxOf q) := by
  obtain ⟨before, after, e, -, older, notYounger⟩ := Forecast.youngest_filter h
  refine ⟨?_, fun same => idxOf_le_of_split e (fun hm => absurd same (older q hm hk).ne)⟩
  rw [e] at hq
  obtain hb | hc := List.mem_append.mp hq
  · exact (older q hb hk).le
  · obtain rfl | ha := List.mem_cons.mp hc
    · exact le_rfl
    · exact notYounger q ha hk

/-- A window that covers the present and is not expired is a candidate (R26). -/
theorem Forecast.candidate_iff : f.candidate now p = true ↔
    ∃ w, f.window p = some w ∧ w.covers now = true ∧ w.expired now = false := by
  rw [Forecast.candidate]
  cases f.window p <;> simp

theorem Forecast.fromGateway_iff {w : Window} (h : f.window p = some w) :
    f.fromGateway gateway p = true ↔ w.gateway = gateway := by
  rw [Forecast.fromGateway, h]
  exact decide_eq_true_iff

theorem Forecast.ageAt_eq {w : Window} (h : f.window p = some w) : f.ageAt now p = w.issueAge now := by
  rw [Forecast.ageAt, h]

/-- The class that a selection chooses from: the primary gateway's candidates, or all without one (R26). -/
def Forecast.ofClass (f : Forecast) (gateway now q : Nat) : Bool :=
  f.candidate now q &&
    (f.fromGateway gateway q || decide ((f.recency.filter (f.candidate now)).filter (f.fromGateway gateway) = []))

theorem Forecast.choice_eq (h : f.clock = some now) :
    f.choice gateway = f.youngest now (f.recency.filter (f.ofClass gateway now)) := by
  rw [Forecast.choice, h]
  dsimp only
  congr 1
  split
  next none =>
    refine List.filter_congr (fun q _ => ?_)
    simp [Forecast.ofClass, none]
  next some =>
    rw [List.filter_filter]
    refine List.filter_congr (fun q _ => ?_)
    rw [Forecast.ofClass, decide_eq_false some, Bool.or_false, Bool.and_comm]

/-- The primary gateway's candidate is of the class, and only such are when there is one (R26). -/
theorem Forecast.ofClass_of_primary (hq : q ∈ f.recency) (hc : f.candidate now q = true) (hg : f.fromGateway gateway q = true)
    (hp : f.ofClass gateway now p = true) : f.fromGateway gateway p = true := by
  have primary : (f.recency.filter (f.candidate now)).filter (f.fromGateway gateway) ≠ [] :=
    List.ne_nil_of_mem (List.mem_filter.mpr ⟨List.mem_filter.mpr ⟨hq, hc⟩, hg⟩)
  simp only [Forecast.ofClass, primary, decide_false, Bool.or_false, Bool.and_eq_true] at hp
  exact hp.2

/-- With a candidate the class has a member. -/
theorem Forecast.exists_ofClass (hp : p ∈ f.recency) (hc : f.candidate now p = true) :
    ∃ q ∈ f.recency, f.ofClass gateway now q = true := by
  by_cases primary : (f.recency.filter (f.candidate now)).filter (f.fromGateway gateway) = []
  · exact ⟨p, hp, by rw [Forecast.ofClass, hc, decide_eq_true primary, Bool.or_true, Bool.and_true]⟩
  · obtain ⟨q, hq⟩ := List.exists_mem_of_ne_nil _ primary
    obtain ⟨hq, hg⟩ := List.mem_filter.mp hq
    obtain ⟨hq, hqc⟩ := List.mem_filter.mp hq
    exact ⟨q, hq, by rw [Forecast.ofClass, hqc, hg, Bool.true_or, Bool.and_true]⟩

theorem Forecast.ofClass_of_same (hp : f.ofClass gateway now p = true) (hc : f.candidate now q = true)
    (same : f.fromGateway gateway q = f.fromGateway gateway p) : f.ofClass gateway now q = true := by
  simp only [Forecast.ofClass, Bool.and_eq_true] at hp ⊢
  exact ⟨hc, by rw [same]; exact hp.2⟩

end

/-- Settles O14: coverage and expiry, the slots of the selected window, and the choice among the candidates. -/
theorem selectionTakesYoungest : Obligations.SelectionTakesYoungest := by
  refine ⟨fun w now => ?_, fun now p w s hc hs hw => ?_, fun s h => ?_, fun s h => ?_, fun now s hc store => ?_⟩
  · refine ⟨decide_eq_true_iff, rfl, ?_⟩
    simp [Window.expired, Window.issueAge, yardDiff, modN]
  · have inUse : s.forecast.inUse = some (w, now) := by
      rw [Forecast.inUse, hs, hc]
      dsimp only
      rw [hw]
      rfl
    rw [State.currentSlot, State.lookAheadSlot, inUse]
    exact ⟨rfl, rfl⟩
  · have inUse : s.forecast.inUse = none := by
      unfold Forecast.inUse
      split
      next hs hc => obtain h | h := h <;> simp_all
      · rfl
    rw [State.currentSlot, State.lookAheadSlot, inUse]
    exact ⟨rfl, rfl⟩
  · rw [State.selectForecast_of_none]
    · rfl
    · rw [Forecast.choice, h]
  · have holds : s.forecast.Holds := ⟨store.1, store.2.1, store.2.2⟩
    have candidates {q : Nat} {v : Window} (hv : s.forecast.window q = some v) (covers : v.covers now = true)
        (fresh : v.expired now = false) : q ∈ s.forecast.recency ∧ s.forecast.candidate now q = true :=
      ⟨holds.mem_recency.mpr (Forecast.lt_of_window holds hv), Forecast.candidate_iff.mpr ⟨v, hv, covers, fresh⟩⟩
    cases choice : s.forecast.choice s.cfg.gateway with
    | none =>
      rw [State.selectForecast_of_none choice]
      refine ⟨fun _ p w hw hp => ?_, fun p (hp : none = some p) => (nomatch hp)⟩
      obtain ⟨mem, candidate⟩ := candidates hw hp.1 hp.2
      rw [Forecast.choice_eq hc] at choice
      obtain ⟨q, hq, ofClass⟩ := Forecast.exists_ofClass (gateway := s.cfg.gateway) mem candidate
      have found := List.mem_filter.mpr ⟨hq, ofClass⟩
      rw [Forecast.youngest_eq_none choice] at found
      cases found
    | some p =>
      rw [State.selectForecast_of_some choice]
      refine ⟨fun (h : some p = none) => (nomatch h), fun p' hp' => ?_⟩
      obtain rfl : p = p' := Option.some.inj hp'
      rw [Forecast.choice_eq hc] at choice
      obtain ⟨-, -, -, ofClass, -, -⟩ := Forecast.youngest_filter choice
      have candidate : s.forecast.candidate now p = true := by
        rw [Forecast.ofClass, Bool.and_eq_true] at ofClass
        exact ofClass.1
      obtain ⟨w, hw, covers, fresh⟩ := Forecast.candidate_iff.mp candidate
      refine ⟨rfl, w, hw, covers, fresh, fun q v hv covers' fresh' => ?_⟩
      obtain ⟨mem, candidate'⟩ := candidates hv covers' fresh'
      refine ⟨fun primary => ?_, fun same => ?_⟩
      · rw [← Forecast.fromGateway_iff hw]
        exact Forecast.ofClass_of_primary mem candidate' ((Forecast.fromGateway_iff hv).mpr primary) ofClass
      · have sameClass : s.forecast.fromGateway s.cfg.gateway q = s.forecast.fromGateway s.cfg.gateway p := by
          rw [Bool.eq_iff_iff, Forecast.fromGateway_iff hv, Forecast.fromGateway_iff hw]
          exact same
        have younger := Forecast.youngest_le choice mem (Forecast.ofClass_of_same ofClass candidate' sameClass)
        rwa [Forecast.ageAt_eq hw, Forecast.ageAt_eq hv] at younger

end Sys2Proof.Machine
end

