-- ==== Sys2Proof/Proofs/Evaluation.lean ====
section
/-! An evaluation from its timer to its completion (O15, O16), and the recomputation of the held escalations (O20). -/

namespace Sys2Proof.Machine

section
variable {s t : State}

/-! ## The start of an evaluation (R36, R37) -/

/-- The items of the state that an evaluation's start leaves: the selection, the overrides that stand, and the snapshot. -/
theorem State.startEvaluation_eq (s : State) : s.startEvaluation = { s with
    forecast := s.selectForecast.forecast,
    risk := { s.risk with
      faces := s.risk.faces.map FaceRecord.dropExpired, flight := some s.dropExpiredOverrides.selectForecast.snapshot } } := by
  have k := s.dropExpiredOverrides.selectForecast_reaches
  have risk : s.dropExpiredOverrides.selectForecast.risk = s.dropExpiredOverrides.risk := k .risk (by decide)
  have forecast : s.dropExpiredOverrides.selectForecast.forecast = s.selectForecast.forecast :=
    State.selectForecast_forecast_of_eq rfl rfl
  rw [State.startEvaluation]
  dsimp only
  rw [risk]
  exact State.eq_mk (k .pending (by decide)) (k .cfg (by decide)) (k .station (by decide)) (k .wind (by decide)) forecast
    rfl (k .fence (by decide)) (k .machines (by decide)) (k .peers (by decide)) (k .water (by decide)) (k .sweep (by decide))
    (k .line (by decide)) (k .dispatcher (by decide))

/-- What the selection's reader gets is a matter of the store and the lead (R28). -/
theorem State.currentSlot_of_eq (forecast : t.forecast = s.forecast) : t.currentSlot = s.currentSlot := by
  rw [State.currentSlot, State.currentSlot, forecast]

theorem State.lookAheadSlot_of_eq (cfg : t.cfg = s.cfg) (forecast : t.forecast = s.forecast) :
    t.lookAheadSlot = s.lookAheadSlot := by
  rw [State.lookAheadSlot, State.lookAheadSlot, cfg, forecast]

/-- The state that an evaluation's snapshot copies (R37). -/
def State.copied (s : State) : State :=
  (s.setRisk { s.risk with timer := some (seconds s.cfg.interval) }).dropExpiredOverrides.selectForecast

theorem State.copied_reads (s : State) : s.copied.cfg = s.cfg ∧ s.copied.forecast = s.selectForecast.forecast ∧
    s.copied.wind = s.wind ∧ s.copied.fence = s.fence ∧ s.copied.machines = s.machines ∧
    s.copied.risk.faces = s.risk.faces.map FaceRecord.dropExpired := by
  have k := State.selectForecast_reaches (s.setRisk { s.risk with timer := some (seconds s.cfg.interval) }).dropExpiredOverrides
  have risk : s.copied.risk = _ := k .risk (by decide)
  refine ⟨k .cfg (by decide), State.selectForecast_forecast_of_eq rfl rfl, k .wind (by decide), k .fence (by decide),
    k .machines (by decide), ?_⟩
  rw [risk]
  rfl

theorem Override.isSome_left : (fun o : Override => decide (o.left ≠ none)) = (fun o => o.left.isSome) := by
  funext o
  cases o.left <;> rfl

/-- Settles O15: the timer alone with an evaluation in flight, and else the selection and the snapshot item by item. -/
theorem evaluationTimerStarts : Obligations.EvaluationTimerStarts := by
  refine ⟨fun snap s running flight => ?_, fun s running flight => ?_⟩
  · rw [exec_eq_after, State.after_evaluationTimerExpiry, if_pos running, if_pos (by rw [flight]; rfl)]
    rfl
  · have started := State.startEvaluation_eq (s.setRisk { s.risk with timer := some (seconds s.cfg.interval) })
    have same : (s.setRisk { s.risk with timer := some (seconds s.cfg.interval) }).selectForecast.forecast =
        s.selectForecast.forecast := State.selectForecast_forecast_of_eq rfl rfl
    obtain ⟨cfg, forecast, wind, fence, machines, risk⟩ := s.copied_reads
    refine ⟨_, s.copied.snapshot, exec_eq_after _ s, ?_, congrArg Wind.uEff wind, congrArg Wind.sector wind,
      State.currentSlot_of_eq forecast, State.lookAheadSlot_of_eq (cfg.trans s.selectForecast_cfg.symm) forecast, ?_, ?_,
      fun i r k h hr hk hh => ?_⟩
    · rw [State.after_evaluationTimerExpiry, if_pos running, if_neg (by rw [flight]; decide), started, same]
      simp only [Override.isSome_left]
      rfl
    · rw [State.snapshot]
      dsimp only
      rw [cfg]
      cases s.copied.currentSlot <;> rfl
    · simp [State.snapshot, risk]
    · have copied : s.copied.risk.faces[i]? = some r.dropExpired := by
        rw [risk, List.getElem?_map, hr]
        rfl
      have kf : s.copied.machines.kf.getD i 64 = k := by
        rw [machines, List.getD_eq_getElem?_getD, hk]
        rfl
      rw [State.snapshot]
      dsimp only
      rw [List.getElem?_mapIdx, copied, Option.map_some, State.faceSnapshot, kf, fence, hh]
      simp only [Override.isSome_left]
      rfl

/-! ## The faces and the weights at a completion (R48 to R50) -/

/-- PREWET by R43: below SPRAY, on the look-ahead ERI, held with the hysteresis. -/
theorem StationCfg.prewetFlag_iff (cfg : StationCfg) (base : Level) (before : Bool) (ahead : Option Nat) :
    cfg.prewetFlag base before ahead = true ↔ base.num < 3 ∧ ∃ e, ahead = some e ∧
      (cfg.tSpray ≤ e ∨ (before = true ∧ cfg.tSpray - cfg.hysteresis ≤ e)) := by
  cases ahead with
  | none => simp [StationCfg.prewetFlag]
  | some e =>
    have spray : Level.spray.num = 3 := rfl
    simp [StationCfg.prewetFlag, spray]

theorem Level.heavy_num_le {l : Level} : Level.heavy.num ≤ l.num ↔ l = .heavy := by cases l <;> decide

/-- A weight is an upper bound of the ERIs at or above its level, and one of them or 0 (R50). -/
theorem eri_le_weightAt {threshold : Level} {faces : List FaceRecord} {r : FaceRecord} (h : r ∈ faces)
    (hl : threshold.num ≤ r.level.num) : r.eri ≤ weightAt threshold faces :=
  le_foldl_max 0 (List.mem_map_of_mem (List.mem_filter.mpr ⟨h, decide_eq_true hl⟩))

theorem weightAt_eq (threshold : Level) (faces : List FaceRecord) :
    weightAt threshold faces = 0 ∨ ∃ r ∈ faces, threshold.num ≤ r.level.num ∧ r.eri = weightAt threshold faces := by
  obtain zero | mem := foldl_max_eq_or_mem
    ((faces.filter (fun r => decide (threshold.num ≤ r.level.num))).map FaceRecord.eri) 0
  · exact .inl zero
  · obtain ⟨r, hr, e⟩ := List.mem_map.mp mem
    obtain ⟨hr, hl⟩ := List.mem_filter.mp hr
    exact .inr ⟨r, hr, of_decide_eq_true hl, e⟩

/-! ## The shares at a completion (R50, R105) -/

/-- W or H_w differs from before (R50). -/
def State.WeightsStand (old s : State) : Prop := s.risk.w = old.risk.w ∧ s.risk.hw = old.risk.hw

theorem State.weightNotice_of_stand {old : State} (h : State.WeightsStand old s) : State.weightNotice old s = s := if_pos h

theorem State.weightNotice_of_changed {old : State} (h : ¬ State.WeightsStand old s) :
    State.weightNotice old s = s.shareComputation := if_neg h

/-- From `s` to `t` the water share unit has moved in its shares and its G_t notices alone. -/
def State.WaterAlike (s t : State) : Prop := ∃ sR sF n, t.water = { s.water with sR := sR, sF := sF, gtNotices := n }

theorem State.WaterAlike.trans {u : State} (h : s.WaterAlike t) (k : t.WaterAlike u) : s.WaterAlike u := by
  obtain ⟨_, _, _, e⟩ := h
  obtain ⟨sR, sF, n, e'⟩ := k
  exact ⟨sR, sF, n, by rw [e', e]⟩

theorem State.WaterAlike.eq (h : s.WaterAlike t) :
    t.water = { s.water with sR := t.water.sR, sF := t.water.sF, gtNotices := t.water.gtNotices } := by
  obtain ⟨_, _, _, e⟩ := h
  rw [e]

theorem State.SweepOnly.waterAlike (h : s.SweepOnly t) : s.WaterAlike t := ⟨_, _, _, h.water⟩

theorem State.shareComputation_waterAlike (s : State) : s.WaterAlike s.shareComputation :=
  
  ⟨s.reuseShare, s.freshShare, s.shareComputation.water.gtNotices, congrArg State.water s.shareComputation_reach⟩

theorem State.weightNotice_waterAlike (old s : State) : s.WaterAlike (State.weightNotice old s) := by
  unfold State.weightNotice
  split
  · exact ⟨_, _, _, rfl⟩
  · exact s.shareComputation_waterAlike

/-- The shares that a computation hands over are held by the sweep engine (R105). -/
theorem State.shareComputation_held (s : State) :
    s.shareComputation.sweep.sR = s.reuseShare ∧ s.shareComputation.sweep.sF = s.freshShare := by
  have within := (s.setWater { s.water with sR := s.reuseShare, sF := s.freshShare }).handOver_within s.reuseShare s.freshShare
  exact ⟨within.sR, within.sF⟩

/-- The share computation reads the granted total, the weights, the table and the pond. -/
theorem State.shares_of_eq (cfg : t.cfg = s.cfg) (peers : t.peers = s.peers) (risk : t.risk = s.risk)
    (water : ∃ n, t.water = { s.water with gtNotices := n }) (granted : t.granted = s.granted) :
    t.reuseShare = s.reuseShare ∧ t.freshShare = s.freshShare := by
  obtain ⟨n, water⟩ := water
  simp only [State.reuseShare, State.freshShare, State.availableReuse, State.usableReuse, State.unaccounted, State.believedDraw,
    State.claimSum, State.wSum, State.hwSum, cfg, peers, risk, water, granted, and_self]

/-- Putting the lists in order leaves the granted total where every grant is a channel's (R127). -/
theorem State.settleLists_granted (old : State) (h : ∀ g ∈ s.sweep.grants, g.channel < s.sweep.channels.length) :
    (State.settleLists old s).granted = s.granted := by
  have within : s.Within (State.settleLists old s) := s.settleLists_within old
  rw [State.granted, within.readsAs.flowOf, State.granted]
  refine State.flowOf_perm _ ?_
  exact State.settleGrants_perm (s := State.settleWaiting old s) h

/-- The state with the figures and levels of a completion published, before its notices. -/
def State.published (s : State) (snap : Snapshot) : State := s.publish (s.completedFaces snap)

theorem State.published_eq (s : State) (snap : Snapshot) (weightsFirst : Bool) :
    s.setRisk (s.complete snap weightsFirst).risk = s.published snap := by
  rw [State.complete_risk]
  rfl

theorem State.complete_of_weightsFirst (s : State) (snap : Snapshot) : s.complete snap true =
    State.levelNotice (State.weightNotice s (State.settleLists s (s.published snap)))
      (State.weightNotice s (State.settleLists s (s.published snap))) := by
  unfold State.complete
  dsimp only
  rw [if_pos rfl, ← State.published]

theorem State.complete_of_levelsFirst (s : State) (snap : Snapshot) :
    s.complete snap false = State.weightNotice s (State.levelNotice s (s.published snap)) := by
  unfold State.complete
  dsimp only
  rw [if_neg Bool.false_ne_true, ← State.published]

theorem State.published_waterAlike (s : State) (snap : Snapshot) : s.WaterAlike (s.published snap) := ⟨_, _, _, rfl⟩

/-- What a completion leaves of the water share unit. -/
theorem State.complete_waterAlike (s : State) (snap : Snapshot) (weightsFirst : Bool) :
    s.WaterAlike (s.complete snap weightsFirst) := by
  refine (s.published_waterAlike snap).trans ?_
  cases weightsFirst with
  | true =>
    rw [State.complete_of_weightsFirst]
    exact (((s.published snap).settleLists_within s).only.waterAlike.trans (State.weightNotice_waterAlike _ _)).trans
      (State.levelNotice_only _ _).waterAlike
  | false =>
    rw [State.complete_of_levelsFirst]
    exact (State.levelNotice_only _ _).waterAlike.trans (State.weightNotice_waterAlike _ _)

/-- What stays of the shares through operations of the sweep engine's own. -/
theorem State.Within.shares (h : s.Within t) : t.water.sR = s.water.sR ∧ t.water.sF = s.water.sF ∧
    t.sweep.sR = s.sweep.sR ∧ t.sweep.sF = s.sweep.sF := by
  have water := h.only.water
  exact ⟨by rw [water], by rw [water], h.sR, h.sF⟩

theorem State.Within.weightsStand {old : State} (h : s.Within t) : State.WeightsStand old t ↔ State.WeightsStand old s := by
  rw [State.WeightsStand, State.WeightsStand, h.only.risk]

/-- With the weights as before both units keep the shares they hold (R50). -/
theorem State.complete_shares_of_stand (snap : Snapshot) (weightsFirst : Bool) (h : State.WeightsStand s (s.published snap)) :
    (s.complete snap weightsFirst).water.sR = s.water.sR ∧ (s.complete snap weightsFirst).water.sF = s.water.sF ∧
      (s.complete snap weightsFirst).sweep.sR = s.sweep.sR ∧ (s.complete snap weightsFirst).sweep.sF = s.sweep.sF := by
  cases weightsFirst with
  | true =>
    have settled := (s.published snap).settleLists_within s
    rw [State.complete_of_weightsFirst, State.weightNotice_of_stand (settled.weightsStand.mpr h)]
    exact (settled.trans (State.levelNotice_within _ _)).shares
  | false =>
    have noticed := State.levelNotice_within (s.published snap) s
    rw [State.complete_of_levelsFirst, State.weightNotice_of_stand (noticed.weightsStand.mpr h)]
    exact noticed.shares

/-- With other weights the shares are computed anew and handed over, in either order of the notices (R50, log 6). -/
theorem State.complete_shares_of_changed (snap : Snapshot) (weightsFirst : Bool) (ht : s.OrdersTell)
    (h : ¬ State.WeightsStand s (s.published snap)) :
    let noticed := if weightsFirst then s.published snap else State.levelNotice s (s.published snap)
    (s.complete snap weightsFirst).water.sR = noticed.reuseShare ∧ (s.complete snap weightsFirst).water.sF = noticed.freshShare ∧
      (s.complete snap weightsFirst).sweep.sR = (s.complete snap weightsFirst).water.sR ∧
      (s.complete snap weightsFirst).sweep.sF = (s.complete snap weightsFirst).water.sF := by
  cases weightsFirst with
  | true =>
    have settled := (s.published snap).settleLists_within s
    have granted : ∀ g ∈ s.sweep.grants, g.channel < s.sweep.channels.length :=
      fun g hg => State.lt_length_of_runs (ht.2.2.1 g hg)
    obtain ⟨reuse, fresh⟩ := State.shares_of_eq settled.only.cfg settled.only.peers settled.only.risk ⟨_, settled.only.water⟩
      (State.settleLists_granted (s := s.published snap) s granted)
    rw [State.complete_of_weightsFirst, State.weightNotice_of_changed (mt settled.weightsStand.mp h)]
    obtain ⟨waterR, waterF, sweepR, sweepF⟩ :=
      (State.levelNotice_within (State.settleLists s (s.published snap)).shareComputation
        (State.settleLists s (s.published snap)).shareComputation).shares
    obtain ⟨heldR, heldF⟩ := (State.settleLists s (s.published snap)).shareComputation_held
    rw [waterR, waterF, sweepR, sweepF, State.shareComputation_sR, State.shareComputation_sF, heldR, heldF]
    exact ⟨reuse, fresh, rfl, rfl⟩
  | false =>
    have noticed := State.levelNotice_within (s.published snap) s
    obtain ⟨heldR, heldF⟩ := (State.levelNotice s (s.published snap)).shareComputation_held
    rw [State.complete_of_levelsFirst, State.weightNotice_of_changed (mt noticed.weightsStand.mp h), State.shareComputation_sR,
      State.shareComputation_sF, heldR, heldF]
    exact ⟨rfl, rfl, rfl, rfl⟩

end

/-- Settles O16: each face in the order of R48, the weights, and the shares of the weight notice. -/
theorem evaluationCompletes : Obligations.EvaluationCompletes := by
  intro weightsFirst snap s flight
  have k := s.complete_reaches snap weightsFirst
  have risk := s.complete_risk snap weightsFirst
  refine ⟨s.complete snap weightsFirst, ?_, ?_, ?_⟩
  · rw [exec_eq_after, State.after_evaluationCompletion, flight]
  · exact State.eq_mk (k .pending (by decide)) (k .cfg (by decide)) (k .station (by decide)) (k .wind (by decide))
      (k .forecast (by decide)) rfl (k .fence (by decide)) (k .machines (by decide)) (k .peers (by decide))
      (s.complete_waterAlike snap weightsFirst).eq rfl (k .line (by decide)) (k .dispatcher (by decide))
  · rw [State.published_eq]
    have shares := State.complete_shares_of_changed snap weightsFirst (s := s)
    have stand := State.complete_shares_of_stand snap weightsFirst (s := s)
    rw [risk]
    refine ⟨rfl, rfl, by simp [State.publish, State.completedFaces], fun i r f fs hr hf hfs => ?_,
      fun r hr hl => eri_le_weightAt hr hl, weightAt_eq .prewet _, fun r hr hl => eri_le_weightAt hr (Level.heavy_num_le.mpr hl), ?_,
      fun same => stand same, fun changed tells => shares tells changed⟩
    · have completed : (s.publish (s.completedFaces snap)).risk.faces[i]? = some (completeFace s.cfg snap f fs r) := by
        show (s.completedFaces snap)[i]? = _
        rw [State.completedFaces, List.getElem?_mapIdx, hr, List.getD_eq_getElem?_getD, List.getD_eq_getElem?_getD, hf, hfs]
        rfl
      refine ⟨_, completed, rfl, rfl, ?_, fun l hl => ?_, fun hl => ?_, rfl, rfl⟩
      · rw [completeFace]
        dsimp only
        rw [StationCfg.prewetFlag_iff, Snapshot.lookAheadEri]
        cases snap.lookAhead <;> simp
      · rw [completeFace, hl]
        rfl
      · rw [completeFace, hl]
        rfl
    · obtain zero | ⟨r, hr, hl, e⟩ := weightAt_eq .heavy (s.completedFaces snap)
      · exact .inl zero
      · exact .inr ⟨r, hr, Level.heavy_num_le.mp hl, e⟩

end Sys2Proof.Machine
end

