-- ==== Sys2Proof/Proofs/FenceLine.lean ====
section
/-! The fence response unit: what a Monitor frame, a silence crossing and a hold expiry leave (O20). -/

namespace Sys2Proof.Machine

section
variable {s : State}

/-- The stored record of a Monitor frame in range (R57). -/
theorem storedMonitor_eq {f : Frame} (h : f.payload 2 1 ≤ 2) : storedMonitor f =
    ⟨if f.payload 2 1 = 0 then .normal else if f.payload 2 1 = 1 then .alert else .alarm, min 9999 (f.payload 0 2), 0, false⟩ := by
  have state : monitorState (f.payload 2 1) =
      if f.payload 2 1 = 0 then .normal else if f.payload 2 1 = 1 then .alert else .alarm := by
    generalize f.payload 2 1 = n at h
    interval_cases n <;> rfl
  rw [storedMonitor, state]

theorem State.takeMonitor_of_entry {f : Frame} {i : Nat}
    (he : s.cfg.relations.findIdx? (fun e => decide (e.monitor = f.sender)) = some i) (hr : f.payload 2 1 ≤ 2) :
    s.takeMonitor f =
      (s.setFence { s.fence with records := s.fence.records.set i (some (storedMonitor f)) }).recomputeEscalation none := by
  rw [State.takeMonitor, he]
  exact if_neg (by omega)

theorem State.takeMonitor_of_refused {f : Frame}
    (h : s.cfg.relations.findIdx? (fun e => decide (e.monitor = f.sender)) = none ∨ 2 < f.payload 2 1) : s.takeMonitor f = s := by
  unfold State.takeMonitor
  split
  · rfl
  next i he => exact if_pos (h.resolve_left (by rw [he]; exact Option.some_ne_none i))

/-- At a hold expiry the face takes its raw value, and every other is compared (R62). -/
theorem State.recomputeEscalation_some (s : State) (face : Nat) : s.recomputeEscalation (some face) = s.setFence { s.fence with
    held := s.fence.held.mapIdx (fun k h =>
      if k + 1 = face then ⟨s.rawEscalation face, none⟩ else h.compare s.cfg.holdTime (s.rawEscalation (k + 1))) } := by
  have each : (fun (i : Nat) (h : Held) => if some face = some (i + 1) then (⟨s.rawEscalation (i + 1), none⟩ : Held)
      else h.compare s.cfg.holdTime (s.rawEscalation (i + 1))) = fun k h =>
      if k + 1 = face then ⟨s.rawEscalation face, none⟩ else h.compare s.cfg.holdTime (s.rawEscalation (k + 1)) := by
    funext i h
    by_cases same : i + 1 = face
    · rw [if_pos (congrArg some same.symm), if_pos same, same]
    · rw [if_neg (fun e => same (Option.some.inj e).symm), if_neg same]
  rw [State.recomputeEscalation, each]

/-- A crossing falls to a present, CURRENT record at the silence limit alone (R58). -/
theorem State.crossingMonitor_eq_some {id i : Nat} {m : MonitorRecord}
    (he : s.cfg.relations.findIdx? (fun e => decide (e.monitor = id)) = some i) (hm : s.fence.records[i]? = some (some m))
    (current : m.silent = false) (due : s.cfg.monitorSilence * 1000 ≤ m.age) : s.crossingMonitor id = some (i, m) := by
  have young : ¬ m.age < seconds s.cfg.monitorSilence := Nat.not_lt.mpr due
  rw [State.crossingMonitor, he]
  dsimp only
  rw [hm]
  simp [current, young]

theorem State.crossingMonitor_eq_none {id : Nat}
    (h : ∀ (i : Nat) (m : MonitorRecord), s.cfg.relations.findIdx? (fun e => decide (e.monitor = id)) = some i →
      s.fence.records[i]? = some (some m) → m.silent = true ∨ m.age < s.cfg.monitorSilence * 1000) :
    s.crossingMonitor id = none := by
  unfold State.crossingMonitor
  split
  · rfl
  next i he =>
    split
    next m hm =>
      have silent := h i m he (Option.join_eq_some_iff.mp hm)
      refine if_pos ?_
      rw [Bool.or_eq_true, decide_eq_true_iff]
      exact silent
    · rfl

theorem State.holdDue_iff {face : Nat} : s.holdDue face = true ↔
    1 ≤ face ∧ ∃ h : Held, s.fence.held[face - 1]? = some h ∧ h.timer = some 0 := by
  rw [State.holdDue, Bool.and_eq_true, decide_eq_true_iff, decide_eq_true_iff, Option.bind_eq_some_iff]

end

/-- Settles O20: the frame by its entry, the crossing and the expiry by their conditions, each with its recomputation. -/
theorem escalationIsRecomputed : Obligations.EscalationIsRecomputed := by
  refine ⟨fun f i s hw hf hv hk hs he hr => ?_, fun f s hw hf hv hk hs refused => ?_, fun id i m s he hm current due => ?_,
    fun id s h => ?_, fun face s h => ?_, fun face h s low hh timer => ?_⟩
  · refine ⟨_, State.exec_dispatch (State.after_dispatchMonitor s) hw hf hv (ofKind_iff.mpr hk) hs, ?_⟩
    rw [State.takeMonitor_of_entry (s := s.takeFree) he hr, storedMonitor_eq hr]
    exact ⟨rfl, rfl⟩
  · refine ⟨_, State.exec_dispatch (State.after_dispatchMonitor s) hw hf hv (ofKind_iff.mpr hk) hs, ?_⟩
    exact State.takeMonitor_of_refused (s := s.takeFree) refused
  · refine ⟨_, exec_eq_after _ s, ?_⟩
    rw [State.after_monitorSilenceCrossing, State.crossingMonitor_eq_some he hm current due]
    exact ⟨rfl, rfl⟩
  · rw [exec_eq_after, State.after_monitorSilenceCrossing, State.crossingMonitor_eq_none h]
  · rw [exec_eq_after, State.after_holdExpiry, if_neg]
    rw [State.holdDue_iff]
    rintro ⟨-, held, there, zero⟩
    exact h held there zero
  · refine ⟨_, exec_eq_after _ s, ?_⟩
    rw [State.after_holdExpiry, if_pos (State.holdDue_iff.mpr ⟨low, h, hh, timer⟩), State.recomputeEscalation_some]
    rfl

end Sys2Proof.Machine
end

