-- ==== Sys2Proof/Proofs/MachineUnit.lean ====
section
/-! The machine unit: what a Machine frame, a stale crossing and a removal leave (O22, O23). -/

namespace Sys2Proof.Machine

/-! ## Arcs (R75) -/

theorem Arc.contains_iff (r : Arc) (a : Nat) :
    r.contains a = true ↔ ((a : Int) - r.lo) % 3600 ≤ ((r.hi : Int) - r.lo) % 3600 := by
  rw [Arc.contains, decide_eq_true_iff, ← Int.ofNat_le, modN_cast _ (by decide), modN_cast _ (by decide)]
  rfl

/-- An azimuth lies inside an active arc by a fixed arc or by an ACTIVE shadow arc (R75, R76). -/
theorem State.inActiveArc_iff (s : State) (c a : Nat) : s.inActiveArc c a = true ↔
    (∃ r ∈ (s.channelCfg c).fixed, r.contains a = true) ∨
    ∃ (k : Nat) (e : Shadow), (s.channelCfg c).shadow[k]? = some e ∧ (s.machines.arcs.getD c [])[k]? = some true ∧
      e.arc.contains a = true := by
  rw [State.inActiveArc, List.any_eq_true, State.activeArcs]
  constructor
  · rintro ⟨r, hr, inside⟩
    obtain fixed | shadow := List.mem_append.mp hr
    · exact .inl ⟨r, fixed, inside⟩
    · obtain ⟨⟨e, active⟩, mem, rfl⟩ := List.mem_map.mp shadow
      obtain ⟨mem, rfl⟩ := List.mem_filter.mp mem
      obtain ⟨k, hk⟩ := List.mem_iff_getElem?.mp mem
      obtain ⟨he, ha⟩ := List.getElem?_zip_eq_some.mp hk
      exact .inr ⟨k, e, he, ha, inside⟩
  · rintro (⟨r, fixed, inside⟩ | ⟨k, e, he, ha, inside⟩)
    · exact ⟨r, List.mem_append_left _ fixed, inside⟩
    · have mem : (e, true) ∈ (s.channelCfg c).shadow.zip (s.machines.arcs.getD c []) :=
        List.mem_of_getElem? (List.getElem?_zip_eq_some.mpr ⟨he, ha⟩)
      exact ⟨e.arc, List.mem_append_right _ (List.mem_map.mpr ⟨_, List.mem_filter.mpr ⟨mem, rfl⟩, rfl⟩), inside⟩

/-! ## Activation (R77) -/

theorem activated_iff {before after : List Bool} : activated before after = true ↔
    ∃ k : Nat, before[k]? = some false ∧ after[k]? = some true := by
  rw [activated, List.any_eq_true]
  constructor
  · rintro ⟨⟨b, a⟩, mem, h⟩
    obtain ⟨k, hk⟩ := List.mem_iff_getElem?.mp mem
    obtain ⟨hb, ha⟩ := List.getElem?_zip_eq_some.mp hk
    simp only [Bool.and_eq_true, Bool.not_eq_true'] at h
    obtain ⟨rfl, rfl⟩ := h
    exact ⟨k, hb, ha⟩
  · rintro ⟨k, hb, ha⟩
    exact ⟨(false, true), List.mem_of_getElem? (List.getElem?_zip_eq_some.mpr ⟨hb, ha⟩), rfl⟩

/-- A sweep engine by its items. -/
theorem Sweep.eq_mk {x : Sweep} {channels : List Channel} {grants : List Grant} {waiting : List Nat} {requested : Bank}
    {sR sF lowRun : Nat} {pressureTimer : Option Nat} (hchannels : x.channels = channels) (hgrants : x.grants = grants)
    (hwaiting : x.waiting = waiting) (hrequested : x.requested = requested) (hsR : x.sR = sR) (hsF : x.sF = sF)
    (hlowRun : x.lowRun = lowRun) (hpressureTimer : x.pressureTimer = pressureTimer) :
    x = ⟨channels, grants, waiting, requested, sR, sF, lowRun, pressureTimer⟩ := by
  subst hchannels hgrants hwaiting hrequested hsR hsF hlowRun hpressureTimer
  rfl

section
variable {s : State} {c : Nat}

/-- The channels noticed at a recomputation are those that gained an ACTIVE arc (R77). -/
theorem State.mem_activatedChannels : c ∈ s.activatedChannels s.derivedArcs ↔
    ∃ k : Nat, (s.machines.arcs.getD c [])[k]? = some false ∧ (s.derivedArcs.getD c [])[k]? = some true := by
  rw [State.activatedChannels, List.mem_filter, List.mem_range, activated_iff]
  refine ⟨fun h => h.2, fun h => ⟨?_, h⟩⟩
  obtain ⟨k, -, ha⟩ := h
  refine Nat.lt_of_not_le (fun hle => ?_)
  rw [List.getD_eq_default _ _ (by simpa [State.derivedArcs] using hle)] at ha
  cases ha

/-- Without a newly ACTIVE arc a recomputation leaves the sweep engine as it was (R77). -/
theorem State.recomputeMachines_of_quiet (h : ∀ c, c ∉ s.activatedChannels s.derivedArcs) :
    s.recomputeMachines = s.rederived := by
  rw [State.recomputeMachines_eq, List.eq_nil_iff_forall_not_mem.mpr h, List.foldl_nil]

/-- A recomputation touches the channels alone of the sweep engine. -/
theorem State.recomputeMachines_sweep (s : State) :
    s.recomputeMachines.sweep = { s.sweep with channels := s.recomputeMachines.sweep.channels } := by
  have within := s.recomputeMachines_within
  have grants := s.recomputeMachines_grants
  have waiting := s.recomputeMachines_waiting
  have requested : s.recomputeMachines.sweep.requested = s.sweep.requested := within.requested
  have sR : s.recomputeMachines.sweep.sR = s.sweep.sR := within.sR
  have sF : s.recomputeMachines.sweep.sF = s.sweep.sF := within.sF
  have lowRun : s.recomputeMachines.sweep.lowRun = s.sweep.lowRun := within.lowRun
  have pressureTimer : s.recomputeMachines.sweep.pressureTimer = s.sweep.pressureTimer := within.pressureTimer
  exact Sweep.eq_mk rfl grants waiting requested sR sF lowRun pressureTimer

end

/-- How channel `c` goes from `s` to `t` at a recomputation: by its notice where it gained an ACTIVE arc and its aim lies inside an
active one, and else as it was (R77, R134). -/
def State.TakesNotice (s t : State) (c : Nat) : Prop :=
  let before := s.channel c
  let noticed := ∃ k : Nat, (s.machines.arcs.getD c [])[k]? = some false ∧ (t.machines.arcs.getD c [])[k]? = some true
  let inside := ∃ a, before.aim = some a ∧ t.inActiveArc c a.1 = true
  (¬ (noticed ∧ inside) → t.channel c = before) ∧
  (noticed → inside →
    (before.state = .spraying → t.channel c = { before with state := .dry, valve := false, dryFlag := true }) ∧
    (∀ k, before.state = .opening → before.cursor = some k →
      t.channel c = { before with
        state := .dry, valve := false, dryFlag := true, valveTimer := none,
        dwellTimer := some ((s.leg c k.leg).dwell * 1000) }) ∧
    (before.state = .slewing → t.channel c = { before with dryFlag := true }) ∧
    (before.state ≠ .spraying → before.state ≠ .opening → before.state ≠ .slewing → t.channel c = before))

section
variable {s t : State} {c : Nat}

/-- With the arcs as they stood there is no notice, and the channel stays. -/
theorem State.TakesNotice.of_same (arcs : t.machines.arcs = s.machines.arcs) (channel : t.channel c = s.channel c) :
    s.TakesNotice t c := by
  refine ⟨fun _ => channel, fun noticed => ?_⟩
  obtain ⟨k, hb, ha⟩ := noticed
  rw [arcs, hb] at ha
  cases ha

/-- The machine list with another list of records, K_f and the arcs recomputed (R73). -/
def State.relisted (s : State) (l : List MachineRecord) : State :=
  (s.setMachines { s.machines with list := l }).recomputeMachines

theorem State.relisted_machines (s : State) (l : List MachineRecord) : (s.relisted l).machines.list = l ∧
    (s.relisted l).machines.refused = s.machines.refused ∧
    (s.relisted l).machines.kf = (List.range s.cfg.faces.length).map (fun i => (s.relisted l).disturbance (i + 1)) ∧
    (s.relisted l).machines.arcs = s.cfg.channels.map (fun ch => ch.shadow.map (fun e =>
      (s.relisted l).machines.list.any (fun m => decide (m.x = e.x) && decide (m.y = e.y)))) := by
  have machines := (s.setMachines { s.machines with list := l }).recomputeMachines_machines
  have cfg : (s.relisted l).cfg = s.cfg := (State.recomputeMachines_within _).only.cfg
  have list : (s.relisted l).machines.list = l := congrArg Machines.list machines
  have refused : (s.relisted l).machines.refused = s.machines.refused := (congrArg Machines.refused machines).trans rfl
  refine ⟨list, refused, (congrArg Machines.kf machines).trans ?_, (congrArg Machines.arcs machines).trans ?_⟩
  · refine List.map_congr_left (fun i _ => ?_)
    simp only [State.disturbance, State.mappedFace, State.factorOf, cfg, list]
    rfl
  · rw [list]
    rfl

theorem State.relisted_takesNotice (s : State) (l : List MachineRecord) (c : Nat) : s.TakesNotice (s.relisted l) c := by
  have arcs : (s.relisted l).machines.arcs = (s.setMachines { s.machines with list := l }).derivedArcs :=
    congrArg Machines.arcs (State.recomputeMachines_machines _)
  have inArc : (s.relisted l).inActiveArc = (s.setMachines { s.machines with list := l }).rederived.inActiveArc :=
    State.Within.inActiveArc_eq (State.recomputeMachines_within _)
  have channel : (s.relisted l).channel c = _ := State.recomputeMachines_channel (s.setMachines { s.machines with list := l }) c
  rw [State.activationNotice_channel_self] at channel
  have noticed : c ∈ (s.setMachines { s.machines with list := l }).activatedChannels
      (s.setMachines { s.machines with list := l }).derivedArcs ↔
      ∃ k : Nat, (s.machines.arcs.getD c [])[k]? = some false ∧ ((s.relisted l).machines.arcs.getD c [])[k]? = some true := by
    rw [State.mem_activatedChannels, arcs]
    rfl
  have inside : (s.setMachines { s.machines with list := l }).rederived.aimsInside c = true ↔
      ∃ a, (s.channel c).aim = some a ∧ (s.relisted l).inActiveArc c a.1 = true := by
    rw [State.aimsInside, Option.any_eq_true, inArc]
    rfl
  have leg (k : Cursor) (hk : (s.channel c).cursor = some k) :
      (s.setMachines { s.machines with list := l }).rederived.currentLeg c = s.leg c k.leg := by
    rw [State.currentLeg, show (s.setMachines { s.machines with list := l }).rederived.channel c = s.channel c from rfl, hk]
    rfl
  refine ⟨fun h => ?_, fun hn hi => ?_⟩
  · by_cases hn : c ∈ (s.setMachines { s.machines with list := l }).activatedChannels
        (s.setMachines { s.machines with list := l }).derivedArcs
    · have hi := mt inside.mp (fun hi => h ⟨noticed.mp hn, hi⟩)
      rw [channel, if_pos hn, if_neg hi]
      rfl
    · rw [channel, if_neg hn]
      rfl
  · have dried : (s.relisted l).channel c =
        (s.channel c).dried ((s.setMachines { s.machines with list := l }).rederived.currentLeg c).dwell := by
      rw [channel, if_pos (noticed.mpr hn), if_pos (inside.mpr hi)]
      rfl
    refine ⟨fun hs => ?_, fun k hs hk => ?_, fun hs => ?_, fun h1 h2 h3 => ?_⟩
    · rw [dried, Channel.dried, hs]
    · rw [dried, Channel.dried, hs, leg k hk]
      rfl
    · rw [dried, Channel.dried, hs]
    · rw [dried, Channel.dried]
      cases hs : (s.channel c).state with
      | spraying => exact absurd hs h1
      | opening => exact absurd hs h2
      | slewing => exact absurd hs h3
      | idle | waiting | dry | denied | windHeld | faulted | hushed => rfl

end

/-! ## A Machine frame (R69, R70) -/

theorem machineAccepted_iff {f : Frame} : machineAccepted f = true ↔ f.payload 0 1 ≤ 2 ∧ f.payload 3 1 ≤ 3 ∧
    ¬ (f.payload 0 1 = 0 ∧ f.payload 3 1 = 3) ∧ ¬ (f.payload 0 1 = 1 ∧ f.payload 3 1 = 2) := by
  simp [machineAccepted, and_assoc, imp_iff_not_or]

section
variable {s : State} {f : Frame}

theorem State.takeMachine_of_odd (h : ¬ machineAccepted f = true) : s.takeMachine f = s := if_neg h

/-- The frame's record is in the list already, or the list has room. -/
theorem State.machineFits_iff : (s.machines.list.any (fun m => m.id == (machineRecord f).id) = true ∨ s.machines.list.length < 8) ↔
    ((∃ m ∈ s.machines.list, m.id = f.sender) ∨ s.machines.list.length < 8) := by
  simp [machineRecord]

theorem State.takeMachine_of_room (h : machineAccepted f = true)
    (room : (∃ m ∈ s.machines.list, m.id = f.sender) ∨ s.machines.list.length < 8) :
    s.takeMachine f = s.relisted (putMachine (machineRecord f) s.machines.list) := by
  unfold State.takeMachine
  dsimp only
  rw [if_pos h, if_pos (State.machineFits_iff.mpr room)]
  rfl

theorem State.takeMachine_of_full (h : machineAccepted f = true)
    (full : ¬ ((∃ m ∈ s.machines.list, m.id = f.sender) ∨ s.machines.list.length < 8)) : s.takeMachine f =
      match oldestMachine s.machines.list with
      | some v => s.relisted (putMachine (machineRecord f) (s.machines.list.filter (fun m => m.id ≠ v.id)))
      | none => s.setMachines { s.machines with refused := bump s.machines.refused } := by
  unfold State.takeMachine
  dsimp only
  rw [if_pos h, if_neg (mt State.machineFits_iff.mp full)]
  rfl

theorem State.takeMachine_of_fresh (h : machineAccepted f = true)
    (full : ¬ ((∃ m ∈ s.machines.list, m.id = f.sender) ∨ s.machines.list.length < 8))
    (fresh : ¬ ∃ m ∈ s.machines.list, m.stale = true) :
    s.takeMachine f = s.setMachines { s.machines with refused := bump s.machines.refused } := by
  have none : oldestMachine s.machines.list = none := by
    rw [oldestMachine_eq, oldestBy_eq_none_iff]
    exact fun m hm => Bool.eq_false_iff.mpr (fun stale => fresh ⟨m, hm, stale⟩)
  rw [State.takeMachine_of_full h full, none]

/-- A full list gives up its STALE record of greatest age and lowest id (R70). -/
theorem State.takeMachine_of_stale (h : machineAccepted f = true)
    (full : ¬ ((∃ m ∈ s.machines.list, m.id = f.sender) ∨ s.machines.list.length < 8))
    (listed : Ascends MachineRecord.id s.machines.list) (stale : ∃ m ∈ s.machines.list, m.stale = true) :
    ∃ v ∈ s.machines.list, v.stale = true ∧ (∀ m ∈ s.machines.list, m.stale = true →
        m.wholeAge < v.wholeAge ∨ (m.wholeAge = v.wholeAge ∧ v.id ≤ m.id)) ∧
      s.takeMachine f = s.relisted (putMachine (machineRecord f) (s.machines.list.filter (fun m => m.id ≠ v.id))) := by
  cases oldest : oldestMachine s.machines.list with
  | none =>
    rw [oldestMachine_eq, oldestBy_eq_none_iff] at oldest
    obtain ⟨m, hm, hs⟩ := stale
    rw [oldest m hm] at hs
    cases hs
  | some v =>
    have spec := oldest
    rw [oldestMachine_eq] at spec
    obtain ⟨hv, old, others⟩ := oldestBy_eq_some listed spec
    exact ⟨v, hv, old, others, by rw [State.takeMachine_of_full h full, oldest]⟩

/-- A Machine frame leaves the arcs and the sweep engine, or it ends in a recomputation. -/
theorem State.takeMachine_shape (s : State) (f : Frame) :
    ((s.takeMachine f).machines.arcs = s.machines.arcs ∧ (s.takeMachine f).sweep = s.sweep) ∨
      ∃ l, s.takeMachine f = s.relisted l := by
  by_cases h : machineAccepted f = true
  · by_cases room : (∃ m ∈ s.machines.list, m.id = f.sender) ∨ s.machines.list.length < 8
    · exact .inr ⟨_, State.takeMachine_of_room h room⟩
    · rw [State.takeMachine_of_full h room]
      cases oldestMachine s.machines.list with
      | some v => exact .inr ⟨_, rfl⟩
      | none => exact .inl ⟨rfl, rfl⟩
  · rw [State.takeMachine_of_odd h]
    exact .inl ⟨rfl, rfl⟩

end

/-- Settles O22: the frame's checks, the list by its cases, and the channels by their notices. -/
theorem dispatchMachineStores : Obligations.DispatchMachineStores := by
  refine ⟨Arc.contains_iff, fun c a s => s.inActiveArc_iff c a, fun f s hw hf hv hk hs lists => ?_⟩
  have listed : Ascends MachineRecord.id s.machines.list := lists.2.2.1.2
  have k := s.takeFree.takeMachine_reaches f
  refine ⟨s.takeFree.takeMachine f,
    State.exec_dispatch (State.after_dispatchMachine s) hw hf hv (ofKind_iff.mpr hk) hs, ?_, ?_, ?_, ?_, ?_, ?_⟩
  · exact State.eq_mk (k .pending (by decide)) (k .cfg (by decide)) (k .station (by decide)) (k .wind (by decide))
      (k .forecast (by decide)) (k .risk (by decide)) (k .fence (by decide)) rfl (k .peers (by decide)) (k .water (by decide))
      rfl (k .line (by decide)) (k .dispatcher (by decide))
  · intro odd
    rw [State.takeMachine_of_odd (mt machineAccepted_iff.mp (by omega))]
    exact ⟨rfl, rfl⟩
  · intro kind activity notStacker notReclaimer r known age stale
    have accepted := machineAccepted_iff.mpr ⟨kind, activity, notStacker, notReclaimer⟩
    refine ⟨fun room => ?_, fun new full old => ?_, fun new full fresh => ?_, fun stored => ?_⟩
    · obtain ⟨list, refused, -, -⟩ := s.takeFree.relisted_machines (putMachine (machineRecord f) s.takeFree.machines.list)
      rw [State.takeMachine_of_room (s := s.takeFree) accepted room]
      refine ⟨refused, fun m => ?_⟩
      rw [list, putMachine_eq]
      exact mem_putBy listed
    · obtain ⟨v, hv, staleV, others, e⟩ :=
        State.takeMachine_of_stale (s := s.takeFree) accepted (not_or.mpr ⟨new, full.ge.not_gt⟩) listed old
      obtain ⟨list, refused, -, -⟩ := s.takeFree.relisted_machines
        (putMachine (machineRecord f) (s.takeFree.machines.list.filter (fun m => m.id ≠ v.id)))
      have kept : Ascends MachineRecord.id (s.machines.list.filter (fun m => m.id ≠ v.id)) := listed.filter _
      rw [e]
      refine ⟨refused, v, hv, staleV, others, fun m => ?_⟩
      have other (hm : m ∈ s.machines.list) : m.id ≠ (machineRecord f).id := fun same => new ⟨m, hm, same⟩
      rw [list, putMachine_eq]
      refine (mem_putBy kept).trans ?_
      rw [List.mem_filter, decide_eq_true_iff]
      exact ⟨Or.imp id And.left, Or.imp id (fun h => ⟨h, other h.1⟩)⟩
    · rw [State.takeMachine_of_fresh (s := s.takeFree) accepted (not_or.mpr ⟨new, full.ge.not_gt⟩) fresh]
      exact ⟨rfl, rfl⟩
    · have relisted : ∃ l, s.takeFree.takeMachine f = s.takeFree.relisted l := by
        by_cases room : known ∨ s.machines.list.length < 8
        · exact ⟨_, State.takeMachine_of_room (s := s.takeFree) accepted room⟩
        · obtain ⟨known', room'⟩ := not_or.mp room
          have old := (stored.resolve_left known').resolve_left room'
          obtain ⟨v, -, -, -, e⟩ := State.takeMachine_of_stale (s := s.takeFree) accepted room listed old
          exact ⟨_, e⟩
      obtain ⟨l, e⟩ := relisted
      obtain ⟨-, -, kf, arcs⟩ := s.takeFree.relisted_machines l
      rw [e]
      exact ⟨kf, arcs⟩
  · obtain ⟨-, sweep⟩ | ⟨l, relisted⟩ := s.takeFree.takeMachine_shape f
    · rw [sweep]
      rfl
    · rw [relisted]
      exact State.recomputeMachines_sweep _
  · obtain ⟨-, sweep⟩ | ⟨l, relisted⟩ := s.takeFree.takeMachine_shape f
    · rw [sweep]
      rfl
    · rw [relisted]
      exact (State.recomputeMachines_within _).length
  · intro c hc
    obtain ⟨arcs, sweep⟩ | ⟨l, relisted⟩ := s.takeFree.takeMachine_shape f
    · exact State.TakesNotice.of_same (s := s) arcs (State.channel_eq_of_channels (congrArg Sweep.channels sweep) c)
    · rw [relisted]
      exact s.takeFree.relisted_takesNotice l c

/-! ## Ageing (R71, R72) -/

section
variable {s : State} {l : List MachineRecord}

/-- Channel `c`'s shadow arcs as the list gives them (R76). -/
theorem State.derivedArcs_getD (s : State) (c : Nat) : s.derivedArcs.getD c [] = (s.channelCfg c).shadow.map s.occupied :=
  List.getD_map s.cfg.channels ChannelCfg.absent (fun ch => ch.shadow.map s.occupied)

/-- Where the arcs were the list's and no more cells are occupied, no arc becomes ACTIVE and no channel is noticed (R77). -/
theorem State.relisted_of_quiet (arcs : s.machines.arcs = s.derivedArcs)
    (fewer : ∀ e, (s.setMachines { s.machines with list := l }).occupied e = true → s.occupied e = true) :
    s.relisted l = (s.setMachines { s.machines with list := l }).rederived := by
  refine State.recomputeMachines_of_quiet (fun c hc => ?_)
  obtain ⟨k, before, after⟩ := State.mem_activatedChannels.mp hc
  rw [show (s.setMachines { s.machines with list := l }).machines.arcs = s.derivedArcs from arcs, State.derivedArcs_getD,
    List.getElem?_map] at before
  rw [State.derivedArcs_getD, List.getElem?_map] at after
  obtain ⟨e, he, inactive⟩ := Option.map_eq_some_iff.mp before
  obtain ⟨e', he', active⟩ := Option.map_eq_some_iff.mp after
  obtain rfl : e = e' := Option.some.inj (he.symm.trans he')
  rw [fewer e active] at inactive
  cases inactive

/-- What an age or a STALE mark does not change: the cells occupied and the factors offered (R74, R76). -/
theorem State.occupied_map {u : MachineRecord → MachineRecord} (hu : ∀ m, (u m).x = m.x ∧ (u m).y = m.y) (e : Shadow) :
    (s.setMachines { s.machines with list := s.machines.list.map u }).occupied e = s.occupied e := by
  simp [State.occupied, List.any_map, Function.comp_def, hu]

theorem State.disturbance_map {u : MachineRecord → MachineRecord}
    (hu : ∀ m, (u m).pile = m.pile ∧ (u m).face = m.face ∧ (u m).activity = m.activity) (face : Nat) :
    (s.setMachines { s.machines with list := s.machines.list.map u }).disturbance face = s.disturbance face := by
  simp [State.disturbance, State.mappedFace, State.factorOf, List.filter_map, Function.comp_def, hu]

theorem MachineRecord.cross_if (id : Nat) (m : MachineRecord) : let u := if m.id = id then m.cross else m
    (u.x = m.x ∧ u.y = m.y) ∧ u.pile = m.pile ∧ u.face = m.face ∧ u.activity = m.activity := by
  dsimp only
  split <;> exact ⟨⟨rfl, rfl⟩, rfl, rfl, rfl⟩

/-- K_f lies at or above 64 and every factor offered, and is one of them (R74). -/
theorem State.disturbance_spec (s : State) (face : Nat) : 64 ≤ s.disturbance face ∧
    (∀ m ∈ s.machines.list, s.mappedFace m = some face → s.factorOf m.activity ≤ s.disturbance face) ∧
    (s.disturbance face = 64 ∨
      ∃ m ∈ s.machines.list, s.mappedFace m = some face ∧ s.disturbance face = s.factorOf m.activity) := by
  refine ⟨?_, fun m hm mapped => ?_, ?_⟩
  · rw [State.disturbance, List.foldl_max]
    exact le_max_left _ _
  · exact le_foldl_max 64 (List.mem_map.mpr ⟨m, List.mem_filter.mpr ⟨hm, decide_eq_true mapped⟩, rfl⟩)
  · refine (foldl_max_eq_or_mem _ 64).imp id (fun mem => ?_)
    obtain ⟨m, hm, e⟩ := List.mem_map.mp mem
    obtain ⟨hm, mapped⟩ := List.mem_filter.mp hm
    exact ⟨m, hm, of_decide_eq_true mapped, e.symm⟩

end

/-- Settles O23: the crossing and the removal as lists with their recomputation, and the largest factor. -/
theorem machinesAge : Obligations.MachinesAge := by
  refine ⟨fun id s due kf arcs => ?_, fun id s h => ?_, fun id s h => ?_, fun id s due => ?_, fun face s => s.disturbance_spec face⟩
  · obtain ⟨m, hm, same, fresh, old⟩ := due
    have any : s.machines.list.any (fun m => m.id == id && m.dueStale) = true :=
      List.any_eq_true.mpr ⟨m, hm, by simp [same, MachineRecord.dueStale, fresh, seconds, old]⟩
    have quiet := State.relisted_of_quiet (s := s) (l := s.machines.list.map (fun m => if m.id = id then m.cross else m)) arcs
      (fun e he => (State.occupied_map (fun m => (MachineRecord.cross_if id m).1) e).symm.trans he)
    have factors : (List.range s.faceCount).map (fun i => (s.setMachines { s.machines with
        list := s.machines.list.map (fun m => if m.id = id then m.cross else m) }).disturbance (i + 1)) = s.machines.kf := by
      rw [kf]
      exact List.map_congr_left (fun i _ => State.disturbance_map (fun m => (MachineRecord.cross_if id m).2) _)
    have cells : (s.setMachines { s.machines with
        list := s.machines.list.map (fun m => if m.id = id then m.cross else m) }).derivedArcs = s.machines.arcs := by
      rw [arcs]
      exact List.map_congr_left (fun ch _ => List.map_congr_left
        (fun e _ => State.occupied_map (fun m => (MachineRecord.cross_if id m).1) e))
    rw [exec_eq_after, State.after_machineStaleCrossing, if_pos any, ← State.relisted, quiet, State.rederived, cells]
    exact congrArg (fun kf => Host.Outcome.next (s.setMachines { s.machines with
      list := s.machines.list.map (fun m => if m.id = id then m.cross else m), kf := kf })) factors
  · rw [exec_eq_after, State.after_machineStaleCrossing, if_neg]
    rw [List.any_eq_true]
    rintro ⟨m, hm, due⟩
    obtain ⟨same, due⟩ := Bool.and_eq_true_iff.mp due
    obtain ⟨fresh, old⟩ := Bool.and_eq_true_iff.mp due
    obtain stale | young := h m hm (beq_iff_eq.mp same)
    · rw [stale] at fresh
      cases fresh
    · exact absurd (of_decide_eq_true old) (Nat.not_le.mpr young)
  · rw [exec_eq_after, State.after_machineRemoval, if_neg]
    rw [List.any_eq_true]
    rintro ⟨m, hm, due⟩
    obtain ⟨same, old⟩ := Bool.and_eq_true_iff.mp due
    exact absurd (of_decide_eq_true old) (Nat.not_le.mpr (h m hm (beq_iff_eq.mp same)))
  · obtain ⟨m, hm, same, old⟩ := due
    have any : s.machines.list.any (fun m => m.id == id && m.dueRemoval) = true :=
      List.any_eq_true.mpr ⟨m, hm, by simp [same, MachineRecord.dueRemoval, seconds, old]⟩
    obtain ⟨list, refused, kf, arcs⟩ := s.relisted_machines (s.machines.list.filter (fun m => m.id ≠ id))
    refine ⟨s.relisted (s.machines.list.filter (fun m => m.id ≠ id)), ?_, ?_, list, refused, fun stood => ?_, kf, arcs⟩
    · rw [exec_eq_after, State.after_machineRemoval, if_pos any]
      rfl
    · have k := s.setMachines_recomputeMachines_reaches { s.machines with list := s.machines.list.filter (fun m => m.id ≠ id) }
      exact State.eq_mk (k .pending (by decide)) (k .cfg (by decide)) (k .station (by decide)) (k .wind (by decide))
        (k .forecast (by decide)) (k .risk (by decide)) (k .fence (by decide)) rfl (k .peers (by decide)) (k .water (by decide))
        rfl (k .line (by decide)) (k .dispatcher (by decide))
    · rw [State.relisted_of_quiet stood]
      · rfl
      · intro e he
        obtain ⟨m, hm, cell⟩ := List.any_eq_true.mp he
        exact List.any_eq_true.mpr ⟨m, List.mem_of_mem_filter hm, cell⟩

end Sys2Proof.Machine
end

