-- ==== Sys2Proof/Proofs/PeerTable.lean ====
section
/-! The peer table: what a Report frame, a stale crossing and a removal leave (O24, O25). -/

namespace Sys2Proof.Machine

section
variable {s : State} {f : Frame} {l : List Peer}

/-- The peer table with another list of records, the shares computed anew (R88). -/
def State.retabled (s : State) (l : List Peer) : State := (s.setPeerList l).shareComputation

theorem State.retabled_peers (s : State) (l : List Peer) : (s.retabled l).peers = { s.peers with list := l } :=
  (State.shareComputation_peers _).trans rfl

theorem State.retabled_waterAlike (s : State) (l : List Peer) : s.WaterAlike (s.retabled l) :=
  (s.setPeerList l).shareComputation_waterAlike

theorem State.retabled_shares (s : State) (l : List Peer) : (s.retabled l).water.sR = (s.setPeerList l).reuseShare ∧
    (s.retabled l).water.sF = (s.setPeerList l).freshShare :=
  ⟨State.shareComputation_sR _, State.shareComputation_sF _⟩

/-! ## A Report frame (R81 to R84) -/

theorem reportAccepted_iff : reportAccepted f = true ↔ f.payload 0 1 ≠ 0 ∧ f.payload 1 1 ≤ 3 ∧ f.payload 9 1 ≤ 4 := by
  simp [reportAccepted, and_assoc]

/-- An update that changes no sum and no currency sends no notice (R82). -/
theorem Peer.changes_eq_false_iff {p r : Peer} : p.changes r = false ↔
    p.stale = false ∧ p.claimR = r.claimR ∧ p.claimF = r.claimF ∧ p.w = r.w ∧ p.hw = r.hw := by
  simp [Peer.changes, and_assoc]

theorem State.takeReport_of_odd (h : ¬ reportAccepted f = true) : s.takeReport f = s := if_neg h

/-- The records of a frame's sender: one of them, the table standing in ascending id (6.1). -/
theorem State.sender_unique (hl : Ascends Peer.id s.peers.list) {p q : Peer} (hp : p ∈ s.peers.list) (hq : q ∈ s.peers.list)
    (h : p.id = q.id) : p = q := by
  have nodup : (s.peers.list.map Peer.id).Nodup := List.Pairwise.map _ (fun _ _ lt => Nat.ne_of_lt lt) hl
  exact List.inj_on_of_nodup_map nodup hp hq h

theorem State.takeReport_of_known (h : reportAccepted f = true) (hl : Ascends Peer.id s.peers.list) {p : Peer}
    (hp : p ∈ s.peers.list) (id : p.id = f.sender) : s.takeReport f =
      if p.changes (peerRecord f) then s.retabled (putPeer (peerRecord f) s.peers.list)
      else s.setPeerList (putPeer (peerRecord f) s.peers.list) := by
  have found : s.peers.list.find? (fun q => q.id == (peerRecord f).id) = some p := by
    obtain ⟨q, hq⟩ := Option.isSome_iff_exists.mp (List.find?_isSome (p := fun q => q.id == (peerRecord f).id).mpr
      ⟨p, hp, beq_iff_eq.mpr id⟩)
    have ours := List.find?_some hq
    have same : q.id = p.id := (beq_iff_eq.mp ours).trans id.symm
    rw [hq, State.sender_unique hl (List.mem_of_find?_eq_some hq) hp same]
  unfold State.takeReport
  dsimp only
  rw [if_pos h, found]
  rfl

theorem State.takeReport_of_new (h : reportAccepted f = true) (new : ¬ ∃ p ∈ s.peers.list, p.id = f.sender) : s.takeReport f =
    if s.peers.list.length < 32 then s.retabled (putPeer (peerRecord f) s.peers.list)
    else
      match oldestPeer s.peers.list with
      | some v => s.retabled (putPeer (peerRecord f) (s.peers.list.filter (fun p => p.id ≠ v.id)))
      | none => s.setPeers { s.peers with refused := bump s.peers.refused } := by
  have none : s.peers.list.find? (fun p => p.id == (peerRecord f).id) = none :=
    List.find?_eq_none.mpr (fun p hp same => new ⟨p, hp, beq_iff_eq.mp same⟩)
  unfold State.takeReport
  dsimp only
  rw [if_pos h, none]
  rfl

theorem State.takeReport_of_room (h : reportAccepted f = true) (new : ¬ ∃ p ∈ s.peers.list, p.id = f.sender)
    (room : s.peers.list.length < 32) : s.takeReport f = s.retabled (putPeer (peerRecord f) s.peers.list) := by
  rw [State.takeReport_of_new h new, if_pos room]

theorem State.takeReport_of_fresh (h : reportAccepted f = true) (new : ¬ ∃ p ∈ s.peers.list, p.id = f.sender)
    (full : ¬ s.peers.list.length < 32) (fresh : ¬ ∃ p ∈ s.peers.list, p.stale = true) :
    s.takeReport f = s.setPeers { s.peers with refused := bump s.peers.refused } := by
  have none : oldestPeer s.peers.list = none := by
    rw [oldestPeer_eq, oldestBy_eq_none_iff]
    exact fun p hp => Bool.eq_false_iff.mpr (fun stale => fresh ⟨p, hp, stale⟩)
  rw [State.takeReport_of_new h new, if_neg full, none]

/-- A full table gives up its STALE record of greatest age and lowest id (R84). -/
theorem State.takeReport_of_stale (h : reportAccepted f = true) (new : ¬ ∃ p ∈ s.peers.list, p.id = f.sender)
    (full : ¬ s.peers.list.length < 32) (hl : Ascends Peer.id s.peers.list) (stale : ∃ p ∈ s.peers.list, p.stale = true) :
    ∃ v ∈ s.peers.list, v.stale = true ∧ (∀ p ∈ s.peers.list, p.stale = true →
        p.age / 1000 < v.age / 1000 ∨ (p.age / 1000 = v.age / 1000 ∧ v.id ≤ p.id)) ∧
      s.takeReport f = s.retabled (putPeer (peerRecord f) (s.peers.list.filter (fun p => p.id ≠ v.id))) := by
  cases oldest : oldestPeer s.peers.list with
  | none =>
    rw [oldestPeer_eq, oldestBy_eq_none_iff] at oldest
    obtain ⟨p, hp, hs⟩ := stale
    rw [oldest p hp] at hs
    cases hs
  | some v =>
    have spec := oldest
    rw [oldestPeer_eq] at spec
    obtain ⟨hv, old, others⟩ := oldestBy_eq_some hl spec
    exact ⟨v, hv, old, others, by rw [State.takeReport_of_new h new, if_neg full, oldest]⟩

/-- What a Report frame may leave. -/
theorem State.takeReport_shape (s : State) (f : Frame) : ((s.takeReport f).sweep = s.sweep ∧ (s.takeReport f).water = s.water) ∨
    ∃ l, s.takeReport f = s.retabled l := by
  unfold State.takeReport
  dsimp only
  split
  · split
    · split
      · exact .inr ⟨_, rfl⟩
      · exact .inl ⟨rfl, rfl⟩
    · split
      · exact .inr ⟨_, rfl⟩
      · split
        · exact .inr ⟨_, rfl⟩
        · exact .inl ⟨rfl, rfl⟩
  · exact .inl ⟨rfl, rfl⟩

theorem State.takeReport_waterAlike (s : State) (f : Frame) : s.WaterAlike (s.takeReport f) := by
  obtain ⟨-, water⟩ | ⟨l, retabled⟩ := s.takeReport_shape f
  · exact ⟨_, _, _, water⟩
  · rw [retabled]
    exact s.retabled_waterAlike l

end

/-- Settles O24: the frame's checks, the table by its cases, and the shares by the change notice. -/
theorem dispatchReportStores : Obligations.DispatchReportStores := by
  intro f s hw hf hv hk hs lists
  have listed : Ascends Peer.id s.peers.list := lists.2.1.2
  have k := s.takeFree.takeReport_reaches f
  refine ⟨s.takeFree.takeReport f, State.exec_dispatch (State.after_dispatchReport s) hw hf hv (ofKind_iff.mpr hk) hs, ?_, ?_, ?_⟩
  · exact State.eq_mk (k .pending (by decide)) (k .cfg (by decide)) (k .station (by decide)) (k .wind (by decide))
      (k .forecast (by decide)) (k .risk (by decide)) (k .fence (by decide)) (k .machines (by decide)) rfl
      (s.takeFree.takeReport_waterAlike f).eq rfl (k .line (by decide)) (k .dispatcher (by decide))
  · intro odd
    rw [State.takeReport_of_odd (mt reportAccepted_iff.mp (by omega))]
    exact ⟨rfl, rfl, rfl⟩
  · intro period mode source r known stale
    have accepted := reportAccepted_iff.mpr ⟨period, mode, source⟩
    have putList (l : List Peer) (hl : Ascends Peer.id l) (p : Peer) :
        p ∈ putPeer (peerRecord f) l ↔ p = r ∨ (p ∈ l ∧ p.id ≠ f.sender) := by
      rw [putPeer_eq]
      exact mem_putBy hl
    refine ⟨fun room => ?_, fun new full old => ?_, fun new full fresh => ?_, fun p hp id current cr cf w hw' => ?_,
      fun changed stored => ?_⟩
    · have put : (s.takeFree.takeReport f).peers = { s.peers with list := putPeer (peerRecord f) s.peers.list } := by
        by_cases known' : known
        · obtain ⟨p, hp, id⟩ := known'
          rw [State.takeReport_of_known (s := s.takeFree) accepted listed hp id]
          split
          · exact s.takeFree.retabled_peers _
          · rfl
        · rw [State.takeReport_of_room (s := s.takeFree) accepted known' (room.resolve_left known')]
          exact s.takeFree.retabled_peers _
      rw [put]
      exact ⟨rfl, putList _ listed⟩
    · obtain ⟨v, hv, staleV, others, e⟩ := State.takeReport_of_stale (s := s.takeFree) accepted new full.ge.not_gt listed old
      rw [e, State.retabled_peers]
      refine ⟨rfl, v, hv, staleV, others, fun p => ?_⟩
      refine (putList _ (listed.filter _) p).trans ?_
      rw [List.mem_filter, decide_eq_true_iff]
      exact ⟨Or.imp id And.left, Or.imp id (fun h => ⟨h, fun same => new ⟨p, h.1, same⟩⟩)⟩
    · rw [State.takeReport_of_fresh (s := s.takeFree) accepted new full.ge.not_gt fresh]
      exact ⟨rfl, rfl, rfl⟩
    · have still : p.changes (peerRecord f) = false := Peer.changes_eq_false_iff.mpr ⟨current, cr, cf, w, hw'⟩
      rw [State.takeReport_of_known (s := s.takeFree) accepted listed hp id, still]
      exact ⟨rfl, rfl⟩
    · have retabled : ∃ l, s.takeFree.takeReport f = s.takeFree.retabled l := by
        by_cases known' : known
        · obtain ⟨p, hp, id⟩ := known'
          have notice : p.changes (peerRecord f) = true := by
            by_contra still
            obtain ⟨current, cr, cf, w, hw'⟩ := Peer.changes_eq_false_iff.mp (Bool.eq_false_iff.mpr still)
            obtain c | c | c | c | c := changed p hp id
            · rw [current] at c
              cases c
            · exact c cr
            · exact c cf
            · exact c w
            · exact c hw'
          exact ⟨_, (State.takeReport_of_known (s := s.takeFree) accepted listed hp id).trans (if_pos notice)⟩
        · by_cases room : s.peers.list.length < 32
          · exact ⟨_, State.takeReport_of_room (s := s.takeFree) accepted known' room⟩
          · have old := (stored.resolve_left known').resolve_left room
            obtain ⟨v, -, -, -, e⟩ := State.takeReport_of_stale (s := s.takeFree) accepted known' room listed old
            exact ⟨_, e⟩
      obtain ⟨l, e⟩ := retabled
      rw [e, State.retabled_peers]
      exact s.takeFree.retabled_shares l

/-! ## Ageing (R85, R86) -/

section
variable {s : State}

/-- What a STALE mark does not change: the sums that the shares are computed from (R89). -/
theorem State.shares_map {u : Peer → Peer}
    (hu : ∀ p, (u p).claimR = p.claimR ∧ (u p).claimF = p.claimF ∧ (u p).w = p.w ∧ (u p).hw = p.hw) :
    (s.setPeerList (s.peers.list.map u)).reuseShare = s.reuseShare ∧
      (s.setPeerList (s.peers.list.map u)).freshShare = s.freshShare := by
  have sums : (s.setPeerList (s.peers.list.map u)).claimSum = s.claimSum ∧
      (s.setPeerList (s.peers.list.map u)).wSum = s.wSum ∧ (s.setPeerList (s.peers.list.map u)).hwSum = s.hwSum := by
    simp [State.claimSum, State.wSum, State.hwSum, State.setPeerList, Function.comp_def, hu]
  obtain ⟨claims, w, hw⟩ := sums
  constructor
  · rw [State.reuseShare, State.availableReuse, State.unaccounted, State.believedDraw, claims, w]
    rfl
  · rw [State.freshShare, hw]
    rfl

theorem Peer.cross_if (id : Nat) (p : Peer) : let u := if p.id = id then p.cross else p
    u.claimR = p.claimR ∧ u.claimF = p.claimF ∧ u.w = p.w ∧ u.hw = p.hw := by
  dsimp only
  split <;> exact ⟨rfl, rfl, rfl, rfl⟩

/-- What a change of the table with its notice leaves (R88). -/
theorem State.retabled_eq (s : State) (l : List Peer) : s.retabled l = { s with
    peers := { s.peers with list := l }, sweep := (s.retabled l).sweep,
    water := { s.water with
      sR := (s.retabled l).water.sR, sF := (s.retabled l).water.sF, gtNotices := (s.retabled l).water.gtNotices } } := by
  have k := s.setPeerList_shareComputation_reaches l
  exact State.eq_mk (k .pending (by decide)) (k .cfg (by decide)) (k .station (by decide)) (k .wind (by decide))
    (k .forecast (by decide)) (k .risk (by decide)) (k .fence (by decide)) (k .machines (by decide)) (s.retabled_peers l)
    (s.retabled_waterAlike l).eq rfl (k .line (by decide)) (k .dispatcher (by decide))

end

/-- Settles O25: the crossing and the removal by their conditions, each with its change notice. -/
theorem peersAge : Obligations.PeersAge := by
  refine ⟨fun id s h => ?_, fun id s h => ?_, fun id s due => ?_, fun id s due => ?_⟩
  · rw [exec_eq_after, State.after_peerStaleCrossing, if_neg]
    rw [List.any_eq_true]
    rintro ⟨p, hp, due⟩
    obtain ⟨same, due⟩ := Bool.and_eq_true_iff.mp due
    obtain ⟨fresh, old⟩ := Bool.and_eq_true_iff.mp due
    obtain stale | young := h p hp (beq_iff_eq.mp same)
    · rw [stale] at fresh
      cases fresh
    · exact absurd (of_decide_eq_true old) (Nat.not_le.mpr young)
  · rw [exec_eq_after, State.after_peerRemoval, if_neg]
    rw [List.any_eq_true]
    rintro ⟨p, hp, due⟩
    obtain ⟨same, old⟩ := Bool.and_eq_true_iff.mp due
    exact absurd (of_decide_eq_true old) (Nat.not_le.mpr (h p hp (beq_iff_eq.mp same)))
  · obtain ⟨p, hp, same, fresh, old⟩ := due
    have any : s.peers.list.any (fun p => p.id == id && p.dueStale) = true :=
      List.any_eq_true.mpr ⟨p, hp, by simp [same, Peer.dueStale, fresh, seconds, old]⟩
    obtain ⟨sR, sF⟩ := s.retabled_shares (s.peers.list.map (fun p => if p.id = id then p.cross else p))
    obtain ⟨sameR, sameF⟩ := State.shares_map (s := s) (u := fun p => if p.id = id then p.cross else p) (Peer.cross_if id)
    refine ⟨s.retabled (s.peers.list.map (fun p => if p.id = id then p.cross else p)), ?_, s.retabled_eq _, ?_, ?_⟩
    · rw [exec_eq_after, State.after_peerStaleCrossing, if_pos any]
      rfl
    · rw [sR, sameR]
    · rw [sF, sameF]
  · obtain ⟨p, hp, same, old⟩ := due
    have any : s.peers.list.any (fun p => p.id == id && p.dueRemoval) = true :=
      List.any_eq_true.mpr ⟨p, hp, by simp [same, Peer.dueRemoval, seconds, old]⟩
    refine ⟨s.retabled (s.peers.list.filter (fun p => p.id ≠ id)), ?_,
      s.retabled_eq (s.peers.list.filter (fun p => p.id ≠ id)), ?_⟩
    · rw [exec_eq_after, State.after_peerRemoval, if_pos any]
      rfl
    · rw [State.retabled_peers]
      exact s.retabled_shares _

end Sys2Proof.Machine
end

