-- ==== Sys2Proof/Proofs/WaterShare.lean ====
section
/-! The water share unit: a G_t notice, a Pond frame and the pond's silence (O26, O27), and a flow pulse (O28). -/

namespace Sys2Proof.Machine

section
variable {s t : State}

/-- What a share computation leaves: the shares, the sweep engine and the notices (R99, R105). -/
theorem State.shareComputation_eq (s : State) : s.shareComputation = { s with
    sweep := s.shareComputation.sweep,
    water := { s.water with
      sR := s.shareComputation.water.sR, sF := s.shareComputation.water.sF,
      gtNotices := s.shareComputation.water.gtNotices } } := by
  have k := State.shareComputation_reaches s
  exact State.eq_mk (k .pending (by decide)) (k .cfg (by decide)) (k .station (by decide)) (k .wind (by decide))
    (k .forecast (by decide)) (k .risk (by decide)) (k .fence (by decide)) (k .machines (by decide)) (k .peers (by decide))
    s.shareComputation_waterAlike.eq rfl (k .line (by decide)) (k .dispatcher (by decide))

/-- The shares that the sweep engine holds after a computation are those of the water share unit (R105). -/
theorem State.shareComputation_handed (s : State) : s.shareComputation.sweep.sR = s.shareComputation.water.sR ∧
    s.shareComputation.sweep.sF = s.shareComputation.water.sF := by
  obtain ⟨sR, sF⟩ := s.shareComputation_held
  rw [sR, sF, State.shareComputation_sR, State.shareComputation_sF]
  exact ⟨rfl, rfl⟩

/-- A computation's notices come on top of those waiting (R127). -/
theorem State.shareComputation_notices (s : State) : s.water.gtNotices ≤ s.shareComputation.water.gtNotices :=
  ((s.setWater { s.water with sR := s.reuseShare, sF := s.freshShare }).handOver_within s.reuseShare s.freshShare).notices

/-- The shares read nothing of the water share unit but the pond's figures. -/
theorem State.shares_setWater {x y : Water} (cR : x.cR = y.cR) (cF : x.cF = y.cF) (dM : x.dM = y.dM)
    (turbidity : x.turbidity = y.turbidity) (lowLow : x.lowLow = y.lowLow) (s : State) :
    (s.setWater x).reuseShare = (s.setWater y).reuseShare ∧ (s.setWater x).freshShare = (s.setWater y).freshShare := by
  have usable : (s.setWater x).usableReuse = (s.setWater y).usableReuse := by
    simp only [State.usableReuse, State.setWater_water, cR, turbidity, lowLow]
    rfl
  constructor
  · simp only [State.reuseShare, State.availableReuse, State.unaccounted, State.setWater_water, usable, dM]
    rfl
  · simp only [State.freshShare, State.setWater_water, cF]
    rfl

/-- A share lies within its amount, and is all of it for the only weight (R103, R104). -/
theorem shareByWeight_le (amount own others : Nat) : shareByWeight amount own others ≤ amount := by
  unfold shareByWeight
  split
  · exact Nat.zero_le _
  · refine Nat.div_le_of_le_mul ?_
    rw [Nat.mul_comm (own + others)]
    exact Nat.mul_le_mul_left _ (Nat.le_add_right _ _)

theorem shareByWeight_alone {amount own : Nat} (h : own ≠ 0) : shareByWeight amount own 0 = amount := by
  rw [shareByWeight, if_neg h, Nat.add_zero, Nat.mul_div_cancel _ (Nat.pos_of_ne_zero h)]

/-- The available reuse lies within the pond's reuse capacity (R100 to R102). -/
theorem State.availableReuse_le (s : State) : s.availableReuse ≤ s.water.cR := by
  have usable : s.usableReuse ≤ s.water.cR := by
    unfold State.usableReuse
    split
    · exact Nat.zero_le _
    · exact le_rfl
  have reserved : s.usableReuse * (100 - s.cfg.reserve) / 100 ≤ s.usableReuse := by
    refine Nat.div_le_of_le_mul ?_
    rw [Nat.mul_comm]
    exact Nat.mul_le_mul_right _ (Nat.sub_le _ _)
  exact ((Nat.sub_le _ _).trans reserved).trans usable

/-- A computation from other pond figures: the water share unit takes them and the shares they give, handed over (R96, R97, R105). -/
theorem State.setWater_shareComputation (s : State) (x : Water) :
    (s.setWater x).shareComputation = { s with
      sweep := (s.setWater x).shareComputation.sweep,
      water := { x with
        sR := (s.setWater x).shareComputation.water.sR, sF := (s.setWater x).shareComputation.water.sF,
        gtNotices := (s.setWater x).shareComputation.water.gtNotices } } ∧
    (s.setWater x).shareComputation.water.sR = (s.setWater (s.setWater x).shareComputation.water).reuseShare ∧
    (s.setWater x).shareComputation.water.sF = (s.setWater (s.setWater x).shareComputation.water).freshShare ∧
    (s.setWater x).shareComputation.sweep.sR = (s.setWater x).shareComputation.water.sR ∧
    (s.setWater x).shareComputation.sweep.sF = (s.setWater x).shareComputation.water.sF := by
  have water := congrArg State.water (State.shareComputation_eq (s.setWater x))
  obtain ⟨reuse, fresh⟩ := State.shares_setWater (x := (s.setWater x).shareComputation.water) (y := x)
    (by rw [water]; rfl) (by rw [water]; rfl) (by rw [water]; rfl) (by rw [water]; rfl) (by rw [water]; rfl) s
  refine ⟨State.shareComputation_eq (s.setWater x), ?_, ?_, State.shareComputation_handed _⟩
  · rw [State.shareComputation_sR, reuse]
  · rw [State.shareComputation_sF, fresh]

end

/-- Settles O26: the five steps, and the shares handed over. -/
theorem gtNoticeComputesShares : Obligations.GtNoticeComputesShares := by
  intro s waiting usable believed available
  let u := s.setWater { s.water with gtNotices := s.water.gtNotices - 1 }
  have reuse : u.shareComputation.water.sR = shareByWeight available s.risk.w s.wSum := State.shareComputation_sR u
  have fresh : u.shareComputation.water.sF = shareByWeight s.water.cF s.risk.hw s.hwSum := State.shareComputation_sF u
  refine ⟨u.shareComputation, ?_, State.shareComputation_eq u, reuse, fresh, u.shareComputation_handed.1,
    u.shareComputation_handed.2, u.shareComputation_notices, ?_, s.availableReuse_le, ?_, ?_⟩
  · rw [exec_eq_after, State.after_gtNotice, if_pos waiting]
  · rw [reuse]
    exact shareByWeight_le _ _ _
  · rw [fresh]
    exact shareByWeight_le _ _ _
  · intro alone weight
    rw [reuse, State.wSum, alone, shareByWeight_alone weight]

/-- Settles O27: what the pond says, or its silence, and the computation that follows. -/
theorem pondIsStoredAndHalved : Obligations.PondIsStoredAndHalved := by
  refine ⟨?_, ?_, ?_, ?_⟩
  · intro f s works oldest valid kind sender followed
    refine ⟨s.takeFree.takePond f, ?_, ?_⟩
    · exact State.exec_dispatch (State.after_dispatchPond s) works oldest valid (ofKind_iff.mpr kind) sender
    · unfold State.takePond
      rw [if_pos (show f.sender = s.takeFree.cfg.pond from followed)]
      exact s.takeFree.setWater_shareComputation _
  · intro f s works oldest valid kind sender other
    refine ⟨s.takeFree.takePond f, ?_, ?_⟩
    · exact State.exec_dispatch (State.after_dispatchPond s) works oldest valid (ofKind_iff.mpr kind) sender
    · unfold State.takePond
      rw [if_neg (show ¬ f.sender = s.takeFree.cfg.pond from other)]
      rfl
  · intro s timer
    rw [exec_eq_after, State.after_pondSilenceExpiry, if_neg timer]
  · intro s timer
    refine ⟨s.pondFallsSilent, ?_, ?_⟩
    · rw [exec_eq_after, State.after_pondSilenceExpiry, if_pos timer]
    · exact s.setWater_shareComputation _

section
variable {litres remainder weight : Nat}

/-- A volume below its ceiling takes the weight, ten tenths to the litre; at the ceiling it stands (R109). -/
theorem addVolume_spec :
    (litres < 4294967295 →
      (addVolume litres remainder weight).1 = min 4294967295 (litres + (remainder + weight) / 10)) ∧
    (litres < 4294967295 → litres + (remainder + weight) / 10 ≤ 4294967295 →
      (addVolume litres remainder weight).2 = (remainder + weight) % 10) ∧
    (litres = 4294967295 →
      (addVolume litres remainder weight).1 = 4294967295 ∧ (addVolume litres remainder weight).2 = remainder) := by
  unfold addVolume volumeCeiling
  refine ⟨fun below => ?_, fun below _ => ?_, fun full => ?_⟩
  · rw [if_neg (Nat.not_le.mpr below)]
  · rw [if_neg (Nat.not_le.mpr below)]
  · rw [if_pos full.ge]
    exact ⟨full, rfl⟩

end

section
variable {s : State} {weight : Nat}

/-- A pulse moves the volumes as its notice does (R136). -/
theorem State.takePulse_water (s : State) (c : Nat) :
    (s.takePulse c).water = (s.volumeNotice (s.channelCfg c).weight (s.pulseFund c)).water := by
  unfold State.takePulse
  cases (s.channel c).lastFace <;> rfl

/-- The credit of a pulse, a face's gain by the last spray face of its channel (R52). -/
theorem State.takePulse_faces (s : State) (c : Nat) : (s.takePulse c).risk.faces =
    match (s.channel c).lastFace with
    | none => s.risk.faces
    | some face => s.risk.faces.modify (face - 1)
        (fun r => { r with moisture := min 4095 (r.moisture + (s.channelCfg c).weight * (s.faceCfg face).gain / 10) }) := by
  unfold State.takePulse
  have risk : ∀ fund, (s.volumeNotice (s.channelCfg c).weight fund).risk = s.risk := fun fund => by cases fund <;> rfl
  have cfg : ∀ fund, (s.volumeNotice (s.channelCfg c).weight fund).cfg = s.cfg := fun fund => by cases fund <;> rfl
  cases (s.channel c).lastFace with
  | none => exact congrArg Risk.faces (risk _)
  | some face =>
    dsimp only [State.creditNotice, State.setRisk_risk, State.faceCfg]
    rw [risk, cfg]

/-- A pulse moves the volumes and the moistures alone (R136). -/
theorem State.takePulse_eq (s : State) (c : Nat) : s.takePulse c = { s with
    water := { s.water with
      reuse := (s.takePulse c).water.reuse, reuseRem := (s.takePulse c).water.reuseRem,
      fresh := (s.takePulse c).water.fresh, freshRem := (s.takePulse c).water.freshRem },
    risk := { s.risk with faces := (s.takePulse c).risk.faces } } := by
  unfold State.takePulse
  cases (s.channel c).lastFace <;> cases s.pulseFund c <;> rfl

end

/-- Settles O28: the volumes by the fund of the pulse, the moistures by the last spray face. -/
theorem flowPulseCreditsWater : Obligations.FlowPulseCreditsWater := by
  intro c s works configured fund weight
  have pulseFund : s.pulseFund c = fund := rfl
  refine ⟨s.takePulse c, ?_, s.takePulse_eq c, fun reuse => ?_, fun fresh => ?_, fun none => ?_, fun face last first => ?_⟩
  · rw [exec_eq_after, State.after_flowPulse, if_pos ⟨works, configured⟩]
  · rw [s.takePulse_water, pulseFund, reuse]
    exact ⟨rfl, rfl, addVolume_spec⟩
  · rw [s.takePulse_water, pulseFund, fresh]
    exact ⟨rfl, rfl, addVolume_spec⟩
  · rw [s.takePulse_faces, none]
  · rw [s.takePulse_faces, last]
    refine ⟨List.length_modify .., fun i r at_i => ?_⟩
    simp only [List.getElem?_modify, at_i, Nat.sub_eq_iff_eq_add first, @eq_comm _ face]
    split <;> rfl

end Sys2Proof.Machine
end

