-- ==== Sys2Proof/Proofs/Aims.lean ====
section
/-! Where a cannon aims: the RING index (O36) and the crosswind bias (O37). -/

namespace Sys2Proof.Machine

/-! ## The RING index -/

/-- An index within a leg's RING band (R118). -/
def Leg.InBand (g : Leg) (index : Nat) : Prop := g.ringBase ≤ index ∧ index < g.ringBase + g.ringLength

section
variable {g : Leg} {index : Nat}

/-- A stride shorter than the band stays in the band, `ringStride` further round it, and wraps where it would leave it (R118). -/
theorem Leg.stride_spec (short : g.ringStride.natAbs < g.ringLength) (h : g.InBand index) :
    g.InBand (g.stride index).1 ∧
    ((g.stride index).1 : Int) = g.ringBase + ((index : Int) - g.ringBase + g.ringStride) % g.ringLength ∧
    ((g.stride index).2 = true ↔
      (index : Int) + g.ringStride < g.ringBase ∨ (g.ringBase : Int) + g.ringLength ≤ (index : Int) + g.ringStride) := by
  obtain ⟨low, high⟩ := h
  unfold Leg.stride Leg.InBand
  dsimp only
  split
  next past =>
    have walk : ((index : Int) - g.ringBase + g.ringStride) % g.ringLength =
        (index : Int) - g.ringBase + g.ringStride - g.ringLength := by
      rw [← Int.sub_emod_right, Int.emod_eq_of_lt] <;> omega
    refine ⟨by omega, by rw [walk]; omega, ?_⟩
    simp only [true_iff]
    omega
  next within =>
    split
    next under =>
      have walk : ((index : Int) - g.ringBase + g.ringStride) % g.ringLength =
          (index : Int) - g.ringBase + g.ringStride + g.ringLength := by
        rw [← Int.add_emod_right, Int.emod_eq_of_lt] <;> omega
      refine ⟨by omega, by rw [walk]; omega, ?_⟩
      simp only [true_iff]
      omega
    next =>
      have walk : ((index : Int) - g.ringBase + g.ringStride) % g.ringLength = (index : Int) - g.ringBase + g.ringStride := by
        rw [Int.emod_eq_of_lt] <;> omega
      refine ⟨by omega, by rw [walk]; omega, ?_⟩
      simp only [Bool.false_eq_true, false_iff]
      omega

/-- `n` strides go `n` times the stride round the band. -/
theorem Leg.stride_iterate (short : g.ringStride.natAbs < g.ringLength) (h : g.InBand index) (n : Nat) :
    g.InBand ((fun i => (g.stride i).1)^[n] index) ∧
    (((fun i => (g.stride i).1)^[n] index : Nat) : Int) =
      g.ringBase + ((index : Int) - g.ringBase + n * g.ringStride) % g.ringLength := by
  induction n with
  | zero =>
    obtain ⟨low, high⟩ := h
    refine ⟨⟨low, high⟩, ?_⟩
    rw [Function.iterate_zero, id_eq, Int.emod_eq_of_lt] <;> omega
  | succ n ih =>
    rw [Function.iterate_succ_apply']
    obtain ⟨inBand, place⟩ := ih
    obtain ⟨next, moved, _⟩ := Leg.stride_spec short inBand
    refine ⟨next, ?_⟩
    rw [moved, place, add_sub_cancel_left, Int.emod_add_emod]
    congr 2
    push_cast
    ring

/-- Multiples of a stride coprime to the length fall on every residue, within `length` of them. -/
theorem exists_lt_mul_emod_eq {stride : Int} {length : Nat} (positive : 0 < length)
    (coprime : Nat.Coprime stride.natAbs length) (d : Int) :
    ∃ n, n < length ∧ ((n : Int) * stride) % length = d % length := by
  obtain ⟨a, b, bezout⟩ : IsCoprime stride (length : Int) := Int.isCoprime_iff_gcd_eq_one.mpr coprime
  have nonneg : 0 ≤ d * a % length := Int.emod_nonneg _ (by omega)
  have less : d * a % length < length := Int.emod_lt_of_pos _ (by omega)
  refine ⟨(d * a % length).toNat, by omega, ?_⟩
  have unit : d * a * stride = d + length * (-(d * b)) := by linear_combination d * bezout
  rw [Int.toNat_of_nonneg nonneg, Int.mul_emod, Int.emod_emod, ← Int.mul_emod, unit, Int.add_mul_emod_self_left]

end

/-- Settles O36: the strides by induction on their number, the visit by an inverse of the stride. -/
theorem ringWalksItsBand : Obligations.RingWalksItsBand := by
  intro g index _ short low high
  have inBand : g.InBand index := ⟨low, high⟩
  obtain ⟨_, _, wraps⟩ := Leg.stride_spec short inBand
  refine ⟨fun n => (Leg.stride_iterate short inBand n).2, wraps, fun coprime target first last => ?_⟩
  obtain ⟨n, less, reach⟩ := exists_lt_mul_emod_eq (by omega) coprime ((target : Int) - index)
  refine ⟨n, less, Int.ofNat_inj.mp ?_⟩
  rw [(Leg.stride_iterate short inBand n).2, Int.add_emod, reach, ← Int.add_emod, Int.emod_eq_of_lt] <;> omega

/-! ## The crosswind bias -/

/-- The bias of a sine: the product truncated toward zero, negated and clamped (R121). -/
def biasBySine (uEff : Nat) (sine : Int) (gain : Nat) : Int :=
  max (-150) (min 150 (-(((uEff : Int) * sine * gain).tdiv 2560)))

theorem biasOf_eq (uEff sector gain azimuth : Nat) : biasOf uEff sector gain azimuth =
    biasBySine uEff (sineTable.getD (sectorDiff sector (sectorOf azimuth)) 0) gain := rfl

/-- The opposite sine gives the opposite bias: truncation toward zero and the clamp are odd. -/
theorem biasBySine_neg (uEff : Nat) (sine : Int) (gain : Nat) : biasBySine uEff (-sine) gain = -biasBySine uEff sine gain := by
  unfold biasBySine
  rw [mul_neg, neg_mul, Int.neg_tdiv]
  omega

theorem biasBySine_zero (uEff gain : Nat) : biasBySine uEff 0 gain = 0 := by
  simp [biasBySine]

theorem biasBySine_no_gain (uEff : Nat) (sine : Int) : biasBySine uEff sine 0 = 0 := by
  simp [biasBySine]

/-- Half a turn round the sine table changes the sign. -/
theorem sineTable_opposite : ∀ rel < 16, sineTable.getD ((rel + 8) % 16) 0 = -sineTable.getD rel 0 := by decide

theorem sectorDiff_lt (a b : Nat) : sectorDiff a b < 16 := by
  unfold sectorDiff modN
  omega

theorem sectorDiff_opposite (a b : Nat) : sectorDiff (a + 8) b = (sectorDiff a b + 8) % 16 := by
  unfold sectorDiff modN
  omega

/-- Settles O37: the bias by its sine, and the sine of the opposite wind. -/
theorem biasTurnsAgainstWind : Obligations.BiasTurnsAgainstWind := by
  intro uEff sector gain azimuth rel sine
  have bias : biasOf uEff sector gain azimuth = biasBySine uEff sine gain := rfl
  have sines : sine = sineTable.getD rel 0 := rfl
  refine ⟨rfl, ?_, ?_, ?_, ?_, ?_, ?_⟩
  · rw [bias, biasBySine]
    omega
  · rw [bias, biasBySine]
    omega
  · rw [bias, biasOf_eq, sectorDiff_opposite, sineTable_opposite _ (sectorDiff_lt _ _), biasBySine_neg]
    rfl
  · rintro (along | along | none)
    · rw [bias, sines, along]
      exact biasBySine_zero uEff gain
    · rw [bias, sines, along]
      exact biasBySine_zero uEff gain
    · rw [bias, none, biasBySine_no_gain]
  · rintro rfl rfl
    refine ⟨fun cross => ?_, fun cross => ?_⟩
    · rw [bias, sines, cross]
      decide
    · rw [bias, sines, cross]
      decide
  · rintro rfl rfl cross
    rw [bias, sines, cross]
    decide

end Sys2Proof.Machine
end

