-- ==== Sys2Proof/Proofs/Signals.lean ====
section
/-! The wires of the station: on aim and valve reports (O32), the pressure header (O38), the fault pattern and the fault output (O53). -/

namespace Sys2Proof.Machine

section
variable {s : State} {c : Nat}

/-- A channel's change written at its place in the list. -/
theorem State.onChannel_eq_with {u : Channel → Channel} {ch : Channel} (h : c < s.sweep.channels.length)
    (hu : u (s.channel c) = ch) :
    s.onChannel c u = { s with sweep := { s.sweep with channels := s.sweep.channels.set c ch } } := by
  rw [State.onChannel_eq_set h, hu]
  rfl

theorem State.currentLeg_of_cursor {k : Cursor} (h : (s.channel c).cursor = some k) : s.currentLeg c = s.leg c k.leg := by
  rw [State.currentLeg, h]

end

/-- Settles O32: each report in its state, and elsewhere. -/
theorem feedbackOpensChannel : Obligations.FeedbackOpensChannel := by
  refine ⟨?_, ?_, ?_, ?_, ?_⟩
  · intro c k s slewing cursor dry
    have inPlan := State.lt_length_of_state_ne_idle (s := s) (c := c) (by rw [slewing]; decide)
    rw [exec_eq_after, State.after_onAim, if_pos slewing, State.slewEnds, State.currentLeg_of_cursor cursor]
    exact congrArg _ (State.onChannel_eq_with inPlan (if_pos dry))
  · intro c k s slewing cursor wet
    have inPlan := State.lt_length_of_state_ne_idle (s := s) (c := c) (by rw [slewing]; decide)
    rw [exec_eq_after, State.after_onAim, if_pos slewing, State.slewEnds, State.currentLeg_of_cursor cursor]
    exact congrArg _ (State.onChannel_eq_with inPlan (if_neg (by rw [wet]; decide)))
  · intro c s other
    rw [exec_eq_after, State.after_onAim, if_neg other]
  · intro c k s opening cursor
    have inPlan := State.lt_length_of_state_ne_idle (s := s) (c := c) (by rw [opening]; decide)
    rw [exec_eq_after, State.after_valveOpenReport, if_pos opening, State.valveOpens, State.currentLeg_of_cursor cursor,
      State.onChannel_eq_with inPlan rfl]
    rfl
  · intro c s other
    rw [exec_eq_after, State.after_valveOpenReport, if_neg other]

/-! ## The pressure header -/

section
variable {s : State} {reading : Nat}

theorem State.anyValveOpen_iff :
    s.anyValveOpen = true ↔ ∃ ch ∈ s.sweep.channels, ch.state = .opening ∨ ch.state = .spraying := by
  simp only [State.anyValveOpen, List.any_eq_true, Bool.or_eq_true, decide_eq_true_eq]

theorem State.lowRunAfter_low (low : reading < s.cfg.collapse) (valve : s.anyValveOpen = true) :
    s.lowRunAfter reading = s.sweep.lowRun + 1 := if_pos ⟨low, valve⟩

theorem State.lowRunAfter_high (h : ¬ (reading < s.cfg.collapse ∧ s.anyValveOpen = true)) : s.lowRunAfter reading = 0 := if_neg h

/-- A sample short of the third low reading in a run counts only (R137). -/
theorem State.samplePressure_of_lt (h : s.lowRunAfter reading < 3) : s.samplePressure reading =
    { s with sweep := { s.sweep with lowRun := s.lowRunAfter reading, pressureTimer := some 1000 } } := by
  unfold State.samplePressure
  dsimp only
  rw [if_neg (Nat.not_le.mpr h), if_neg (Nat.not_le.mpr h)]
  rfl

/-- The third low reading in a run asks for a break (R137, R154, R173). -/
theorem State.samplePressure_of_le (h : 3 ≤ s.lowRunAfter reading) : s.samplePressure reading =
    { s with
      sweep := { s.sweep with lowRun := 0, pressureTimer := some 1000 },
      station := { s.station with breakRequest := true }, line := s.line.requestBreak } := by
  unfold State.samplePressure
  dsimp only
  rw [if_pos h, if_pos h]
  rfl

end

section
variable (l : Line)

/-- What becomes of the frame on the line when it returns to the slot (R156). -/
theorem Line.returnToSlot_eq : l.returnToSlot =
    { l with sending := none, slot := l.returnToSlot.slot, superseded := l.returnToSlot.superseded } := by
  obtain ⟨⟩ := l
  unfold Line.returnToSlot
  split <;> simp_all

theorem Line.returnToSlot_slot :
    (l.sending = none → l.returnToSlot.slot = l.slot ∧ l.returnToSlot.superseded = l.superseded) ∧
    (∀ f, l.sending = some f → l.slot = none → l.returnToSlot.slot = some f ∧ l.returnToSlot.superseded = l.superseded) ∧
    (∀ f g, l.sending = some f → l.slot = some g →
      l.returnToSlot.slot = some g ∧ l.returnToSlot.superseded = min 255 (l.superseded + 1)) := by
  unfold Line.returnToSlot
  refine ⟨fun none => ?_, fun f sending empty => ?_, fun f g sending pending => ?_⟩
  · rw [none]
    exact ⟨rfl, rfl⟩
  · rw [sending, empty]
    exact ⟨rfl, rfl⟩
  · rw [sending, pending]
    exact ⟨rfl, rfl⟩

end

/-- Settles O38: the run of low readings, and the break asked for at the third. -/
theorem pressureSampleWatchesHeader : Obligations.PressureSampleWatchesHeader := by
  intro reading s watched valve
  have sampled : exec (.pressureSample reading) s = .next (s.samplePressure reading) := by
    rw [exec_eq_after, State.after_pressureSample, if_pos watched]
  refine ⟨fun high => ?_, fun low valve short => ?_, fun low valve full => ?_⟩
  · have none : s.lowRunAfter reading = 0 := State.lowRunAfter_high (fun h => high ⟨h.1, State.anyValveOpen_iff.mp h.2⟩)
    rw [sampled, State.samplePressure_of_lt (by omega), none]
  · have run := State.lowRunAfter_low low (State.anyValveOpen_iff.mpr valve)
    rw [sampled, State.samplePressure_of_lt (by omega), run]
  · have run := State.lowRunAfter_low low (State.anyValveOpen_iff.mpr valve)
    refine ⟨_, sampled, ?_⟩
    rw [State.samplePressure_of_le (by omega)]
    refine ⟨rfl, fun driving => if_pos driving, fun released => ?_⟩
    have asked : s.line.requestBreak = { s.line.returnToSlot with
        breakDriving := true, run := s.line.run.hold, joinOpen := false } := if_neg (by rw [released]; decide)
    dsimp only
    rw [asked]
    obtain ⟨idle, back, superseded⟩ := s.line.returnToSlot_slot
    refine ⟨?_, idle, back, superseded⟩
    rw [Line.returnToSlot_eq]

/-! ## The fault output -/

section
variable {s : State}

theorem State.anyFaulted_iff : s.anyFaulted = true ↔ ∃ ch ∈ s.sweep.channels, ch.state = .faulted := by
  simp only [State.anyFaulted, List.any_eq_true, decide_eq_true_eq]

/-- While the blocks work the fault output follows its three causes (R176). -/
theorem State.faultOutput_of_works (works : s.works = true) :
    s.faultOutput = (s.anyFaulted || decide (s.wind.health = .stuck) || s.line.silence.isSome) := by
  unfold State.faultOutput
  unfold State.works at works
  cases mode : s.station.mode with
  | starting | fault => rw [mode] at works; exact absurd works (by decide)
  | listening | auto | standby | hushed => rfl

theorem bit_eq (b : Bool) (weight : Nat) : bit b weight = weight * b.toNat := by
  cases b
  · exact (Nat.mul_zero weight).symm
  · exact (Nat.mul_one weight).symm

/-- The bits of the faults byte, each of its own cause, and the count page above them (R175). -/
theorem State.faultsByte_bits (s : State) :
    s.faultsByte < 256 ∧ s.faultsByte / 64 = s.station.page % 4 ∧
    (s.faultsByte % 2 = 1 ↔ s.wind.health = .stuck) ∧
    (s.faultsByte / 2 % 2 = 1 ↔ s.anyFaulted = true) ∧
    (s.faultsByte / 4 % 2 = 1 ↔ s.line.silence.isSome = true) ∧
    (s.faultsByte / 8 % 2 = 1 ↔ 0 < s.dispatcher.idConflict) ∧
    (s.faultsByte / 16 % 2 = 1 ↔ s.water.silent = true) ∧
    (s.faultsByte / 32 % 2 = 1 ↔ s.wind.source = .failsafe) := by
  rw [← decide_eq_true_iff (p := s.wind.health = .stuck), ← decide_eq_true_iff (p := 0 < s.dispatcher.idConflict),
    ← decide_eq_true_iff (p := s.wind.source = .failsafe)]
  simp only [← Bool.toNat_eq_one, State.faultsByte, bit_eq]
  have small := Bool.toNat_le
  have stuck := small (decide (s.wind.health = .stuck))
  have faulted := small s.anyFaulted
  have silenced := small s.line.silence.isSome
  have conflict := small (decide (0 < s.dispatcher.idConflict))
  have pond := small s.water.silent
  have failsafe := small (decide (s.wind.source = .failsafe))
  omega

end

/-- Settles O53: the pattern's next phase, and the output and the faults byte by their causes. -/
theorem faultOutputTells : Obligations.FaultOutputTells := by
  refine ⟨?_, ?_, ?_⟩
  · intro n s fault code phase first
    have tick : exec .faultPatternTick s = .next (s.setStation (s.station.nextPhase n)) := by
      rw [exec_eq_after, State.after_faultPatternTick, fault, code]
    refine ⟨fun within => ?_, fun last => ?_, ?_⟩
    · rw [tick, Station.nextPhase, if_neg (Nat.not_le.mpr within)]
      rfl
    · rw [tick, Station.nextPhase, if_pos last.ge, patternTime, if_neg (by omega)]
      rfl
    · simp only [State.faultOutput, fault, code, Bool.and_eq_true, decide_eq_true_eq]
      exact and_comm
  · intro s starting
    rw [State.faultOutput, starting]
  · intro s works
    obtain ⟨byte, page, stuck, faulted, silenced, conflict, pond, failsafe⟩ := s.faultsByte_bits
    rw [State.anyFaulted_iff] at faulted
    have output : s.faultOutput = true ↔
        (∃ ch ∈ s.sweep.channels, ch.state = .faulted) ∨ s.wind.health = .stuck ∨ s.line.silence.isSome = true := by
      rw [State.faultOutput_of_works works, Bool.or_eq_true, Bool.or_eq_true, State.anyFaulted_iff, decide_eq_true_eq, or_assoc]
    refine ⟨output, ?_, stuck, faulted, silenced, byte, page, conflict, pond, failsafe⟩
    rw [← Bool.not_eq_true, output, ← faulted, ← stuck, ← silenced]
    omega

end Sys2Proof.Machine
end

