-- ==== Sys2Proof/Proofs/Receiver.lean ====
section
/-! The receiver, bit by bit: what it makes of a bit by the bit's place, with gaps and edges (O39) and the bits of another sender's
frame (O40). -/

namespace Sys2Proof.Machine

/-! ## One bit -/

section
variable {l : Line} {period : Nat}

theorem Line.resolve_of_clear (framing : l.deferredFraming = false) (clash : l.deferredClash = false) : l.resolve period = l := by
  rw [Line.resolve, framing, clash]
  rfl

/-- The samples of a bit taken with no count deferred (R143, R145). -/
theorem Line.sample_of_clear (framing : l.deferredFraming = false) (clash : l.deferredClash = false) (x : Samples) :
    l.sample period x = { l with
      noise := if x.agree then l.noise else bump l.noise, gap := if x.anyDominant then some 0 else l.gap, joinOpen := false,
      run := if x.majority then .absent else l.run } := by
  have ends : ∀ m : Line, m.deferredFraming = false → m.deferredClash = false →
      (if x.majority then { m.resolve period with run := .absent } else m) =
        { m with run := if x.majority then .absent else m.run } := fun m framing clash => by
    rw [Line.resolve_of_clear framing clash]
    cases x.majority <;> rfl
  exact ends { l with
    noise := if x.agree then l.noise else bump l.noise, gap := if x.anyDominant then some 0 else l.gap, joinOpen := false }
    framing clash

end

section
variable {l : Line} {cfg : StationCfg} {fromReady v : Bool} {chars : Frame} {bits : List Bool}

/-- A first start bit read recessive is noise (R146). -/
theorem Line.receive_falseStart (h : l.rx = .inFrame true [] []) :
    l.receive cfg true = ({ l with rx := .ready, noise := bump l.noise }, none) := by
  rw [Line.receive, h]
  rfl

/-- A later start bit read recessive is a framing error (R147). -/
theorem Line.receive_lateStart (h : l.rx = .inFrame fromReady chars []) (late : chars ≠ []) :
    l.receive cfg true = (l.discard, none) := by
  rw [Line.receive, h]
  dsimp only
  rw [if_pos ⟨rfl, rfl⟩, if_neg late]

/-- A dominant start bit and the data bits are taken as they come (R144, R146). -/
theorem Line.receive_taken (h : l.rx = .inFrame fromReady chars bits)
    (place : bits.length = 0 ∧ v = false ∨ 1 ≤ bits.length ∧ bits.length ≤ 8) :
    l.receive cfg v = ({ l with rx := .inFrame fromReady chars (bits ++ [v]) }, none) := by
  have start : ¬ (bits.length = 0 ∧ v = true) := by
    rintro ⟨empty, recessive⟩
    rcases place with ⟨_, dominant⟩ | ⟨later, _⟩
    · exact absurd (recessive.symm.trans dominant) (by decide)
    · omega
  rw [Line.receive, h]
  dsimp only
  rw [if_neg start, if_pos (by omega)]

/-- The mark bit as it should be, recessive on the first character alone (R144). -/
theorem Line.receive_mark (h : l.rx = .inFrame fromReady chars bits) (place : bits.length = 9) (mark : v = decide (chars = [])) :
    l.receive cfg v = ({ l with rx := .inFrame fromReady chars (bits ++ [v]) }, none) := by
  rw [Line.receive, h]
  dsimp only
  rw [if_neg (by omega), if_neg (by omega), if_pos place, if_pos mark]

/-- A recessive mark on a later character is a framing error (R147). -/
theorem Line.receive_lateMark (h : l.rx = .inFrame fromReady chars bits) (place : bits.length = 9) (late : chars ≠ []) :
    l.receive cfg true = (l.discard, none) := by
  rw [Line.receive, h]
  dsimp only
  rw [if_neg (by omega), if_neg (by omega), if_pos place, if_neg (by rw [decide_eq_false late]; decide)]
  rfl

/-- A dominant mark on the first character, or a dominant stop bit, is counted at the end of its run (R147, log 11). -/
theorem Line.receive_dominant (h : l.rx = .inFrame fromReady chars bits)
    (place : bits.length = 9 ∧ chars = [] ∨ bits.length = 10) :
    l.receive cfg false = ({ l with rx := .awaitGap, deferredFraming := true }, none) := by
  rw [Line.receive, h]
  dsimp only
  rw [if_neg (by omega), if_neg (by omega)]
  rcases place with ⟨nine, first⟩ | ten
  · rw [if_pos nine, if_neg (by rw [decide_eq_true first]; decide)]
    rfl
  · rw [if_neg (by omega)]
    rfl

/-- A recessive stop bit completes its character (R146). -/
theorem Line.receive_stop (h : l.rx = .inFrame fromReady chars bits) (place : bits.length = 10) :
    l.receive cfg true = l.accept cfg fromReady (chars ++ [charOf bits]) := by
  rw [Line.receive, h]
  dsimp only
  rw [if_neg (by omega), if_neg (by omega), if_neg (by omega)]
  rfl

/-- A character completes a frame or not; either way no more than the receiver and the framing errors move (R147, R148). -/
theorem Line.accept_keeps (l : Line) (cfg : StationCfg) (fromReady : Bool) (chars : Frame) :
    (l.accept cfg fromReady chars).1 = { l with
      rx := (l.accept cfg fromReady chars).1.rx, framing := (l.accept cfg fromReady chars).1.framing } := by
  unfold Line.accept Line.discard
  split
  · rfl
  · split
    · rfl
    · split <;> rfl

/-- What a bit can move at the receiver: its state, the noise and the framing errors (R146, R147, R157). -/
theorem Line.receive_keeps (l : Line) (cfg : StationCfg) (v : Bool) : (l.receive cfg v).1 = { l with
    rx := (l.receive cfg v).1.rx, noise := (l.receive cfg v).1.noise, framing := (l.receive cfg v).1.framing,
    deferredFraming := (l.receive cfg v).1.deferredFraming } := by
  unfold Line.receive Line.discard
  split
  · split
    · split
      · split <;> rfl
      · rfl
    · split
      · rfl
      · split
        · split
          · rfl
          · split <;> rfl
        · split
          · rw [Line.accept_keeps]
          · rfl
  · rfl
  · rfl
  · rfl

/-- Only a recessive stop bit completes a frame (R146). -/
theorem Line.receive_incomplete (h : l.rx = .inFrame fromReady chars bits) (place : bits.length ≤ 9 ∨ v = false) :
    (l.receive cfg v).2 = none := by
  unfold Line.receive
  rw [h]
  dsimp only
  split
  · split <;> rfl
  · split
    · rfl
    · split
      · split
        · rfl
        · split <;> rfl
      · split
        next beyond notNine recessive =>
          rcases place with low | dominant
          · omega
          · exact absurd (recessive.symm.trans dominant) (by decide)
        next => rfl

end

section
variable {l : Line} {cfg : StationCfg} {fromReady : Bool} {chars : Frame}

/-- A first character of a kind that is not heard ends the receipt (R148). -/
theorem Line.accept_unheard (first : chars.length = 1) (unheard : cfg.hears chars.kind = false) :
    l.accept cfg fromReady chars = ({ l with rx := .awaitGap }, none) := if_pos ⟨first, unheard⟩

/-- A length character above 96 is a framing error (R147). -/
theorem Line.accept_tooLong (third : chars.length = 3) (long : 96 < chars.payloadLength) :
    l.accept cfg fromReady chars = (l.discard, none) := by
  rw [Line.accept, if_neg (by omega), if_pos ⟨third, long⟩]

/-- A character in the midst of its frame (R146). -/
theorem Line.accept_more (heard : chars.length = 1 → cfg.hears chars.kind = true) (short : chars.length = 3 → chars.payloadLength ≤ 96)
    (more : chars.length < 3 ∨ chars.length ≠ 5 + chars.payloadLength) :
    l.accept cfg fromReady chars = ({ l with rx := .inFrame fromReady chars [] }, none) := by
  have unheard : ¬ (chars.length = 1 ∧ cfg.hears chars.kind = false) := by
    rintro ⟨first, none⟩
    exact absurd ((heard first).symm.trans none) (by decide)
  rw [Line.accept, if_neg unheard, if_neg (by omega), if_neg (by omega)]

/-- The last character completes the frame (R146). -/
theorem Line.accept_last (last : chars.length = 5 + chars.payloadLength) :
    l.accept cfg fromReady chars = ({ l with rx := .awaitGap }, some chars) := by
  rw [Line.accept, if_neg (by omega), if_neg (by omega), if_pos ⟨by omega, last⟩]

end

/-! ## Gaps and edges -/

/-- An edge opens the joining window at or near the end of a gap (R149, R152). -/
theorem Line.edge_joinOpen {l : Line} {period measure : Nat} (h : l.rx = .ready ∨ l.rx = .awaitGap) :
    (l.edge period measure).joinOpen = true ↔ l.silence = none ∧ l.breakDriving = false ∧
      (l.measureAt measure = 192 ∨ (184 ≤ l.measureAt measure ∧ l.slot.isSome = true)) := by
  have joins : (l.edge period measure).joinOpen = (l.silence.isNone && !l.breakDriving &&
      (decide (l.measureAt measure = 192) || (decide (184 ≤ l.measureAt measure) && l.slot.isSome))) := by
    rcases h with rx | rx
    · rw [Line.edge, rx]
    · rw [Line.edge, rx]
  simp only [joins, Bool.and_eq_true, Bool.or_eq_true, Bool.not_eq_true', decide_eq_true_eq, Option.isNone_iff_eq_none,
    and_assoc]

/-- Settles O39: a gap by the receiver's state, and an edge by its measure. -/
theorem gapsAndEdgesMoveReceiver : Obligations.GapsAndEdgesMoveReceiver := by
  intro s works idle framing clash opens
  have gap : exec .idleGapComplete s = .next (s.setLine (s.line.gapComplete s.cfg.period)) := by
    rw [exec_eq_after, State.after_idleGapComplete, if_pos ⟨works, idle⟩]
  have edge : ∀ measure, exec (.startEdge measure) s = .next (s.setLine (s.line.edge s.cfg.period measure)) := fun measure => by
    rw [exec_eq_after, State.after_startEdge, if_pos works]
  have clear : s.line.resolve s.cfg.period = s.line := Line.resolve_of_clear framing clash
  refine ⟨?_, ?_, ?_, ?_⟩
  · rintro (rx | rx)
    · rw [gap, Line.gapComplete, clear, rx]
      rfl
    · rw [gap, Line.gapComplete, clear, rx]
      rfl
  · intro r chars bits rx
    refine ⟨_, gap, ?_⟩
    rw [Line.gapComplete, clear, rx]
    rfl
  · intro measure rx
    refine ⟨_, edge measure, ?_, ?_⟩
    · rw [Line.edge, clear, rx]
      rfl
    · exact Line.edge_joinOpen (.inl rx)
  · intro measure rx early
    have measured : s.line.measureAt measure = measure := if_neg early
    refine ⟨_, edge measure, ?_, ?_⟩
    · rw [Line.edge, clear, rx, measured]
      simp only [decide_eq_true_eq]
      rfl
    · rw [State.setLine_line, Line.edge_joinOpen (.inr rx), measured]

/-! ## The bits of another sender's frame -/

theorem Samples.ite_agree {α : Type} (x : Samples) (a b : α) :
    (if x.agree then a else b) = if x.t7 = x.t8 ∧ x.t8 = x.t9 then a else b := by
  simp only [Samples.agree, Bool.and_eq_true, beq_iff_eq]

theorem Samples.ite_anyDominant {α : Type} (x : Samples) (a b : α) :
    (if x.anyDominant then a else b) = if x.t7 && x.t8 && x.t9 then b else a := by
  unfold Samples.anyDominant
  cases x.t7 && x.t8 && x.t9 <;> rfl

theorem StationCfg.hears_eq_false_iff (cfg : StationCfg) (kind : Nat) : cfg.hears kind = false ↔
    (kind = 2 ∧ cfg.hearMonitor = false) ∨ (kind = 3 ∧ cfg.hearMachine = false) ∨ (kind = 6 ∧ cfg.hearForecast = false) := by
  unfold StationCfg.hears kindMonitor kindMachine kindForecast
  split
  next two => simp [two]
  next =>
    split
    next three => simp [three]
    next =>
      split
      next six => simp [six]
      next => simp_all

/-- The kind of a frame is its first character, the length its third (10.1). -/
theorem kind_of_first (b : Byte) (rest : List Byte) : Frame.kind (b :: rest) = b.toNat := by
  simp [Frame.kind, field, bigEndian]

theorem payloadLength_of_third {chars : Frame} (h : chars.length = 2) (b : Byte) :
    Frame.payloadLength (chars ++ [b]) = b.toNat := by
  obtain ⟨c, d, rfl⟩ := List.length_eq_two.mp h
  simp [Frame.payloadLength, field, bigEndian]

/-- Settles O40: the samples taken, then the receiver by the bit's place. -/
theorem bitReadMovesReceiver : Obligations.BitReadMovesReceiver := by
  intro x r chars bits s works idle framing clash rx v noisy
  let l : Line := { s.line with
    noise := noisy, gap := if x.t7 && x.t8 && x.t9 then s.line.gap else some 0, joinOpen := false,
    run := if v then .absent else s.line.run }
  have sampled : s.line.sample s.cfg.period x = l := by
    rw [Line.sample_of_clear framing clash, Samples.ite_agree, Samples.ite_anyDominant]
    rfl
  have watched : s.line.watched s.cfg.period chars bits x = l := by
    rw [Line.watched, sampled]
    dsimp only [l]
    rw [idle]
  have inFrame : l.rx = .inFrame r chars bits := rx
  have read : exec (.bitRead x) s = .next (s.receiveBit (l.receive s.cfg v).1 (l.receive s.cfg v).2) := by
    rw [exec_eq_after, State.after_bitRead, if_pos works, State.readBit_eq rx, watched]
    rfl
  refine ⟨_, read, ?_, ?_, ?_, ?_, ?_, ?_, ?_, ?_, ?_, ?_⟩
  · rintro empty rfl rfl rfl
    rw [List.length_eq_zero_iff] at empty
    subst empty
    have received := Line.receive_falseStart (cfg := s.cfg) inFrame
    rw [show v = true from rfl, received]
    rfl
  · intro empty recessive late
    rw [List.length_eq_zero_iff] at empty
    subst empty
    rw [recessive, Line.receive_lateStart inFrame late]
    exact ⟨rfl, rfl, rfl⟩
  · intro place
    rw [Line.receive_taken inFrame place]
    rfl
  · intro nine mark
    have asSent : v = decide (chars = []) := Bool.eq_iff_iff.mpr (mark.trans decide_eq_true_iff.symm)
    rw [Line.receive_mark inFrame nine asSent]
    exact ⟨rfl, rfl, rfl⟩
  · intro nine recessive late
    rw [recessive, Line.receive_lateMark inFrame nine late]
    exact ⟨rfl, rfl, rfl⟩
  · intro nine dominant first
    rw [dominant, Line.receive_dominant inFrame (.inl ⟨nine, first⟩)]
    exact ⟨rfl, rfl, rfl, rfl⟩
  · intro ten recessive first kind unheard
    have received : l.receive s.cfg v = l.accept s.cfg r [charOf bits] := by
      rw [recessive, Line.receive_stop inFrame ten, first]
      rfl
    have heard_iff : s.cfg.hears (Frame.kind [charOf bits]) = false ↔ unheard := by
      rw [kind_of_first]
      exact s.cfg.hears_eq_false_iff _
    rw [received]
    refine ⟨fun none => ?_, fun heard => ?_⟩
    · rw [Line.accept_unheard rfl (heard_iff.mpr none)]
      dsimp only [State.receiveBit, l]
      rw [recessive]
      rfl
    · have hears : s.cfg.hears (Frame.kind [charOf bits]) = true := by
        rw [← Bool.not_eq_false, heard_iff]
        exact heard
      rw [Line.accept_more (fun _ => hears) (fun h => absurd h (by decide : ¬ 1 = 3)) (.inl (by decide : 1 < 3))]
      rfl
  · intro ten dominant
    rw [dominant, Line.receive_dominant inFrame (.inr ten)]
    exact ⟨rfl, rfl, rfl, rfl⟩
  · intro ten recessive first
    have two : (chars ++ [charOf bits]).length = 2 := by rw [List.length_append, first]; rfl
    rw [recessive, Line.receive_stop inFrame ten, Line.accept_more (by omega) (by omega) (by omega)]
    rfl
  · intro ten recessive second long
    have three : (chars ++ [charOf bits]).length = 3 := by rw [List.length_append, second]; rfl
    rw [recessive, Line.receive_stop inFrame ten, Line.accept_tooLong three (by rwa [payloadLength_of_third second])]
    exact ⟨rfl, rfl, rfl⟩

end Sys2Proof.Machine
end

