-- ==== Sys2Proof/Proofs/Transmitter.lean ====
section
/-! The transmitter: a frame starts and completes (O43), loses arbitration or clashes (O44). -/

namespace Sys2Proof.Machine

/-- Settles O43: the start conditions on an idle line and within the window, and the frame's end. -/
theorem frameStartsAndCompletes : Obligations.FrameStartsAndCompletes := by
  refine ⟨?_, ?_, ?_, ?_⟩
  · intro f s works slot silence released idle gap rx
    have may : s.line.mayStart = true := by
      rw [Line.mayStart, slot, silence, released, idle, gap]
      rfl
    have start : s.line.start = { s.line with
        slot := none, sending := some f, rx := .inFrame true [] [], run := .inProgress, joinOpen := false } := by
      rw [Line.start, slot, rx]
    refine ⟨s.setLine s.line.start, ?_, ?_, ?_⟩
    · rw [exec_eq_after, State.after_frameStart, if_pos ⟨works, may⟩]
    · rw [State.lineDriver, State.setLine_line, start]
      exact Bool.or_true _
    · rw [start]
      rfl
  · intro f r s works slot silence released idle joins rx
    have may : s.line.mayStart = true := by
      rw [Line.mayStart, slot, silence, released, idle, joins, rx]
      exact Bool.or_true _
    have start : s.line.start = { s.line with slot := none, sending := some f, run := .inProgress, joinOpen := false } := by
      rw [Line.start, slot, rx]
      dsimp only
      rw [← rx]
    refine ⟨s.setLine s.line.start, ?_, ?_, ?_⟩
    · rw [exec_eq_after, State.after_frameStart, if_pos ⟨works, may⟩]
    · rw [State.lineDriver, State.setLine_line, start, rx]
      exact Bool.or_true _
    · rw [start]
      rfl
  · intro s blocked
    have mayNot : s.line.mayStart = false := by
      rw [← Bool.not_eq_true, Line.mayStart]
      simp only [Bool.and_eq_true, Bool.or_eq_true, Bool.not_eq_true', decide_eq_true_eq, Option.isNone_iff_eq_none]
      rintro ⟨⟨⟨⟨slot, silence⟩, released⟩, _⟩, line⟩
      rcases blocked with none | silent | driving | ⟨gap, shut⟩
      · rw [none] at slot
        exact absurd slot (by decide)
      · rw [silence] at silent
        exact absurd silent (by decide)
      · exact absurd (released.symm.trans driving) (by decide)
      · rcases line with full | ⟨joins, _⟩
        · exact gap full
        · exact absurd (shut.symm.trans joins) (by decide)
    rw [exec_eq_after, State.after_frameStart, if_neg (fun h => absurd (mayNot.symm.trans h.2) (by decide))]
  · intro f r chars bits s works sending rx
    rw [exec_eq_after, State.after_frameSent, rx, sending]
    dsimp only
    rw [if_pos works]
    rfl

/-! ## Frames that do not come through -/

section
variable {l : Line} {period : Nat}

/-- A clash counted short of the eighth in a run, and the eighth (R151, R152). -/
theorem Line.countClash_of_lt (h : l.clashRun < 7) :
    Line.countClash period l = { l with clashes := bump l.clashes, clashRun := l.clashRun + 1 } := by
  rw [Line.countClash, if_neg (by omega)]

theorem Line.countClash_of_eq (h : l.clashRun = 7) :
    Line.countClash period l = { l with clashes := bump l.clashes, clashRun := 0, silence := some (8 * period * 1000) } := by
  rw [Line.countClash, if_pos (by omega)]
  rfl

/-- The end of a dominant run with no clash deferred, and with one (R147, R151). -/
theorem Line.resolve_of_noClash (h : l.deferredClash = false) : l.resolve period =
    { l with framing := if l.deferredFraming then bump l.framing else l.framing, deferredFraming := false } := by
  obtain ⟨_, _, _, _, _, _, _, framing, _⟩ := l
  subst h
  cases framing <;> rfl

theorem Line.resolve_of_clash (h : l.deferredClash = true) : l.resolve period = Line.countClash period
    { l with
      framing := if l.deferredFraming then bump l.framing else l.framing, deferredFraming := false, deferredClash := false } := by
  obtain ⟨_, _, _, _, _, _, _, framing, _⟩ := l
  subst h
  cases framing <;> rfl

theorem Line.resolve_of_lt (h : l.deferredClash = true) (short : l.clashRun < 7) : l.resolve period = { l with
    framing := if l.deferredFraming then bump l.framing else l.framing, deferredFraming := false,
    clashes := bump l.clashes, clashRun := l.clashRun + 1, deferredClash := false } := by
  rw [Line.resolve_of_clash h]
  refine (Line.countClash_of_lt ?_).trans rfl
  exact short

theorem Line.resolve_of_eq (h : l.deferredClash = true) (full : l.clashRun = 7) : l.resolve period = { l with
    framing := if l.deferredFraming then bump l.framing else l.framing, deferredFraming := false,
    clashes := bump l.clashes, clashRun := 0, silence := some (8 * period * 1000), deferredClash := false } := by
  rw [Line.resolve_of_clash h]
  refine (Line.countClash_of_eq ?_).trans rfl
  exact full

/-- What a clash counted leaves as it was. -/
theorem Line.countClash_keeps (l : Line) (period : Nat) : Line.countClash period l = { l with
    clashes := bump l.clashes, clashRun := (Line.countClash period l).clashRun,
    silence := (Line.countClash period l).silence } := by
  unfold Line.countClash
  split <;> rfl

end

/-- The line at a place of the station's own frame, its bit read as `x` and not heeded yet. -/
def Line.readAt (l : Line) (f : Frame) (fromReady : Bool) (char bit : Nat) (x : Samples) : Line :=
  { l with
    rx := .inFrame fromReady (f.take char) ((List.range bit).map (f.sentBit char)),
    noise := if x.agree then l.noise else bump l.noise,
    gap := if x.anyDominant then some 0 else (if char = 0 ∧ bit = 0 then l.gap else some 0), joinOpen := false,
    run := if x.majority then .absent else l.run }

section
variable {s : State} {f : Frame} {fromReady : Bool} {char bit : Nat} {x : Samples} {kinds : List ReadBack} {kind : ReadBack}

/-- A place of the station's own frame read back otherwise than sent, before its last stop bit: the transmitter heeds the reading and
the receiver goes on, and no frame completes (R150, R151). -/
theorem State.readPlace_eq (sending : s.line.sending = some f) (rx : s.line.rx = .inFrame fromReady [] [])
    (framing : s.line.deferredFraming = false) (clash : s.line.deferredClash = false) (inFrame : char < f.length)
    (place : bit ≤ 10) (back : readBack f char bit x.majority = kind) (asked : kinds.contains kind = true)
    (open_ : bit ≤ 9 ∨ x.majority = false) :
    s.readPlace char bit x kinds =
      s.setLine (((s.line.readAt f fromReady char bit x).heed s.cfg.period kind).receive s.cfg x.majority).1 := by
  have ahead : ahead [] [] char bit = true := by
    unfold Sys2Proof.Machine.ahead
    rcases Nat.eq_zero_or_pos char with first | later
    · rw [first]
      exact Bool.or_true _
    · rw [decide_eq_true (show ([] : Frame).length < char from later)]
      rfl
  have taken : (f.take char).length = char := List.length_take_of_le inFrame.le
  have bits : ((List.range bit).map (f.sentBit char)).length = bit := by rw [List.length_map, List.length_range]
  have watched : (s.line.caughtUp f fromReady char bit).watched s.cfg.period (f.take char)
      ((List.range bit).map (f.sentBit char)) x = (s.line.readAt f fromReady char bit x).heed s.cfg.period kind := by
    have sampled : (s.line.caughtUp f fromReady char bit).sample s.cfg.period x = s.line.readAt f fromReady char bit x :=
      
        Line.sample_of_clear (l := s.line.caughtUp f fromReady char bit) framing clash x
    rw [Line.watched, sampled, show (s.line.readAt f fromReady char bit x).sending = some f from sending]
    dsimp only
    rw [taken, bits, back]
  have heeded : ((s.line.readAt f fromReady char bit x).heed s.cfg.period kind).rx =
      .inFrame fromReady (f.take char) ((List.range bit).map (f.sentBit char)) := by
    cases kind with
    | same => rfl
    | lost => rw [Line.heed, Line.returnToSlot_eq]; rfl
    | clashed => rw [Line.heed, Line.countClash_keeps, Line.returnToSlot_eq]; rfl
    | clashing => rw [Line.heed, Line.returnToSlot_eq]; rfl
  have incomplete : (((s.line.readAt f fromReady char bit x).heed s.cfg.period kind).receive s.cfg x.majority).2 = none :=
    Line.receive_incomplete heeded (by rwa [bits])
  unfold State.readPlace
  rw [rx, sending]
  dsimp only
  rw [if_pos ⟨ahead, inFrame, place, by rw [back]; exact asked⟩,
    State.readBit_eq (s := s.setLine (s.line.caughtUp f fromReady char bit)) (fromReady := fromReady) (chars := f.take char)
      (bits := (List.range bit).map (f.sentBit char)) rfl]
  simp only [State.setLine_line, State.setLine_cfg, watched, incomplete]
  rfl

end

section
variable {l : Line} {f : Frame} {char bit : Nat}

/-- The frame on the line has returned to the slot, or was dropped for a newer report (R156). -/
def Line.Returned (l : Line) (f : Frame) (t : Line) : Prop :=
  t.sending = none ∧ (l.slot = none → t.slot = some f ∧ t.superseded = l.superseded) ∧
    ∀ g, l.slot = some g → t.slot = some g ∧ t.superseded = min 255 (l.superseded + 1)

theorem Line.receive_returned {t : Line} (cfg : StationCfg) (v : Bool) (h : l.Returned f t) :
    l.Returned f (t.receive cfg v).1 := by
  rw [Line.receive_keeps]
  exact h

/-- A reading other than as sent returns the frame (R150, R151). -/
theorem Line.heed_returned (sending : l.sending = some f) (period : Nat) (fromReady : Bool) (x : Samples) {kind : ReadBack}
    (other : kind ≠ .same) : l.Returned f ((l.readAt f fromReady char bit x).heed period kind) := by
  have back : l.Returned f (l.readAt f fromReady char bit x).returnToSlot := by
    obtain ⟨_, empty, pending⟩ := Line.returnToSlot_slot (l.readAt f fromReady char bit x)
    exact ⟨by rw [Line.returnToSlot_eq], empty f sending, fun g => pending f g sending⟩
  cases kind with
  | same => exact absurd rfl other
  | lost => exact back
  | clashed =>
    rw [Line.heed, Line.countClash_keeps]
    exact back
  | clashing => exact back

/-- What the receiver leaves as it was at a bit: the transmitter's own figures. -/
theorem Line.receive_watch (l : Line) (cfg : StationCfg) (v : Bool) : (l.receive cfg v).1.clashes = l.clashes ∧
    (l.receive cfg v).1.clashRun = l.clashRun ∧ (l.receive cfg v).1.silence = l.silence ∧
    (l.receive cfg v).1.deferredClash = l.deferredClash := by
  rw [Line.receive_keeps]
  exact ⟨rfl, rfl, rfl, rfl⟩

theorem readBack_lost {x : Samples} (sent : f.sentBit char bit = true) (read : x.majority = false)
    (arbitrates : char = 0 ∨ (char = 1 ∧ bit ≤ 8)) : readBack f char bit x.majority = .lost := by
  rw [readBack, sent, read, if_neg (by decide), if_neg (by decide), if_pos arbitrates]

theorem readBack_clashed {x : Samples} (sent : f.sentBit char bit = false) (read : x.majority = true) :
    readBack f char bit x.majority = .clashed := by
  rw [readBack, sent, read, if_neg (by decide), if_pos rfl]

theorem readBack_clashing {x : Samples} (sent : f.sentBit char bit = true) (read : x.majority = false)
    (beyond : 2 ≤ char ∨ (char = 1 ∧ 9 ≤ bit)) : readBack f char bit x.majority = .clashing := by
  rw [readBack, sent, read, if_neg (by decide), if_neg (by decide), if_neg (by omega)]

/-- A dominant bit in a frame is no stop bit (R144). -/
theorem Frame.sentBit_dominant (within : bit ≤ 10) (h : f.sentBit char bit = false) : bit ≤ 9 := by
  by_contra stop
  have ten : bit = 10 := by omega
  subst ten
  exact absurd h (by rw [Frame.sentBit, if_neg (by decide), if_neg (by decide), if_neg (by decide)]; decide)

end

/-- Settles O44: the frame lost, the clash counted and the clash deferred at a place; then the end of a dominant run. -/
theorem lostAndClashedFramesReturn : Obligations.LostAndClashedFramesReturn := by
  refine ⟨?_, ?_, ?_⟩
  · intro f r char bit x s works sending rx framing clash inFrame place v returned
    refine ⟨fun arbitrates first last sent read => ?_, fun sent read => ?_, fun sent read beyond => ?_⟩
    · have place := State.readPlace_eq (kinds := [.lost]) sending rx framing clash inFrame place
        (readBack_lost sent read (by omega)) rfl (.inr read)
      refine ⟨_, by rw [exec_eq_after, State.after_arbitrationLost, if_pos works, place, show x.majority = false from read], ?_⟩
      have taken := Line.receive_taken (l := (s.line.readAt f r char bit x).heed s.cfg.period .lost) (cfg := s.cfg) (v := false)
        (fromReady := r) (chars := f.take char) (bits := (List.range bit).map (f.sentBit char))
        (by rw [Line.heed, Line.returnToSlot_eq]; rfl) (.inr (by rw [List.length_map, List.length_range]; omega))
      refine ⟨⟨rfl, Line.receive_returned _ _ (Line.heed_returned sending _ r x (by decide))⟩, ?_⟩
      rw [State.setLine_line, taken]
      dsimp only [Line.heed]
      rw [Line.returnToSlot_eq]
      exact ⟨rfl, rfl, clash, rfl⟩
    · have place := State.readPlace_eq (kinds := [.clashed, .clashing]) sending rx framing clash inFrame place
        (readBack_clashed sent read) rfl (.inl (Frame.sentBit_dominant place sent))
      refine ⟨_, by rw [exec_eq_after, State.after_clash, if_pos works, place], ?_⟩
      refine ⟨⟨rfl, Line.receive_returned _ _ (Line.heed_returned sending _ r x (by decide))⟩, ?_⟩
      obtain ⟨clashes, clashRun, silence, _⟩ :=
        Line.receive_watch ((s.line.readAt f r char bit x).heed s.cfg.period .clashed) s.cfg x.majority
      have run : (s.line.readAt f r char bit x).returnToSlot.clashRun = s.line.clashRun := by
        rw [Line.returnToSlot_eq]
        rfl
      rw [State.setLine_line, clashes, clashRun, silence]
      dsimp only [Line.heed]
      refine ⟨?_, fun short => ?_, fun full => ?_⟩
      · rw [Line.countClash_keeps, Line.returnToSlot_eq]
        rfl
      · rw [Line.countClash_of_lt (by rwa [run]), Line.returnToSlot_eq]
        exact ⟨rfl, rfl⟩
      · rw [Line.countClash_of_eq (by rwa [run])]
        exact ⟨rfl, rfl⟩
    · have place := State.readPlace_eq (kinds := [.clashed, .clashing]) sending rx framing clash inFrame place
        (readBack_clashing sent read beyond) rfl (.inr read)
      refine ⟨_, by rw [exec_eq_after, State.after_clash, if_pos works, place], ?_⟩
      refine ⟨⟨rfl, Line.receive_returned _ _ (Line.heed_returned sending _ r x (by decide))⟩, ?_⟩
      obtain ⟨clashes, clashRun, _, deferred⟩ :=
        Line.receive_watch ((s.line.readAt f r char bit x).heed s.cfg.period .clashing) s.cfg x.majority
      rw [State.setLine_line, clashes, clashRun, deferred]
      dsimp only [Line.heed]
      rw [Line.returnToSlot_eq]
      exact ⟨rfl, rfl, rfl⟩
  · intro s works clash framing
    have ends : exec .dominantRunEnd s = .next (s.setLine { s.line.resolve s.cfg.period with run := .absent, joinOpen := false }) := by
      rw [exec_eq_after, State.after_dominantRunEnd, if_pos works]
    refine ⟨fun short => ?_, fun full => ?_⟩
    · rw [ends, Line.resolve_of_lt clash short]
      rfl
    · rw [ends, Line.resolve_of_eq clash full]
      rfl
  · intro s works clash
    rw [exec_eq_after, State.after_dominantRunEnd, if_pos works, Line.resolve_of_noClash clash]
    rfl

end Sys2Proof.Machine
end

