-- ==== Sys2Proof/Proofs/Frames.lean ====
section
/-! Whole frames: read bit by bit as they were sent (O41), and checked and queued (O42). -/

namespace Sys2Proof.Machine

/-! ## The check sums -/

theorem checkSums_lt (b : List Byte) : (checkSums b).1 < 255 ∧ (checkSums b).2 < 255 := by
  have key : ∀ (b : List Byte) (ab : Nat × Nat), ab.1 < 255 ∧ ab.2 < 255 →
      (b.foldl checkStep ab).1 < 255 ∧ (b.foldl checkStep ab).2 < 255 := by
    intro b
    induction b with
    | nil => exact fun ab h => h
    | cons c b ih => exact fun ab _ => ih _ ⟨Nat.mod_lt _ (by decide), Nat.mod_lt _ (by decide)⟩
  exact key b (0, 0) ⟨by decide, by decide⟩

/-- From one check A and two checks B apart modulo 255, check A stays one and the checks B stay apart. -/
theorem foldl_checkStep_apart (b : List Byte) : ∀ (a x y : Nat), x % 255 ≠ y % 255 →
    (b.foldl checkStep (a, x)).1 = (b.foldl checkStep (a, y)).1 ∧
    (b.foldl checkStep (a, x)).2 % 255 ≠ (b.foldl checkStep (a, y)).2 % 255 := by
  induction b with
  | nil => exact fun a x y apart => ⟨rfl, apart⟩
  | cons c b ih =>
    intro a x y apart
    exact ih _ _ _ (by omega)

/-- Two neighbours exchanged leave check A and move check B (R160). -/
theorem checkSums_exchange (a b : List Byte) {x y : Byte} (apart : x.toNat % 255 ≠ y.toNat % 255) :
    (checkSums (a ++ [x, y] ++ b)).1 = (checkSums (a ++ [y, x] ++ b)).1 ∧
    (checkSums (a ++ [x, y] ++ b)).2 ≠ (checkSums (a ++ [y, x] ++ b)).2 := by
  have split : ∀ u v : Byte, checkSums (a ++ [u, v] ++ b) =
      b.foldl checkStep (checkStep (checkStep (checkSums a) u) v) := fun u v => by
    simp only [checkSums, List.foldl_append, List.foldl_cons, List.foldl_nil]
  rw [split, split]
  generalize checkSums a = ab
  have same : (checkStep (checkStep ab x) y).1 = (checkStep (checkStep ab y) x).1 := by
    simp only [checkStep]
    omega
  have moved : (checkStep (checkStep ab x) y).2 % 255 ≠ (checkStep (checkStep ab y) x).2 % 255 := by
    simp only [checkStep]
    omega
  obtain ⟨first, second⟩ := foldl_checkStep_apart b (checkStep (checkStep ab x) y).1 _ _ moved
  rw [show checkStep (checkStep ab y) x = ((checkStep (checkStep ab x) y).1, (checkStep (checkStep ab y) x).2) from
    Prod.ext same.symm rfl]
  exact ⟨first, fun equal => second (congrArg (· % 255) equal)⟩

theorem field_eq_toNat {b : List Byte} {i : Nat} {c : Byte} (h : b[i]? = some c) : field b i 1 = c.toNat := by
  rw [field_one, h]
  rfl

/-- A frame closed with its own checks matches (R160). -/
theorem verified_sealed (b : List Byte) : (Frame.sealed b).verified = true := by
  obtain ⟨firstLess, secondLess⟩ := checkSums_lt b
  have length : (Frame.sealed b).length = b.length + 2 := List.length_append
  have body : (Frame.sealed b).take ((Frame.sealed b).length - 2) = b := by
    rw [length, Nat.add_sub_cancel]
    exact List.take_left
  have first : field (Frame.sealed b) (b.length + 2 - 2) 1 = (checkSums b).1 := by
    rw [field_eq_toNat (c := BitVec.ofNat 8 (checkSums b).1) (by simp [Frame.sealed]), BitVec.toNat_ofNat]
    omega
  have second : field (Frame.sealed b) (b.length + 2 - 1) 1 = (checkSums b).2 := by
    rw [field_eq_toNat (c := BitVec.ofNat 8 (checkSums b).2) (by simp [Frame.sealed]), BitVec.toNat_ofNat]
    omega
  rw [Frame.verified, body, length, first, second, decide_eq_true rfl, decide_eq_true rfl]
  rfl

/-! ## A frame received -/

section
variable {d : Dispatcher} {f : Frame}

theorem Dispatcher.take_queued (checked : f.verified = true) (room : d.queue.length < 8) :
    d.take f = { d with queue := d.queue ++ [f] } := by
  rw [Dispatcher.take, if_pos checked, if_pos room]

theorem Dispatcher.take_overrun (checked : f.verified = true) (full : 8 ≤ d.queue.length) :
    d.take f = { d with overrun := bump d.overrun } := by
  rw [Dispatcher.take, if_pos checked, if_neg (by omega)]

theorem Dispatcher.take_failed (failed : f.verified = false) : d.take f = { d with checkFail := bump d.checkFail } := by
  rw [Dispatcher.take, failed]
  rfl

/-- A shaped frame has its five characters beside the payload that its third one counts (R159). -/
theorem Frame.shaped_iff : f.shaped = true ↔ 3 ≤ f.length ∧ f.payloadLength ≤ 96 ∧ f.length = 5 + f.payloadLength := by
  match f with
  | [] => simp [Frame.shaped]
  | [_] => simp [Frame.shaped]
  | [_, _] => simp [Frame.shaped]
  | a :: b :: n :: rest =>
    have counted : Frame.payloadLength (a :: b :: n :: rest) = n.toNat := field_eq_toNat (i := 2) rfl
    simp [Frame.shaped, counted]

theorem Line.resolve_slot (l : Line) (period : Nat) : (l.resolve period).slot = l.slot := by
  have kept : ∀ m : Line, (Line.countClash period m).slot = m.slot := fun m => by rw [Line.countClash_keeps]
  unfold Line.resolve
  dsimp only
  split <;> split <;> simp only [kept]

end

/-- Settles O42: the hand-over by the checks and the room, and the sums. -/
theorem frameReceivedIsCheckedAndQueued : Obligations.FrameReceivedIsCheckedAndQueued := by
  refine ⟨?_, fun b => ⟨(checkSums_lt b).1, (checkSums_lt b).2, verified_sealed b⟩, fun a b x y => checkSums_exchange a b⟩
  intro f r s works shaped heard idle rx
  have whole := Frame.shaped_iff.mp shaped
  refine ⟨(s.setLine { s.line.resolve s.cfg.period with
    rx := .awaitGap, gap := some 0, run := .absent, joinOpen := false }).deliver f, ?_, rfl, rfl, Line.resolve_slot _ _,
    Dispatcher.take_queued, Dispatcher.take_overrun, Dispatcher.take_failed⟩
  rw [exec_eq_after, State.after_frameReceived, rx, idle]
  dsimp only
  rw [if_pos ⟨works, shaped, heard, (by omega : 0 < f.length), rfl, rfl⟩]

/-! ## A frame read as it is sent -/

/-- The line of `l` with the receiver at `rx`; the gap measure, the dominant run and the joining window go their own ways. -/
def Line.ReceivesAt (l : Line) (rx : Receiver) (m : Line) : Prop :=
  m = { l with rx := rx, gap := m.gap, run := m.run, joinOpen := m.joinOpen }

/-- The state `s` with the receiver at `rx`. -/
def State.ReceivesAt (s : State) (rx : Receiver) (u : State) : Prop := u = s.setLine u.line ∧ s.line.ReceivesAt rx u.line

/-- A bit with agreeing samples read at the receiver. -/
def State.readClean (u : State) (v : Bool) : State := u.readBit ⟨v, v, v⟩

section
variable {f : Frame} {n : Nat}

/-- The bits of a character, its last not yet read, give the character (R144). -/
theorem charOf_sentBits (f : Frame) (n : Nat) : charOf ((List.range 10).map (f.sentBit n)) = f.getD n 0 := by
  have every : ∀ c : Byte, BitVec.ofNat 8 ((List.range 8).map (fun k => if c.getLsbD k then 2 ^ k else 0)).sum = c := by decide
  exact every (f.getD n 0)

theorem take_succ_eq_append (h : n < f.length) : f.take (n + 1) = f.take n ++ [f.getD n 0] := by
  rw [List.take_succ_eq_append_getElem h, List.getD_eq_getElem _ _ h]

end

section
variable {s u : State} {f : Frame} {r : Bool} {n k : Nat}

/-- The conditions of O41: the frame read is another's or the station's own, with no count deferred. -/
structure State.Reads (s : State) (f : Frame) : Prop where
  shaped : f.shaped = true
  heard : s.cfg.hears f.kind = true
  framing : s.line.deferredFraming = false
  clash : s.line.deferredClash = false
  sending : s.line.sending = none ∨ s.line.sending = some f

/-- A bit read as sent: the transmitter goes on and the receiver takes it. -/
theorem State.Reads.readClean {chars : Frame} {bits : List Bool} {v : Bool} (h : s.Reads f)
    (at_ : s.ReceivesAt (.inFrame r chars bits) u) (sent : f.sentBit chars.length bits.length = v) :
    ∃ l, s.line.ReceivesAt (.inFrame r chars bits) l ∧
      u.readClean v = s.receiveBit (l.receive s.cfg v).1 (l.receive s.cfg v).2 := by
  obtain ⟨state, line⟩ := at_
  have cfg : u.cfg = s.cfg := by rw [state]; rfl
  have rx : u.line.rx = .inFrame r chars bits := by rw [line]
  have sampled := Line.sample_of_clear (l := u.line) (period := s.cfg.period) (by rw [line]; exact h.framing)
    (by rw [line]; exact h.clash) ⟨v, v, v⟩
  have majority : Samples.majority ⟨v, v, v⟩ = v := by cases v <;> rfl
  have agree : Samples.agree ⟨v, v, v⟩ = true := by cases v <;> rfl
  have same : readBack f chars.length bits.length v = .same := if_pos sent
  refine ⟨u.line.watched s.cfg.period chars bits ⟨v, v, v⟩, ?_, ?_⟩
  · have heeded : u.line.watched s.cfg.period chars bits ⟨v, v, v⟩ = u.line.sample s.cfg.period ⟨v, v, v⟩ := by
      have sending : (u.line.sample s.cfg.period ⟨v, v, v⟩).sending = s.line.sending := by rw [sampled, line]
      rw [Line.watched, sending]
      rcases h.sending with none | own
      · rw [none]
      · rw [own]
        dsimp only
        rw [majority, same, Line.heed]
    rw [heeded, sampled, agree]
    unfold Line.ReceivesAt
    rw [line]
    rfl
  · rw [State.readClean, State.readBit_eq rx, cfg, majority, state]
    unfold State.receiveBit
    rfl

/-- The receiver takes the bits of a character up to its stop bit. -/
theorem State.Reads.takes_bit (h : s.Reads f) (less : n < f.length) (within : k ≤ 9)
    (at_ : s.ReceivesAt (.inFrame r (f.take n) ((List.range k).map (f.sentBit n))) u) :
    s.ReceivesAt (.inFrame r (f.take n) ((List.range (k + 1)).map (f.sentBit n))) (u.readClean (f.sentBit n k)) := by
  have chars : (f.take n).length = n := List.length_take_of_le less.le
  have bits : ((List.range k).map (f.sentBit n)).length = k := by rw [List.length_map, List.length_range]
  obtain ⟨l, line, read⟩ := h.readClean (v := f.sentBit n k) at_ (by rw [chars, bits])
  have rx : l.rx = .inFrame r (f.take n) ((List.range k).map (f.sentBit n)) := by rw [line]
  have received : l.receive s.cfg (f.sentBit n k) =
      ({ l with rx := .inFrame r (f.take n) ((List.range (k + 1)).map (f.sentBit n)) }, none) := by
    rw [List.range_succ, List.map_append]
    rcases Nat.lt_or_ge k 9 with data | mark
    · refine Line.receive_taken rx ?_
      rw [bits]
      rcases Nat.eq_zero_or_pos k with rfl | later
      · exact .inl ⟨rfl, rfl⟩
      · exact .inr ⟨later, by omega⟩
    · have nine : k = 9 := by omega
      subst nine
      refine Line.receive_mark rx bits ?_
      rw [Frame.sentBit, if_neg (by decide), if_neg (by decide), if_pos rfl, decide_eq_decide, ← List.length_eq_zero_iff, chars]
  rw [read, received]
  refine ⟨rfl, ?_⟩
  unfold Line.ReceivesAt
  exact line ▸ rfl

/-- The receiver takes the ten bits of a character before its stop bit. -/
theorem State.Reads.takes_bits (h : s.Reads f) (less : n < f.length)
    (at_ : s.ReceivesAt (.inFrame r (f.take n) []) u) (k : Nat) (within : k ≤ 10) :
    s.ReceivesAt (.inFrame r (f.take n) ((List.range k).map (f.sentBit n)))
      (((List.range k).map (f.sentBit n)).foldl State.readClean u) := by
  induction k with
  | zero => exact at_
  | succ k ih =>
    have earlier := h.takes_bit less (by omega) (ih (by omega))
    rw [List.range_succ, List.map_append, List.foldl_append] at *
    exact earlier

/-- What the receiver makes of the stop bit of character `n`. -/
theorem State.Reads.reads_stop (h : s.Reads f) (less : n < f.length)
    (at_ : s.ReceivesAt (.inFrame r (f.take n) ((List.range 10).map (f.sentBit n))) u) :
    ∃ l, s.line.ReceivesAt (.inFrame r (f.take n) ((List.range 10).map (f.sentBit n))) l ∧
      u.readClean (f.sentBit n 10) = s.receiveBit (l.accept s.cfg r (f.take (n + 1))).1 (l.accept s.cfg r (f.take (n + 1))).2 := by
  have chars : (f.take n).length = n := List.length_take_of_le less.le
  have bits : ((List.range 10).map (f.sentBit n)).length = 10 := by rw [List.length_map, List.length_range]
  obtain ⟨l, line, read⟩ := h.readClean (v := f.sentBit n 10) at_ (by rw [chars, bits])
  refine ⟨l, line, ?_⟩
  have stop : f.sentBit n 10 = true := by rw [Frame.sentBit, if_neg (by decide), if_neg (by decide), if_neg (by decide)]
  rw [read, stop, Line.receive_stop (by rw [line]) bits, charOf_sentBits, take_succ_eq_append less]

/-- A character in the midst of the frame is taken, and the next one opens. -/
theorem State.Reads.takes_stop (h : s.Reads f) (less : n + 1 < f.length)
    (at_ : s.ReceivesAt (.inFrame r (f.take n) ((List.range 10).map (f.sentBit n))) u) :
    s.ReceivesAt (.inFrame r (f.take (n + 1)) []) (u.readClean (f.sentBit n 10)) := by
  obtain ⟨l, line, read⟩ := h.reads_stop (by omega) at_
  obtain ⟨_, short, length⟩ := Frame.shaped_iff.mp h.shaped
  have chars : (f.take (n + 1)).length = n + 1 := List.length_take_of_le less.le
  have counted : 3 ≤ n + 1 → Frame.payloadLength (f.take (n + 1)) = f.payloadLength := fun third => field_take third
  have kind : Frame.kind (f.take (n + 1)) = f.kind := field_take (by omega)
  rw [read, Line.accept_more (fun _ => kind ▸ h.heard) (fun third => by rw [counted (by omega)]; exact short)]
  · refine ⟨rfl, ?_⟩
    unfold Line.ReceivesAt
    exact line ▸ rfl
  · rw [chars]
    by_cases third : 3 ≤ n + 1
    · rw [counted third]
      omega
    · omega

/-- The last character completes the frame. -/
theorem State.Reads.completes (h : s.Reads f) (last : n + 1 = f.length)
    (at_ : s.ReceivesAt (.inFrame r (f.take n) ((List.range 10).map (f.sentBit n))) u) :
    ∃ l, s.line.ReceivesAt .awaitGap l ∧ u.readClean (f.sentBit n 10) = s.receiveBit l (some f) := by
  obtain ⟨l, line, read⟩ := h.reads_stop (by omega) at_
  obtain ⟨_, short, length⟩ := Frame.shaped_iff.mp h.shaped
  have whole : f.take (n + 1) = f := by rw [last, List.take_length]
  refine ⟨{ l with rx := .awaitGap }, ?_, ?_⟩
  · unfold Line.ReceivesAt
    exact line ▸ rfl
  · rw [read, whole, Line.accept_last length]

/-- The bits of the first `n` characters bring the receiver to the opening of the next. -/
theorem State.Reads.takes_chars (h : s.Reads f) (at_ : s.line.rx = .inFrame r [] []) (n : Nat) (less : n < f.length) :
    s.ReceivesAt (.inFrame r (f.take n) [])
      (((List.range n).flatMap (fun char => (List.range 11).map (f.sentBit char))).foldl State.readClean s) := by
  induction n with
  | zero => exact ⟨rfl, by rw [List.take_zero, ← at_]; rfl⟩
  | succ n ih =>
    have opened := ih (by omega)
    have tenth := h.takes_bits (by omega) opened 10 le_rfl
    have next := h.takes_stop less tenth
    rw [List.range_succ (n := n), List.flatMap_append, List.foldl_append, List.flatMap_singleton, List.range_succ (n := 10),
      List.map_append, List.foldl_append]
    exact next

end

/-- Settles O41: the characters up to the last, then its bits, then its stop bit. -/
theorem framesAreReadAsSent : Obligations.FramesAreReadAsSent := by
  intro f r s shaped heard framing clash rx bits t before
  obtain ⟨three, _, _⟩ := Frame.shaped_iff.mp shaped
  obtain ⟨n, last⟩ : ∃ n, f.length = n + 1 := ⟨f.length - 1, by omega⟩
  have split : bits = ((List.range n).flatMap (fun char => (List.range 11).map (f.sentBit char)) ++
      (List.range 10).map (f.sentBit n)) ++ [f.sentBit n 10] := by
    simp only [bits, last, List.range_succ (n := n), List.flatMap_append, List.flatMap_singleton, List.range_succ (n := 10),
      List.map_append, List.map_singleton, List.append_assoc]
  have wholeRun : (s.line.sending = none ∨ s.line.sending = some f) →
      s.ReceivesAt (.inFrame r (f.take n) ((List.range 10).map (f.sentBit n))) before ∧
      ∃ l, s.line.ReceivesAt .awaitGap l ∧ t = s.receiveBit l (some f) := fun sending => by
    have reads : s.Reads f := ⟨shaped, heard, framing, clash, sending⟩
    have opened := reads.takes_chars rx n (by omega)
    have tenth := reads.takes_bits (by omega) opened 10 le_rfl
    have beforeAt : before = ((List.range 10).map (f.sentBit n)).foldl State.readClean
        (((List.range n).flatMap (fun char => (List.range 11).map (f.sentBit char))).foldl State.readClean s) := by
      rw [← List.foldl_append, ← List.dropLast_concat (l₁ := _ ++ _), ← split]
      rfl
    have tAt : t = before.readClean (f.sentBit n 10) := by
      rw [beforeAt, ← List.foldl_append]
      simp only [t, split, List.foldl_append]
      rfl
    rw [tAt, beforeAt]
    exact ⟨tenth, reads.completes last.symm tenth⟩
  refine ⟨fun other => ?_, fun own => ?_⟩
  · obtain ⟨⟨state, _⟩, l, line, completed⟩ := wholeRun (.inl other)
    have sending : l.sending.isSome = false := by rw [line, other]; rfl
    rw [completed, State.receiveBit]
    rw [sending, state, line]
    exact ⟨rfl, rfl, rfl, rfl, rfl⟩
  · obtain ⟨⟨state, line'⟩, l, line, completed⟩ := wholeRun (.inr own)
    have sending : l.sending.isSome = true := by rw [line, own]; rfl
    rw [completed, State.receiveBit]
    rw [sending, line', line]
    exact ⟨rfl, rfl, rfl, rfl, rfl, rfl, rfl, own⟩

end Sys2Proof.Machine
end

