-- ==== Sys2Proof/Proofs/GrantScan.lean ====
section
/-! The grant scan: the grants it makes, one for each channel that may be granted in its turn, and the channel it marks (O30). -/

namespace Sys2Proof.Machine

/-! ## A grant at its channel -/

/-- Channel `c` with the step at cursor `k` and RING index `index` started (R120). -/
def State.taken (s : State) (c : Nat) (k : Cursor) (index : Nat) : Channel :=
  let g := s.leg c k.leg
  let azimuth := g.azimuth k.step index
  let bias := biasOf s.wind.uEff s.wind.sector (s.channelCfg c).gain azimuth
  let aim := modN ((azimuth : Int) + bias) 3600
  { s.channel c with
    state := .slewing, cursor := some k, ringIndex := index, aim := some (aim, g.elevation k.step), bias := bias,
    dryFlag := s.inActiveArc c aim, slewTimer := some (seconds (s.channelCfg c).slewTimeout), valveTimer := none,
    dwellTimer := none, valve := false }

/-- The RING index once the cursor has come to leg `g` (R118). -/
def Leg.entryIndex (g : Leg) (ch : Channel) : Nat := if g.pattern = .ring then g.a0 else ch.ringIndex

/-- Where channel `c` starts when it is granted: at its cursor, or at step 0 of its first eligible leg (R128). -/
def State.entry (s : State) (c : Nat) : Option (Cursor × Nat) :=
  match (s.channel c).cursor with
  | some k => some (k, (s.channel c).ringIndex)
  | none => (s.eligibleFrom c 0).map (fun j => (⟨j, 0⟩, (s.leg c j).entryIndex (s.channel c)))

/-- From `s` to `t` channel `c` has started a step where it stood, or a pass; what its last fund and its mark are is left open. -/
def State.Starts (s t : State) (c : Nat) (k : Cursor) (index : Nat) : Prop :=
  s.entry c = some (k, index) ∧
    t.channel c = { s.taken c k index with lastFund := (t.channel c).lastFund, mark := (t.channel c).mark }

section
variable {s t u : State} {c d : Nat} {k : Cursor} {index : Nat}

theorem State.entry_of_some (h : (s.channel c).cursor = some k) : s.entry c = some (k, (s.channel c).ringIndex) := by
  rw [State.entry, h]

theorem State.entry_of_none (h : (s.channel c).cursor = none) : s.entry c =
    (s.eligibleFrom c 0).map (fun j => (⟨j, 0⟩, (s.leg c j).entryIndex (s.channel c))) := by
  rw [State.entry, h]

theorem State.started_eq_taken (c : Nat) (k : Cursor) (h : (s.channel c).cursor = some k) :
    s.started c k = s.taken c k (s.channel c).ringIndex := by
  unfold State.started State.taken State.stepAim
  dsimp only
  rw [← h]

/-- A step started reads the channel's own figures, and of the state what the sweep engine does not move. -/
theorem State.Within.taken (h : s.Within t) (bank : (t.channel c).bank = (s.channel c).bank) (k : Cursor) (index : Nat) :
    t.taken c k index = { t.channel c with
      state := .slewing, cursor := some k, ringIndex := index, aim := (s.taken c k index).aim, bias := (s.taken c k index).bias,
      dryFlag := (s.taken c k index).dryFlag, slewTimer := (s.taken c k index).slewTimer, valveTimer := none,
      dwellTimer := none, valve := false } := by
  have wind : t.wind = s.wind := h.only.wind
  unfold State.taken
  dsimp only
  rw [h.readsAs.leg bank, wind, h.readsAs.channelCfg, h.readsAs.inActiveArc]

/-- A grant starts its channel, with the new grant's fund as its last (R127, R128). -/
theorem State.grant_starts (h : s.hasStep c = true) (hc : c < s.sweep.channels.length) :
    ∃ k index, s.entry c = some (k, index) ∧
      (s.grant c).channel c = { s.taken c k index with lastFund := some (s.newGrant c).fund } := by
  have enlisted := s.enlist_channel hc
  have within := s.enlist_within c
  have inList : c < (s.enlist c).sweep.channels.length := by rw [within.length]; exact hc
  have bank : ((s.enlist c).channel c).bank = (s.channel c).bank := by rw [enlisted]
  rw [State.grant_eq]
  cases cursor : (s.channel c).cursor with
  | some k =>
    have cursor' : ((s.enlist c).channel c).cursor = some k := by rw [enlisted]; exact cursor
    refine ⟨k, _, State.entry_of_some cursor, ?_⟩
    rw [State.beginPass_of_some _ cursor', State.startStep_channel _ cursor', State.started_eq_taken _ _ cursor',
      within.taken bank, enlisted]
    rfl
  | none =>
    have cursor' : ((s.enlist c).channel c).cursor = none := by rw [enlisted]; exact cursor
    have work : s.hasWork c = true := by
      rw [State.hasStep, cursor] at h
      exact h
    obtain ⟨j, first⟩ := Option.isSome_iff_exists.mp work
    have first' : (s.enlist c).eligibleFrom c 0 = some j := by rw [within.readsAs.eligibleFrom bank, first]
    have moved := State.moveToLeg_channel (s.enlist c) j inList
    have leg := within.readsAs.leg bank j
    have begun : (((s.enlist c).moveToLeg c j).channel c).cursor = some ⟨j, 0⟩ := by rw [moved]
    have all := within.trans ((s.enlist c).moveToLeg_within c j)
    refine ⟨⟨j, 0⟩, _, by rw [State.entry_of_none cursor, first]; rfl, ?_⟩
    rw [State.beginPass_of_eligible _ cursor' first', State.startStep_channel _ begun, State.started_eq_taken _ _ begun,
      all.taken (by rw [moved]; exact bank), moved, enlisted, leg]
    rfl

theorem State.Starts.trans (h : s.Starts t c k index) (within : s.Within t) {k' : Cursor} {index' : Nat}
    (next : t.Starts u c k' index') : s.Starts u c k index := by
  obtain ⟨entry, channel⟩ := h
  obtain ⟨entry', channel'⟩ := next
  have cursor : (t.channel c).cursor = some k := by rw [channel]; rfl
  have ring : (t.channel c).ringIndex = index := by rw [channel]; rfl
  have bank : (t.channel c).bank = (s.channel c).bank := by rw [channel]; rfl
  rw [State.entry_of_some cursor, ring, Option.some.injEq, Prod.mk.injEq] at entry'
  obtain ⟨rfl, rfl⟩ := entry'
  refine ⟨entry, ?_⟩
  rw [channel', within.taken bank, channel]
  rfl

theorem State.Starts.of_channel (h : s.Starts t c k index)
    (same : u.channel c = { t.channel c with lastFund := (u.channel c).lastFund, mark := (u.channel c).mark }) :
    s.Starts u c k index := by
  obtain ⟨entry, channel⟩ := h
  refine ⟨entry, ?_⟩
  rw [same, channel]

theorem State.Starts.state (h : s.Starts t c k index) : (t.channel c).state = .slewing := by rw [h.2]; rfl

theorem State.Starts.cursor (h : s.Starts t c k index) : (t.channel c).cursor = some k := by rw [h.2]; rfl

theorem State.Starts.ringIndex (h : s.Starts t c k index) : (t.channel c).ringIndex = index := by rw [h.2]; rfl

theorem State.Starts.bank (h : s.Starts t c k index) :
    (t.channel c).bank = (s.channel c).bank ∧ (t.channel c).swapPending = (s.channel c).swapPending := by
  rw [h.2]
  exact ⟨rfl, rfl⟩

/-- A channel left as it was but for its last fund and its mark starts where it stood. -/
theorem State.Starts.of_before (within : s.Within t)
    (same : t.channel c = { s.channel c with lastFund := (t.channel c).lastFund, mark := (t.channel c).mark })
    (h : t.Starts u c k index) : s.Starts u c k index := by
  obtain ⟨entry, channel⟩ := h
  have bank : (t.channel c).bank = (s.channel c).bank := by rw [same]
  have cursor : (t.channel c).cursor = (s.channel c).cursor := by rw [same]
  have ring : (t.channel c).ringIndex = (s.channel c).ringIndex := by rw [same]
  refine ⟨?_, ?_⟩
  · rw [← entry, State.entry, State.entry, cursor, ring, within.readsAs.eligibleFrom bank]
    cases (s.channel c).cursor with
    | some k => rfl
    | none =>
      dsimp only
      congr 1
      funext j
      rw [within.readsAs.leg bank, Leg.entryIndex, Leg.entryIndex, ring]
  · rw [channel, within.taken bank, same]
    rfl

end

/-! ## The walk -/

/-- The grants that a walk over `l` makes, in its order (R128). -/
def State.newGrants (s : State) : List Nat → List Grant
  | [] => []
  | c :: l => if s.grantable c then s.newGrant c :: (s.grant c).newGrants l else s.newGrants l

section
variable {s t : State} {c d : Nat} {l : List Nat}

theorem State.scanWalk_cons_of_grantable (h : s.grantable c = true) (l : List Nat) :
    s.scanWalk (c :: l) = (s.grant c).scanWalk l := by
  rw [State.scanWalk, List.foldl_cons, if_pos h]
  rfl

theorem State.scanWalk_cons_of_refused (h : ¬ s.grantable c = true) (l : List Nat) : s.scanWalk (c :: l) = s.scanWalk l := by
  rw [State.scanWalk, List.foldl_cons, if_neg h]
  rfl

theorem State.newGrants_cons_of_grantable (h : s.grantable c = true) (l : List Nat) :
    s.newGrants (c :: l) = s.newGrant c :: (s.grant c).newGrants l := if_pos h

theorem State.newGrants_cons_of_refused (h : ¬ s.grantable c = true) (l : List Nat) : s.newGrants (c :: l) = s.newGrants l :=
  if_neg h

theorem State.newGrant_channel (s : State) (c : Nat) : (s.newGrant c).channel = c := rfl

/-- A walk and the grants it makes, by the channels refused and granted in turn. -/
theorem State.walk_induction {P : State → List Nat → State → List Grant → Prop} (nil : ∀ s, P s [] s [])
    (refuse : ∀ s c l, s.grantable c = false → P s l (s.scanWalk l) (s.newGrants l) →
      P s (c :: l) (s.scanWalk l) (s.newGrants l))
    (grant : ∀ s c l, s.grantable c = true → P (s.grant c) l ((s.grant c).scanWalk l) ((s.grant c).newGrants l) →
      P s (c :: l) ((s.grant c).scanWalk l) (s.newGrant c :: (s.grant c).newGrants l))
    (s : State) (l : List Nat) : P s l (s.scanWalk l) (s.newGrants l) := by
  induction l generalizing s with
  | nil => exact nil s
  | cons c l ih =>
    by_cases h : s.grantable c = true
    · rw [State.scanWalk_cons_of_grantable h, State.newGrants_cons_of_grantable h]
      exact grant s c l h (ih _)
    · rw [State.scanWalk_cons_of_refused h, State.newGrants_cons_of_refused h]
      exact refuse s c l (Bool.not_eq_true _ ▸ h) (ih _)

theorem State.newGrants_sublist (s : State) (l : List Nat) : ((s.newGrants l).map Grant.channel).Sublist l :=
  State.walk_induction (P := fun _ l _ g => (g.map Grant.channel).Sublist l) (fun _ => .slnil)
    (fun _ _ _ _ ih => ih.cons _) (fun _ _ _ _ ih => ih.cons_cons _) s l

theorem State.scanWalk_grants (s : State) (l : List Nat) : (s.scanWalk l).sweep.grants.Perm (s.sweep.grants ++ s.newGrants l) :=
  State.walk_induction (P := fun s _ t g => t.sweep.grants.Perm (s.sweep.grants ++ g))
    (fun s => by rw [List.append_nil])
    (fun _ _ _ _ ih => ih)
    (fun s c l _ ih => by
      rw [State.grant_grants] at ih
      exact ih.trans (((s.insertGrant_perm _ _).append_right _).trans List.perm_middle.symm)) s l

theorem State.scanWalk_waiting (s : State) (l : List Nat) : (s.scanWalk l).sweep.waiting =
    s.sweep.waiting.filter (fun d => decide (d ∉ (s.newGrants l).map Grant.channel)) :=
  State.walk_induction (P := fun s _ t g => t.sweep.waiting = s.sweep.waiting.filter (fun d => decide (d ∉ g.map Grant.channel)))
    (fun s => by simp)
    (fun _ _ _ _ ih => ih)
    (fun s c l _ ih => by
      rw [ih, State.grant_waiting, List.filter_filter]
      congr 1
      funext d
      simp only [List.map_cons, State.newGrant_channel, List.mem_cons, not_or, bne, Bool.decide_and, decide_not, Bool.and_comm]
      rfl) s l

theorem State.scanWalk_notices (s : State) (l : List Nat) :
    (s.scanWalk l).water.gtNotices = s.water.gtNotices + (s.newGrants l).length :=
  State.walk_induction (P := fun s _ t g => t.water.gtNotices = s.water.gtNotices + g.length)
    (fun _ => rfl)
    (fun _ _ _ _ ih => ih)
    (fun s c l _ ih => by rw [ih, State.grant_notices, List.length_cons, Nat.add_right_comm, Nat.add_assoc]) s l

theorem State.scanWalk_channel_of_notMem (s : State) (l : List Nat) : ∀ d, d ∉ (s.newGrants l).map Grant.channel →
    (s.scanWalk l).channel d = s.channel d :=
  State.walk_induction (P := fun s _ t g => ∀ d, d ∉ g.map Grant.channel → t.channel d = s.channel d)
    (fun _ _ _ => rfl)
    (fun _ _ _ _ ih => ih)
    (fun s c l _ ih d hd => by
      rw [List.map_cons, List.mem_cons, not_or] at hd
      rw [ih d hd.2]
      exact s.grant_channel_of_ne hd.1) s l

/-- Every channel that a walk grants has started a step. -/
theorem State.scanWalk_starts (s : State) (l : List Nat) : (∀ c ∈ l, c < s.sweep.channels.length) →
    ∀ d ∈ (s.newGrants l).map Grant.channel, ∃ k index, s.Starts (s.scanWalk l) d k index := by
  refine State.walk_induction (P := fun s l t g => (∀ c ∈ l, c < s.sweep.channels.length) →
    ∀ d ∈ g.map Grant.channel, ∃ k index, s.Starts t d k index) (fun _ _ d hd => by cases hd) ?_ ?_ s l
  · exact fun s c l _ ih less d hd => ih (fun e he => less e (List.mem_cons_of_mem _ he)) d hd
  · intro s c l granted ih less d hd
    have within := s.grant_within c
    obtain ⟨k, index, entry, channel⟩ := State.grant_starts (State.hasStep_of_grantable granted) (less c List.mem_cons_self)
    have starts : s.Starts (s.grant c) c k index := ⟨entry, by rw [channel]⟩
    have rest := ih (fun e he => by rw [within.length]; exact less e (List.mem_cons_of_mem _ he))
    by_cases later : d ∈ ((s.grant c).newGrants l).map Grant.channel
    · obtain ⟨k', index', next⟩ := rest d later
      by_cases same : d = c
      · subst same
        exact ⟨k, index, starts.trans within next⟩
      · exact ⟨k', index', .of_before within (by rw [s.grant_channel_of_ne same]) next⟩
    · rcases List.mem_cons.mp hd with rfl | hd
      · refine ⟨k, index, starts.of_channel ?_⟩
        rw [State.scanWalk_channel_of_notMem _ _ _ later]
      · exact absurd hd later

theorem State.newGrant_fund (s : State) (c : Nat) : (s.newGrant c).fund = .fresh ↔ s.sweep.sR < s.granted + s.flow c := by
  unfold State.newGrant
  dsimp only
  split
  next past => exact iff_of_true rfl past
  next within => exact iff_of_false (by decide) within

/-- A new grant's fund is FRESH when G_t with its flow exceeds S_r (R127). -/
theorem State.newGrants_fund (s : State) (l : List Nat) : ∀ (i : Nat) (g : Grant), (s.newGrants l)[i]? = some g →
    (g.fund = .fresh ↔ s.sweep.sR < s.granted + s.flowOf ((s.newGrants l).take (i + 1))) := by
  refine State.walk_induction (P := fun s _ _ gs => ∀ (i : Nat) (g : Grant), gs[i]? = some g →
    (g.fund = .fresh ↔ s.sweep.sR < s.granted + s.flowOf (gs.take (i + 1)))) (fun _ i g hg => by cases hg) ?_ ?_ s l
  · exact fun _ _ _ _ ih => ih
  · intro s c l _ ih i g hg
    have within := s.grant_within c
    rw [List.take_succ_cons, State.flowOf_cons, State.newGrant_channel]
    cases i with
    | zero =>
      rw [List.getElem?_cons_zero, Option.some.injEq] at hg
      rw [← hg, State.newGrant_fund]
      rfl
    | succ i =>
      rw [List.getElem?_cons_succ] at hg
      rw [ih i g hg, within.sR, State.granted_grant, within.readsAs.flowOf, Nat.add_assoc]

/-- The last fund of a channel granted is that of its grant (R127). -/
theorem State.scanWalk_lastFund (s : State) (l : List Nat) : l.Nodup → (∀ c ∈ l, c < s.sweep.channels.length) →
    ∀ g ∈ s.newGrants l, ((s.scanWalk l).channel g.channel).lastFund = some g.fund := by
  refine State.walk_induction (P := fun s l t gs => l.Nodup → (∀ c ∈ l, c < s.sweep.channels.length) →
    ∀ g ∈ gs, (t.channel g.channel).lastFund = some g.fund) (fun _ _ _ g hg => by cases hg) ?_ ?_ s l
  · exact fun s c l _ ih nodup less => ih nodup.of_cons (fun e he => less e (List.mem_cons_of_mem _ he))
  · intro s c l granted ih nodup less g hg
    rcases List.mem_cons.mp hg with rfl | hg
    · obtain ⟨k, index, _, channel⟩ := State.grant_starts (State.hasStep_of_grantable granted) (less c List.mem_cons_self)
      have notLater : c ∉ ((s.grant c).newGrants l).map Grant.channel :=
        fun later => (List.nodup_cons.mp nodup).1 ((State.newGrants_sublist _ _).subset later)
      rw [State.newGrant_channel, State.scanWalk_channel_of_notMem _ _ _ notLater, channel]
    · exact ih nodup.of_cons (fun e he => by rw [(s.grant_within c).length]; exact less e (List.mem_cons_of_mem _ he)) g hg

/-- In a list in order of priority a grant comes behind those of its own priority (R127). -/
theorem State.insertGrant_filter {gs : List Grant} (h : s.GrantsDescend gs) (g : Grant) (p : Level) :
    (s.insertGrant g gs).filter (fun h => decide (s.priority h.channel = p)) =
      gs.filter (fun h => decide (s.priority h.channel = p)) ++ [g].filter (fun h => decide (s.priority h.channel = p)) := by
  have behind : s.priority g.channel = p →
      (gs.dropWhile (fun h => decide ((s.priority g.channel).num ≤ (s.priority h.channel).num))).filter
        (fun h => decide (s.priority h.channel = p)) = [] := by
    rintro rfl
    rw [List.filter_eq_nil_iff]
    intro other below same
    rw [decide_eq_true_eq] at same
    obtain ⟨first, rest, split⟩ : ∃ first rest, gs.dropWhile
        (fun h => decide ((s.priority g.channel).num ≤ (s.priority h.channel).num)) = first :: rest :=
      List.exists_cons_of_ne_nil (List.ne_nil_of_mem below)
    have lower : ¬ (s.priority g.channel).num ≤ (s.priority first.channel).num := by
      have stops := List.head_dropWhile_not (fun h : Grant => decide ((s.priority g.channel).num ≤ (s.priority h.channel).num))
        (by rw [split]; exact List.cons_ne_nil _ _)
      simpa [split] using stops
    have descends : s.GrantsDescend (first :: rest) := split ▸ List.Pairwise.sublist (List.dropWhile_sublist _) h
    rw [split] at below
    rcases List.mem_cons.mp below with rfl | later
    · exact lower (by rw [same])
    · have := (List.pairwise_cons.mp descends).1 other later
      rw [same] at this
      exact lower this
  have whole := List.takeWhile_append_dropWhile
    (p := fun h : Grant => decide ((s.priority g.channel).num ≤ (s.priority h.channel).num)) (l := gs)
  conv_rhs => rw [← whole]
  rw [State.insertGrant, List.filter_append, List.filter_append, List.filter_cons, List.filter_singleton]
  by_cases own : s.priority g.channel = p
  · rw [if_pos (decide_eq_true own), behind own, decide_eq_true own, List.append_nil]
    rfl
  · rw [if_neg (by simpa using own), decide_eq_false own, cond_false, List.append_nil]

/-- Within a priority the new grants stand behind the old, in the order of the walk (R127). -/
theorem State.scanWalk_filter (s : State) (l : List Nat) (p : Level) : s.GrantsDescend s.sweep.grants →
    (s.scanWalk l).sweep.grants.filter (fun g => decide (s.priority g.channel = p)) =
      s.sweep.grants.filter (fun g => decide (s.priority g.channel = p)) ++
        (s.newGrants l).filter (fun g => decide (s.priority g.channel = p)) := by
  refine State.walk_induction (P := fun s _ t gs => s.GrantsDescend s.sweep.grants →
    t.sweep.grants.filter (fun g => decide (s.priority g.channel = p)) =
      s.sweep.grants.filter (fun g => decide (s.priority g.channel = p)) ++
        gs.filter (fun g => decide (s.priority g.channel = p)))
    (fun s _ => by rw [List.filter_nil, List.append_nil]) (fun _ _ _ _ ih => ih) ?_ s l
  intro s c l _ ih descends
  have same := s.grant_samePriority c
  have granted : (s.grant c).GrantsDescend (s.grant c).sweep.grants := by
    rw [State.grant_grants]
    exact same.grantsDescend (s.insertGrant_descends _ descends)
  have step := ih granted
  simp only [same _] at step
  rw [step, State.grant_grants, State.insertGrant_filter descends, List.append_assoc]
  congr 1
  rw [← List.filter_append]
  rfl

/-! ## What may not be granted -/

/-- What the grant test and the choice of the channel to mark read is the same in `t`. -/
structure State.JudgesAs (s t : State) : Prop where
  within : s.Within t
  priority : s.SamePriority t
  grants : t.sweep.grants = s.sweep.grants
  waiting : t.sweep.waiting = s.sweep.waiting
  cursor : ∀ c, (t.channel c).cursor = (s.channel c).cursor
  bank : ∀ c, (t.channel c).bank = (s.channel c).bank

theorem State.JudgesAs.fits (h : s.JudgesAs t) (c total : Nat) (others : List Grant) : t.fits c total others = s.fits c total others := by
  rw [Bool.eq_iff_iff, State.fits_iff, State.fits_iff, h.within.sR, h.within.sF, h.within.readsAs.flow, h.priority c]
  simp only [h.priority _]

theorem State.JudgesAs.granted (h : s.JudgesAs t) : t.granted = s.granted := by
  rw [State.granted, State.granted, h.grants, h.within.readsAs.flowOf]

theorem State.JudgesAs.grantable (h : s.JudgesAs t) (c : Nat) : t.grantable c = s.grantable c := by
  unfold State.grantable State.hasStep
  rw [h.cursor, h.within.readsAs.hasWork (h.bank c), h.waiting, h.fits, h.granted, h.grants]
  simp only [h.priority _]

theorem State.JudgesAs.preempted (h : s.JudgesAs t) : t.preempted = s.preempted := by
  unfold State.preempted State.candidate
  rw [h.waiting, h.grants]
  simp only [h.priority _, h.fits, h.granted, h.within.readsAs.flow]

theorem State.remark_judgesAs (s : State) : s.JudgesAs s.remark where
  within := s.remark_within
  priority := s.remark_samePriority
  grants := rfl
  waiting := rfl
  cursor c := by rw [State.remark_channel]
  bank c := by rw [State.remark_channel]

/-- A grant of another channel makes none grantable that was not, with the same channels waiting ahead of it (R128). -/
theorem State.grantable_of_grant (other : d ≠ c)
    (ahead : (s.grant c).sweep.waiting.takeWhile (fun e => e != d) = s.sweep.waiting.takeWhile (fun e => e != d))
    (h : (s.grant c).grantable d = true) : s.grantable d = true := by
  have within := s.grant_within c
  have same := s.grant_samePriority c
  have channel : (s.grant c).channel d = s.channel d := s.grant_channel_of_ne other
  unfold State.grantable State.hasStep at h ⊢
  rw [channel, within.readsAs.hasWork (by rw [channel]), ahead] at h
  simp only [same _, Bool.and_eq_true, State.fits_iff, within.sR, within.sF, within.readsAs.flow, State.granted_grant,
    State.grant_grants] at h ⊢
  obtain ⟨stepAndAhead, fits⟩ := h
  refine ⟨stepAndAhead, ?_⟩
  rcases fits with room | ⟨heavy, all, room⟩
  · exact .inl (by omega)
  · refine .inr ⟨heavy, fun g hg => all g ?_, by omega⟩
    exact (s.insertGrant_perm _ _).mem_iff.mpr (List.mem_cons_of_mem _ hg)

/-- A walk in the waiting order leaves none waiting that could still be granted (R128). -/
theorem State.scanWalk_refuses (l : List Nat) : ∀ (s : State) (refused : List Nat), s.sweep.waiting = refused ++ l →
    s.sweep.waiting.Nodup → (∀ c ∈ refused, s.grantable c = false) →
    ∀ c ∈ (s.scanWalk l).sweep.waiting, (s.scanWalk l).grantable c = false := by
  induction l with
  | nil =>
    intro s refused waiting _ none c hc
    rw [show (s.scanWalk []) = s from rfl, waiting, List.append_nil] at hc
    exact none c hc
  | cons c l ih =>
    intro s refused waiting nodup none
    by_cases granted : s.grantable c = true
    · rw [State.scanWalk_cons_of_grantable granted]
      have apart : c ∉ refused ∧ c ∉ l := by
        rw [waiting, List.nodup_middle, List.nodup_cons, List.mem_append, not_or] at nodup
        exact nodup.1
      have rest : (s.grant c).sweep.waiting = refused ++ l := by
        rw [State.grant_waiting, waiting, List.filter_append, List.filter_cons]
        simp only [bne_self_eq_false, Bool.false_eq_true, if_false]
        rw [List.filter_eq_self.mpr, List.filter_eq_self.mpr]
        · exact fun d hd => bne_iff_ne.mpr (fun same => apart.2 (same ▸ hd))
        · exact fun d hd => bne_iff_ne.mpr (fun same => apart.1 (same ▸ hd))
      refine ih (s.grant c) refused rest (by rw [State.grant_waiting]; exact nodup.filter _) (fun d hd => ?_)
      rw [← Bool.not_eq_true]
      intro grantable
      refine absurd (State.grantable_of_grant (by rintro rfl; exact apart.1 hd) ?_ grantable) (by rw [none d hd]; decide)
      have before : ∀ m : List Nat, (refused ++ m).takeWhile (fun e => e != d) = refused.takeWhile (fun e => e != d) := by
        intro m
        rw [List.takeWhile_append, if_neg]
        intro whole
        have all := (List.takeWhile_prefix (fun e => e != d) (l := refused)).sublist.eq_of_length whole
        have kept := List.mem_takeWhile_imp (all.symm ▸ hd)
        exact absurd kept (by simp)
      rw [rest, waiting, before, before]
    · rw [State.scanWalk_cons_of_refused granted]
      refine ih s (refused ++ [c]) (by rw [waiting, List.append_assoc]; rfl) nodup (fun d hd => ?_)
      rcases List.mem_append.mp hd with hd | hd
      · exact none d hd
      · rw [List.mem_singleton.mp hd]
        exact Bool.not_eq_true _ ▸ granted

/-! ## A grant scan -/

theorem State.grantScan_of_auto (auto : s.station.mode = .auto) : s.grantScan = (s.scanWalk s.sweep.waiting).remark := if_pos auto

/-- What a grant scan does to the lists and the channels: it grants the channels of `l`, and the others keep all but their marks. -/
structure State.Scan (s t : State) (l : List Grant) : Prop where
  within : s.Within t
  grants : t.sweep.grants.Perm (s.sweep.grants ++ l)
  waiting : t.sweep.waiting = s.sweep.waiting.filter (fun d => decide (d ∉ l.map Grant.channel))
  sublist : (l.map Grant.channel).Sublist s.sweep.waiting
  notices : t.water.gtNotices = s.water.gtNotices + l.length
  other : ∀ d, d ∉ l.map Grant.channel → t.channel d = { s.channel d with mark := (t.channel d).mark }
  starts : ∀ d ∈ l.map Grant.channel, ∃ k index, s.Starts t d k index

theorem State.Scan.refl (s : State) : s.Scan s [] where
  within := .refl s
  grants := by rw [List.append_nil]
  waiting := by simp
  sublist := List.nil_sublist _
  notices := rfl
  other _ _ := rfl
  starts _ h := by cases h

theorem State.scanWalk_scan (inPlan : ∀ c ∈ s.sweep.waiting, c < s.sweep.channels.length) :
    s.Scan (s.scanWalk s.sweep.waiting).remark (s.newGrants s.sweep.waiting) where
  within := (s.scanWalk_within _).trans (State.remark_within _)
  grants := s.scanWalk_grants _
  waiting := s.scanWalk_waiting _
  sublist := s.newGrants_sublist _
  notices := s.scanWalk_notices _
  other d hd := by rw [State.remark_channel, s.scanWalk_channel_of_notMem _ d hd]
  starts d hd := by
    obtain ⟨k, index, starts⟩ := s.scanWalk_starts _ inPlan d hd
    exact ⟨k, index, starts.of_channel (by rw [State.remark_channel])⟩

theorem State.grantScan_scan (inPlan : ∀ c ∈ s.sweep.waiting, c < s.sweep.channels.length) :
    ∃ l, s.Scan s.grantScan l ∧ (s.station.mode ≠ .auto → l = []) := by
  by_cases auto : s.station.mode = .auto
  · rw [State.grantScan_of_auto auto]
    exact ⟨_, State.scanWalk_scan inPlan, fun other => absurd auto other⟩
  · rw [State.grantScan_of_not_auto auto]
    exact ⟨[], .refl s, fun _ => rfl⟩

theorem State.Tells.inPlan (h : s.Tells) : ∀ c ∈ s.sweep.waiting, c < s.sweep.channels.length :=
  fun c hc => State.lt_length_of_waits ((h.waiting.mem c).mp hc)

end

/-! ## The obligation -/

section
variable {s : State}

theorem State.grantable_iff (c : Nat) (s : State) : s.grantable c = true ↔
    ((s.channel c).cursor.isSome = true ∨ s.hasWork c = true) ∧
    (∀ d ∈ s.sweep.waiting.takeWhile (fun d => decide (d ≠ c)), (s.priority d).num ≤ (s.priority c).num) ∧
    s.fits c s.granted s.sweep.grants = true := by
  have ahead : (fun d : Nat => d != c) = fun d => decide (d ≠ c) := by
    funext d
    rw [Bool.eq_iff_iff, bne_iff_ne, decide_eq_true_iff]
  simp only [State.grantable, State.hasStep, Bool.and_eq_true, Bool.or_eq_true, List.all_eq_true, decide_eq_true_eq, ahead,
    and_assoc]

theorem State.candidate_iff {claimant : Nat} {g : Grant} : s.candidate claimant g = true ↔
    (s.priority g.channel).num < (s.priority claimant).num ∧
    s.fits claimant (s.granted - s.flow g.channel) (s.sweep.grants.filter (fun h => decide (h.channel ≠ g.channel))) = true := by
  have others : (fun h : Grant => h.channel != g.channel) = fun h => decide (h.channel ≠ g.channel) := by
    funext h
    rw [Bool.eq_iff_iff, bne_iff_ne, decide_eq_true_iff]
  simp only [State.candidate, Bool.and_eq_true, decide_eq_true_eq, others]

/-- The last element of a list that passes a test, with the list around it. -/
theorem getLast?_filter_eq_some {α : Type} {p : α → Bool} {l : List α} {a : α} (h : (l.filter p).getLast? = some a) :
    ∃ before after, l = before ++ a :: after ∧ p a = true ∧ ∀ b ∈ after, p b = false := by
  induction l with
  | nil => cases h
  | cons x l ih =>
    by_cases later : l.filter p = []
    · rw [List.filter_eq_nil_iff] at later
      have none : l.filter p = [] := List.filter_eq_nil_iff.mpr later
      by_cases passes : p x = true
      · rw [List.filter_cons_of_pos passes, none, List.getLast?_singleton, Option.some.injEq] at h
        exact ⟨[], l, by rw [h]; rfl, h ▸ passes, fun b hb => Bool.not_eq_true _ ▸ later b hb⟩
      · rw [List.filter_cons_of_neg passes, none] at h
        cases h
    · have inRest : (l.filter p).getLast? = some a := by
        by_cases passes : p x = true
        · rw [List.filter_cons_of_pos passes, List.getLast?_cons, List.getLast?_eq_some_getLast later, Option.getD_some] at h
          rw [List.getLast?_eq_some_getLast later, h]
        · rwa [List.filter_cons_of_neg passes] at h
      obtain ⟨before, after, split, passes, none⟩ := ih inRest
      exact ⟨x :: before, after, by rw [split]; rfl, passes, none⟩

/-- The marks are set anew at the end of a scan (R131). -/
theorem State.remark_mark {c : Nat} (h : c < s.sweep.channels.length) :
    (s.remark.channel c).mark = decide (s.preempted = some c) := by
  have h' : c < s.remark.sweep.channels.length := by rwa [s.remark_within.length]
  rw [State.channel_eq_getElem h']
  simp only [State.remark, State.setSweep_sweep, List.getElem_mapIdx]

theorem State.preempted_of_cons {claimant : Nat} {rest : List Nat} (h : s.sweep.waiting = claimant :: rest) :
    s.preempted = ((s.sweep.grants.filter (fun v => s.candidate claimant v)).getLast?).map Grant.channel := by
  rw [State.preempted, h]

end

/-- Settles O30: the grant test, the choice of the channel to mark, and the walk. -/
theorem scanGrantsWhatFits : Obligations.ScanGrantsWhatFits := by
  delta Obligations.ScanGrantsWhatFits
  intro fits
  have fits_iff : ∀ (s : State) c total others, s.fits c total others = true ↔ fits s c total others :=
    fun s c total others => State.fits_iff c total others
  refine ⟨fun c s => ?_, fun s none => ?_, ?_, ?_⟩
  · rw [State.grantable_iff, fits_iff]
  · rw [State.preempted, none]
  · intro claimant rest s waiting candidate
    have candidate_iff : ∀ g, s.candidate claimant g = true ↔ candidate g := fun g => by rw [State.candidate_iff, fits_iff]
    rw [State.preempted_of_cons waiting]
    refine ⟨?_, fun v marked => ?_⟩
    · rw [Option.map_eq_none_iff, List.getLast?_eq_none_iff, List.filter_eq_nil_iff]
      simp only [candidate_iff]
    · obtain ⟨g, last, rfl⟩ := Option.map_eq_some_iff.mp marked
      obtain ⟨before, after, split, passes, none⟩ := getLast?_filter_eq_some last
      have later : ∀ h ∈ after, ¬ candidate h := fun h hh => by rw [← candidate_iff, none h hh]; decide
      refine ⟨before, g, after, split, rfl, (candidate_iff g).mp passes, later, fun descends h hh passesToo => ?_⟩
      rw [split] at hh descends
      rcases List.mem_append.mp hh with earlier | hh
      · exact (List.pairwise_append.mp descends).2.2 h earlier g List.mem_cons_self
      · rcases List.mem_cons.mp hh with rfl | hh
        · exact le_rfl
        · exact absurd passesToo (later h hh)
  · intro s auto tells t
    have tells := State.ordersTell_iff.mp tells
    have tellsAfter : t.Tells := tells.grantScan
    have scanned : t = (s.scanWalk s.sweep.waiting).remark := State.grantScan_of_auto auto
    have scan : s.Scan t (s.newGrants s.sweep.waiting) := by
      rw [scanned]
      exact State.scanWalk_scan tells.inPlan
    have judges := State.remark_judgesAs (s.scanWalk s.sweep.waiting)
    have fresh : ∀ c ∈ s.sweep.waiting, c ∉ s.sweep.grants.map Grant.channel := by
      intro c waits granted
      have runs := (tells.grants.mem c).mp granted
      exact absurd ((tells.waiting.mem c).mp waits) (by rw [ChannelState.waits_eq_false_of_runs runs]; decide)
    have granted_iff : ∀ c ∈ s.sweep.waiting, (t.isGranted c = true ↔ c ∈ (s.newGrants s.sweep.waiting).map Grant.channel) := by
      intro c waits
      have all : t.isGranted c = true ↔ c ∈ t.sweep.grants.map Grant.channel := by
        simp only [State.isGranted, List.any_eq_true, beq_iff_eq, List.mem_map]
      rw [all, (scan.grants.map Grant.channel).mem_iff, List.map_append, List.mem_append]
      exact or_iff_right (fresh c waits)
    have waiting : t.sweep.waiting = s.sweep.waiting.filter (fun c => !t.isGranted c) := by
      rw [scan.waiting]
      refine List.filter_congr (fun c hc => ?_)
      rw [Bool.eq_iff_iff, decide_eq_true_iff, ← granted_iff c hc, Bool.not_eq_true', Bool.not_eq_true]
    refine ⟨scan.within.only, fun c hc => ⟨?_, ?_⟩, fun c hc => ?_, fun g hg => ?_, waiting,
      ⟨s.newGrants s.sweep.waiting, scan.sublist, scan.grants, s.newGrants_fund _, fun orders => ⟨?_, fun p => ?_⟩⟩,
      fun g hg => ?_, ?_, fun c hc => ?_⟩
    · rw [scan.waiting] at hc
      exact (List.mem_filter.mp hc).1
    · rw [scanned, judges.grantable]
      rw [scanned, judges.waiting] at hc
      exact State.scanWalk_refuses _ s [] rfl tells.waiting.nodup (fun _ h => by cases h) c hc
    · by_cases granted : t.isGranted c = true
      · right
        rw [(scan.grants.map Grant.channel).mem_iff, List.map_append]
        exact List.mem_append_right _ ((granted_iff c hc).mp granted)
      · left
        rw [waiting, List.mem_filter]
        rw [Bool.not_eq_true] at granted
        exact ⟨hc, by rw [granted]; rfl⟩
    · exact scan.grants.mem_iff.mpr (List.mem_append_left _ hg)
    · exact ⟨(State.Descends.grantScan ⟨orders.1, orders.2⟩).grants, (State.Descends.grantScan ⟨orders.1, orders.2⟩).waiting⟩
    · rw [scanned, judges.grants]
      exact s.scanWalk_filter _ p orders.1
    · rcases List.mem_append.mp (scan.grants.mem_iff.mp hg) with old | new
      · exact .inl old
      · right
        have named : g.channel ∈ (s.newGrants s.sweep.waiting).map Grant.channel := List.mem_map_of_mem new
        obtain ⟨k, index, _, channel⟩ := scan.starts g.channel named
        refine ⟨scan.sublist.subset named, by rw [channel]; rfl, by rw [channel]; rfl, ?_⟩
        rw [scanned, State.remark_channel]
        exact s.scanWalk_lastFund _ tells.waiting.nodup tells.inPlan g new
    · have count := scan.grants.length_eq
      rw [List.length_append] at count
      rw [scan.notices, count]
      omega
    · have preempted : t.preempted = (s.scanWalk s.sweep.waiting).preempted := by rw [scanned, judges.preempted]
      rw [scanned, (s.scanWalk s.sweep.waiting).remark_within.length] at hc
      rw [preempted, scanned, State.remark_mark hc, decide_eq_true_iff]

end Sys2Proof.Machine
end

