-- ==== Sys2Proof/Proofs/ChannelEvents.lean ====
section
/-! What an event of the sweep engine leaves of a channel: the channels treated in turn, the wind hold (O10), a fault (O33). -/

namespace Sys2Proof.Machine

/-! ## Channels treated in turn -/

/-- A channel as it was but for its last grant fund. -/
def Channel.Refunded (ch ch' : Channel) : Prop := ch' = { ch with lastFund := ch'.lastFund }

theorem Channel.Refunded.refl (ch : Channel) : ch.Refunded ch := rfl

theorem Channel.Refunded.trans {x y z : Channel} (h : x.Refunded y) (k : y.Refunded z) : x.Refunded z := by
  unfold Channel.Refunded at *
  rw [k, h]

section
variable {s t : State} {c d : Nat} {f : State → Nat → State}

/-- When the channels of a list are treated in turn, and each treatment leaves the other channels what they are up to `R`, a channel of
the list is treated as it stood, and stays as its treatment left it. -/
theorem State.fold_channel {R : Channel → Channel → Prop} (refl : ∀ x, R x x) (trans : ∀ {x y z}, R x y → R y z → R x z)
    (within : ∀ (s : State) (c : Nat), s.Within (f s c))
    (other : ∀ (s : State) (c d : Nat), d ≠ c → R (s.channel d) ((f s c).channel d)) (l : List Nat) :
    ∀ (s : State), l.Nodup → ∀ d,
      (d ∉ l → R (s.channel d) ((l.foldl f s).channel d)) ∧
      (d ∈ l → ∃ t, s.Within t ∧ R (s.channel d) (t.channel d) ∧ R ((f t d).channel d) ((l.foldl f s).channel d)) := by
  induction l with
  | nil => exact fun s _ d => ⟨fun _ => refl _, fun h => by cases h⟩
  | cons c l ih =>
    intro s nodup d
    obtain ⟨apart, rest⟩ := List.nodup_cons.mp nodup
    obtain ⟨keeps, treats⟩ := ih (f s c) rest d
    rw [List.foldl_cons]
    refine ⟨fun absent => ?_, fun listed => ?_⟩
    · rw [List.mem_cons, not_or] at absent
      exact trans (other s c d absent.1) (keeps absent.2)
    · by_cases same : d = c
      · subst same
        exact ⟨s, .refl s, refl _, keeps apart⟩
      · obtain ⟨t, wt, before, after⟩ := treats (List.mem_of_ne_of_mem same listed)
        exact ⟨t, (within s c).trans wt, trans (other s c d same) before, after⟩

theorem State.release_refunded (s : State) (c d : Nat) : (s.channel d).Refunded ((s.release c).channel d) := by
  rw [State.release_channel]
  rfl

/-- A wind test moves its own channel, and the funds of the others (R127, R133). -/
theorem State.windTest_other (s : State) (c d : Nat) (h : d ≠ c) : (s.channel d).Refunded ((s.windTest c).channel d) := by
  unfold State.windTest
  dsimp only
  split
  · rw [State.channel_onChannel_of_ne h]
    exact .refl _
  · split
    · have kept := State.channel_onChannel_of_ne (s := s) (u := fun ch => { ch.stopped with state := .windHeld }) h
      rw [← kept]
      exact State.release_refunded _ _ _
    · split
      · rw [State.channel_onChannel_of_ne h]
        exact .refl _
      · exact .refl _

/-! ## The scan at one channel -/

theorem State.Scan.notMem {l : List Grant} (h : s.Scan t l) (tells : s.Tells) (waits : (s.channel d).state.waits = false) :
    d ∉ l.map Grant.channel := fun granted =>
  absurd ((tells.waiting.mem d).mp (h.sublist.subset granted)) (by rw [waits]; decide)

/-- A channel that does not wait keeps all but its mark through a scan. -/
theorem State.Scan.channel {l : List Grant} (h : s.Scan t l) (tells : s.Tells) (waits : (s.channel d).state.waits = false) :
    t.channel d = { s.channel d with mark := (t.channel d).mark } := h.other d (h.notMem tells waits)

/-- A scan leaves a channel's state or starts a step. -/
theorem State.Scan.state {l : List Grant} (h : s.Scan t l) (d : Nat) :
    (t.channel d).state = (s.channel d).state ∨ (t.channel d).state = .slewing := by
  by_cases granted : d ∈ l.map Grant.channel
  · obtain ⟨k, index, _, channel⟩ := h.starts d granted
    exact .inr (by rw [channel]; rfl)
  · exact .inl (by rw [h.other d granted])

/-- A channel without a grant is not marked once a scan has run. -/
theorem State.grantScan_unmarked (tells : s.Tells) (runs : (s.channel c).state.runs = false)
    (waits : (s.channel c).state.waits = false) (unmarked : (s.channel c).mark = false) : (s.grantScan.channel c).mark = false := by
  by_cases auto : s.station.mode = .auto
  · obtain ⟨l, scan, _⟩ := State.grantScan_scan tells.inPlan
    have state : (s.grantScan.channel c).state = (s.channel c).state := by rw [scan.channel tells waits]
    have after := tells.grantScan
    rcases Nat.lt_or_ge c s.sweep.channels.length with inPlan | beyond
    · rw [State.grantScan_of_auto auto] at state after ⊢
      rw [State.remark_mark (by rwa [(s.scanWalk_within _).length]), decide_eq_false_iff_not]
      intro marked
      have named : c ∈ (s.scanWalk s.sweep.waiting).sweep.grants.map Grant.channel := by
        unfold State.preempted at marked
        split at marked
        · cases marked
        · obtain ⟨g, last, rfl⟩ := Option.map_eq_some_iff.mp marked
          exact List.mem_map_of_mem (List.mem_filter.mp (List.mem_of_getLast? last)).1
      have granted := (after.grants.mem c).mp named
      rw [state, runs] at granted
      exact absurd granted (by decide)
    · rw [State.channel_of_length_le (by rwa [s.grantScan_within.length])]
      rfl
  · rw [State.grantScan_of_not_auto auto]
    exact unmarked

end

/-! ## The wind hold -/

/-- A channel at the wind test, by the U_eff published and its cutoff; `work` says that it has an eligible leg (R133). -/
def Channel.windTested (uEff cutoff : Nat) (work : Bool) (ch : Channel) : Channel :=
  if (ch.state.waits = true ∨ ch.state.runs = true) ∧ cutoff < uEff then { ch.stopped with state := .windHeld }
  else if ch.state = .windHeld ∧ uEff + 10 ≤ cutoff then { ch with state := if work then .waiting else .idle }
  else ch

section
variable {s t : State} {c : Nat}

theorem State.windTest_self (hc : c < s.sweep.channels.length) : (s.windTest c).channel c =
    (s.channel c).windTested s.wind.uEff (s.channelCfg c).cutoff (s.hasWork c) := by
  unfold State.windTest Channel.windTested
  simp only [Bool.and_eq_true, decide_eq_true_eq]
  by_cases held : ((s.channel c).state.waits = true ∨ (s.channel c).state.runs = true) ∧ (s.channelCfg c).cutoff < s.wind.uEff
  · rw [if_pos held]
    obtain ⟨waits | runs, above⟩ := held
    · rw [if_pos ⟨waits, above⟩, State.channel_onChannel_self hc]
    · have waits : ¬ (s.channel c).state.waits = true := by rw [ChannelState.waits_eq_false_of_runs runs]; decide
      rw [if_neg (fun h => waits h.1), if_pos ⟨runs, above⟩, State.release_channel_of_notMem _ (.inl rfl),
        State.channel_onChannel_self hc]
  · rw [if_neg (fun h => held ⟨.inl h.1, h.2⟩), if_neg (fun h => held ⟨.inr h.1, h.2⟩), if_neg held]
    by_cases freed : (s.channel c).state = .windHeld ∧ s.wind.uEff + 10 ≤ (s.channelCfg c).cutoff
    · rw [if_pos freed, if_pos freed, State.channel_onChannel_self hc]
    · rw [if_neg freed, if_neg freed]

theorem Channel.Refunded.windTested {x y : Channel} (h : x.Refunded y) (uEff cutoff : Nat) (work : Bool) :
    (x.windTested uEff cutoff work).Refunded (y.windTested uEff cutoff work) := by
  obtain ⟨⟩ := x
  obtain ⟨⟩ := y
  simp only [Channel.Refunded, Channel.mk.injEq] at h
  unfold Channel.windTested Channel.Refunded Channel.stopped
  simp only [h]
  split
  · rfl
  · split <;> rfl

/-- A channel once every channel has been tested against the U_eff published (R133). -/
theorem State.windTested_channel (hc : c < s.sweep.channels.length) :
    ((s.channel c).windTested s.wind.uEff (s.channelCfg c).cutoff (s.hasWork c)).Refunded (s.windTested.channel c) := by
  obtain ⟨t, within, before, after⟩ := (State.fold_channel (f := State.windTest) Channel.Refunded.refl .trans
    State.windTest_within State.windTest_other
    s.channelNumbers s s.channelNumbers_nodup c).2 (State.mem_channelNumbers.mpr hc)
  have bank : (t.channel c).bank = (s.channel c).bank := by rw [before]
  have wind : t.wind = s.wind := within.only.wind
  rw [State.windTest_self (by rwa [within.length]), wind, within.readsAs.channelCfg, within.readsAs.hasWork bank] at after
  rw [State.windTested, State.settleWaiting_channel]
  exact (before.windTested _ _ _).trans after

/-- The wind hold ends with a scan, or with none. -/
theorem State.windHold_scan (tells : s.Tells) : ∃ l, s.windTested.Scan s.windHold l := by
  rw [State.windHold_eq]
  split
  · obtain ⟨l, scan, _⟩ := State.grantScan_scan tells.windTested.inPlan
    exact ⟨l, scan⟩
  · exact ⟨[], .refl _⟩

/-- A channel after the wind hold: as its test left it, or started by the scan when it waits then (R133). -/
theorem State.windHold_channel (tells : s.Tells) (hc : c < s.sweep.channels.length) :
    let tested := (s.channel c).windTested s.wind.uEff (s.channelCfg c).cutoff (s.hasWork c)
    (tested.state.waits = false → s.windHold.channel c = { tested with
      lastFund := (s.windHold.channel c).lastFund, mark := (s.windHold.channel c).mark }) ∧
    ((s.windHold.channel c).state = tested.state ∨ (s.windHold.channel c).state = .slewing) := by
  intro tested
  have at_ : s.windTested.channel c = { tested with lastFund := (s.windTested.channel c).lastFund } := State.windTested_channel hc
  have state : (s.windTested.channel c).state = tested.state := by rw [at_]
  obtain ⟨l, scan⟩ := State.windHold_scan tells
  refine ⟨fun still => ?_, ?_⟩
  · rw [scan.channel tells.windTested (by rw [state]; exact still), at_]
  · rw [← state]
    exact scan.state c

end

section
variable {uEff cutoff : Nat} {work : Bool} {ch : Channel}

theorem Channel.windTested_above (held : ch.state.waits = true ∨ ch.state.runs = true) (above : cutoff < uEff) :
    ch.windTested uEff cutoff work = { ch.stopped with state := .windHeld } := if_pos ⟨held, above⟩

theorem Channel.windTested_freed (held : ch.state = .windHeld) (below : uEff + 10 ≤ cutoff) :
    ch.windTested uEff cutoff work = { ch with state := if work then .waiting else .idle } := by
  rw [Channel.windTested, if_neg (by rw [held]; simp [ChannelState.waits, ChannelState.runs]), if_pos ⟨held, below⟩]

theorem Channel.windTested_stays (low : ch.state.waits = true ∨ ch.state.runs = true → uEff ≤ cutoff)
    (held : ch.state = .windHeld → cutoff < uEff + 10) : ch.windTested uEff cutoff work = ch := by
  rw [Channel.windTested, if_neg (fun h => Nat.not_lt.mpr (low h.1) h.2), if_neg (fun h => Nat.not_le.mpr (held h.1) h.2)]

end

/-- Settles O10: the wind test of each channel, then the scan. -/
theorem sampleCloseHoldsForWind : Obligations.SampleCloseHoldsForWind := by
  intro vane s timer orders
  refine ⟨s.closeSample vane, by rw [exec_eq_after, State.after_sampleClose, if_pos timer], fun c hc => ?_⟩
  let decided := (s.takeSample vane).decideWind
  let w := if decided.wind.sector = s.wind.sector then decided else decided.recomputeEscalation none
  have decidedReaches : State.Reaches [.wind, .forecast, .fence] s decided :=
    (s.setWind_reaches _).mono.trans (State.decideWind_reaches _).mono
  have reaches : State.Reaches [.wind, .forecast, .fence] s w :=
    .of_ite (fun _ => decidedReaches) (fun _ => decidedReaches.trans (State.recomputeEscalation_reaches _ _).mono)
  have alike := reaches.alike
  have tells : w.Tells := alike.listsAlike.tells (State.ordersTell_iff.mp orders)
  have channel : w.channel c = s.channel c := State.channel_eq_of_channels alike.channels c
  have uEff : (s.closeSample vane).wind.uEff = w.wind.uEff := by
    rw [show (s.closeSample vane).wind = w.wind from w.windHold_within.only.wind]
  have inPlan : c < w.sweep.channels.length := by rwa [alike.channels]
  obtain ⟨still, state⟩ := State.windHold_channel tells inPlan
  rw [channel, alike.reads.channelCfg, alike.reads.hasWork (by rw [channel]), ← uEff,
    show w.windHold = s.closeSample vane from rfl] at still state
  have after : (s.closeSample vane).Tells := tells.windHold
  intro before after_ cutoff
  refine ⟨fun held above => ?_, fun runs below => ?_, fun waits below => ?_, fun held near => ?_, fun held far => ?_, fun rest => ?_⟩
  · rw [Channel.windTested_above held above] at still
    have at_ : after_ = _ := still rfl
    have windHeld : after_.state = .windHeld := by rw [at_]
    refine ⟨windHeld, by rw [at_]; rfl, by rw [at_]; rfl, by rw [at_]; rfl, by rw [at_]; rfl, by rw [at_]; rfl, fun waits => ?_,
      fun g hg same => ?_⟩
    · exact absurd ((after.waiting.mem c).mp waits) (by rw [windHeld]; decide)
    · exact absurd ((after.grants.mem c).mp (same ▸ List.mem_map_of_mem hg)) (by rw [windHeld]; decide)
  · have windless : before.state ≠ .windHeld := fun held => absurd runs (by rw [held]; decide)
    rw [Channel.windTested_stays (fun _ => below) (fun held => absurd held windless)] at still
    have at_ : after_ = _ := still (ChannelState.waits_eq_false_of_runs runs)
    have same : after_.state = before.state := by rw [at_]
    exact ⟨same, by rw [at_], by rw [at_], (after.grants.mem c).mpr (by rw [same]; exact runs)⟩
  · have windless : before.state ≠ .windHeld := fun held => absurd waits (by rw [held]; decide)
    rwa [Channel.windTested_stays (fun _ => below) (fun held => absurd held windless)] at state
  · rw [Channel.windTested_stays (by rw [held]; simp [ChannelState.waits, ChannelState.runs]) (fun _ => near)] at still
    have at_ : after_ = _ := still (by rw [held]; rfl)
    exact ⟨by rw [at_]; exact held, by rw [at_]⟩
  · rw [Channel.windTested_freed held far] at still state
    refine ⟨fun work => ?_, fun none => ?_⟩
    · rwa [work] at state
    · rw [none] at still
      have at_ : after_ = _ := still rfl
      rw [at_]
      rfl
  · have still' : before.windTested (s.closeSample vane).wind.uEff cutoff (s.hasWork c) = before := by
      refine Channel.windTested_stays (fun held => ?_) (fun held => ?_)
      · rcases rest with rest | rest | rest <;> rw [rest] at held <;> simp [ChannelState.waits, ChannelState.runs] at held
      · rcases rest with rest | rest | rest <;> rw [rest] at held <;> cases held
    rw [still'] at still
    have at_ : after_ = _ := still (by rcases rest with rest | rest | rest <;> rw [rest] <;> rfl)
    exact ⟨by rw [at_], by rw [at_]⟩

/-! ## A fault -/

/-- Settles O33: the timer run out, the fault, the release and the scan. -/
theorem timeoutsFaultChannel : Obligations.TimeoutsFaultChannel := by
  have faults : ∀ (c : Fin 4) (s : State), s.OrdersTell → (s.channel c).state.runs = true →
      s.SweepOnly (s.faultChannel c) ∧
      (s.faultChannel c).channel c = { s.channel c with
        state := .faulted, valve := false, slewTimer := none, valveTimer := none, dwellTimer := none, mark := false } ∧
      (∀ g ∈ (s.faultChannel c).sweep.grants, g.channel ≠ c.val) ∧ s.water.gtNotices + 1 ≤ (s.faultChannel c).water.gtNotices := by
    intro c s orders runs
    have tells := State.ordersTell_iff.mp orders
    have inPlan := State.lt_length_of_runs runs
    let u := (s.onChannel c (fun ch => { ch.stopped with state := .faulted })).release c
    have left : u.Tells := tells.leave runs rfl rfl
    have stopped : u.channel c = { (s.channel c).stopped with state := .faulted } := by
      rw [State.release_channel_of_notMem _ (.inl rfl), State.channel_onChannel_self inPlan]
    obtain ⟨l, scan, _⟩ := State.grantScan_scan left.inPlan
    have at_ := scan.channel left (d := c) (by rw [stopped]; rfl)
    rw [State.grantScan_unmarked left (by rw [stopped]; rfl) (by rw [stopped]; rfl) (by rw [stopped]; rfl), stopped] at at_
    refine ⟨(s.faultChannel_within c).only, at_, fun g hg same => ?_, ?_⟩
    · have granted := (left.grantScan.grants.mem c).mp (same ▸ List.mem_map_of_mem hg)
      rw [at_] at granted
      exact absurd granted Bool.false_ne_true
    · have noticed : u.water.gtNotices = s.water.gtNotices + 1 := State.release_notices _ _
      exact noticed ▸ u.grantScan_within.notices
  refine ⟨fun c s none => ?_, fun c s none => ?_, fun c s orders => ⟨fun slewing timer => ?_, fun opening timer => ?_⟩⟩
  · rw [exec_eq_after, State.after_slewTimeout, if_neg (fun h => none.elim (fun f => f h.1) (fun f => f h.2))]
  · rw [exec_eq_after, State.after_valveTimeout, if_neg (fun h => none.elim (fun f => f h.1) (fun f => f h.2))]
  · refine ⟨s.faultChannel c, ?_, faults c s orders (by rw [slewing]; rfl)⟩
    rw [exec_eq_after, State.after_slewTimeout, if_pos ⟨slewing, timer⟩]
  · refine ⟨s.faultChannel c, ?_, faults c s orders (by rw [opening]; rfl)⟩
    rw [exec_eq_after, State.after_valveTimeout, if_pos ⟨opening, timer⟩]

end Sys2Proof.Machine
end

