-- ==== Sys2Proof/Proofs/ModeChanges.lean ====
section
/-! Changes of mode: the sweep engine hushed and woken, breaks (O45), MODE orders (O47), the ends of a hush and of LISTENING (O51). -/

namespace Sys2Proof.Machine

/-! ## The sweep engine at a change of mode -/

section
variable {s t : State} {c : Nat}

theorem Channel.hush_of_faulted {ch : Channel} (requested : Bank) (h : ch.state = .faulted) : ch.hush requested = ch := if_pos h

theorem Channel.hush_of_not_faulted {ch : Channel} (requested : Bank) (h : ch.state ≠ .faulted) : ch.hush requested = { ch with
    state := .hushed, valve := false, slewTimer := none, valveTimer := none, dwellTimer := none, cursor := none, mark := false,
    bank := if ch.swapPending then requested else ch.bank, swapPending := false } := by
  obtain ⟨_, _, pending, _⟩ := ch
  rw [Channel.hush, if_neg h]
  cases pending <;> rfl

/-- The sweep engine is hushed, with one notice when G_t has changed (R138). -/
theorem State.sweepHush_hushes (s : State) : s.Hushes s.sweepHush := by
  have channels : s.sweepHush.sweep.channels = s.sweep.channels.map (Channel.hush s.sweep.requested) := by
    rw [State.sweepHush_sweep]
  refine ⟨?_, ?_, ?_, fun c hc => ?_⟩
  · rw [channels, State.sweepHush_sweep]
  · rw [channels, List.length_map]
  · unfold State.sweepHush
    dsimp only
    split <;> rfl
  · have inPlan := State.mem_channelNumbers.mp hc
    have at_ : s.sweepHush.channel c = (s.channel c).hush s.sweep.requested := by
      have inPlan' : c < s.sweepHush.sweep.channels.length := by rwa [channels, List.length_map]
      rw [State.channel_eq_getElem inPlan', State.channel_eq_getElem inPlan]
      simp only [channels, List.getElem_map]
    rw [at_]
    exact ⟨Channel.hush_of_faulted _, Channel.hush_of_not_faulted _⟩

/-- A HUSHED channel at the change to AUTO (R138). -/
theorem State.wakeChannel_of_hushed (hc : c < s.sweep.channels.length) (h : (s.channel c).state = .hushed) :
    (s.wakeChannel c).channel c = { s.channel c with state := if s.hasWork c then s.joinState c else .idle } := by
  rw [State.wakeChannel, if_pos h, State.channel_onChannel_self hc]

theorem State.wakeChannel_of_not_hushed (h : (s.channel c).state ≠ .hushed) : s.wakeChannel c = s := if_neg h

theorem State.wakeChannel_other (s : State) (c d : Nat) (h : d ≠ c) : (s.channel d).Refunded ((s.wakeChannel c).channel d) := by
  unfold State.wakeChannel
  split
  · rw [State.channel_onChannel_of_ne h]
    exact .refl _
  · exact .refl _

theorem State.Within.joinState (h : s.Within t) (c : Nat) : t.joinState c = s.joinState c := by
  have wind : t.wind = s.wind := h.only.wind
  rw [State.joinState, State.joinState, h.readsAs.channelCfg, wind]

/-- A channel once the HUSHED ones have come out (R138). -/
theorem State.woken_channel (hc : c < s.sweep.channels.length) : (s.woken.channel c).state =
      (if (s.channel c).state = .hushed then (if s.hasWork c then s.joinState c else .idle) else (s.channel c).state) ∧
    (s.woken.channel c).cursor = (s.channel c).cursor ∧ (s.woken.channel c).bank = (s.channel c).bank := by
  obtain ⟨t, within, before, after⟩ := (State.fold_channel (f := State.wakeChannel) Channel.Refunded.refl .trans
    State.wakeChannel_within State.wakeChannel_other
    s.channelNumbers s s.channelNumbers_nodup c).2 (State.mem_channelNumbers.mpr hc)
  rw [State.woken, State.settleWaiting_channel, after]
  have state : (t.channel c).state = (s.channel c).state := by rw [before]
  have cursor : (t.channel c).cursor = (s.channel c).cursor := by rw [before]
  have bank : (t.channel c).bank = (s.channel c).bank := by rw [before]
  by_cases hushed : (s.channel c).state = .hushed
  · rw [State.wakeChannel_of_hushed (by rwa [within.length]) (by rw [state]; exact hushed), if_pos hushed,
      within.readsAs.hasWork bank, within.joinState]
    exact ⟨rfl, cursor, bank⟩
  · rw [State.wakeChannel_of_not_hushed (by rw [state]; exact hushed), if_neg hushed]
    exact ⟨state, cursor, bank⟩

/-- The channels come out of HUSHED, and a scan runs (R138). -/
theorem State.sweepWake_wakes (s : State) :
    s.Wakes s.sweepWake ∧ ∀ ch ∈ s.sweepWake.sweep.channels, ch.state ≠ .hushed := by
  have waits : ∀ d, d ∈ s.woken.sweep.waiting ↔ (s.woken.channel d).state.waits = true := fun d => by
    rw [State.woken, State.mem_settleWaiting, State.settleWaiting_channel]
  obtain ⟨l, scan, _⟩ := State.grantScan_scan (fun d hd => State.lt_length_of_waits ((waits d).mp hd))
  rw [← State.sweepWake_eq] at scan
  have still : ∀ c, (s.woken.channel c).state.waits = false →
      (s.sweepWake.channel c).state = (s.woken.channel c).state ∧ (s.sweepWake.channel c).cursor = (s.woken.channel c).cursor ∧
        (s.sweepWake.channel c).bank = (s.woken.channel c).bank := fun c none => by
    have notMem : c ∉ l.map Grant.channel := fun granted =>
      absurd ((waits c).mp (scan.sublist.subset granted)) (by rw [none]; decide)
    rw [scan.other c notMem]
    exact ⟨rfl, rfl, rfl⟩
  refine ⟨fun c hc => ?_, ?_⟩
  · have inPlan := State.mem_channelNumbers.mp hc
    obtain ⟨state, cursor, bank⟩ := State.woken_channel inPlan
    intro before after work cutoff
    have work_iff : work ↔ s.hasWork c = true := by
      rw [State.hasWork_iff]
      simp only [State.eligible_iff]
      rfl
    refine ⟨fun hushed none => ?_, fun hushed some above => ?_, fun hushed some below => ?_, fun faulted => ?_⟩
    · have idle : (s.woken.channel c).state = .idle := by
        rw [state, if_pos hushed, if_neg (fun h => none (work_iff.mpr h))]
      obtain ⟨kept, place, _⟩ := still c (by rw [idle]; rfl)
      exact ⟨kept.trans idle, place.trans cursor⟩
    · have held : (s.woken.channel c).state = .windHeld := by
        rw [state, if_pos hushed, if_pos (work_iff.mp some), State.joinState, if_pos above]
      obtain ⟨kept, place, _⟩ := still c (by rw [held]; rfl)
      exact ⟨kept.trans held, place.trans cursor⟩
    · have waiting : (s.woken.channel c).state = .waiting := by
        rw [state, if_pos hushed, if_pos (work_iff.mp some), State.joinState, if_neg (Nat.not_lt.mpr below)]
      have listed : c ∈ s.woken.sweep.waiting := (waits c).mpr (by rw [waiting]; rfl)
      by_cases granted : c ∈ l.map Grant.channel
      · obtain ⟨k, index, starts⟩ := scan.starts c granted
        refine .inr ⟨starts.state, Option.isSome_iff_exists.mpr ⟨k, starts.cursor⟩, ?_⟩
        rw [(scan.grants.map Grant.channel).mem_iff, List.map_append]
        exact List.mem_append_right _ granted
      · have channel : after = _ := scan.other c granted
        refine .inl ⟨by rw [channel]; exact waiting, by rw [channel]; exact cursor, ?_⟩
        rw [scan.waiting, List.mem_filter]
        exact ⟨listed, decide_eq_true granted⟩
    · have kept : (s.woken.channel c).state = .faulted := by
        rw [state, if_neg (by rw [show (s.channel c).state = .faulted from faulted]; decide)]
        exact faulted
      obtain ⟨same, place, runs⟩ := still c (by rw [kept]; rfl)
      exact ⟨same.trans kept, place.trans cursor, runs.trans bank⟩
  · rw [State.forall_channel]
    intro c hc
    rw [s.sweepWake_within.length] at hc
    obtain ⟨state, _, _⟩ := State.woken_channel hc
    have woken : (s.woken.channel c).state ≠ .hushed := by
      rw [state]
      split
      · split
        · unfold State.joinState
          split <;> decide
        · decide
      · assumption
    rcases scan.state c with same | slewing
    · rwa [same]
    · rw [slewing]
      decide

/-- A change to a mode other than AUTO hushes the sweep engine, and one to AUTO wakes it, whatever station control notes with it. -/
theorem State.changeMode_hushes (s : State) (x : Station) {m : Mode} (h : m ≠ .auto) : s.Hushes ((s.setStation x).changeMode m) := by
  unfold State.changeMode
  dsimp only
  rw [if_neg h]
  exact State.sweepHush_hushes ((s.setStation x).setStation { (s.setStation x).station with mode := m })

theorem State.changeMode_wakes (s : State) (x : Station) : s.Wakes ((s.setStation x).changeMode .auto) ∧
    ∀ ch ∈ ((s.setStation x).changeMode .auto).sweep.channels, ch.state ≠ .hushed :=
  State.sweepWake_wakes ((s.setStation x).setStation { (s.setStation x).station with mode := .auto })

/-- Outside station control a change of mode moves the sweep engine and the notices alone. -/
theorem State.changeMode_eq (s : State) (x : Station) (m : Mode) : (s.setStation x).changeMode m = { s with
    station := ((s.setStation x).changeMode m).station, sweep := ((s.setStation x).changeMode m).sweep,
    water := { s.water with gtNotices := ((s.setStation x).changeMode m).water.gtNotices } } := by
  have only := (s.setStation x).changeMode_only m
  rw [State.changeMode_station]
  exact only

end

/-! ## Breaks -/

section
variable {s : State}

/-- A break told to station control (R173): the hush begins with the mode remembered, or its timer restarts. -/
theorem State.toldOfBreak_spec (works : s.works = true) :
    s.toldOfBreak = { s with
      station := s.toldOfBreak.station, sweep := s.toldOfBreak.sweep,
      water := { s.water with gtNotices := s.toldOfBreak.water.gtNotices } } ∧
    s.toldOfBreak.station = { s.station with
      mode := .hushed, breakRequest := false, hushTimer := some (s.cfg.hushHold * 1000),
      remembered := match s.station.mode with
        | .listening => some .listening
        | .auto => some .auto
        | .standby => some .standby
        | .hushed | .starting | .fault => s.station.remembered } ∧
    (s.station.mode ≠ .hushed → s.Hushes s.toldOfBreak) ∧
    (s.station.mode = .hushed → s.toldOfBreak.sweep = s.sweep ∧ s.toldOfBreak.water = s.water) := by
  have begins : ∀ r, s.toldOfBreak = (s.setStation { s.station with breakRequest := false }).enterHush r →
      (s.toldOfBreak = { s with
        station := s.toldOfBreak.station, sweep := s.toldOfBreak.sweep,
        water := { s.water with gtNotices := s.toldOfBreak.water.gtNotices } }) ∧
      s.toldOfBreak.station = { s.station with
        mode := .hushed, breakRequest := false, hushTimer := some (s.cfg.hushHold * 1000), remembered := some r } ∧
      s.Hushes s.toldOfBreak := fun r told => by
    have changed : s.toldOfBreak = (s.setStation { s.station with
        breakRequest := false, remembered := some r, hushTimer := s.fullHush }).changeMode .hushed := told
    refine ⟨?_, ?_, ?_⟩
    · rw [changed]
      exact s.changeMode_eq _ _
    · rw [changed, State.changeMode_station]
      rfl
    · rw [changed]
      exact s.changeMode_hushes _ (by decide)
  unfold State.works at works
  cases mode : s.station.mode with
  | starting | fault => rw [mode] at works; exact absurd works (by decide)
  | listening =>
    obtain ⟨only, station, hushes⟩ := begins .listening (by rw [State.toldOfBreak, State.hush, State.setStation_station, mode])
    exact ⟨only, station, fun _ => hushes, fun h => by cases h⟩
  | auto =>
    obtain ⟨only, station, hushes⟩ := begins .auto (by rw [State.toldOfBreak, State.hush, State.setStation_station, mode])
    exact ⟨only, station, fun _ => hushes, fun h => by cases h⟩
  | standby =>
    obtain ⟨only, station, hushes⟩ := begins .standby (by rw [State.toldOfBreak, State.hush, State.setStation_station, mode])
    exact ⟨only, station, fun _ => hushes, fun h => by cases h⟩
  | hushed =>
    have told : s.toldOfBreak = s.setStation { s.station with breakRequest := false, hushTimer := s.fullHush } := by
      rw [State.toldOfBreak, State.hush, State.setStation_station, mode]
      rfl
    rw [told]
    refine ⟨rfl, ?_, fun h => absurd rfl h, fun _ => ⟨rfl, rfl⟩⟩
    have hushing : s.station = { s.station with mode := .hushed } := by rw [← mode]
    exact congrArg (fun st : Station => { st with breakRequest := false, hushTimer := s.fullHush }) hushing

theorem State.after_breakHeard_of (works : s.works = true) (run : s.line.run ≠ .heard) :
    s.after .breakHeard = (s.setLine s.line.broken).toldOfBreak := by
  rw [State.after_breakHeard, if_pos ⟨works, run⟩]

theorem State.after_breakSendEnd_of (driving : s.line.breakDriving = true) : s.after .breakSendEnd =
    if s.station.breakRequest then (s.setLine { s.line with breakDriving := false }).toldOfBreak
    else s.setLine { s.line with breakDriving := false } := by
  rw [State.after_breakSendEnd, if_pos driving]

end

/-- Settles O45: a break told to station control, heard on the line or taken for heard at the release. -/
theorem breaksHush : Obligations.BreaksHush := by
  refine ⟨?_, ?_, ?_⟩
  · intro s t works command
    obtain ⟨l, told⟩ : ∃ l, t = (s.setLine l).toldOfBreak := by
      rcases command with ⟨run, done⟩ | ⟨driving, requested, done⟩
      · rw [exec_eq_after, State.after_breakHeard_of works run, Host.Outcome.next.injEq] at done
        exact ⟨_, done.symm⟩
      · rw [exec_eq_after, State.after_breakSendEnd_of driving, if_pos requested, Host.Outcome.next.injEq] at done
        exact ⟨_, done.symm⟩
    have line : t.line = l := by rw [told, State.toldOfBreak_line]; rfl
    obtain ⟨only, station, hushes, stands⟩ := State.toldOfBreak_spec (s := s.setLine l) works
    rw [← told] at only station hushes stands
    refine ⟨?_, station, hushes, stands⟩
    rw [line]
    exact only
  · intro s works run
    refine ⟨_, by rw [exec_eq_after, State.after_breakHeard_of works run], ?_⟩
    rw [State.toldOfBreak_line, State.setLine_line]
    obtain ⟨idle, back, superseded⟩ := s.line.returnToSlot_slot
    refine ⟨?_, back, superseded, idle⟩
    unfold Line.broken
    rw [Line.returnToSlot_eq]
  · intro s driving
    refine ⟨_, by rw [exec_eq_after, State.after_breakSendEnd_of driving], ?_, fun clear => ?_⟩
    · split
      · rw [State.toldOfBreak_line]
        rfl
      · rfl
    · rw [clear]
      rfl

/-! ## Orders and expiries -/

section
variable {s : State}

/-- The end of a hush (R174): the mode remembered. -/
theorem State.endHush_of_remembered {r : Remembered} (h : s.station.remembered = some r) : s.endHush =
    (s.setStation { s.station with remembered := none, hushTimer := none }).changeMode r.mode := by
  rw [State.endHush, h]

theorem Remembered.mode_ne_auto {r : Remembered} (h : r ≠ .auto) : r.mode ≠ .auto := by
  cases r with
  | auto => exact absurd rfl h
  | listening | standby => decide

/-- What the end of a hush does to station control and to the sweep engine (R138, R174). -/
theorem State.endHush_spec {r : Remembered} (h : s.station.remembered = some r) :
    s.endHush = { s with
      station := s.endHush.station, sweep := s.endHush.sweep,
      water := { s.water with gtNotices := s.endHush.water.gtNotices } } ∧
    s.endHush.station = { s.station with
      mode := r.mode, remembered := none, hushTimer := none } ∧
    (r = .auto → s.Wakes s.endHush ∧ ∀ ch ∈ s.endHush.sweep.channels, ch.state ≠ .hushed) ∧
    (r ≠ .auto → s.Hushes s.endHush) := by
  rw [State.endHush_of_remembered h]
  refine ⟨s.changeMode_eq _ _, ?_, ?_, fun other => s.changeMode_hushes _ (Remembered.mode_ne_auto other)⟩
  · rw [State.changeMode_station]
    rfl
  · rintro rfl
    exact s.changeMode_wakes _

end

/-- Settles O51: the end of a hush by its timer or by an order, and the listening timer by the mode. -/
theorem hushAndListeningEnd : Obligations.HushAndListeningEnd := by
  refine ⟨?_, ?_, ?_, ?_, ?_⟩
  · intro s running
    rw [exec_eq_after, State.after_hushHoldExpiry, if_neg (fun h => running h.2)]
  · intro r s hushed timer remembered
    obtain ⟨only, station, wakes, hushes⟩ := State.endHush_spec remembered
    refine ⟨s.endHush, by rw [exec_eq_after, State.after_hushHoldExpiry, if_pos ⟨hushed, timer⟩], ?_,
      station.trans (by cases r <;> rfl), wakes, hushes⟩
    exact congrArg (fun u : State => { u with station := s.station }) only
  · intro f s works oldest valid kind sender target code
    have resumed : exec .dispatchOrderResume s = .next s.takeFree.resume := by
      rw [exec_eq_after, State.after_dispatchOrderResume,
        State.dispatch_order_obeyed (fun u _ => u.resume) works oldest valid kind sender target code]
    have free : s.takeFree.station = s.station := rfl
    refine ⟨s.takeFree.resume, resumed, ?_, fun other => ?_, fun r hushed remembered => ?_⟩
    · unfold State.resume
      split
      · cases remembered : s.station.remembered with
        | none =>
          rw [State.endHush, free, remembered]
          rfl
        | some r => exact (State.endHush_spec (s := s.takeFree) remembered).1
      · rfl
    · rw [State.resume, if_neg (by rw [free]; exact other)]
      exact ⟨rfl, rfl, rfl⟩
    · rw [State.resume, if_pos (by rw [free]; exact hushed)]
      obtain ⟨-, station, turns⟩ := State.endHush_spec (s := s.takeFree) remembered
      exact ⟨station.trans (by cases r <;> rfl), turns⟩
  · intro s listening running
    have ended : s.after .listeningTimerExpiry =
        (s.setStation { s.station with listeningTimer := none }).changeMode s.station.target.mode := by
      rw [State.after_listeningTimerExpiry, if_pos running, State.listeningEnds, listening]
    refine ⟨_, by rw [exec_eq_after, ended], ?_, ?_, ?_, ?_⟩
    · exact congrArg (fun u : State => { u with station := s.station }) (s.changeMode_eq _ _)
    · rw [State.changeMode_station]
      cases s.station.target <;> rfl
    · intro target
      rw [target]
      exact s.changeMode_wakes _
    · intro target
      rw [target]
      exact s.changeMode_hushes _ (by decide)
  · intro s hushed remembered running
    rw [exec_eq_after, State.after_listeningTimerExpiry, if_pos running, State.listeningEnds, hushed, remembered]
    cases s.station.target <;> rfl

/-- A MODE order moves station control, the sweep engine and the notices alone. -/
theorem State.modeOrder_eq (s : State) (target : Target) : s.modeOrder target = { s with
    station := (s.modeOrder target).station, sweep := (s.modeOrder target).sweep,
    water := { s.water with gtNotices := (s.modeOrder target).water.gtNotices } } := by
  unfold State.modeOrder
  split
  · rfl
  · split
    · exact s.changeMode_eq s.station _
    · rfl
  · split
    · exact s.changeMode_eq s.station _
    · rfl
  · split <;> rfl
  · rfl
  · rfl

/-- Settles O47: the mode order by the mode it finds. -/
theorem modeOrderSetsMode : Obligations.ModeOrderSetsMode := by
  intro f s works oldest valid kind sender target code
  let u := s.takeFree
  have obeyed : exec .dispatchOrderMode s = .next (u.obeyMode f) := by
    rw [exec_eq_after, State.after_dispatchOrderMode,
      State.dispatch_order_obeyed State.obeyMode works oldest valid kind sender target code]
  refine ⟨u.obeyMode f, obeyed, ?_, fun one two => ?_, fun target named => ?_⟩
  · unfold State.obeyMode
    split
    · exact u.modeOrder_eq _
    · exact u.modeOrder_eq _
    · rfl
  · have none : u.obeyMode f = u := by
      unfold State.obeyMode
      split
      · exact absurd ‹_› one
      · exact absurd ‹_› two
      · rfl
    rw [none]
    exact ⟨rfl, rfl, rfl⟩
  · have ordered : u.obeyMode f = u.modeOrder target := by
      unfold State.obeyMode
      rcases named with ⟨arg, rfl⟩ | ⟨arg, rfl⟩
      · rw [show f.arg1 = 1 from arg]
        rfl
      · rw [show f.arg1 = 2 from arg]
        rfl
    have free : u.station = s.station := rfl
    rw [ordered, State.modeOrder, free]
    refine ⟨fun mode => ?_, fun mode same => ?_, fun mode same => ?_, fun mode other => ?_, fun mode other => ?_,
      fun mode remembered => ?_, fun mode remembered => ?_⟩
    · rw [mode]
      exact ⟨rfl, rfl, rfl⟩
    · rw [mode, same]
      exact ⟨rfl, rfl, rfl⟩
    · rw [mode, same]
      exact ⟨rfl, rfl, rfl⟩
    · rw [mode, other]
      dsimp only
      rw [if_pos rfl]
      exact ⟨State.changeMode_station _ _, u.changeMode_hushes u.station (by decide)⟩
    · rw [mode, other]
      dsimp only
      rw [if_pos rfl]
      exact ⟨State.changeMode_station _ _, u.changeMode_wakes u.station⟩
    · rw [mode, remembered]
      exact ⟨rfl, rfl, rfl⟩
    · rw [mode]
      rcases remembered with remembered | remembered <;> rw [remembered] <;> cases target <;> exact ⟨rfl, rfl, rfl⟩

end Sys2Proof.Machine
end

