-- ==== Sys2Proof/Proofs/Reports.lean ====
section
/-! Reports: assembled by the report timer, and read by a peer as they were meant (O52). -/

namespace Sys2Proof.Machine

/-! ## Values in characters -/

@[simp] theorem bytesOf_length (size n : Nat) : (bytesOf size n).length = size := by
  induction size with
  | zero => rfl
  | succ size ih => rw [bytesOf, List.length_cons, ih]

theorem bigEndian_foldl (b : List Byte) (a : Nat) :
    b.foldl (fun a c => a * 256 + c.toNat) a = a * 256 ^ b.length + bigEndian b := by
  have key : ∀ (b : List Byte) (a z : Nat), b.foldl (fun a c => a * 256 + c.toNat) (a + z) =
      a * 256 ^ b.length + b.foldl (fun a c => a * 256 + c.toNat) z := by
    intro b
    induction b with
    | nil => intro a z; simp
    | cons c b ih =>
      intro a z
      rw [List.foldl_cons, List.foldl_cons, List.length_cons, Nat.add_mul, Nat.add_assoc, ih, Nat.pow_succ', Nat.mul_assoc]
  exact key b a 0

/-- A value written in characters reads back modulo what they can hold (R159). -/
theorem bigEndian_bytesOf (size n : Nat) : bigEndian (bytesOf size n) = n % 256 ^ size := by
  induction size with
  | zero => rw [Nat.pow_zero, Nat.mod_one]; rfl
  | succ size ih =>
    rw [bytesOf, bigEndian, List.foldl_cons, bigEndian_foldl, bytesOf_length, ih, BitVec.toNat_ofNat, Nat.zero_mul, Nat.zero_add]
    calc n / 256 ^ size % 256 * 256 ^ size + n % 256 ^ size
      _ = n % 256 ^ size + 256 ^ size * (n / 256 ^ size % 256) := by rw [Nat.mul_comm, Nat.add_comm]
      _ = n % 256 ^ (size + 1) := by rw [Nat.pow_succ, Nat.mod_mul]

section
variable {k size at_ v : Nat} {rest : List Byte}

/-- The field at the front of a list of fields. -/
theorem field_front (size v : Nat) (rest : List Byte) : field (bytesOf size v ++ rest) 0 size = v % 256 ^ size := by
  have front : ((bytesOf size v ++ rest).drop 0).take size = bytesOf size v :=
    (List.take_append_of_le_length (bytesOf_length size v).ge).trans (List.take_of_length_le (bytesOf_length size v).le)
  rw [field, front, bigEndian_bytesOf]

/-- A field behind the front one. -/
theorem field_behind (h : k ≤ at_) : field (bytesOf k v ++ rest) at_ size = field rest (at_ - k) size := by
  rw [field, field, List.drop_append, bytesOf_length, List.drop_eq_nil_of_le ((bytesOf_length k v).trans_le h), List.nil_append]

end

/-! ## The report, field by field -/

section
variable (s : State)

theorem exists_checks (body : List Byte) : ∃ checks : List Byte, checks.length = 2 ∧ Frame.sealed body = body ++ checks :=
  ⟨[_, _], rfl, rfl⟩

/-- The fields of a report in their order, its count characters and its checks last (10.3). -/
theorem State.report_fields : ∃ checks : List Byte, checks.length = 2 ∧ s.report =
    bytesOf 1 5 ++ (bytesOf 1 s.cfg.id ++ (bytesOf 1 36 ++ (bytesOf 1 s.cfg.period ++ (bytesOf 1 s.station.mode.code ++
    (bytesOf 2 s.cfg.gridX ++ (bytesOf 2 s.cfg.gridY ++ (bytesOf 2 s.wind.uEff ++ (bytesOf 1 s.wind.sector ++
    (bytesOf 1 s.wind.source.code ++ (bytesOf 2 s.maxEri ++ (bytesOf 2 s.risk.w ++ (bytesOf 2 s.risk.hw ++
    (bytesOf 1 (16 * (s.finalLevel 1).num + (s.finalLevel 2).num) ++
    (bytesOf 1 (16 * (s.finalLevel 3).num + (s.finalLevel 4).num) ++
    (bytesOf 1 (16 * (s.finalLevel 5).num + (s.finalLevel 6).num) ++ (bytesOf 1 s.faceCount ++
    (bytesOf 2 s.claimReuse ++ (bytesOf 2 s.claimFresh ++ (bytesOf 4 s.water.reuse ++ (bytesOf 4 s.water.fresh ++
    (bytesOf 1 s.faultsByte ++ (s.countBytes ++ checks)))))))))))))))))))))) := by
  obtain ⟨checks, two, closed⟩ := exists_checks (bytesOf 1 kindReport ++ bytesOf 1 s.cfg.id ++ bytesOf 1 36 ++ s.reportPayload)
  refine ⟨checks, two, ?_⟩
  rw [State.report, closed]
  unfold State.reportPayload State.levelPair kindReport
  simp only [List.append_assoc]

theorem State.countBytes_length : s.countBytes.length = 3 := by
  unfold State.countBytes
  split <;> simp

theorem State.report_length : s.report.length = 41 := by
  obtain ⟨checks, two, fields⟩ := s.report_fields
  rw [fields]
  simp only [List.length_append, bytesOf_length, s.countBytes_length, two]

end

section
variable {s : State}

/-- What a peer finds in each field of a report, modulo what the field holds (10.3). -/
theorem State.report_reads (s : State) : s.report.kind = 5 ∧ s.report.sender = s.cfg.id % 256 ∧ s.report.payloadLength = 36 ∧
    s.report.payload 0 1 = s.cfg.period % 256 ∧ s.report.payload 1 1 = s.station.mode.code % 256 ∧
    s.report.payload 2 2 = s.cfg.gridX % 65536 ∧ s.report.payload 4 2 = s.cfg.gridY % 65536 ∧
    s.report.payload 6 2 = s.wind.uEff % 65536 ∧ s.report.payload 8 1 = s.wind.sector % 256 ∧
    s.report.payload 9 1 = s.wind.source.code % 256 ∧ s.report.payload 10 2 = s.maxEri % 65536 ∧
    s.report.payload 12 2 = s.risk.w % 65536 ∧ s.report.payload 14 2 = s.risk.hw % 65536 := by
  obtain ⟨checks, -, fields⟩ := s.report_fields
  rw [fields]
  refine ⟨?_, ?_, ?_, ?_, ?_, ?_, ?_, ?_, ?_, ?_, ?_, ?_, ?_⟩ <;>
    simp only [Frame.kind, Frame.sender, Frame.payloadLength, Frame.payload, field_behind, field_front, Nat.reduceLeDiff,
      Nat.reduceSub, Nat.reduceAdd, Nat.reducePow, Nat.reduceMod]

theorem State.report_reads_levels (s : State) :
    s.report.payload 16 1 = (16 * (s.finalLevel 1).num + (s.finalLevel 2).num) % 256 ∧
    s.report.payload 17 1 = (16 * (s.finalLevel 3).num + (s.finalLevel 4).num) % 256 ∧
    s.report.payload 18 1 = (16 * (s.finalLevel 5).num + (s.finalLevel 6).num) % 256 ∧
    s.report.payload 19 1 = s.faceCount % 256 := by
  obtain ⟨checks, -, fields⟩ := s.report_fields
  rw [fields]
  refine ⟨?_, ?_, ?_, ?_⟩ <;>
    simp only [Frame.payload, field_behind, field_front, Nat.reduceLeDiff, Nat.reduceSub, Nat.reduceAdd, Nat.reducePow]

theorem State.report_reads_water (s : State) : s.report.payload 20 2 = s.claimReuse % 65536 ∧
    s.report.payload 22 2 = s.claimFresh % 65536 ∧ s.report.payload 24 4 = s.water.reuse % 4294967296 ∧
    s.report.payload 28 4 = s.water.fresh % 4294967296 ∧ s.report.payload 32 1 = s.faultsByte % 256 := by
  obtain ⟨checks, -, fields⟩ := s.report_fields
  rw [fields]
  refine ⟨?_, ?_, ?_, ?_, ?_⟩ <;>
    simp only [Frame.payload, field_behind, field_front, Nat.reduceLeDiff, Nat.reduceSub, Nat.reduceAdd, Nat.reducePow]

/-- The count characters stand behind the faults byte (R164). -/
theorem State.report_reads_counts (s : State) : ∃ checks : List Byte, ∀ i size,
    s.report.payload (33 + i) size = field (s.countBytes ++ checks) i size := by
  obtain ⟨checks, -, fields⟩ := s.report_fields
  refine ⟨checks, fun i size => ?_⟩
  rw [fields, Frame.payload, show 3 + (33 + i) = i + 36 by omega]
  simp only [field_behind, Nat.le_add_left_of_le, Nat.reduceLeDiff, Nat.reduceSubDiff, Nat.add_sub_cancel]

theorem State.report_verified (s : State) : s.report.verified = true := verified_sealed _

theorem State.report_shaped (s : State) : s.report.shaped = true := by
  obtain ⟨-, -, counted, -⟩ := s.report_reads
  rw [Frame.shaped_iff, counted, s.report_length]
  decide

theorem Level.num_lt (l : Level) : l.num < 16 := by
  cases l <;> decide

theorem Level.ofNum_num (l : Level) : Level.ofNum l.num = l := by
  cases l <;> rfl

theorem Mode.reportMode_code {m : Mode} (h : m.works = true) : m.code ≤ 3 ∧ reportMode m.code = m := by
  cases m with
  | starting | fault => exact absurd h (by decide)
  | listening | auto | standby | hushed => decide

theorem WindSource.reportSource_code (w : WindSource) : w.code ≤ 4 ∧ reportSource w.code = w := by
  cases w <;> decide

/-- The level of each of the six faces, read from its half of a character (10.3). -/
theorem reportLevel_eq {f : Frame} {level : Nat → Level} (first : f.payload 16 1 = (16 * (level 1).num + (level 2).num) % 256)
    (second : f.payload 17 1 = (16 * (level 3).num + (level 4).num) % 256)
    (third : f.payload 18 1 = (16 * (level 5).num + (level 6).num) % 256) {i : Nat} (h : i < 6) :
    reportLevel f i = level (i + 1) := by
  have small := fun k => (level k).num_lt
  have pair : ∀ a b : Nat, a < 16 → b < 16 → (16 * a + b) % 256 / 16 = a ∧ (16 * a + b) % 256 % 16 = b := by omega
  have high := fun j k => (pair _ _ (small j) (small k)).1
  have low := fun j k => (pair _ _ (small j) (small k)).2
  unfold reportLevel
  interval_cases i <;>
    simp only [Nat.reduceMod, Nat.reduceDiv, Nat.reduceAdd, first, second, third, high, low, if_true, Nat.one_ne_zero, if_false,
      Level.ofNum_num]

theorem State.report_level (s : State) {i : Nat} (h : i < 6) : reportLevel s.report i = s.finalLevel (i + 1) := by
  obtain ⟨first, second, third, -⟩ := s.report_reads_levels
  exact reportLevel_eq first second third h

/-- The highest of the levels reported is the highest of the final levels (R81). -/
theorem State.report_highest (faces : s.faceCount ≤ 6) (records : s.risk.faces.length = s.faceCount) :
    reportHighest s.report = Level.ofNum ((s.risk.faces.map (fun r => r.level.num)).foldl max 0) := by
  obtain ⟨-, -, -, count⟩ := s.report_reads_levels
  have levels : (List.range s.faceCount).map (fun i => (reportLevel s.report i).num) = s.risk.faces.map (fun r => r.level.num) := ?_
  · rw [reportHighest, count, Nat.mod_eq_of_lt (by omega), Nat.min_eq_right faces, levels]
  refine List.ext_getElem (by rw [List.length_map, List.length_map, List.length_range, records]) (fun i inRange inFaces => ?_)
  rw [List.length_map, List.length_range] at inRange
  rw [List.length_map] at inFaces
  rw [List.getElem_map, List.getElem_map, List.getElem_range, s.report_level (by omega), State.finalLevel, if_neg (by omega),
    Nat.add_sub_cancel, List.getElem?_eq_getElem inFaces]
  rfl

/-- Three one-character counts, each as it stands while it fits its character (R164). -/
theorem count_fields {a b c : Nat} (ha : a ≤ 255) (hb : b ≤ 255) (hc : c ≤ 255) (rest : List Byte) :
    field (bytesOf 1 a ++ bytesOf 1 b ++ bytesOf 1 c ++ rest) 0 1 = a ∧
    field (bytesOf 1 a ++ bytesOf 1 b ++ bytesOf 1 c ++ rest) 1 1 = b ∧
    field (bytesOf 1 a ++ bytesOf 1 b ++ bytesOf 1 c ++ rest) 2 1 = c := by
  simp only [List.append_assoc, field_behind, field_front, Nat.reduceLeDiff, Nat.reduceSub, Nat.reducePow]
  omega

end

/-- Settles O52: the report assembled, its shape, and its fields as a peer reads them. -/
theorem reportIsReadAsReported : Obligations.ReportIsReadAsReported := by
  refine ⟨?_, ?_, ?_, fun s => ⟨rfl, rfl⟩, ?_, ?_⟩
  · intro s timer
    have placed : s.line.place s.report = { s.line with
        slot := some s.report,
        superseded := if s.line.slot.isSome then min 255 (s.line.superseded + 1) else s.line.superseded } := by
      rw [Line.place]
      cases s.line.slot <;> rfl
    rw [exec_eq_after, State.after_reportTimerExpiry, if_pos timer, State.assembleReport, placed]
    rfl
  · intro s
    obtain ⟨kind, -, counted, -⟩ := s.report_reads
    exact ⟨s.report_length, kind, counted, s.report_verified, s.report_shaped⟩
  · intro s first last period periods works gridX gridY speed sector w hw eri faces records claimR claimF
    obtain ⟨kind, sender, counted, periodAt, modeAt, xAt, yAt, speedAt, sectorAt, sourceAt, eriAt, wAt, hwAt⟩ := s.report_reads
    obtain ⟨claimRAt, claimFAt, -⟩ := s.report_reads_water
    obtain ⟨modeLe, mode⟩ := Mode.reportMode_code works
    obtain ⟨sourceLe, source⟩ := s.wind.source.reportSource_code
    have maxEri : s.maxEri ≤ 992 := foldl_max_le (by simpa using eri)
    rw [Nat.mod_eq_of_lt (by omega)] at sender periodAt modeAt xAt yAt speedAt sectorAt sourceAt eriAt wAt hwAt claimRAt claimFAt
    refine ⟨?_, ?_, ?_⟩
    · unfold Frame.valid Frame.lengthFits kindPond kindMonitor kindMachine kindOrder kindReport
      simp only [kind, counted, sender]
      simp [first, last]
    · unfold reportAccepted
      simp only [periodAt, modeAt, sourceAt, Bool.and_eq_true, decide_eq_true_eq]
      omega
    · unfold peerRecord
      simp only [sender, xAt, yAt, periodAt, modeAt, speedAt, sectorAt, sourceAt, eriAt, wAt, hwAt, claimRAt, claimFAt, mode, source,
        State.report_highest faces records, Nat.min_eq_right, speed, sector, maxEri, w, hw]
  · intro s claimR claimF reuse fresh
    obtain ⟨claimRAt, claimFAt, reuseAt, freshAt, faultsAt⟩ := s.report_reads_water
    obtain ⟨faults, -⟩ := s.faultsByte_bits
    omega
  · intro s counts laps count
    obtain ⟨checks, read⟩ := s.report_reads_counts
    obtain ⟨noise, framing, clashes, superseded, checkFail, overrun, idConflict, machines, peers, -⟩ := counts
    have at_ : ∀ i, count i = field (s.countBytes ++ checks) i 1 := fun i => read i 1
    simp only [at_, State.countBytes]
    refine ⟨fun page => ?_, fun page => ?_, fun page => ?_, fun page => ?_⟩
    · rw [page]
      exact count_fields overrun checkFail clashes checks
    · rw [page]
      exact count_fields noise framing superseded checks
    · rw [page]
      exact count_fields machines peers idConflict checks
    · rw [read 0 3, State.countBytes, page]
      exact (field_front 3 s.lapSum checks).trans (Nat.mod_eq_of_lt laps)

end Sys2Proof.Machine
end

