-- ==== Sys2Proof/Proofs/Dispatches.lean ====
section
/-! What leaves the receive queue (O46), and FORCE orders (O49). -/

namespace Sys2Proof.Machine

section
variable {s : State} {f : Frame}

theorem State.holds_iff : s.holds f = true ↔ s.risk.flight.isSome = true ∧ (f.kind = 2 ∨ f.kind = 3 ∨ f.kind = 4) := by
  simp only [State.holds, Bool.and_eq_true, Bool.or_eq_true, decide_eq_true_iff, or_assoc]
  rfl

/-- A frame that fails one of tests 1 to 3 (R163). -/
theorem Frame.valid_eq_false (h : f.kind = 0 ∨ 6 < f.kind ∨ f.lengthFits = false ∨ f.sender = 0 ∨ 239 < f.sender) :
    f.valid = false := by
  rw [← Bool.not_eq_true]
  simp only [Frame.valid, Bool.and_eq_true, decide_eq_true_eq]
  rintro ⟨⟨⟨⟨kindLow, kindHigh⟩, fits⟩, senderLow⟩, senderHigh⟩
  rcases h with h | h | h | h | h
  · omega
  · omega
  · exact absurd (fits.symm.trans h) (by decide)
  · omega
  · omega

theorem dispatches_iff {c : Instr} : dispatches c = true ↔
    c = .dispatchForecast ∨ c = .dispatchMonitor ∨ c = .dispatchMachine ∨ c = .dispatchReport ∨ c = .dispatchPond ∨
      c = .dispatchOrderMode ∨ c = .dispatchOrderBank ∨ c = .dispatchOrderForce ∨ c = .dispatchOrderResume ∨
      c = .dispatchOrderZero ∨ c = .orderIgnored ∨ c = .frameDiscardedAtDispatch := by
  cases c <;> simp [dispatches]

/-- What is taken from the queue is its oldest free frame, behind frames that are held (R162). -/
theorem State.HasDispatched.queue {d : Dispatcher} (h : s.HasDispatched d) :
    ∃ older f newer, s.dispatcher.queue = older ++ f :: newer ∧ d.queue = older ++ newer ∧
      (s.risk.flight.isSome = true → f.kind ≠ 2 ∧ f.kind ≠ 3 ∧ f.kind ≠ 4) ∧
      ∀ g ∈ older, s.risk.flight.isSome = true ∧ (g.kind = 2 ∨ g.kind = 3 ∨ g.kind = 4) := by
  obtain ⟨⟨f, oldest⟩, taken⟩ := h
  obtain ⟨older, newer, before, after, free, held⟩ := s.oldestFree_split f oldest
  have queue : d.queue = s.takeFree.dispatcher.queue := by
    rcases taken with rfl | rfl <;> rfl
  refine ⟨older, f, newer, before, queue.trans after, fun flight => ?_, fun g hg => State.holds_iff.mp (held g hg)⟩
  have notHeld : ¬ (s.risk.flight.isSome = true ∧ (f.kind = 2 ∨ f.kind = 3 ∨ f.kind = 4)) := by
    rw [← State.holds_iff, free]
    decide
  refine ⟨fun two => ?_, fun three => ?_, fun four => ?_⟩
  · exact notHeld ⟨flight, .inl two⟩
  · exact notHeld ⟨flight, .inr (.inl three)⟩
  · exact notHeld ⟨flight, .inr (.inr four)⟩

theorem Dispatcher.take_extends (d : Dispatcher) (f : Frame) : ∃ new, (d.take f).queue = d.queue ++ new := by
  unfold Dispatcher.take
  split
  · split
    · exact ⟨[f], rfl⟩
    · exact ⟨[], (List.append_nil _).symm⟩
  · exact ⟨[], (List.append_nil _).symm⟩

end

/-- Settles O46: a command that dispatches takes the oldest free frame, every other keeps what is queued; then the frames discarded. -/
theorem dispatchTakesOldestFree : Obligations.DispatchTakesOldestFree := by
  refine ⟨fun c s t notReset done shorter => ?_, fun f s works oldest => ⟨fun fails => ?_, fun valid own => ?_, ?_⟩⟩
  · rw [exec_eq_after, Host.Outcome.next.injEq] at done
    subst done
    cases dispatching : dispatches c with
    | false =>
      refine absurd ?_ shorter
      rcases State.after_dispatcher_of_not_dispatches c dispatching notReset with same | ⟨f, taken⟩
      · exact ⟨[], by rw [same, List.append_nil]⟩
      · rw [taken]
        exact Dispatcher.take_extends _ f
    | true =>
      refine ⟨dispatches_iff.mp dispatching, ?_⟩
      rcases State.after_dispatcher_of_dispatches c dispatching with same | dispatched
      · exact absurd ⟨[], by rw [same, List.append_nil]⟩ shorter
      · exact dispatched.queue
  · rw [exec_eq_after, State.after_frameDiscardedAtDispatch, oldest]
    dsimp only
    rw [if_neg (by rw [works]; decide), if_pos (Frame.valid_eq_false fails)]
    rfl
  · rw [exec_eq_after, State.after_frameDiscardedAtDispatch, oldest]
    dsimp only
    rw [if_neg (by rw [works]; decide), if_neg (by rw [valid]; decide), if_pos own]
    rfl
  · intro valid kind other ignored
    refine State.exec_dispatch (s.after_orderIgnored) works oldest valid ?_ other
    have notTargeted : (f.payload 0 1 ≠ s.cfg.id ∧ f.payload 0 1 ≠ 255) → s.targeted f = false := fun elsewhere => by
      rw [← Bool.not_eq_true, State.targeted_eq_true_iff]
      exact fun h => h.elim elsewhere.1 elsewhere.2
    simp only [Bool.and_eq_true, Bool.or_eq_true, decide_eq_true_eq, Bool.not_eq_true', ofKind_iff]
    refine ⟨⟨kind, other⟩, ?_⟩
    rcases ignored with elsewhere | none | unknown
    · exact .inl (.inl (notTargeted elsewhere))
    · exact .inl (.inr none)
    · exact .inr unknown

/-! ## FORCE orders -/

section
variable {s : State} {face level minutes : Nat}

/-- A FORCE order outside its ranges is ignored (R45). -/
theorem State.forceOrder_ignored (h : face = 0 ∨ s.cfg.faces.length < face ∨ (4 < level ∧ level ≠ 255) ∨
    (level ≤ 4 ∧ (minutes = 0 ∨ 240 < minutes))) : s.forceOrder face level minutes = s := by
  unfold State.forceOrder State.faceCount
  by_cases unknown : face = 0 ∨ s.cfg.faces.length < face
  · rw [if_pos unknown]
  · rw [if_neg unknown, if_neg (by omega), if_neg (by omega)]

theorem State.forceOrder_sets (first : 1 ≤ face) (last : face ≤ s.cfg.faces.length) (small : level ≤ 4) (timed : 1 ≤ minutes)
    (few : minutes ≤ 240) : s.forceOrder face level minutes = 
      s.setRisk { s.risk with
        faces := s.risk.faces.modify (face - 1)
          fun r => { r with override := some ⟨Level.ofNum level, some (minutes * 60 * 1000)⟩ } } := by
  unfold State.forceOrder State.faceCount
  rw [if_neg (by omega), if_neg (by omega), if_pos ⟨small, timed, few⟩]
  rfl

theorem State.forceOrder_removes (first : 1 ≤ face) (last : face ≤ s.cfg.faces.length) : s.forceOrder face 255 minutes =
    s.setRisk { s.risk with faces := s.risk.faces.modify (face - 1) (fun r => { r with override := none }) } := by
  unfold State.forceOrder State.faceCount
  rw [if_neg (by omega), if_pos rfl]

theorem State.forceOrder_eq (s : State) (face level minutes : Nat) : s.forceOrder face level minutes =
    { s with risk := { s.risk with faces := (s.forceOrder face level minutes).risk.faces } } := by
  unfold State.forceOrder
  split
  · rfl
  · split
    · rfl
    · split <;> rfl

/-- The records with the one of a face changed. -/
theorem getElem?_modify_face {l : List FaceRecord} (u : FaceRecord → FaceRecord) (first : 1 ≤ face) {i : Nat} {r : FaceRecord}
    (at_i : l[i]? = some r) : (l.modify (face - 1) u)[i]? = some (if i + 1 = face then u r else r) := by
  simp only [List.getElem?_modify, at_i, Nat.sub_eq_iff_eq_add first, @eq_comm _ face]
  split <;> rfl

end

/-- Settles O49: the order's own checks, then the override set or removed. -/
theorem forceOrderSetsOverride : Obligations.ForceOrderSetsOverride := by
  intro f s works oldest valid kind sender target code face level minutes
  have obeyed : exec .dispatchOrderForce s = .next (s.takeFree.forceOrder face level minutes) := by
    rw [exec_eq_after, State.after_dispatchOrderForce,
      State.dispatch_order_obeyed State.obeyForce works oldest valid kind sender target code]
    rfl
  refine ⟨_, obeyed, s.takeFree.forceOrder_eq _ _ _, fun ignored => ?_,
    fun first last small timed few => ?_, fun first last removes => ?_⟩
  · rw [State.forceOrder_ignored (s := s.takeFree) ignored]
    rfl
  · rw [State.forceOrder_sets (s := s.takeFree) first last small timed few]
    exact ⟨List.length_modify .., fun i r => getElem?_modify_face _ first⟩
  · rw [removes, State.forceOrder_removes (s := s.takeFree) first last]
    exact ⟨List.length_modify .., fun i r => getElem?_modify_face _ first⟩

end Sys2Proof.Machine
end

