-- ==== Sys2Proof/Proofs/Revocation.lean ====
section
/-! What a containment revokes (R129), and a share hand-over that shrinks a share (O31). -/

namespace Sys2Proof.Machine

section
variable {s t : State}

/-- A list of grants stands within the shares (R127). -/
def State.Holds (s : State) (l : List Grant) : Prop :=
  s.flowOf l ≤ s.sweep.sR + s.sweep.sF ∧ ((∃ g ∈ l, s.priority g.channel ≠ .heavy) → s.flowOf l ≤ s.sweep.sR)

theorem State.contained_iff_holds : s.contained = true ↔ s.Holds s.sweep.grants := State.grantsHold_iff.symm

theorem State.Holds.iff_of_channels (w : s.Within t) (same : s.SamePriority t) {l l' : List Grant}
    (channels : l'.map Grant.channel = l.map Grant.channel) : t.Holds l' ↔ s.Holds l := by
  have heavy : (∃ g ∈ l', t.priority g.channel ≠ .heavy) ↔ ∃ g ∈ l, s.priority g.channel ≠ .heavy := by
    have over_channels (u : State) (m : List Grant) :
        (∃ g ∈ m, u.priority g.channel ≠ .heavy) ↔ ∃ c ∈ m.map Grant.channel, u.priority c ≠ .heavy := by simp
    rw [over_channels, over_channels, channels]
    simp only [same _]
  rw [State.Holds, State.Holds, heavy, w.readsAs.flowOf, State.flowOf_eq_of_channels s channels, w.sR, w.sF]

theorem State.holds_nil : s.Holds [] := by
  simp [State.Holds, State.flowOf]

/-- A channel put at the front of its group stands before the others of its priority, and no other priority sees it (R119). -/
theorem State.insertFront_filter (s : State) (c : Nat) (l : List Nat) (p : Level) :
    (s.insertFront c l).filter (fun d => decide (s.priority d = p)) =
      [c].filter (fun d => decide (s.priority d = p)) ++ l.filter (fun d => decide (s.priority d = p)) := by
  have whole := congrArg (List.filter (fun d => decide (s.priority d = p)))
    (l.takeWhile_append_dropWhile (p := fun d => decide ((s.priority c).num < (s.priority d).num)))
  rw [List.filter_append] at whole
  rw [State.insertFront, List.filter_append, ← List.singleton_append, List.filter_append]
  by_cases own : s.priority c = p
  · have none : (l.takeWhile (fun d => decide ((s.priority c).num < (s.priority d).num))).filter
        (fun d => decide (s.priority d = p)) = [] := by
      refine List.filter_eq_nil_iff.mpr fun d hd => ?_
      have higher := List.mem_takeWhile_imp hd
      simp only [decide_eq_true_eq] at higher ⊢
      rintro rfl
      exact absurd (own ▸ higher) (Nat.lt_irrefl _)
    rw [← whole, none, List.nil_append, List.nil_append]
  · rw [List.filter_singleton, decide_eq_false own, cond_false, List.nil_append, List.nil_append, whole]

theorem State.foldr_insertFront_filter (s : State) (l waiting : List Nat) (p : Level) :
    (l.foldr s.insertFront waiting).filter (fun d => decide (s.priority d = p)) =
      l.filter (fun d => decide (s.priority d = p)) ++ waiting.filter (fun d => decide (s.priority d = p)) := by
  induction l with
  | nil => rfl
  | cons c l ih => rw [List.foldr_cons, State.insertFront_filter, ih, ← List.append_assoc, ← List.filter_append, List.singleton_append]

/-! ## The grants from place `n` on, revoked -/

/-- The fund of the grant at place `i`, by the sum of the grants up to it (R127). -/
def State.fundAt (s : State) (i : Nat) : Fund :=
  if s.sweep.sR < s.flowOf (s.sweep.grants.take (i + 1)) then .fresh else .reuse

/-- The last grant fund of a grant's channel once the grants after place `i` are gone: without a revocation the old one. -/
def State.fundBefore (s : State) (i : Nat) (g : Grant) : Option Fund :=
  if i + 1 = s.sweep.grants.length then (s.channel g.channel).lastFund else some (s.fundAt i)

/-- `t` is `s` with the grants from place `n` on revoked, the last first, one fund derivation and one notice for each (R129, log 8). -/
structure State.Revokes (s t : State) (n : Nat) : Prop where
  within : s.Within t
  same : s.SamePriority t
  channels : t.sweep.grants.map Grant.channel = (s.sweep.grants.take n).map Grant.channel
  funds : n < s.sweep.grants.length → t.sweep.grants = s.fundsFrom 0 (s.sweep.grants.take n)
  revoked : ∀ i g, n ≤ i → s.sweep.grants[i]? = some g →
    t.channel g.channel = { (s.channel g.channel).stopped with state := .denied, lastFund := s.fundBefore i g }
  kept : ∀ i g, i < n → s.sweep.grants[i]? = some g → t.channel g.channel = { s.channel g.channel with
    lastFund := if n = s.sweep.grants.length then (s.channel g.channel).lastFund else some (s.fundAt i) }
  waiting : t.sweep.waiting = ((s.sweep.grants.drop n).map Grant.channel).foldr s.insertFront s.sweep.waiting
  notices : t.water.gtNotices = s.water.gtNotices + (s.sweep.grants.length - n)

theorem State.Revokes.refl (s : State) : s.Revokes s s.sweep.grants.length where
  within := .refl s
  same := .refl s
  channels := by rw [List.take_length]
  funds := fun h => absurd h (Nat.lt_irrefl _)
  revoked := fun i g beyond present => absurd (List.getElem?_eq_some_iff.mp present).1 (Nat.not_lt.mpr beyond)
  kept := fun i g _ _ => by rw [if_pos rfl]
  waiting := by rw [List.drop_length]; rfl
  notices := by rw [Nat.sub_self, Nat.add_zero]

theorem State.fundsFrom_of_channels {l l' : List Grant} (channels : l'.map Grant.channel = l.map Grant.channel) (b : Nat) :
    s.fundsFrom b l' = s.fundsFrom b l := by
  induction l generalizing l' b with
  | nil => rw [List.map_eq_nil_iff.mp channels]
  | cons g l ih =>
    obtain ⟨g', l', rfl, own, rest⟩ := List.map_eq_cons_iff.mp channels
    obtain ⟨d, fund'⟩ := g'
    obtain ⟨c, fund⟩ := g
    obtain rfl : d = c := own
    simp only [State.fundsFrom, ih rest]

theorem State.revokeLast_notices {g : Grant} (h : t.sweep.grants.getLast? = some g) :
    t.revokeLast.water.gtNotices = t.water.gtNotices + 1 := by
  rw [State.revokeLast_of_last h, State.noticeGt, State.setWater_water, State.deriveFunds_water]
  rfl

/-- The grants of a telling list have channels of their own. -/
theorem State.GrantsTell.channel_ne (h : s.GrantsTell) {i j : Nat} {g g' : Grant} (at_i : s.sweep.grants[i]? = some g)
    (at_j : s.sweep.grants[j]? = some g') (apart : i ≠ j) : g.channel ≠ g'.channel := by
  intro same
  have short : i < (s.sweep.grants.map Grant.channel).length := by
    rw [List.length_map]
    exact (List.getElem?_eq_some_iff.mp at_i).1
  refine apart ((List.getElem?_inj short h.nodup).mp ?_)
  rw [List.getElem?_map, List.getElem?_map, at_i, at_j, Option.map_some, Option.map_some, same]

/-- The grants that stand, with their funds re-derived. -/
theorem State.fundsFrom_take_getElem? {n i : Nat} {g : Grant} (small : i < n) (at_i : s.sweep.grants[i]? = some g) :
    (s.fundsFrom 0 (s.sweep.grants.take n))[i]? = some { g with fund := s.fundAt i } := by
  rw [State.fundsFrom_getElem?, List.getElem?_take_of_lt small, at_i, List.take_take, Nat.min_eq_left small, Nat.zero_add]
  rfl

/-- One more revocation: the grant at place `n`, the last that stands, is taken. -/
theorem State.Revokes.revokeLast {n : Nat} (h : s.Revokes t (n + 1)) (tells : s.GrantsTell) (long : n < s.sweep.grants.length) :
    s.Revokes t.revokeLast n := by
  obtain ⟨last, at_n⟩ : ∃ last, s.sweep.grants[n]? = some last := ⟨_, List.getElem?_eq_getElem long⟩
  have split : s.sweep.grants.take (n + 1) = s.sweep.grants.take n ++ [last] := by rw [List.take_add_one, at_n]; rfl
  obtain ⟨g, isLast, own⟩ : ∃ g, t.sweep.grants.getLast? = some g ∧ g.channel = last.channel := by
    have map := congrArg List.getLast? h.channels
    rw [split, List.map_append, List.map_singleton, List.getLast?_concat, List.getLast?_map] at map
    exact Option.map_eq_some_iff.mp map
  have rest : t.sweep.grants.dropLast.map Grant.channel = (s.sweep.grants.take n).map Grant.channel := by
    rw [List.map_dropLast, h.channels, split, List.map_append, List.map_singleton, List.dropLast_concat]
  have grants : t.revokeLast.sweep.grants = s.fundsFrom 0 (s.sweep.grants.take n) := by
    rw [State.revokeLast_grants isLast, h.within.readsAs.fundsFrom h.within.sR, State.fundsFrom_of_channels rest]
  have lastLong : g.channel < t.sweep.channels.length := by
    rw [h.within.length, own]
    exact tells.lt_length (List.mem_of_getElem? at_n)
  have untouched (d : Nat) (gone : d ∉ (s.sweep.grants.take n).map Grant.channel) :
      t.revokeLast.channel d = (t.revoked g).channel d := by
    rw [State.revokeLast_of_last isLast]
    exact State.deriveFunds_channel_of_notMem _ (by rwa [← rest] at gone)
  have beyond {i : Nat} {g' : Grant} (after : n ≤ i) (at_i : s.sweep.grants[i]? = some g') :
      g'.channel ∉ (s.sweep.grants.take n).map Grant.channel := by
    rintro inside
    obtain ⟨g'', inside, same⟩ := List.mem_map.mp inside
    obtain ⟨j, at_j⟩ := List.mem_iff_getElem?.mp inside
    rw [List.getElem?_take] at at_j
    split at at_j
    next small => exact tells.channel_ne at_j at_i (by omega) same
    next => exact nomatch at_j
  refine ⟨h.within.trans t.revokeLast_within, h.same.trans t.revokeLast_samePriority, ?_, fun _ => grants,
    fun i g' after at_i => ?_, fun i g' small at_i => ?_, ?_, ?_⟩
  · rw [grants, State.fundsFrom_map_channel]
  · rw [untouched _ (beyond after at_i)]
    obtain rfl | further := Nat.eq_or_lt_of_le after
    · obtain rfl : last = g' := Option.some.inj (at_n.symm.trans at_i)
      rw [← own, State.revoked_channel lastLong, own, h.kept n last (Nat.lt_succ_self n) at_n]
      rfl
    · rw [State.revoked_channel_of_ne (by rw [own]; exact tells.channel_ne at_i at_n (Nat.ne_of_gt further)), h.revoked i g' further at_i]
  · have apart : g'.channel ≠ g.channel := by
      rw [own]
      exact tells.channel_ne at_i at_n (by omega)
    have fund : (t.revokeLast.channel g'.channel).lastFund = some (s.fundAt i) := by
      rw [State.revokeLast_of_last isLast]
      refine State.deriveFunds_lastFund (s := t.revoked g) (g := { g' with fund := s.fundAt i }) ?_ ?_ ?_
      · exact rest ▸ tells.nodup.sublist ((List.take_sublist n _).map _)
      · rw [((h.within.trans (t.revoked_within g)).readsAs).fundsFrom (h.within.trans (t.revoked_within g)).sR]
        refine List.mem_of_getElem? (i := i) ?_
        rw [← State.fundsFrom_take_getElem? small at_i]
        exact congrArg (·[i]?) (State.fundsFrom_of_channels rest 0)
      · rw [(h.within.trans (t.revoked_within g)).length]
        exact tells.lt_length (g := g') (List.mem_of_getElem? at_i)
    rw [State.revokeLast_channel isLast, State.revoked_channel_of_ne apart, fund, h.kept i g' (Nat.lt_succ_of_lt small) at_i,
      if_neg (Nat.ne_of_lt long)]
  · rw [State.revokeLast_waiting isLast, h.waiting, h.same.insertFront, own, List.drop_eq_getElem_cons long, List.map_cons,
      List.foldr_cons, (List.getElem?_eq_some_iff.mp at_n).2]
  · rw [State.revokeLast_notices isLast, h.notices]
    omega

theorem State.Revokes.contained_iff {n : Nat} (h : s.Revokes t n) : t.contained = true ↔ s.Holds (s.sweep.grants.take n) :=
  State.contained_iff_holds.trans (State.Holds.iff_of_channels h.within h.same h.channels)

theorem State.fundAt_eq_fresh_iff (s : State) {i : Nat} : s.fundAt i = .fresh ↔ s.sweep.sR < s.flowOf (s.sweep.grants.take (i + 1)) := by
  unfold State.fundAt
  split
  next exceeds => exact iff_of_true rfl exceeds
  next fits => exact iff_of_false (by decide) fits

/-- What stands after a revocation is the grants of before with their funds re-derived. -/
theorem State.Revokes.of_getElem? {n i : Nat} {g : Grant} (h : s.Revokes t n) (long : n < s.sweep.grants.length)
    (at_i : t.sweep.grants[i]? = some g) :
    ∃ g', i < n ∧ s.sweep.grants[i]? = some g' ∧ { g' with fund := s.fundAt i } = g := by
  rw [h.funds long] at at_i
  have small : i < n := by
    have := (List.getElem?_eq_some_iff.mp at_i).1
    rw [State.fundsFrom_length, List.length_take] at this
    omega
  obtain ⟨g', present⟩ : ∃ g', s.sweep.grants[i]? = some g' := ⟨_, List.getElem?_eq_getElem (small.trans long)⟩
  rw [State.fundsFrom_take_getElem? small present] at at_i
  exact ⟨g', small, present, Option.some.inj at_i⟩

/-- A containment revokes the fewest grants from the end of the list that bring the rest within the shares (R129). -/
theorem State.contain_revokes (tells : s.GrantsTell) : ∃ n, s.Revokes s.contain n ∧ s.Holds (s.sweep.grants.take n) ∧
    (n = s.sweep.grants.length ∨ n < s.sweep.grants.length ∧ ¬ s.Holds (s.sweep.grants.take (n + 1))) := by
  have revokes := State.contain_induction (s := s) (P := fun t => ∃ n, s.Revokes t n ∧
    (n = s.sweep.grants.length ∨ n < s.sweep.grants.length ∧ ¬ s.Holds (s.sweep.grants.take (n + 1)))) ?_
    ⟨_, .refl s, .inl rfl⟩
  · obtain ⟨n, h, fewest⟩ := revokes
    exact ⟨n, h, h.contained_iff.mp s.contained_contain, fewest⟩
  · rintro t outside ⟨n, h, fewest⟩
    have exceeds : ¬ s.Holds (s.sweep.grants.take n) := fun holds =>
      Bool.false_ne_true (outside.symm.trans (h.contained_iff.mpr holds))
    cases n with
    | zero => exact absurd State.holds_nil exceeds
    | succ n =>
      have long : n < s.sweep.grants.length := by
        rcases fewest with all | ⟨long, -⟩ <;> omega
      exact ⟨n, h.revokeLast tells long, .inr ⟨long, exceeds⟩⟩

end

/-- Settles O31: a hand-over that shrinks a share below the grants is a containment of the state with the new shares. -/
theorem shrunkSharesRevoke : Obligations.ShrunkSharesRevoke := by
  intro sR sF s orders shrunk within outside t
  have tells := State.ordersTell_iff.mp orders
  have exceeds : ¬ (s.withShares sR sF).Holds s.sweep.grants := outside
  have contained : (s.withShares sR sF).contained = false := by
    rw [← Bool.not_eq_true, State.contained_iff_holds]
    exact exceeds
  have at_ : t = (s.withShares sR sF).contain := by
    show s.handOver sR sF = _
    rw [State.handOver_eq, if_pos ⟨shrunk, contained⟩]
  obtain ⟨n, h, holds, fewest⟩ := State.contain_revokes (s := s.withShares sR sF) (tells.grants.of_eq rfl (fun _ => rfl))
  rw [← at_] at h
  obtain ⟨long, above⟩ : n < s.sweep.grants.length ∧ ¬ (s.withShares sR sF).Holds (s.sweep.grants.take (n + 1)) := by
    refine fewest.resolve_left fun all => exceeds ?_
    rw [all] at holds
    exact (List.take_length (l := s.sweep.grants)) ▸ holds
  have tTells : t.Tells := tells.handOver sR sF
  refine ⟨s.handOver_only sR sF, h.within.sR, h.within.sF, n, long, holds, above, h.channels, fun i g after at_i => ⟨?_, ?_⟩,
    fun p => ?_, fun orders => ?_, h.notices, fun i g at_i => ?_⟩
  · have denied := h.revoked i g after at_i
    refine (tTells.waiting.mem _).mpr ?_
    rw [denied]
    rfl
  · exact h.revoked i g after at_i
  · rw [h.waiting]
    exact State.foldr_insertFront_filter (s.withShares sR sF) _ _ p
  · obtain ⟨grants, waiting⟩ := State.Descends.handOver sR sF ⟨orders.1, orders.2⟩
    exact ⟨grants, waiting⟩
  · obtain ⟨g, small, present, rfl⟩ := h.of_getElem? long at_i
    refine ⟨(s.withShares sR sF).fundAt_eq_fresh_iff, ?_⟩
    rw [h.kept i g small present]
    exact if_neg (Nat.ne_of_lt long)

end Sys2Proof.Machine
end

