-- ==== Sys2Proof/Proofs/LevelTreatment.lean ====
section
/-! What the treatment of R132 leaves of a channel, and what the waiting order looks like once it has been put in order (R119). -/

namespace Sys2Proof.Machine

/-! ## One channel treated -/

/-- The state that the treatment of R132 gives channel `c`; `work` says that it has an eligible leg. -/
def State.treatedState (s : State) (c : Nat) (work : Bool) : ChannelState → ChannelState
  | .idle => if s.station.mode = .auto ∧ work = true then s.joinState c else .idle
  | .waiting => if work then .waiting else .idle
  | .denied => if work then .denied else .idle
  | .windHeld => if work then .windHeld else .idle
  | .slewing => .slewing
  | .opening => .opening
  | .spraying => .spraying
  | .dry => .dry
  | .faulted => .faulted
  | .hushed => .hushed

section
variable {s t : State} {c d j : Nat} {k : Cursor}

theorem State.Within.treatedState (h : s.Within t) (c : Nat) (work : Bool) (st : ChannelState) :
    t.treatedState c work st = s.treatedState c work st := by
  unfold State.treatedState
  rw [h.mode, h.joinState]

theorem State.endPass_channel (hc : c < s.sweep.channels.length) : (s.endPass c).channel c = { s.channel c with
    cursor := none, bank := if (s.channel c).swapPending then s.sweep.requested else (s.channel c).bank, swapPending := false } := by
  rw [State.endPass, State.channel_onChannel_self hc]
  unfold Channel.takeSwap
  dsimp only
  split
  next => rfl
  next none => rw [Bool.not_eq_true] at none; rw [← none]

theorem State.endPass_channel_of_ne (h : d ≠ c) : (s.endPass c).channel d = s.channel d := State.channel_onChannel_of_ne h

theorem State.treatCursor_of_none (h : (s.channel c).cursor = none) : s.treatCursor c = s := by
  rw [State.treatCursor, h]

theorem State.treatCursor_of_eligible (h : (s.channel c).cursor = some k) (eligible : s.eligible (s.leg c k.leg) = true) :
    s.treatCursor c = s := by
  rw [State.treatCursor, h]
  exact if_pos eligible

theorem State.treatCursor_of_next (h : (s.channel c).cursor = some k) (lost : s.eligible (s.leg c k.leg) = false)
    (next : s.eligibleFrom c (k.leg + 1) = some j) : s.treatCursor c = s.moveToLeg c j := by
  rw [State.treatCursor, h]
  dsimp only
  rw [lost, next]
  rfl

theorem State.treatCursor_of_spent (h : (s.channel c).cursor = some k) (lost : s.eligible (s.leg c k.leg) = false)
    (spent : s.eligibleFrom c (k.leg + 1) = none) : s.treatCursor c = s.endPass c := by
  rw [State.treatCursor, h]
  dsimp only
  rw [lost, spent]
  rfl

theorem State.treatCursor_channel_of_ne (h : d ≠ c) : (s.treatCursor c).channel d = s.channel d := by
  unfold State.treatCursor
  split
  · rfl
  · split
    · rfl
    · split
      · exact s.moveToLeg_channel_of_ne _ h
      · exact State.endPass_channel_of_ne h

/-- A channel with no grant that reads the levels: WAITING, DENIED or WIND-HELD. -/
theorem State.treatLevel_of_free (h : (s.channel c).state.waits = true ∨ (s.channel c).state = .windHeld) : s.treatLevel c =
    if (s.treatCursor c).hasWork c then s.treatCursor c else (s.treatCursor c).onChannel c (fun ch => { ch with state := .idle }) := by
  rw [State.treatLevel]
  rw [ChannelState.waits_iff] at h
  rcases h with (h | h) | h <;> rw [h]

theorem State.treatLevel_of_idle (h : (s.channel c).state = .idle) : s.treatLevel c =
    if s.station.mode = .auto ∧ s.hasWork c = true then s.onChannel c (fun ch => { ch with state := s.joinState c }) else s := by
  rw [State.treatLevel, h]

theorem State.treatLevel_of_fixed
    (h : (s.channel c).state.runs = true ∨ (s.channel c).state = .faulted ∨ (s.channel c).state = .hushed) :
    s.treatLevel c = s := by
  rw [State.treatLevel]
  rw [ChannelState.runs_iff] at h
  rcases h with (h | h | h | h) | h | h <;> rw [h]

theorem State.treatLevel_channel_of_ne (h : d ≠ c) : (s.treatLevel c).channel d = s.channel d := by
  unfold State.treatLevel
  split
  case h_1 =>
    split
    · exact State.channel_onChannel_of_ne h
    · rfl
  case h_2 | h_3 | h_4 =>
    dsimp only
    split
    · exact State.treatCursor_channel_of_ne h
    · exact (State.channel_onChannel_of_ne h).trans (State.treatCursor_channel_of_ne h)
  all_goals rfl

/-- Which legs a channel has is read from its bank. -/
theorem State.Within.hasWork (h : s.Within t) (bank : (t.channel c).bank = (s.channel c).bank) : t.hasWork c = s.hasWork c :=
  h.readsAs.hasWork bank

/-- A channel with no grant after its treatment: its cursor treated, its state by the legs it has then (R132). -/
theorem State.treatLevel_channel_of_free (hc : c < s.sweep.channels.length)
    (h : (s.channel c).state.waits = true ∨ (s.channel c).state = .windHeld) : (s.treatLevel c).channel c =
      { (s.treatCursor c).channel c with state := s.treatedState c ((s.treatCursor c).hasWork c) (s.channel c).state } := by
  have state := s.treatCursor_state c c
  have free : ∀ work, s.treatedState c work (s.channel c).state = if work then (s.channel c).state else .idle := fun work => by
    rw [ChannelState.waits_iff] at h
    rcases h with (h | h) | h <;> rw [h] <;> rfl
  rw [State.treatLevel_of_free h, free]
  split
  next => rw [← state]
  next => rw [State.channel_onChannel_self (by rwa [(s.treatCursor_within c).length])]

/-- The treatment of every other channel moves its state alone, and that from IDLE (R132). -/
theorem State.treatLevel_channel_of_not_free (hc : c < s.sweep.channels.length) (waits : (s.channel c).state.waits = false)
    (windless : (s.channel c).state ≠ .windHeld) : (s.treatLevel c).channel c =
      { s.channel c with state := s.treatedState c (s.hasWork c) (s.channel c).state } := by
  cases state : (s.channel c).state with
  | idle =>
    rw [State.treatLevel_of_idle state, State.treatedState]
    split
    next => rw [State.channel_onChannel_self hc]
    next => rw [← state]
  | slewing | opening | spraying | dry =>
    rw [State.treatLevel_of_fixed (.inl (by rw [state]; rfl)), State.treatedState, ← state]
  | faulted => rw [State.treatLevel_of_fixed (.inr (.inl state)), State.treatedState, ← state]
  | hushed => rw [State.treatLevel_of_fixed (.inr (.inr state)), State.treatedState, ← state]
  | waiting | denied => rw [state] at waits; exact absurd waits (by decide)
  | windHeld => exact absurd state windless

end

/-! ## The waiting order put in order -/

/-- Of two channels that wait with the legs as in `s`, the first stands ahead when its priority is higher, or is the same and it has
kept its place, or both have come to the back of their group, in channel order (R119). -/
def State.Places (s : State) (kept : List Nat) (c d : Nat) : Prop :=
  (s.priority d).num < (s.priority c).num ∨ ((s.priority d).num = (s.priority c).num ∧ (c ∈ kept ∨ (d ∉ kept ∧ c < d)))

section
variable {old s : State}

/-- In a list in order of priority, what stands from the first lower priority on is lower. -/
theorem State.ChannelsDescend.dropWhile_lower {l : List Nat} {n : Nat} (h : s.ChannelsDescend l) :
    ∀ d ∈ l.dropWhile (fun d => decide (n ≤ (s.priority d).num)), (s.priority d).num < n := by
  induction l with
  | nil => exact fun d hd => absurd hd List.not_mem_nil
  | cons c l ih =>
    obtain ⟨first, rest⟩ := List.pairwise_cons.mp h
    intro d hd
    rw [List.dropWhile_cons] at hd
    split at hd
    next => exact ih rest d hd
    next low =>
      rw [decide_eq_true_iff, Nat.not_le] at low
      rcases List.mem_cons.mp hd with rfl | hd
      · exact low
      · exact (first d hd).trans_lt low

/-- A channel that comes to the back of its group behind those who kept their places and those of lower number. -/
theorem State.insertBack_places {kept l : List Nat} {c : Nat} (places : l.Pairwise (s.Places kept)) (descends : s.ChannelsDescend l)
    (newcomer : c ∉ kept) (behind : ∀ d ∈ l, d ∈ kept ∨ d < c) : (s.insertBack c l).Pairwise (s.Places kept) := by
  have parts := l.takeWhile_append_dropWhile (p := fun d => decide ((s.priority c).num ≤ (s.priority d).num))
  have ahead : ∀ d ∈ l.takeWhile (fun d => decide ((s.priority c).num ≤ (s.priority d).num)), s.Places kept d c := fun d hd => by
    have higher : (s.priority c).num ≤ (s.priority d).num :=
      of_decide_eq_true (List.mem_takeWhile_imp (p := fun d => decide ((s.priority c).num ≤ (s.priority d).num)) hd)
    rcases Nat.eq_or_lt_of_le higher with same | lower
    · exact .inr ⟨same, (behind d (List.takeWhile_subset _ hd)).imp_right fun lower => ⟨newcomer, lower⟩⟩
    · exact .inl lower
  have after : ∀ d ∈ l.dropWhile (fun d => decide ((s.priority c).num ≤ (s.priority d).num)), s.Places kept c d :=
    fun d hd => .inl (descends.dropWhile_lower d hd)
  rw [← parts] at places
  obtain ⟨front, back, across⟩ := List.pairwise_append.mp places
  rw [State.insertBack, List.pairwise_append, List.pairwise_cons]
  refine ⟨front, ⟨after, back⟩, fun d hd e he => ?_⟩
  rcases List.mem_cons.mp he with rfl | he
  · exact ahead d hd
  · exact across d hd e he

theorem State.foldl_insertBack_places {kept : List Nat} (move : List Nat) (rising : move.Pairwise (· < ·)) :
    ∀ l : List Nat, l.Pairwise (s.Places kept) → s.ChannelsDescend l → (∀ c ∈ move, c ∉ kept) →
      (∀ c ∈ move, ∀ d ∈ l, d ∈ kept ∨ d < c) → (move.foldl (fun l c => s.insertBack c l) l).Pairwise (s.Places kept) := by
  induction move with
  | nil => exact fun l places _ _ _ => places
  | cons c move ih =>
    intro l places descends newcomers behind
    obtain ⟨first, rest⟩ := List.pairwise_cons.mp rising
    refine ih rest _ (State.insertBack_places places descends (newcomers c List.mem_cons_self) (behind c List.mem_cons_self))
      (s.insertBack_descends c descends) (fun d hd => newcomers d (List.mem_cons_of_mem _ hd)) fun d hd e he => ?_
    rcases List.mem_cons.mp ((s.insertBack_perm c l).mem_iff.mp he) with rfl | he
    · exact .inr (first d hd)
    · exact behind d (List.mem_cons_of_mem _ hd) e he

/-- The order of the waiting channels once it is put in order (R119). -/
theorem State.settleWaiting_places (h : old.ChannelsDescend old.sweep.waiting) :
    (State.settleWaiting old s).sweep.waiting.Pairwise (s.Places (State.keptWaiting old s)) := by
  have kept : s.ChannelsDescend (State.keptWaiting old s) := by
    refine (State.ChannelsDescend.congr (s := old) (List.Pairwise.filter _ h) (fun c hc => ?_))
    rw [State.keptWaiting, List.mem_filter, Bool.and_eq_true] at hc
    exact of_decide_eq_true hc.2.2
  refine State.foldl_insertBack_places (State.movedWaiting old s) ?_ _ ?_ kept (fun c hc inside => ?_) fun _ _ d hd => .inl hd
  · exact (List.pairwise_lt_range).filter _
  · refine kept.imp_of_mem fun {c d} hc _ lower => ?_
    rcases Nat.eq_or_lt_of_le lower with same | lower
    · exact .inr ⟨same, .inl hc⟩
    · exact .inl lower
  · rw [State.movedWaiting, List.mem_filter] at hc
    simp [inside] at hc

theorem State.insertBack_filter_of_notMem {kept : List Nat} {c : Nat} (newcomer : c ∉ kept) (l : List Nat) :
    (s.insertBack c l).filter (fun d => decide (d ∈ kept)) = l.filter (fun d => decide (d ∈ kept)) := by
  rw [State.insertBack, List.filter_append, List.filter_cons_of_neg (by simpa using newcomer), ← List.filter_append,
    List.takeWhile_append_dropWhile]

/-- Those who keep their places stand in the order they stood in (R119). -/
theorem State.settleWaiting_filter_kept (old s : State) :
    (State.settleWaiting old s).sweep.waiting.filter (fun d => decide (d ∈ State.keptWaiting old s)) = State.keptWaiting old s := by
  have fold : ∀ move l : List Nat, (∀ c ∈ move, c ∉ State.keptWaiting old s) →
      (move.foldl (fun l c => s.insertBack c l) l).filter (fun d => decide (d ∈ State.keptWaiting old s)) =
        l.filter (fun d => decide (d ∈ State.keptWaiting old s)) := by
    intro move
    induction move with
    | nil => exact fun l _ => rfl
    | cons c move ih =>
      intro l newcomers
      rw [List.foldl_cons, ih _ fun d hd => newcomers d (List.mem_cons_of_mem _ hd),
        State.insertBack_filter_of_notMem (newcomers c List.mem_cons_self)]
  rw [State.settleWaiting_eq]
  refine (fold _ _ fun c hc inside => ?_).trans (List.filter_eq_self.mpr fun d hd => decide_eq_true hd)
  rw [State.movedWaiting, List.mem_filter] at hc
  simp [inside] at hc

/-- With the same channels waiting at the same priorities the waiting order stands. -/
theorem State.settleWaiting_of_same (waits : ∀ c, c ∈ old.sweep.waiting ↔ (s.channel c).state.waits = true)
    (priority : ∀ c ∈ old.sweep.waiting, s.priority c = old.priority c) :
    (State.settleWaiting old s).sweep.waiting = old.sweep.waiting := by
  have kept : State.keptWaiting old s = old.sweep.waiting := by
    refine List.filter_eq_self.mpr fun c hc => ?_
    rw [Bool.and_eq_true]
    exact ⟨(waits c).mp hc, decide_eq_true (priority c hc)⟩
  have moved : State.movedWaiting old s = [] := by
    refine List.filter_eq_nil_iff.mpr fun c _ moves => ?_
    rw [Bool.and_eq_true, kept] at moves
    simp [(waits c).mpr moves.1] at moves
  rw [State.settleWaiting_eq, kept, moved]
  rfl

end

end Sys2Proof.Machine
end

