-- ==== Sys2Proof/Proofs/BankSwaps.lean ====
section
/-! BANK orders (O48): the swaps taken at once, the waiting order put in order, one scan. -/

namespace Sys2Proof.Machine

/-- A channel that takes its swap to the requested bank at once (R135). -/
def Channel.SwapsTo (requested : Bank) (ch : Channel) : Prop :=
  ch.bank ≠ requested ∧
    (ch.state = .idle ∨ ch.state = .waiting ∨ ch.state = .hushed ∨ (ch.state = .windHeld ∧ ch.cursor = none))

/-- A channel with its swap pending set or cleared (R135). -/
def Channel.pended (requested : Bank) (ch : Channel) : Channel := { ch with swapPending := decide (ch.bank ≠ requested) }

section
variable {s t : State} {c d : Nat} {requested : Bank}

theorem Channel.swapsAtOnce_pended {ch : Channel} : (ch.pended requested).swapsAtOnce = true ↔ ch.SwapsTo requested := by
  unfold Channel.swapsAtOnce Channel.pended Channel.SwapsTo
  cases ch.state <;> simp

theorem Channel.SwapsTo.not_runs {ch : Channel} (h : ch.SwapsTo requested) : ¬ ch.state.runs = true := by
  obtain ⟨_, idle | waiting | hushed | ⟨held, _⟩⟩ := h
  · rw [idle]; decide
  · rw [waiting]; decide
  · rw [hushed]; decide
  · rw [held]; decide

/-! ## One channel -/

theorem State.bankChannel_of_faulted (h : (s.channel c).state = .faulted) : s.bankChannel c = s := if_pos h

theorem State.bankChannel_of_stays (hc : c < s.sweep.channels.length) (h : (s.channel c).state ≠ .faulted)
    (stays : ¬ (s.channel c).SwapsTo s.sweep.requested) : (s.bankChannel c).channel c = (s.channel c).pended s.sweep.requested := by
  have pended := State.channel_onChannel_self (u := Channel.pended s.sweep.requested) hc
  rw [State.bankChannel, if_neg h]
  dsimp only
  rw [if_neg]
  · exact pended
  · show ¬ ((s.onChannel c (Channel.pended s.sweep.requested)).channel c).swapsAtOnce = true
    rw [pended, Channel.swapsAtOnce_pended]
    exact stays

theorem State.bankChannel_of_swaps (hc : c < s.sweep.channels.length) (swaps : (s.channel c).SwapsTo s.sweep.requested) :
    (s.bankChannel c).channel c = { s.channel c with
      bank := s.sweep.requested, swapPending := false, cursor := none,
      state := s.treatedState c ((s.bankChannel c).hasWork c) (s.channel c).state } := by
  let u := s.onChannel c (Channel.pended s.sweep.requested)
  have uc : u.channel c = (s.channel c).pended s.sweep.requested := State.channel_onChannel_self hc
  have inU : c < u.sweep.channels.length := by rwa [State.onChannel_length]
  have healthy : (s.channel c).state ≠ .faulted := by
    intro faulted
    obtain ⟨_, state⟩ := swaps
    rw [faulted] at state
    rcases state with h | h | h | ⟨h, _⟩ <;> cases h
  have taken : s.bankChannel c = (u.endPass c).treatLevel c := by
    rw [State.bankChannel, if_neg healthy]
    refine if_pos ?_
    show (u.channel c).swapsAtOnce = true
    rw [uc, Channel.swapsAtOnce_pended]
    exact swaps
  have ended : (u.endPass c).channel c = { s.channel c with bank := s.sweep.requested, swapPending := false, cursor := none } := by
    have pending : ((s.channel c).pended s.sweep.requested).swapPending = true := decide_eq_true swaps.1
    rw [State.endPass_channel inU, uc, if_pos pending]
    rfl
  have inEnded : c < (u.endPass c).sweep.channels.length := by rwa [(u.endPass_within c).length]
  have within : s.Within (u.endPass c) := (s.onChannel_within c _).trans (u.endPass_within c)
  have none : ((u.endPass c).channel c).cursor = none := by rw [ended]
  have treated : (s.bankChannel c).channel c = { (u.endPass c).channel c with
      state := (u.endPass c).treatedState c ((u.endPass c).hasWork c) (s.channel c).state } := by
    have state : ((u.endPass c).channel c).state = (s.channel c).state := by rw [ended]
    rw [taken, ← state]
    by_cases free : (s.channel c).state.waits = true ∨ (s.channel c).state = .windHeld
    · rw [State.treatLevel_channel_of_free inEnded (by rwa [state]), State.treatCursor_of_none none]
    · rw [not_or, Bool.not_eq_true] at free
      exact State.treatLevel_channel_of_not_free inEnded (by rw [state]; exact free.1) (by rw [state]; exact free.2)
  have bank : ((s.bankChannel c).channel c).bank = ((u.endPass c).channel c).bank := by rw [treated]
  have work : (s.bankChannel c).hasWork c = (u.endPass c).hasWork c := by
    rw [taken] at bank ⊢
    exact ((u.endPass c).treatLevel_within c).hasWork bank
  rw [work, treated, within.treatedState, ended]

theorem State.bankChannel_channel_of_ne (h : d ≠ c) : (s.bankChannel c).channel d = s.channel d := by
  unfold State.bankChannel
  split
  · rfl
  · dsimp only
    split
    · rw [State.treatLevel_channel_of_ne h, State.endPass_channel_of_ne h, State.channel_onChannel_of_ne h]
    · exact State.channel_onChannel_of_ne h

theorem State.treatCursor_water (s : State) (c : Nat) : (s.treatCursor c).water = s.water := by
  unfold State.treatCursor
  split
  · rfl
  · split
    · rfl
    · split <;> rfl

theorem State.treatLevel_water (s : State) (c : Nat) : (s.treatLevel c).water = s.water := by
  unfold State.treatLevel
  split
  case h_1 => split <;> rfl
  case h_2 | h_3 | h_4 =>
    dsimp only
    split
    · exact s.treatCursor_water c
    · exact s.treatCursor_water c
  all_goals rfl

theorem State.bankChannel_water (s : State) (c : Nat) : (s.bankChannel c).water = s.water := by
  unfold State.bankChannel
  split
  · rfl
  · dsimp only
    split
    · rw [State.treatLevel_water]
      rfl
    · rfl

/-! ## All of them -/

/-- A channel once every channel has had the order (R135). -/
theorem State.banked_channel (s : State) (requested : Bank) (hc : c < s.sweep.channels.length) :
    ((s.channel c).state = .faulted → (s.banked requested).channel c = s.channel c) ∧
    ((s.channel c).state ≠ .faulted → ¬ (s.channel c).SwapsTo requested →
      (s.banked requested).channel c = (s.channel c).pended requested) ∧
    ((s.channel c).SwapsTo requested → (s.banked requested).channel c = { s.channel c with
      bank := requested, swapPending := false, cursor := none,
      state := s.treatedState c ((s.banked requested).hasWork c) (s.channel c).state }) := by
  let asked := s.setSweep { s.sweep with requested := requested }
  obtain ⟨t, within, before, after⟩ := (State.fold_channel (f := State.bankChannel) (R := Eq) (fun _ => rfl) Eq.trans
    State.bankChannel_within (fun _ _ _ h => (State.bankChannel_channel_of_ne h).symm) s.channelNumbers asked s.channelNumbers_nodup
    c).2 (State.mem_channelNumbers.mpr hc)
  have before : t.channel c = s.channel c := before.symm
  have after : (s.banked requested).channel c = (t.bankChannel c).channel c := after.symm
  have asks : t.sweep.requested = requested := within.requested
  have inPlan : c < t.sweep.channels.length := by rwa [within.length]
  have all : (t.bankChannel c).ReadsAs (s.banked requested) := by
    have one : asked.Within (t.bankChannel c) := within.trans (t.bankChannel_within c)
    have every : asked.Within (s.channelNumbers.foldl State.bankChannel asked) := .of_fold State.bankChannel_within _ _
    exact one.readsAs.symm.trans (every.trans (State.settleWaiting_within _ s)).readsAs
  have work : (s.banked requested).hasWork c = (t.bankChannel c).hasWork c := all.hasWork (by rw [after])
  rw [after, work]
  refine ⟨fun faulted => ?_, fun healthy stays => ?_, fun swaps => ?_⟩
  · rw [State.bankChannel_of_faulted (by rwa [before]), before]
  · rw [State.bankChannel_of_stays inPlan (by rwa [before]) (by rwa [before, asks]), before, asks]
  · rw [State.bankChannel_of_swaps inPlan (by rwa [before, asks]), before, asks, within.treatedState]
    rfl

theorem State.banked_grants (s : State) (requested : Bank) : (s.banked requested).sweep.grants = s.sweep.grants :=
  (s.bankChannels_keepsGrants requested).grants

theorem State.banked_water (s : State) (requested : Bank) : (s.banked requested).water = s.water := by
  have fold : ∀ (l : List Nat) (u : State), (l.foldl State.bankChannel u).water = u.water := by
    intro l
    induction l with
    | nil => exact fun u => rfl
    | cons c l ih => exact fun u => (ih _).trans (u.bankChannel_water c)
  exact fold _ _

theorem State.banked_within (s : State) (requested : Bank) :
    (s.setSweep { s.sweep with requested := requested }).Within (s.banked requested) :=
  (State.Within.of_fold State.bankChannel_within _ _).trans (State.settleWaiting_within _ s)

theorem State.Tells.banked (requested : Bank) (h : s.Tells) : (s.banked requested).Tells :=
  (s.bankChannels_keepsGrants requested).settled s h.grants h.waiting.nodup

theorem State.mem_banked_waiting : c ∈ (s.banked requested).sweep.waiting ↔ ((s.banked requested).channel c).state.waits = true :=
  State.mem_settleWaiting

/-- A bank has changed exactly where a swap was taken at once. -/
theorem State.banked_bank (hc : c < s.sweep.channels.length) :
    ((s.banked requested).channel c).bank ≠ (s.channel c).bank ↔ (s.channel c).SwapsTo requested := by
  obtain ⟨faulty, pends, swapped⟩ := s.banked_channel requested hc
  by_cases swaps : (s.channel c).SwapsTo requested
  · rw [swapped swaps]
    exact iff_of_true swaps.1.symm swaps
  · refine iff_of_false (fun changed => changed ?_) swaps
    by_cases faulted : (s.channel c).state = .faulted
    · rw [faulty faulted]
    · rw [pends faulted swaps]
      rfl

/-- A BANK order ends with one scan when a swap was taken at once, and with none otherwise (R135; log 31). -/
theorem State.bankOrder_of_swap (hc : c < s.sweep.channels.length) (swaps : (s.channel c).SwapsTo requested) :
    s.bankOrder requested = (s.banked requested).grantScan := by
  rw [State.bankOrder_eq]
  refine if_pos (List.any_eq_true.mpr ⟨c, State.mem_channelNumbers.mpr hc, decide_eq_true ?_⟩)
  exact (State.banked_bank hc).mpr swaps

theorem State.bankOrder_of_none (none : ∀ c, c < s.sweep.channels.length → ¬ (s.channel c).SwapsTo requested) :
    s.bankOrder requested = s.banked requested := by
  rw [State.bankOrder_eq]
  refine if_neg fun changed => ?_
  obtain ⟨c, hc, changed⟩ := List.any_eq_true.mp changed
  have inPlan := State.mem_channelNumbers.mp hc
  exact none c inPlan ((State.banked_bank inPlan).mp (of_decide_eq_true changed))

theorem State.bankOrder_scan (s : State) (requested : Bank) : ∃ l, (s.banked requested).Scan (s.bankOrder requested) l := by
  rw [State.bankOrder_eq]
  split
  · obtain ⟨l, scan, _⟩ := State.grantScan_scan fun d hd => State.lt_length_of_waits (State.mem_banked_waiting.mp hd)
    exact ⟨l, scan⟩
  · exact ⟨[], .refl _⟩

/-! ## What a scan leaves of a channel -/

/-- A scan moves no channel's bank and no swap pending. -/
theorem State.Scan.bank {l : List Grant} (h : s.Scan t l) (c : Nat) :
    (t.channel c).bank = (s.channel c).bank ∧ (t.channel c).swapPending = (s.channel c).swapPending := by
  by_cases granted : c ∈ l.map Grant.channel
  · obtain ⟨k, index, starts⟩ := h.starts c granted
    exact starts.bank
  · rw [h.other c granted]
    exact ⟨rfl, rfl⟩

/-- A channel that waits stays as it was, or is granted and starts at its cursor or begins a pass (R128). -/
theorem State.Scan.placed {l : List Grant} (h : s.Scan t l) (listed : c ∈ s.sweep.waiting) :
    ((t.channel c).state = (s.channel c).state ∧ (t.channel c).cursor = (s.channel c).cursor ∧ c ∈ t.sweep.waiting) ∨
    ((t.channel c).state = .slewing ∧ c ∈ t.sweep.grants.map Grant.channel ∧ c ∉ t.sweep.waiting ∧
      ((s.channel c).cursor.isSome = true → (t.channel c).cursor = (s.channel c).cursor) ∧
      ((s.channel c).cursor = none → ∃ j g, (t.channel c).cursor = some ⟨j, 0⟩ ∧ (s.plan c)[j]? = some g ∧
        g.minimum ≤ (s.finalLevel g.face).num ∧
        ∀ i h, i < j → (s.plan c)[i]? = some h → ¬ h.minimum ≤ (s.finalLevel h.face).num)) := by
  by_cases granted : c ∈ l.map Grant.channel
  · obtain ⟨k, index, starts⟩ := h.starts c granted
    refine .inr ⟨starts.state, ?_, ?_, fun some => ?_, fun none => ?_⟩
    · rw [(h.grants.map Grant.channel).mem_iff, List.map_append]
      exact List.mem_append_right _ granted
    · rw [h.waiting, List.mem_filter]
      exact fun still => of_decide_eq_true still.2 granted
    · obtain ⟨k', cursor⟩ := Option.isSome_iff_exists.mp some
      have entry := starts.1
      rw [State.entry_of_some cursor, Option.some.injEq, Prod.mk.injEq] at entry
      rw [starts.cursor, cursor, entry.1]
    · have entry := starts.1
      rw [State.entry_of_none none] at entry
      obtain ⟨j, first, at_⟩ := Option.map_eq_some_iff.mp entry
      obtain ⟨g, _, present, eligible, before⟩ := State.eligibleFrom_eq_some_iff.mp first
      rw [Prod.mk.injEq] at at_
      refine ⟨j, g, by rw [starts.cursor, at_.1], present, State.eligible_iff.mp eligible, fun i h lower at_i reach => ?_⟩
      exact Bool.false_ne_true ((before i h (Nat.zero_le i) lower at_i).symm.trans (State.eligible_iff.mpr reach))
  · have channel := h.other c granted
    refine .inl ⟨by rw [channel], by rw [channel], ?_⟩
    rw [h.waiting, List.mem_filter]
    exact ⟨listed, decide_eq_true granted⟩

/-- No channel that still waits after a scan could be granted (R128). -/
theorem State.grantScan_refuses (auto : s.station.mode = .auto) (nodup : s.sweep.waiting.Nodup) :
    ∀ c ∈ s.grantScan.sweep.waiting, s.grantScan.grantable c = false := by
  rw [State.grantScan_of_auto auto]
  intro c hc
  rw [(State.remark_judgesAs _).grantable]
  exact State.scanWalk_refuses s.sweep.waiting s [] rfl nodup (fun d hd => absurd hd List.not_mem_nil) c hc

theorem State.Scan.priority {l : List Grant} (h : s.Scan t l) (listed : c ∈ t.sweep.waiting) : t.priority c = s.priority c := by
  rw [h.waiting, List.mem_filter] at listed
  have channel := h.other c (of_decide_eq_true listed.2)
  exact State.KeepsPlace.priority ⟨by rw [channel], by rw [channel]⟩ h.within.readsAs

/-! ## The order's outcome -/

/-- The banks and the pending swaps after an order (R135; log 9). -/
theorem State.bankOrder_banks (s : State) (requested : Bank) (hc : c < s.sweep.channels.length) :
    let x := s.channel c
    let y := (s.bankOrder requested).channel c
    (x.state = .idle ∨ x.state = .waiting ∨ x.state = .hushed ∨ (x.state = .windHeld ∧ x.cursor = none) →
      y.bank = requested ∧ y.swapPending = false) ∧
    (x.state.runs = true ∨ x.state = .denied ∨ (x.state = .windHeld ∧ x.cursor ≠ none) →
      y.bank = x.bank ∧ (y.swapPending = true ↔ x.bank ≠ requested)) ∧
    (x.state = .faulted → y.bank = x.bank ∧ y.swapPending = x.swapPending) := by
  intro x y
  obtain ⟨l, scan⟩ := s.bankOrder_scan requested
  obtain ⟨bank, pending⟩ := scan.bank c
  obtain ⟨faulty, pends, swapped⟩ := s.banked_channel requested hc
  refine ⟨fun ready => ?_, fun held => ?_, fun faulted => ?_⟩
  · by_cases same : x.bank = requested
    · have stays : ¬ x.SwapsTo requested := fun swaps => swaps.1 same
      have healthy : x.state ≠ .faulted := fun faulted => by
        rw [faulted] at ready
        rcases ready with h | h | h | ⟨h, _⟩ <;> cases h
      rw [pends healthy stays] at bank pending
      exact ⟨bank.trans same, pending.trans (decide_eq_false (not_not_intro same))⟩
    · rw [swapped ⟨same, ready⟩] at bank pending
      exact ⟨bank, pending⟩
  · have stays : ¬ x.SwapsTo requested := fun ⟨_, ready⟩ => by
      rcases held with runs | denied | ⟨windHeld, some⟩
      · rcases ready with h | h | h | ⟨h, _⟩ <;> rw [h] at runs <;> exact absurd runs (by decide)
      · rw [denied] at ready
        rcases ready with h | h | h | ⟨h, _⟩ <;> cases h
      · rw [windHeld] at ready
        rcases ready with h | h | h | ⟨_, none⟩
        · cases h
        · cases h
        · cases h
        · exact some none
    have healthy : x.state ≠ .faulted := fun faulted => by
      rw [faulted] at held
      rcases held with h | h | ⟨h, _⟩
      · exact absurd h (by decide)
      · cases h
      · cases h
    rw [pends healthy stays] at bank pending
    exact ⟨bank, by rw [pending]; exact decide_eq_true_iff⟩
  · rw [faulty faulted] at bank pending
    exact ⟨bank, pending⟩

/-- Who stays in his place in the waiting order through an order: those who were there, with the priority they had (R119). -/
theorem State.bankOrder_stays (listed : c ∈ (s.bankOrder requested).sweep.waiting) :
    (s.sweep.waiting.contains c && decide ((s.bankOrder requested).priority c = s.priority c)) = true ↔
      c ∈ State.keptWaiting s (s.banked requested) := by
  obtain ⟨l, scan⟩ := s.bankOrder_scan requested
  have waits := State.mem_banked_waiting.mp (scan.waiting ▸ listed |> List.mem_of_mem_filter)
  rw [scan.priority listed, State.keptWaiting, List.mem_filter, waits, Bool.true_and, Bool.and_eq_true, List.contains_iff_mem]

theorem State.bankOrder_keeps_order : ((s.bankOrder requested).sweep.waiting.filter
    (fun c => s.sweep.waiting.contains c && decide ((s.bankOrder requested).priority c = s.priority c))).Sublist s.sweep.waiting := by
  obtain ⟨l, scan⟩ := s.bankOrder_scan requested
  have same : (s.bankOrder requested).sweep.waiting.filter
      (fun c => s.sweep.waiting.contains c && decide ((s.bankOrder requested).priority c = s.priority c)) =
      (s.bankOrder requested).sweep.waiting.filter (fun c => decide (c ∈ State.keptWaiting s (s.banked requested))) := by
    refine List.filter_congr fun c listed => ?_
    rw [Bool.eq_iff_iff, State.bankOrder_stays listed, decide_eq_true_iff]
  have sub : (s.bankOrder requested).sweep.waiting.Sublist (s.banked requested).sweep.waiting := by
    rw [scan.waiting]
    exact List.filter_sublist
  rw [same]
  have kept : (s.banked requested).sweep.waiting.filter (fun c => decide (c ∈ State.keptWaiting s (s.banked requested))) =
      State.keptWaiting s (s.banked requested) := State.settleWaiting_filter_kept s _
  refine (sub.filter _).trans ?_
  rw [kept]
  exact List.filter_sublist

theorem Level.num_injective {x y : Level} (h : x.num = y.num) : x = y := by
  rw [← Level.ofNum_num x, h, Level.ofNum_num]

/-- The order of the waiting channels after an order: by priority, and within one those who kept their places ahead of the others, who
stand in channel order (R119). -/
theorem State.bankOrder_places (h : s.ChannelsDescend s.sweep.waiting) :
    let t := s.bankOrder requested
    let stays (c : Nat) : Bool := s.sweep.waiting.contains c && decide (t.priority c = s.priority c)
    t.sweep.waiting.Pairwise (fun c d => (t.priority d).num < (t.priority c).num ∨
      (t.priority d = t.priority c ∧ (stays c = true ∨ (stays d = false ∧ c < d)))) := by
  intro t stays
  obtain ⟨l, scan⟩ := s.bankOrder_scan requested
  have places : (s.banked requested).sweep.waiting.Pairwise
      ((s.banked requested).Places (State.keptWaiting s (s.banked requested))) := State.settleWaiting_places h
  have sub : t.sweep.waiting.Sublist (s.banked requested).sweep.waiting := by
    rw [scan.waiting]
    exact List.filter_sublist
  refine (places.sublist sub).imp_of_mem fun {c d} hc hd placed => ?_
  rw [scan.priority hc, scan.priority hd]
  refine placed.imp_right fun ⟨same, order⟩ => ⟨Level.num_injective same, ?_⟩
  refine order.imp (State.bankOrder_stays hc).mpr fun ⟨newcomer, lower⟩ => ⟨?_, lower⟩
  rw [← Bool.not_eq_true]
  exact fun stay => newcomer ((State.bankOrder_stays hd).mp stay)

/-- Without a swap taken at once both lists stand (R135). -/
theorem State.bankOrder_stands (tells : s.Tells) (none : ∀ c, c < s.sweep.channels.length → ¬ (s.channel c).SwapsTo requested) :
    (s.bankOrder requested).sweep.grants = s.sweep.grants ∧ (s.bankOrder requested).sweep.waiting = s.sweep.waiting := by
  rw [State.bankOrder_of_none none]
  have place : ∀ c, ((s.banked requested).channel c).state = (s.channel c).state ∧ s.KeepsPlace (s.banked requested) c := fun c => by
    rcases Nat.lt_or_ge c s.sweep.channels.length with hc | beyond
    · obtain ⟨faulty, pends, _⟩ := s.banked_channel requested hc
      by_cases faulted : (s.channel c).state = .faulted
      · rw [State.KeepsPlace, faulty faulted]
        exact ⟨rfl, rfl, rfl⟩
      · rw [State.KeepsPlace, pends faulted (none c hc)]
        exact ⟨rfl, rfl, rfl⟩
    · rw [State.KeepsPlace, State.channel_of_length_le beyond,
        State.channel_of_length_le (s := s.banked requested) ((s.banked_within requested).length ▸ beyond)]
      exact ⟨rfl, rfl, rfl⟩
  refine ⟨s.banked_grants requested, State.settleWaiting_of_same (fun c => ?_) fun c _ => ?_⟩
  · rw [tells.waiting.mem c, ← (place c).1]
    rfl
  · exact (place c).2.priority (s.banked_only requested).readsAs

/-- Where an order leaves a channel that waits once the swaps are taken: it waits on, or the scan grants it (R128, R135). -/
def State.Placed (s t : State) (c : Nat) (state : ChannelState) (cursor : Option Cursor) (plan : List Leg) : Prop :=
  ((t.channel c).state = state ∧ (t.channel c).cursor = cursor ∧ c ∈ t.sweep.waiting) ∨
  ((t.channel c).state = .slewing ∧ c ∈ t.sweep.grants.map Grant.channel ∧ c ∉ t.sweep.waiting ∧
    (cursor.isSome = true → (t.channel c).cursor = cursor) ∧
    (cursor = none → ∃ j g, (t.channel c).cursor = some ⟨j, 0⟩ ∧ plan[j]? = some g ∧ g.minimum ≤ (s.finalLevel g.face).num ∧
      ∀ i h, i < j → plan[i]? = some h → ¬ h.minimum ≤ (s.finalLevel h.face).num))

/-- The legs of a channel's plan in the bank ordered. -/
def State.planIn (s : State) (c : Nat) (bank : Bank) : List Leg :=
  match bank with
  | .a => (s.channelCfg c).planA
  | .b => (s.channelCfg c).planB

theorem State.Within.plan_of_bank (reads : s.ReadsAs t) (bank : (t.channel c).bank = requested) : t.plan c = s.planIn c requested := by
  rw [State.plan, bank, reads.channelCfg]
  rfl

section
variable (tells : s.Tells) (hc : c < s.sweep.channels.length)
include tells hc

/-- A channel that takes no swap keeps all but its flag and its mark when it does not wait, and its place when it does (R135). -/
theorem State.bankOrder_channel_of_stays (stays : ¬ (s.channel c).SwapsTo requested) :
    ((s.channel c).state.waits = false → (s.bankOrder requested).channel c = { s.channel c with
      swapPending := ((s.bankOrder requested).channel c).swapPending, mark := ((s.bankOrder requested).channel c).mark }) ∧
    ((s.channel c).state.waits = true → s.Placed (s.bankOrder requested) c (s.channel c).state (s.channel c).cursor (s.plan c)) := by
  obtain ⟨l, scan⟩ := s.bankOrder_scan requested
  obtain ⟨faulty, pends, _⟩ := s.banked_channel requested hc
  have reads : s.ReadsAs (s.banked requested) := (s.banked_only requested).readsAs
  have channel : (s.banked requested).channel c = { s.channel c with
      swapPending := ((s.banked requested).channel c).swapPending } := by
    by_cases faulted : (s.channel c).state = .faulted
    · rw [faulty faulted]
    · rw [pends faulted stays]
      rfl
  have state : ((s.banked requested).channel c).state = (s.channel c).state := by rw [channel]
  have cursor : ((s.banked requested).channel c).cursor = (s.channel c).cursor := by rw [channel]
  have plan : (s.banked requested).plan c = s.plan c := reads.plan (by rw [channel])
  refine ⟨fun still => ?_, fun waits => ?_⟩
  · have after := scan.channel (tells.banked requested) (d := c) (by rw [state]; exact still)
    have pending := (scan.bank c).2
    rw [pending, after]
    exact congrArg (fun x : Channel => { x with mark := ((s.bankOrder requested).channel c).mark }) channel
  · have placed := scan.placed (State.mem_banked_waiting.mpr (by rw [state]; exact waits))
    rw [state, cursor, plan] at placed
    simpa only [State.Placed, reads.levels] using placed

/-- A channel that takes its swap goes by its eligible legs in the new bank (R132, R135). -/
theorem State.bankOrder_channel_of_swaps (swaps : (s.channel c).SwapsTo requested) :
    ∃ work : Bool, (work = true ↔ ∃ g ∈ s.planIn c requested, g.minimum ≤ (s.finalLevel g.face).num) ∧
      let state := s.treatedState c work (s.channel c).state
      (state.waits = false → ((s.bankOrder requested).channel c).state = state ∧ ((s.bankOrder requested).channel c).cursor = none ∧
        c ∉ (s.bankOrder requested).sweep.waiting) ∧
      (state.waits = true → s.Placed (s.bankOrder requested) c state none (s.planIn c requested)) := by
  obtain ⟨l, scan⟩ := s.bankOrder_scan requested
  obtain ⟨_, _, swapped⟩ := s.banked_channel requested hc
  have channel := swapped swaps
  have reads : s.ReadsAs (s.banked requested) := (s.banked_only requested).readsAs
  have plan : (s.banked requested).plan c = s.planIn c requested := State.Within.plan_of_bank reads (by rw [channel])
  have state : ((s.banked requested).channel c).state =
      s.treatedState c ((s.banked requested).hasWork c) (s.channel c).state := by rw [channel]
  have cursor : ((s.banked requested).channel c).cursor = none := by rw [channel]
  refine ⟨(s.banked requested).hasWork c, ?_, fun still => ?_, fun waits => ?_⟩
  · rw [State.hasWork_iff, plan]
    simp only [State.eligible_iff, reads.levels]
  · rw [← state] at still ⊢
    have after := scan.channel (tells.banked requested) still
    refine ⟨by rw [after], by rw [after]; exact cursor, fun listed => ?_⟩
    have waits := State.mem_banked_waiting.mp (List.mem_of_mem_filter (scan.waiting ▸ listed))
    exact Bool.false_ne_true (still.symm.trans waits)
  · rw [← state] at waits ⊢
    have placed := scan.placed (State.mem_banked_waiting.mpr waits)
    rw [cursor, plan] at placed
    simpa only [State.Placed, reads.levels] using placed

end

end

/-- Settles O48: the swaps of the channels in turn, the waiting order put in order, and one scan. -/
theorem bankOrderSwapsBanks : Obligations.BankOrderSwapsBanks := by
  intro f s works oldest valid kind sender target code
  let u := s.takeFree
  have obeyed : exec .dispatchOrderBank s = .next (u.obeyBank f) := by
    rw [exec_eq_after, State.after_dispatchOrderBank,
      State.dispatch_order_obeyed State.obeyBank works oldest valid kind sender target code]
  have ordered : ∀ requested, (f.payload 2 1 = 0 ∧ requested = Bank.a) ∨ (f.payload 2 1 = 1 ∧ requested = Bank.b) →
      u.obeyBank f = u.bankOrder requested := fun requested named => by
    unfold State.obeyBank
    rcases named with ⟨arg, rfl⟩ | ⟨arg, rfl⟩
    · rw [show f.arg1 = 0 from arg]
      rfl
    · rw [show f.arg1 = 1 from arg]
      rfl
  refine ⟨u.obeyBank f, obeyed, ?_, fun other => ?_, fun requested named => ?_, fun orders requested named => ?_⟩
  · unfold State.obeyBank
    split
    · exact u.bankOrder_only .a
    · exact u.bankOrder_only .b
    · rfl
  · have none : u.obeyBank f = u := by
      unfold State.obeyBank
      split
      · exact absurd other (by rw [show f.payload 2 1 = 0 from ‹_›]; decide)
      · exact absurd other (by rw [show f.payload 2 1 = 1 from ‹_›]; decide)
      · rfl
    rw [none]
    exact ⟨rfl, rfl⟩
  · rw [ordered requested named]
    obtain ⟨l, scan⟩ := u.bankOrder_scan requested
    have within := (u.banked_within requested).trans scan.within
    exact ⟨within.requested, within.length, fun c hc => u.bankOrder_banks requested hc⟩
  · rw [ordered requested named]
    have tells : u.Tells := State.ordersTell_iff.mp orders
    obtain ⟨l, scan⟩ := u.bankOrder_scan requested
    have grants : (u.bankOrder requested).sweep.grants.Perm (s.sweep.grants ++ l) := by
      have := scan.grants
      rwa [u.banked_grants] at this
    intro swaps stays
    have none : (∀ c, ¬ swaps c) → ∀ c, c < u.sweep.channels.length → ¬ (u.channel c).SwapsTo requested :=
      fun none c hc taken => none c ⟨hc, taken⟩
    have after : (u.bankOrder requested).Tells := tells.bankOrder requested
    refine ⟨fun g hg => grants.mem_iff.mpr (List.mem_append_left _ hg), ?_, fun h => State.bankOrder_stands (s := u) tells (none h),
      fun ⟨c, hc, swap⟩ auto => ?_, State.bankOrder_keeps_order (s := u), fun priority => State.bankOrder_places (s := u) priority.2,
      fun c hc => ?_⟩
    · have notices := scan.notices
      rw [u.banked_water] at notices
      rw [notices, grants.length_eq, List.length_append]
      show s.water.gtNotices + _ + _ = _
      omega
    · rw [State.bankOrder_of_swap (s := u) hc swap]
      have mode : (u.banked requested).station.mode = .auto := by
        rw [(u.banked_only requested).station]
        exact auto
      exact State.grantScan_refuses mode (tells.banked requested).waiting.nodup
    · intro before after_ newPlan eligible work kept placed
      have stands := State.bankOrder_channel_of_stays (s := u) (requested := requested) tells hc
      have goes := State.bankOrder_channel_of_swaps (s := u) (requested := requested) tells hc
      refine ⟨fun runs => ?_, fun still stays => ?_, fun waits stays => ?_, fun swap state => ?_, fun swap state => ?_,
        fun swap state => ?_, fun swap state => ?_⟩
      · have stays : ¬ (u.channel c).SwapsTo requested := fun swap => swap.not_runs runs
        have same : after_ = _ := (stands stays).1 (ChannelState.waits_eq_false_of_runs runs)
        exact ⟨same, (after.grants.mem c).mpr (by rw [show (u.bankOrder requested).channel c = _ from same]; exact runs)⟩
      · exact (stands fun swap => stays ⟨hc, swap⟩).1 still
      · exact (stands fun swap => stays ⟨hc, swap⟩).2 waits
      · obtain ⟨some, _, still, _⟩ := goes swap.2
        rw [show (u.channel c).state = .hushed from state] at still
        obtain ⟨same, cursor, _⟩ := still rfl
        exact ⟨same, cursor⟩
      · obtain ⟨some, works_iff, still, _⟩ := goes swap.2
        rw [show (u.channel c).state = .windHeld from state] at still
        cases some with
        | true =>
          obtain ⟨same, cursor, _⟩ := still rfl
          exact ⟨cursor, fun _ => same, fun none => absurd (works_iff.mp rfl) none⟩
        | false =>
          obtain ⟨same, cursor, _⟩ := still rfl
          exact ⟨cursor, fun some => absurd (works_iff.mpr some) Bool.false_ne_true, fun _ => same⟩
      · obtain ⟨some, works_iff, still, waits⟩ := goes swap.2
        rw [show (u.channel c).state = .waiting from state] at still waits
        cases some with
        | true => exact ⟨fun _ => waits rfl, fun none => absurd (works_iff.mp rfl) none⟩
        | false => exact ⟨fun some => absurd (works_iff.mpr some) Bool.false_ne_true, fun _ => still rfl⟩
      · obtain ⟨some, works_iff, still, waits⟩ := goes swap.2
        rw [show (u.channel c).state = .idle from state] at still waits
        refine ⟨fun idle => ?_, fun some auto above => ?_, fun some auto below => ?_⟩
        · have treated : u.treatedState c some .idle = .idle := by
            refine if_neg fun ⟨auto, yes⟩ => idle ⟨works_iff.mp yes, auto⟩
          rw [treated] at still
          obtain ⟨same, cursor, _⟩ := still rfl
          exact ⟨same, cursor⟩
        · have treated : u.treatedState c _ .idle = .windHeld :=
            (if_pos ⟨auto, works_iff.mpr some⟩).trans (if_pos above)
          rw [treated] at still
          obtain ⟨same, cursor, _⟩ := still rfl
          exact ⟨same, cursor⟩
        · have treated : u.treatedState c _ .idle = .waiting :=
            (if_pos ⟨auto, works_iff.mpr some⟩).trans (if_neg (Nat.not_lt.mpr below))
          rw [treated] at waits
          exact waits rfl

end Sys2Proof.Machine
end

