-- ==== Sys2Proof/Proofs/LevelNotices.lean ====
section
/-! What becomes of a channel at new levels (O29): its treatment, then the containment, the scan and the share hand-over. -/

namespace Sys2Proof.Machine

/-! ## A channel drawn through containments and scans -/

/-- From `s` to `t` channel `c` has gone through containments and scans alone: revoked, granted, or left where it was. -/
structure State.Drawn (s t : State) (c : Nat) : Prop where
  reads : s.ReadsAs t
  state : (t.channel c).state = (s.channel c).state ∨
    (((s.channel c).state.runs = true ∨ (s.channel c).state.waits = true) ∧
      ((t.channel c).state = .slewing ∨ (t.channel c).state = .denied))
  bank : (t.channel c).bank = (s.channel c).bank
  pending : (t.channel c).swapPending = (s.channel c).swapPending
  place : ((t.channel c).cursor = (s.channel c).cursor ∧ (t.channel c).ringIndex = (s.channel c).ringIndex) ∨
    ((s.channel c).cursor = none ∧ ((s.channel c).state.runs = true ∨ (s.channel c).state.waits = true) ∧
      ((t.channel c).state = .slewing ∨ (t.channel c).state = .denied) ∧
      ∃ k index, s.entry c = some (k, index) ∧ (t.channel c).cursor = some k ∧ (t.channel c).ringIndex = index)
  slews : (t.channel c).state = .slewing → (s.channel c).state = .slewing ∨ (t.channel c).cursor.isSome = true

section
variable {s t u : State} {c d : Nat}

/-- Where a channel starts is read from its bank, its cursor and its RING index. -/
theorem State.ReadsAs.entry (h : s.ReadsAs t) (bank : (t.channel c).bank = (s.channel c).bank)
    (cursor : (t.channel c).cursor = (s.channel c).cursor) (index : (t.channel c).ringIndex = (s.channel c).ringIndex) :
    t.entry c = s.entry c := by
  unfold State.entry Leg.entryIndex
  rw [cursor, index, h.eligibleFrom bank]
  simp only [h.leg bank]

/-- A channel moved in its funds and its mark alone. -/
theorem State.Drawn.of_same (reads : s.ReadsAs t) (same : t.channel c = { s.channel c with
    lastFund := (t.channel c).lastFund, mark := (t.channel c).mark }) : s.Drawn t c where
  reads := reads
  state := .inl (by rw [same])
  bank := by rw [same]
  pending := by rw [same]
  place := .inl (by rw [same]; exact ⟨rfl, rfl⟩)
  slews := fun slewing => .inl (by rw [← slewing, same])

theorem State.Drawn.trans (h : s.Drawn t c) (k : t.Drawn u c) : s.Drawn u c := by
  have live : (t.channel c).state = .slewing ∨ (t.channel c).state = .denied →
      (u.channel c).state = .slewing ∨ (u.channel c).state = .denied := fun live =>
    k.state.elim (fun same => by rwa [same]) fun moved => moved.2
  have began : (t.channel c).state.runs = true ∨ (t.channel c).state.waits = true →
      (s.channel c).state.runs = true ∨ (s.channel c).state.waits = true := fun began =>
    h.state.elim (fun same => by rwa [same] at began) fun moved => moved.1
  refine ⟨h.reads.trans k.reads, ?_, k.bank.trans h.bank, k.pending.trans h.pending, ?_, fun slewing => ?_⟩
  · rcases k.state with same | ⟨moves, moved⟩
    · rw [same]
      exact h.state
    · exact .inr ⟨began moves, moved⟩
  · rcases h.place with ⟨cursor, index⟩ | ⟨none, moves, moved, e, i, entry, cursor, index⟩
    · rcases k.place with ⟨cursor', index'⟩ | ⟨none, moves, moved, e, i, entry, cursor', index'⟩
      · exact .inl ⟨cursor'.trans cursor, index'.trans index⟩
      · rw [h.reads.entry h.bank cursor index] at entry
        exact .inr ⟨cursor ▸ none, began moves, moved, e, i, entry, cursor', index'⟩
    · rcases k.place with ⟨cursor', index'⟩ | ⟨none', _⟩
      · exact .inr ⟨none, moves, live moved, e, i, entry, cursor'.trans cursor, index'.trans index⟩
      · rw [cursor] at none'
        cases none'
  · rcases k.slews slewing with before | some
    · refine (h.slews before).imp id fun some => ?_
      rcases k.place with ⟨cursor, _⟩ | ⟨none, _⟩
      · rwa [cursor]
      · rw [none] at some
        exact absurd some Bool.false_ne_true
    · exact .inr some

/-! ## Containments -/

theorem State.Tells.revokeLast_drawn (h : s.Tells) (c : Nat) : s.Drawn s.revokeLast c := by
  have reads := s.revokeLast_within.readsAs
  cases last : s.sweep.grants.getLast? with
  | none =>
    rw [State.revokeLast_of_nil last]
    exact .of_same (.refl s) rfl
  | some g =>
    have channel := State.revokeLast_channel last c
    by_cases own : c = g.channel
    · have runs : (s.channel g.channel).state.runs = true :=
        (h.grants.mem _).mp (List.mem_map_of_mem (List.mem_of_getLast? last))
      subst own
      rw [State.revoked_channel (State.lt_length_of_runs runs)] at channel
      refine ⟨reads, .inr ⟨.inl runs, .inr ?_⟩, ?_, ?_, .inl ?_, fun slewing => ?_⟩
      · rw [channel]
      · rw [channel]; rfl
      · rw [channel]; rfl
      · rw [channel]; exact ⟨rfl, rfl⟩
      · rw [channel] at slewing
        cases slewing
    · rw [State.revoked_channel_of_ne own] at channel
      refine .of_same reads ?_
      rw [channel]

theorem State.Tells.contain_drawn (h : s.Tells) (c : Nat) : s.Drawn s.contain c :=
  (State.contain_induction (P := fun t => t.Tells ∧ s.Drawn t c)
    (fun _ _ ⟨tells, drawn⟩ => ⟨tells.revokeLast, drawn.trans (tells.revokeLast_drawn c)⟩) ⟨h, .of_same (.refl s) rfl⟩).2

/-- A containment moves granted channels only (R129). -/
theorem State.Tells.contain_channel (h : s.Tells) (runs : (s.channel c).state.runs = false) :
    s.contain.channel c = s.channel c := by
  refine (State.contain_induction (P := fun t => t.Tells ∧ t.channel c = s.channel c) (fun t _ ⟨tells, same⟩ => ?_) ⟨h, rfl⟩).2
  refine ⟨tells.revokeLast, ?_⟩
  have notMem : c ∉ t.sweep.grants.map Grant.channel := fun granted => by
    have granted := (tells.grants.mem c).mp granted
    rw [same, runs] at granted
    exact Bool.false_ne_true granted
  cases last : t.sweep.grants.getLast? with
  | none => rw [State.revokeLast_of_nil last, same]
  | some g =>
    have inList : g ∈ t.sweep.grants := List.mem_of_getLast? last
    have own : c ≠ g.channel := fun own => notMem (own ▸ List.mem_map_of_mem inList)
    rw [State.revokeLast_of_last last]
    refine (State.deriveFunds_channel_of_notMem _ fun rest => notMem ?_).trans ((State.revoked_channel_of_ne own).trans same)
    obtain ⟨g', hg', rfl⟩ := List.mem_map.mp rest
    exact List.mem_map_of_mem (List.dropLast_subset _ hg')

/-! ## Scans and hand-overs -/

theorem State.Scan.drawn {l : List Grant} (h : s.Scan t l) (tells : s.Tells) (c : Nat) : s.Drawn t c := by
  by_cases granted : c ∈ l.map Grant.channel
  · obtain ⟨k, index, starts⟩ := h.starts c granted
    have waits := (tells.waiting.mem c).mp (h.sublist.subset granted)
    refine ⟨h.within.readsAs, .inr ⟨.inr waits, .inl starts.state⟩, starts.bank.1, starts.bank.2, ?_, fun _ => .inr ?_⟩
    · cases cursor : (s.channel c).cursor with
      | some k' =>
        have entry := starts.1
        rw [State.entry_of_some cursor, Option.some.injEq, Prod.mk.injEq] at entry
        exact .inl ⟨by rw [starts.cursor, entry.1], by rw [starts.ringIndex, entry.2]⟩
      | none => exact .inr ⟨rfl, .inr waits, .inl starts.state, k, index, starts.1, starts.cursor, starts.ringIndex⟩
    · rw [starts.cursor]
      rfl
  · refine .of_same h.within.readsAs ?_
    rw [h.other c granted]

theorem State.Tells.grantScan_drawn (h : s.Tells) (c : Nat) : s.Drawn s.grantScan c := by
  obtain ⟨l, scan, _⟩ := State.grantScan_scan h.inPlan
  exact scan.drawn h c

theorem State.Tells.withShares (h : s.Tells) (sR sF : Nat) : (s.withShares sR sF).Tells := h.of_eq rfl rfl fun _ => rfl

theorem State.Tells.handOver_drawn (h : s.Tells) (sR sF : Nat) (c : Nat) : s.Drawn (s.handOver sR sF) c := by
  have shared : s.Drawn (s.withShares sR sF) c := .of_same (s.setSweep_only _).readsAs rfl
  rw [State.handOver_eq]
  split
  · exact shared.trans ((h.withShares sR sF).contain_drawn c)
  · exact shared.trans ((h.withShares sR sF).grantScan_drawn c)

theorem State.setWater_readsAs (s : State) (x : Water) : s.ReadsAs (s.setWater x) := ⟨rfl, fun _ => rfl, rfl⟩

theorem State.Tells.weightNotice_drawn (old : State) (h : s.Tells) (c : Nat) : s.Drawn (State.weightNotice old s) c := by
  by_cases stand : State.WeightsStand old s
  · rw [State.weightNotice_of_stand stand]
    exact .of_same (.refl s) rfl
  · rw [State.weightNotice_of_changed stand]
    have shared : s.Drawn (s.setWater { s.water with sR := s.reuseShare, sF := s.freshShare }) c :=
      .of_same (s.setWater_readsAs _) rfl
    have tells : (s.setWater { s.water with sR := s.reuseShare, sF := s.freshShare }).Tells := h.of_eq rfl rfl fun _ => rfl
    exact shared.trans (tells.handOver_drawn _ _ c)

/-- A channel without a grant that stands on no leg comes to stand on one by a grant alone (R128). -/
theorem State.Drawn.begun (h : s.Drawn t c) (off : (s.channel c).cursor = none) (still : (s.channel c).state ≠ .slewing) :
    ((t.channel c).cursor = none ∧ (t.channel c).state ≠ .slewing ∧ (t.channel c).ringIndex = (s.channel c).ringIndex) ∨
    ∃ j g, s.IsFirstEligible (s.plan c) 0 j g ∧ (t.channel c).cursor = some ⟨j, 0⟩ ∧
      (t.channel c).ringIndex = g.entryIndex (s.channel c) ∧
      ((s.channel c).state.runs = true ∨ (s.channel c).state.waits = true) ∧
      ((t.channel c).state = .slewing ∨ (t.channel c).state = .denied) := by
  rcases h.place with ⟨cursor, index⟩ | ⟨_, moves, moved, k, index, entry, cursor, at_⟩
  · refine .inl ⟨cursor.trans off, fun slewing => ?_, index⟩
    rcases h.slews slewing with before | some
    · exact still before
    · rw [cursor, off] at some
      exact absurd some Bool.false_ne_true
  · rw [State.entry_of_none off] at entry
    obtain ⟨j, first, same⟩ := Option.map_eq_some_iff.mp entry
    obtain ⟨g, isFirst⟩ := State.eligibleFrom_eq_some_iff.mp first
    rw [Prod.mk.injEq] at same
    refine .inr ⟨j, g, isFirst, by rw [cursor, same.1], ?_, moves, moved⟩
    rw [at_, ← same.2, State.leg_eq isFirst.2.1]

theorem State.Drawn.cursor_of_some (h : s.Drawn t c) (on : (s.channel c).cursor ≠ none) :
    (t.channel c).cursor = (s.channel c).cursor ∧ (t.channel c).ringIndex = (s.channel c).ringIndex :=
  h.place.resolve_right fun ⟨off, _⟩ => on off

end

/-! ## The channels treated and the lists put in order -/

/-- Channel `c` of `t` is that of `s` treated by the levels of `s` (R132). -/
structure State.Treated (s t : State) (c : Nat) : Prop where
  reads : s.ReadsAs t
  state : (t.channel c).state = s.treatedState c (t.hasWork c) (s.channel c).state
  held : (s.channel c).state.waits = false → (s.channel c).state ≠ .windHeld →
    t.channel c = { s.channel c with state := (t.channel c).state }
  off : (s.channel c).cursor = none → t.channel c = { s.channel c with state := (t.channel c).state }
  stays : ∀ k, (s.channel c).cursor = some k → s.eligible (s.leg c k.leg) = true →
    t.channel c = { s.channel c with state := (t.channel c).state }
  next : (s.channel c).state.waits = true ∨ (s.channel c).state = .windHeld → ∀ k j, (s.channel c).cursor = some k →
    s.eligible (s.leg c k.leg) = false → s.eligibleFrom c (k.leg + 1) = some j →
    t.channel c = { s.channel c with
      cursor := some ⟨j, 0⟩, ringIndex := (s.leg c j).entryIndex (s.channel c), state := (t.channel c).state }
  spent : (s.channel c).state.waits = true ∨ (s.channel c).state = .windHeld → ∀ k, (s.channel c).cursor = some k →
    s.eligible (s.leg c k.leg) = false → s.eligibleFrom c (k.leg + 1) = none →
    t.channel c = { s.channel c with
      cursor := none, bank := if (s.channel c).swapPending then s.sweep.requested else (s.channel c).bank,
      swapPending := false, state := (t.channel c).state }

section
variable {old s t u : State} {c : Nat}

theorem State.treatLevel_treated (hc : c < s.sweep.channels.length) : s.Treated (s.treatLevel c) c := by
  have within := s.treatLevel_within c
  have free_or : ((s.channel c).state.waits = true ∨ (s.channel c).state = .windHeld) ∨
      ((s.channel c).state.waits = false ∧ (s.channel c).state ≠ .windHeld) := by
    by_cases free : (s.channel c).state.waits = true ∨ (s.channel c).state = .windHeld
    · exact .inl free
    · rw [not_or, Bool.not_eq_true] at free
      exact .inr free
  have held := fun waits windless => State.treatLevel_channel_of_not_free (s := s) hc waits windless
  have treats := fun free => State.treatLevel_channel_of_free (s := s) hc free
  have kept (cursor : s.treatCursor c = s) :
      (s.treatLevel c).channel c = { s.channel c with state := ((s.treatLevel c).channel c).state } := by
    rcases free_or with free | ⟨waits, windless⟩
    · rw [treats free, cursor]
    · rw [held waits windless]
  refine ⟨within.readsAs, ?_, fun waits windless => ?_, fun none => kept (State.treatCursor_of_none none),
    fun k cursor eligible => kept (State.treatCursor_of_eligible cursor eligible),
    fun free k j cursor lost next => ?_, fun free k cursor lost spent => ?_⟩
  · rcases free_or with free | ⟨waits, windless⟩
    · have work : (s.treatLevel c).hasWork c = (s.treatCursor c).hasWork c := by
        refine ((s.treatCursor_within c).readsAs.symm.trans within.readsAs).hasWork ?_
        rw [treats free]
      rw [work, treats free]
    · have work : (s.treatLevel c).hasWork c = s.hasWork c := within.hasWork (by rw [held waits windless])
      rw [work, held waits windless]
  · rw [held waits windless]
  · rw [treats free, State.treatCursor_of_next cursor lost next, State.moveToLeg_channel s j hc]
    rfl
  · rw [treats free, State.treatCursor_of_spent cursor lost spent, State.endPass_channel hc]

/-- A treatment reads the channel, and of the state what the treatment of the others leaves. -/
theorem State.Treated.of_within (within : s.Within t) (same : t.channel c = s.channel c) (h : t.Treated u c) : s.Treated u c := by
  have bank : (t.channel c).bank = (s.channel c).bank := by rw [same]
  have leg := within.readsAs.leg bank
  have first := within.readsAs.eligibleFrom bank
  have eligible := within.readsAs.eligible
  refine ⟨within.readsAs.trans h.reads, ?_, ?_, ?_, ?_, ?_, ?_⟩
  · rw [h.state, same, within.treatedState]
  · rw [← same]
    exact h.held
  · rw [← same]
    exact h.off
  · rw [← same]
    intro k
    rw [← eligible, ← leg]
    exact h.stays k
  · rw [← same]
    intro free k j
    rw [← eligible, ← leg, ← leg, ← first]
    exact h.next free k j
  · rw [← same, ← within.requested]
    intro free k
    rw [← eligible, ← leg, ← first]
    exact h.spent free k

theorem State.Treated.of_channel (h : s.Treated t c) (reads : t.ReadsAs u) (same : u.channel c = t.channel c) : s.Treated u c := by
  refine ⟨h.reads.trans reads, ?_, ?_, ?_, ?_, ?_, ?_⟩
  · rw [same, reads.hasWork (by rw [same])]
    exact h.state
  all_goals rw [same]
  · exact h.held
  · exact h.off
  · exact h.stays
  · exact h.next
  · exact h.spent

/-- The channels treated and the lists put in order, before the containment (R132). -/
def State.levelled (old s : State) : State :=
  State.settleGrants old (State.settleWaiting old (s.channelNumbers.foldl State.treatLevel s))

theorem State.Tells.levelled (h : s.GrantsTell) (hw : old.sweep.waiting.Nodup) : (State.levelled old s).Tells :=
  (s.treatLevels_keepsGrants.settled old h hw).settleGrants old

theorem State.levelled_treated (old : State) (hc : c < s.sweep.channels.length) : s.Treated (State.levelled old s) c := by
  obtain ⟨t, within, before, after⟩ := (State.fold_channel (f := State.treatLevel) (R := Eq) (fun _ => rfl) Eq.trans
    State.treatLevel_within (fun _ _ _ h => (State.treatLevel_channel_of_ne h).symm) s.channelNumbers s s.channelNumbers_nodup
    c).2 (State.mem_channelNumbers.mpr hc)
  have one : s.Within (t.treatLevel c) := within.trans (t.treatLevel_within c)
  have every : s.Within (State.levelled old s) := ((State.Within.of_fold State.treatLevel_within _ s).trans
    (State.settleWaiting_within _ old)).trans (State.settleGrants_within _ old)
  refine (State.Treated.of_within within before.symm (State.treatLevel_treated (by rwa [within.length]))).of_channel
    (one.readsAs.symm.trans every.readsAs) after.symm

/-- A level notice treats each channel, and its containment and scan draw it on. -/
theorem State.levelNotice_drawn (h : s.GrantsTell) (hw : old.sweep.waiting.Nodup) (c : Nat) :
    (State.levelled old s).Drawn (State.levelNotice old s) c := by
  have tells := State.Tells.levelled h hw
  exact (tells.contain_drawn c).trans (tells.contain.grantScan_drawn c)

end

end Sys2Proof.Machine
end

