-- ==== Sys2Proof/Proofs/LevelChanges.lean ====
section
/-! What new levels do to each channel in either order of the notices (O29). -/

namespace Sys2Proof.Machine

section
variable {s v t : State} {c j : Nat} {g : Leg} {plan : List Leg}

/-- The first eligible leg, by the levels that another state reads as well. -/
theorem State.ReadsAs.isFirstEligible_iff (reads : s.ReadsAs t) {start : Nat} : s.IsFirstEligible plan start j g ↔
    start ≤ j ∧ plan[j]? = some g ∧ g.minimum ≤ (t.finalLevel g.face).num ∧
      ∀ i h, start ≤ i → i < j → plan[i]? = some h → ¬ h.minimum ≤ (t.finalLevel h.face).num := by
  have refused : ∀ h : Leg, s.eligible h = false ↔ ¬ h.minimum ≤ (t.finalLevel h.face).num := fun h => by
    rw [← Bool.not_eq_true, State.eligible_iff, reads.levels]
  unfold State.IsFirstEligible
  simp only [refused, State.eligible_iff, reads.levels]

theorem State.Drawn.hasWork (k : s.Drawn t c) : t.hasWork c = s.hasWork c := k.reads.hasWork k.bank

section
variable (h : s.Treated v c) (k : v.Drawn t c)
include h k

/-- A channel's state after new levels: the one it is treated to, or revoked or granted from it. -/
theorem State.Treated.settles {st : ChannelState} (treated : s.treatedState c (t.hasWork c) (s.channel c).state = st) :
    (t.channel c).state = st ∨
      ((st.runs = true ∨ st.waits = true) ∧ ((t.channel c).state = .slewing ∨ (t.channel c).state = .denied)) := by
  have state := h.state
  rw [← k.hasWork, treated] at state
  rw [← state]
  exact k.state

theorem State.Treated.settles_still {st : ChannelState} (treated : s.treatedState c (t.hasWork c) (s.channel c).state = st)
    (runs : st.runs = false) (waits : st.waits = false) : (t.channel c).state = st := by
  refine (h.settles k treated).resolve_right fun ⟨moves, _⟩ => ?_
  rw [runs, waits] at moves
  exact moves.elim Bool.false_ne_true Bool.false_ne_true

/-- A channel that is left without a cursor by its treatment stays so, or begins a pass when it is granted (R128, R132). -/
theorem State.Treated.begun (free : (s.channel c).state.waits = true ∨ (s.channel c).state = .windHeld)
    (off : (v.channel c).cursor = none) (index : (v.channel c).ringIndex = (s.channel c).ringIndex) (legs : v.plan c = plan) :
    ((t.channel c).cursor = none ∧ (t.channel c).state ≠ .slewing) ∨
    ∃ j g, (0 ≤ j ∧ plan[j]? = some g ∧ g.minimum ≤ (t.finalLevel g.face).num ∧
        ∀ i h, 0 ≤ i → i < j → plan[i]? = some h → ¬ h.minimum ≤ (t.finalLevel h.face).num) ∧
      (t.channel c).cursor = some ⟨j, 0⟩ ∧
      (t.channel c).ringIndex = (if g.pattern = .ring then g.a0 else (s.channel c).ringIndex) ∧ (s.channel c).state ≠ .windHeld ∧
      ((t.channel c).state = .slewing ∨ (t.channel c).state = .denied) := by
  have state := h.state
  have still : (v.channel c).state = (s.channel c).state ∨ (v.channel c).state = .idle := by
    rw [state]
    rw [ChannelState.waits_iff] at free
    cases v.hasWork c <;> rcases free with (free | free) | free <;> rw [free] <;> simp [State.treatedState]
  have notSlewing : (v.channel c).state ≠ .slewing := by
    rcases still with same | idle
    · rw [same]
      rcases free with waits | held
      · intro slewing
        rw [slewing] at waits
        exact Bool.false_ne_true waits
      · rw [held]
        decide
    · rw [idle]
      decide
  rcases k.begun off notSlewing with ⟨none, state, _⟩ | ⟨j, g, first, cursor, at_, moves, moved⟩
  · exact .inl ⟨none, state⟩
  · rw [legs] at first
    refine .inr ⟨j, g, k.reads.isFirstEligible_iff.mp first, cursor, by rw [at_, Leg.entryIndex, index], fun held => ?_, moved⟩
    rw [held] at still
    rcases still with same | same <;> rw [same] at moves <;> exact moves.elim Bool.false_ne_true Bool.false_ne_true

end

end

/-! ## The hand-over between the notices -/

section
variable {s t : State} {c : Nat}

/-- A hand-over contains the grants, or scans (R129). -/
theorem State.handOver_cases (s : State) (sR sF : Nat) (tells : s.Tells) :
    s.handOver sR sF = (s.withShares sR sF).contain ∨
      ∃ l, (s.withShares sR sF).Scan (s.handOver sR sF) l ∧ (s.station.mode ≠ .auto → l = []) := by
  rw [State.handOver_eq]
  split
  · exact .inl rfl
  · exact .inr (State.grantScan_scan (tells.withShares sR sF).inPlan)

theorem State.Scan.of_nil (h : s.Scan t []) (c : Nat) : t.channel c = { s.channel c with mark := (t.channel c).mark } :=
  h.other c List.not_mem_nil

/-- What the weight notice leaves of a channel (R105, R127 to R129). -/
structure State.HandsOver (s t : State) (c : Nat) : Prop where
  runs : (s.channel c).state.runs = true → (t.channel c).cursor = (s.channel c).cursor ∧
    ((t.channel c).state = (s.channel c).state ∨ (t.channel c).state = .denied)
  waits : (s.channel c).state.waits = true →
    ((t.channel c).state = (s.channel c).state ∧ (t.channel c).cursor = (s.channel c).cursor) ∨
    ((t.channel c).state = .slewing ∧ s.station.mode = .auto ∧
      ((s.channel c).cursor.isSome = true → (t.channel c).cursor = (s.channel c).cursor) ∧
      ((s.channel c).cursor = none → ∃ j g, (t.channel c).cursor = some ⟨j, 0⟩ ∧ (s.plan c)[j]? = some g ∧
        g.minimum ≤ (s.finalLevel g.face).num ∧
        ∀ i h, i < j → (s.plan c)[i]? = some h → ¬ h.minimum ≤ (s.finalLevel h.face).num))
  rest : (s.channel c).state.runs = false → (s.channel c).state.waits = false →
    t.channel c = { s.channel c with mark := (t.channel c).mark }

theorem State.HandsOver.refl (s : State) (c : Nat) : s.HandsOver s c :=
  ⟨fun _ => ⟨rfl, .inl rfl⟩, fun _ => .inl ⟨rfl, rfl⟩, fun _ _ => rfl⟩

theorem State.Tells.handOver_handsOver (tells : s.Tells) (sR sF : Nat) (c : Nat) : s.HandsOver (s.handOver sR sF) c := by
  have tells' := tells.withShares sR sF
  rcases s.handOver_cases sR sF tells with contains | ⟨l, scan, modes⟩
  · rw [contains]
    refine ⟨fun _ => ⟨((s.withShares sR sF).contain_keepsPlace c).2, (s.withShares sR sF).contain_state c⟩, fun waits => .inl ?_,
      fun runs _ => ?_⟩
    · rw [tells'.contain_channel (ChannelState.runs_eq_false_of_waits waits)]
      exact ⟨rfl, rfl⟩
    · rw [tells'.contain_channel runs]
      rfl
  · refine ⟨fun runs => ?_, fun waits => ?_, fun _ waits => scan.channel tells' waits⟩
    · rw [scan.channel tells' (ChannelState.waits_eq_false_of_runs runs)]
      exact ⟨rfl, .inl rfl⟩
    · by_cases auto : s.station.mode = .auto
      · rcases scan.placed ((tells'.waiting.mem c).mpr waits) with ⟨state, cursor, _⟩ | ⟨state, _, _, some, none⟩
        · exact .inl ⟨state, cursor⟩
        · exact .inr ⟨state, auto, some, none⟩
      · have empty := modes auto
        subst empty
        rw [scan.of_nil c]
        exact .inl ⟨rfl, rfl⟩

theorem State.Tells.weightNotice_handsOver (old : State) (h : s.Tells) (c : Nat) : s.HandsOver (State.weightNotice old s) c := by
  by_cases stand : State.WeightsStand old s
  · rw [State.weightNotice_of_stand stand]
    exact .refl s c
  · rw [State.weightNotice_of_changed stand]
    have shared : (s.setWater { s.water with sR := s.reuseShare, sF := s.freshShare }).Tells := h.of_eq rfl rfl fun _ => rfl
    obtain ⟨runs, waits, rest⟩ := shared.handOver_handsOver s.reuseShare s.freshShare c
    exact ⟨runs, waits, rest⟩

theorem State.handOver_length (s : State) (sR sF : Nat) : (s.handOver sR sF).sweep.channels.length = s.sweep.channels.length := by
  rw [State.handOver_eq]
  split
  · exact (State.contain_within _).length
  · exact (State.grantScan_within _).length

theorem State.weightNotice_length (old s : State) :
    (State.weightNotice old s).sweep.channels.length = s.sweep.channels.length := by
  by_cases stand : State.WeightsStand old s
  · rw [State.weightNotice_of_stand stand]
  · rw [State.weightNotice_of_changed stand]
    exact State.handOver_length _ _ _

end

/-- Settles O29: the treatment of each channel, drawn on by the containment, the scan and the hand-over of the shares. -/
theorem levelsMoveChannels : Obligations.LevelsMoveChannels := by
  delta Obligations.LevelsMoveChannels
  intro treated
  have treats : ∀ (s : State) (x : Risk) (v t : State), (∀ c, c < s.sweep.channels.length → (s.setRisk x).Treated v c) →
      (∀ c, v.Drawn t c) → treated s t := by
    intro s x v t treats draws c hc before after
    have h := treats c hc
    have k := draws c
    have at_ : (s.setRisk x).channel c = before := rfl
    have ran : before.state.runs = true → before.state.waits = false ∧ before.state ≠ .windHeld ∧
        (s.setRisk x).treatedState c (t.hasWork c) before.state = before.state := fun runs => by
      rcases (ChannelState.runs_iff _).mp runs with same | same | same | same <;> rw [same] <;> exact ⟨rfl, by decide, rfl⟩
    refine ⟨fun fixed => ?_, fun idle auto work => ?_, fun idle none => ?_, fun free none => ?_, fun held work => ?_,
      fun runs => ?_, fun runs some => ?_, fun waits work => ?_, fun free => ?_⟩
    · obtain ⟨runs, waits, windless, stays⟩ : before.state.runs = false ∧ before.state.waits = false ∧
          before.state ≠ .windHeld ∧ (s.setRisk x).treatedState c (t.hasWork c) before.state = before.state := by
        rcases fixed with same | same <;> rw [same] <;> exact ⟨rfl, rfl, by decide, rfl⟩
      have held := h.held waits windless
      refine ⟨h.settles_still k stays runs waits, ?_⟩
      have state : (v.channel c).state = before.state := by rw [h.state, ← k.hasWork]; exact stays
      have cursor : (v.channel c).cursor = before.cursor := by rw [held]; rfl
      rcases k.place with ⟨same, _⟩ | ⟨_, moves, _⟩
      · exact same.trans cursor
      · rw [state, runs, waits] at moves
        exact moves.elim (fun h => absurd h Bool.false_ne_true) fun h => absurd h Bool.false_ne_true
    · have joins : (s.setRisk x).treatedState c (t.hasWork c) before.state = s.joinState c := by
        rw [idle]
        exact if_pos ⟨auto, work⟩
      split
      next above => exact h.settles_still k (joins.trans (if_pos above)) rfl rfl
      next below =>
        rcases h.settles k (joins.trans (if_neg below)) with same | ⟨_, moved⟩
        · exact .inl same
        · exact .inr moved
    · refine h.settles_still k (st := .idle) ?_ rfl rfl
      rw [show ((s.setRisk x).channel c).state = .idle from idle]
      refine if_neg fun ⟨auto, work⟩ => none.elim (fun other => other auto) fun none => ?_
      exact Bool.false_ne_true (none.symm.trans work)
    · refine h.settles_still k (st := .idle) ?_ rfl rfl
      rw [none]
      show State.treatedState _ c false before.state = .idle
      rcases free with waits | held
      · rcases (ChannelState.waits_iff _).mp waits with same | same <;> rw [same] <;> rfl
      · rw [held]
        rfl
    · refine h.settles_still k (st := .windHeld) ?_ rfl rfl
      rw [work]
      show State.treatedState _ c true before.state = .windHeld
      rw [held]
      rfl
    · obtain ⟨_, _, stays⟩ := ran runs
      exact (h.settles k stays).imp id fun moved => moved.2.symm
    · obtain ⟨waits, windless, _⟩ := ran runs
      have cursor : (v.channel c).cursor = before.cursor := by rw [h.held waits windless]; rfl
      have on : (v.channel c).cursor ≠ none := by
        rw [cursor]
        exact Option.ne_none_iff_isSome.mpr some
      exact (k.cursor_of_some on).1.trans cursor
    · have stays : (s.setRisk x).treatedState c (t.hasWork c) before.state = before.state := by
        rw [work]
        rcases (ChannelState.waits_iff _).mp waits with same | same <;> rw [same] <;> rfl
      exact (h.settles k stays).imp id fun moved => moved.2
    · intro eligible first keeps index begun
      have reads := h.reads.trans k.reads
      have eligible_iff : ∀ g : Leg, (s.setRisk x).eligible g = true ↔ eligible g := fun g => by
        rw [State.eligible_iff, ← reads.levels]
      have refuses : ∀ g : Leg, ¬ eligible g → (s.setRisk x).eligible g = false := fun g refused => by
        rw [← Bool.not_eq_true]
        exact fun reach => refused ((eligible_iff g).mp reach)
      have unmoved (same : v.channel c = { before with state := (v.channel c).state }) : keeps ∧ (v.channel c).cursor = before.cursor ∧
          (v.channel c).ringIndex = before.ringIndex ∧ v.plan c = s.plan c := by
        have legs : v.plan c = (s.setRisk x).plan c := h.reads.plan (by rw [same]; rfl)
        refine ⟨⟨k.bank.trans ?_, k.pending.trans ?_⟩, ?_, ?_, legs⟩ <;> rw [same]
      refine ⟨fun off => ?_, fun e on reach => ?_, fun e j g on lost next => ?_, fun e on lost none => ?_⟩
      · obtain ⟨keep, cursor, same, legs⟩ := unmoved (h.off off)
        exact ⟨keep, h.begun k free (cursor.trans off) same legs⟩
      · obtain ⟨keep, cursor, same, _⟩ := unmoved (h.stays e on ((eligible_iff _).mpr reach))
        obtain ⟨cursor', same'⟩ := k.cursor_of_some (by rw [cursor, on]; exact Option.some_ne_none e)
        exact ⟨keep, (cursor'.trans cursor).trans on, same'.trans same⟩
      · have isFirst : (s.setRisk x).IsFirstEligible ((s.setRisk x).plan c) (e.leg + 1) j g := reads.isFirstEligible_iff.mpr next
        have moved := h.next free e j on (refuses _ lost) (State.eligibleFrom_eq_some_iff.mpr ⟨g, isFirst⟩)
        have cursor : (v.channel c).cursor = some ⟨j, 0⟩ := by rw [moved]
        have at_j : (v.channel c).ringIndex = g.entryIndex before := by
          rw [moved, State.leg_eq isFirst.2.1]
          rfl
        obtain ⟨cursor', same'⟩ := k.cursor_of_some (by rw [cursor]; exact Option.some_ne_none _)
        refine ⟨⟨k.bank.trans ?_, k.pending.trans ?_⟩, cursor'.trans cursor, same'.trans at_j⟩
        · rw [moved]; rfl
        · rw [moved]; rfl
      · have spent : (s.setRisk x).eligibleFrom c (e.leg + 1) = Option.none := by
          cases found : (s.setRisk x).eligibleFrom c (e.leg + 1) with
          | none => rfl
          | some j =>
            obtain ⟨g, isFirst⟩ := State.eligibleFrom_eq_some_iff.mp found
            exact absurd (reads.isFirstEligible_iff.mp isFirst) (none j g)
        have ended := h.spent free e on (refuses _ lost) spent
        intro bank
        have takes : (v.channel c).bank = bank := by rw [ended]; rfl
        have legs := State.Within.plan_of_bank h.reads takes
        refine ⟨k.bank.trans takes, k.pending.trans (by rw [ended]), h.begun k free (by rw [ended]) (by rw [ended]) legs⟩
  refine ⟨fun snap s flight orders => ?_, fun snap s flight orders => ?_⟩
  · have tells := State.ordersTell_iff.mp orders
    have grants : (s.published snap).GrantsTell := tells.grants.of_eq rfl fun _ => rfl
    refine ⟨s.complete snap false, by rw [exec_eq_after, State.after_evaluationCompletion, flight],
      treats s (s.published snap).risk (State.levelled s (s.published snap)) _ (fun c hc => State.levelled_treated s hc) fun c => ?_⟩
    rw [State.complete_of_levelsFirst]
    exact (State.levelNotice_drawn grants tells.waiting.nodup c).trans
      ((State.Tells.levelNotice grants tells.waiting.nodup).weightNotice_drawn s c)
  · have tells := State.ordersTell_iff.mp orders
    let r := State.settleLists s (s.published snap)
    let u := State.weightNotice s r
    have published : (s.published snap).Tells := tells.of_eq rfl rfl fun _ => rfl
    have settled : r.Tells := State.Tells.settleLists s published.grants tells.waiting.nodup
    have told : u.Tells := settled.weightNotice s
    have at_ : s.complete snap true = State.levelNotice u u := State.complete_of_weightsFirst s snap
    have within : u.Within (s.complete snap true) := at_ ▸ State.levelNotice_within u u
    have risk : (s.complete snap true).risk = u.risk := within.only.risk
    refine ⟨u, s.complete snap true, by rw [exec_eq_after, State.after_evaluationCompletion, flight], ?_, State.ordersTell_iff.mpr told,
      ?_, within.sR.symm, within.sF.symm, ?_, fun w hw => ?_, fun c hc => ?_⟩
    · refine treats u u.risk (State.levelled u u) _ (fun c hc => State.levelled_treated u hc) fun c => ?_
      rw [at_]
      exact State.levelNotice_drawn told.grants told.waiting.nodup c
    · have reaches : State.Reaches [.risk, .sweep, .water] s u :=
        ((s.setRisk_reaches _).mono.trans ((s.published snap).settleLists_within s).only.reaches.mono).trans
          (r.weightNotice_reaches s).mono
      have water := ((s.published_waterAlike snap).trans ((s.published snap).settleLists_within s).only.waterAlike).trans
        (State.weightNotice_waterAlike s r)
      obtain ⟨sR, sF, _, _⟩ := within.shares
      rw [risk, sR, sF]
      exact State.eq_mk (reaches .pending (by decide)) (reaches .cfg (by decide)) (reaches .station (by decide))
        (reaches .wind (by decide)) (reaches .forecast (by decide)) rfl (reaches .fence (by decide))
        (reaches .machines (by decide)) (reaches .peers (by decide)) water.eq rfl (reaches .line (by decide))
        (reaches .dispatcher (by decide))
    · exact State.weightNotice_length s r
    · have stand : State.WeightsStand s r := by
        have same : u.risk = r.risk := r.weightNotice_reaches s .risk (by decide)
        rw [risk, same] at w hw
        exact ⟨w, hw⟩
      show (State.weightNotice s r).sweep.channels = _
      rw [State.weightNotice_of_stand stand]
      rfl
    · obtain ⟨runs, waits, rest⟩ := settled.weightNotice_handsOver s c
      have reads : r.ReadsAs (s.complete snap true) := (settled.weightNotice_drawn s c).reads.trans within.readsAs
      refine ⟨runs, fun waiting => ?_, rest⟩
      rcases waits waiting with same | ⟨state, auto, some, none⟩
      · exact .inl same
      · refine .inr ⟨state, auto, some, fun off => ?_⟩
        obtain ⟨j, g, cursor, present, reach, refused⟩ := none off
        refine ⟨j, g, cursor, present, by rw [reads.levels]; exact reach, fun i h lower at_i => ?_⟩
        rw [reads.levels]
        exact Nat.lt_of_not_le (refused i h lower at_i)

end Sys2Proof.Machine
end

