-- ==== Sys2Proof/Proofs/StepEnds.lean ====
section
/-! A step end (O34): what a channel comes to when it gives its grant up, and when it goes on with it. -/

namespace Sys2Proof.Machine

/-! ## A step started -/

/-- The bias of a step of leg `g` (R121). -/
def State.biasAt (s : State) (c : Nat) (g : Leg) (k : Cursor) (index : Nat) : Int :=
  biasOf s.wind.uEff s.wind.sector (s.channelCfg c).gain (g.azimuth k.step index)

/-- The azimuth that a step of leg `g` aims at (R120). -/
def State.aimAt (s : State) (c : Nat) (g : Leg) (k : Cursor) (index : Nat) : Nat :=
  modN ((g.azimuth k.step index : Int) + s.biasAt c g k index) 3600

/-- In `t` channel `c` has started the step of leg `g` at cursor `k` and RING index `index`, with the wind and the arcs of `s` (R120). -/
structure State.Launched (s t : State) (c : Nat) (g : Leg) (k : Cursor) (index : Nat) : Prop where
  state : (t.channel c).state = .slewing
  cursor : (t.channel c).cursor = some k
  ringIndex : (t.channel c).ringIndex = index
  bias : (t.channel c).bias = s.biasAt c g k index
  aim : (t.channel c).aim = some (s.aimAt c g k index, g.elevation k.step)
  dry : (t.channel c).dryFlag = s.inActiveArc c (s.aimAt c g k index)
  slew : (t.channel c).slewTimer = some (seconds (s.channelCfg c).slewTimeout)
  dwell : (t.channel c).dwellTimer = none
  valve : (t.channel c).valve = false
  granted : c ∈ t.sweep.grants.map Grant.channel
  off : c ∉ t.sweep.waiting

/-- What a channel keeps however its step ends, once its cursor has moved: its bank, its pending swap and its laps. -/
structure Channel.Carries (x y : Channel) : Prop where
  bank : y.bank = x.bank
  pending : y.swapPending = x.swapPending
  laps : y.laps = x.laps

section
variable {s t u : State} {c : Nat} {g : Leg} {k : Cursor} {index : Nat}

theorem Channel.Carries.trans {x y z : Channel} (h : x.Carries y) (k : y.Carries z) : x.Carries z :=
  ⟨k.bank.trans h.bank, k.pending.trans h.pending, k.laps.trans h.laps⟩

theorem State.Tells.running (h : s.Tells) (runs : (s.channel c).state.runs = true) :
    c ∈ s.sweep.grants.map Grant.channel ∧ c ∉ s.sweep.waiting := by
  refine ⟨(h.grants.mem c).mpr runs, fun listed => ?_⟩
  exact Bool.false_ne_true ((ChannelState.waits_eq_false_of_runs runs).symm.trans ((h.waiting.mem c).mp listed))

theorem State.Launched.of_taken (tells : t.Tells) (channel : t.channel c = { s.taken c k index with
    lastFund := (t.channel c).lastFund, mark := (t.channel c).mark }) :
    s.Launched t c (s.leg c k.leg) k index ∧ (s.channel c).Carries (t.channel c) := by
  have state : (t.channel c).state = .slewing := by rw [channel]; rfl
  obtain ⟨granted, off⟩ := tells.running (c := c) (by rw [state]; rfl)
  refine ⟨⟨state, ?_, ?_, ?_, ?_, ?_, ?_, ?_, ?_, granted, off⟩, ?_, ?_, ?_⟩ <;> rw [channel] <;> rfl

theorem State.Launched.of_within (within : s.Within t) (h : t.Launched u c g k index) : s.Launched u c g k index := by
  have wind : t.wind = s.wind := within.only.wind
  have cfg := within.readsAs.channelCfg c
  have bias : t.biasAt c g k index = s.biasAt c g k index := by rw [State.biasAt, State.biasAt, wind, cfg]
  have aim : t.aimAt c g k index = s.aimAt c g k index := by rw [State.aimAt, State.aimAt, bias]
  refine { h with bias := ?_, aim := ?_, dry := ?_, slew := ?_ }
  · rw [h.bias, bias]
  · rw [h.aim, aim]
  · rw [h.dry, within.readsAs.inActiveArc, aim]
  · rw [h.slew, cfg]

/-! ## Grants given up -/

/-- Channel `c` with its grant gone and its valve closed, in state `st`. -/
def State.gone (s : State) (c : Nat) (st : ChannelState) : State :=
  (s.onChannel c (fun ch => { ch.stopped with state := st })).release c

/-- Channel `c` back in the waiting order, which is `l` then. -/
def State.rejoined (s : State) (c : Nat) (l : List Nat) : State :=
  (s.gone c .waiting).setSweep { (s.gone c .waiting).sweep with waiting := l }

theorem State.gone_channel (st : ChannelState) (hc : c < s.sweep.channels.length) :
    (s.gone c st).channel c = { (s.channel c).stopped with state := st } := by
  rw [State.gone, State.release_channel_of_notMem _ (.inl rfl), State.channel_onChannel_self hc]

theorem State.gone_within (s : State) (c : Nat) (st : ChannelState) : s.Within (s.gone c st) :=
  (s.onChannel_within c _).trans (State.release_within _ c)

theorem State.gone_notices (s : State) (c : Nat) (st : ChannelState) :
    (s.gone c st).water.gtNotices = s.water.gtNotices + 1 := State.release_notices _ c

/-- Of the channels that wait before a scan those that it grants leave (R128). -/
theorem State.Scan.waiting_ungranted {l : List Grant} (h : s.Scan t l) (tells : s.Tells) :
    t.sweep.waiting = s.sweep.waiting.filter (fun d => !t.isGranted d) := by
  rw [h.waiting]
  refine List.filter_congr fun d listed => ?_
  have waits := (tells.waiting.mem d).mp listed
  have notGranted : d ∉ s.sweep.grants.map Grant.channel := fun granted =>
    Bool.false_ne_true ((ChannelState.runs_eq_false_of_waits waits).symm.trans ((tells.grants.mem d).mp granted))
  have granted : t.isGranted d = true ↔ d ∈ l.map Grant.channel := by
    rw [State.isGranted, List.any_eq_true]
    constructor
    · rintro ⟨g, hg, same⟩
      have mem : d ∈ t.sweep.grants.map Grant.channel := (eq_of_beq same) ▸ List.mem_map_of_mem hg
      rw [(h.grants.map Grant.channel).mem_iff, List.map_append] at mem
      exact (List.mem_append.mp mem).resolve_left notGranted
    · intro mem
      obtain ⟨g, hg, rfl⟩ := List.mem_map.mp mem
      exact ⟨g, h.grants.mem_iff.mpr (List.mem_append_right _ hg), beq_self_eq_true _⟩
  cases is : t.isGranted d with
  | true => exact decide_eq_false (not_not_intro (granted.mp is))
  | false => exact decide_eq_true fun mem => Bool.false_ne_true (is.symm.trans (granted.mpr mem))

/-- Channel `c` has given its grant up and waits in the order `l`, or the scan has granted it again (R125, R131). -/
structure State.Rejoins (s t : State) (c : Nat) (l : List Nat) : Prop where
  carries : (s.channel c).Carries (t.channel c)
  waiting : t.sweep.waiting = l.filter (fun d => !t.isGranted d)
  notices : s.water.gtNotices + 1 ≤ t.water.gtNotices
  outcome : ((t.channel c).state = .waiting ∧ (t.channel c).cursor = (s.channel c).cursor ∧ c ∈ t.sweep.waiting ∧
      (t.channel c).ringIndex = (s.channel c).ringIndex ∧ (t.channel c).valve = false ∧ (t.channel c).dwellTimer = none) ∨
    ∃ k index, s.entry c = some (k, index) ∧ s.Launched t c (s.leg c k.leg) k index

theorem State.Tells.rejoins (tells : s.Tells) (runs : (s.channel c).state.runs = true) {l : List Nat}
    (hl : l.Perm (c :: s.sweep.waiting)) : s.Rejoins (s.rejoined c l).grantScan c l := by
  have told : (s.rejoined c l).Tells := tells.rejoin runs rfl hl
  have within : s.Within (s.rejoined c l) := (s.gone_within c .waiting).trans (State.setLists_within _ _ _ _ rfl)
  have channel : (s.rejoined c l).channel c = { (s.channel c).stopped with state := .waiting } :=
    State.gone_channel .waiting (State.lt_length_of_runs runs)
  obtain ⟨granted, scan, _⟩ := State.grantScan_scan told.inPlan
  have after := told.grantScan
  have listed : c ∈ (s.rejoined c l).sweep.waiting := (told.waiting.mem c).mpr (by rw [channel]; rfl)
  have notices : s.water.gtNotices + 1 ≤ (s.rejoined c l).grantScan.water.gtNotices := by
    rw [← s.gone_notices c .waiting]
    exact scan.within.notices
  have same : (s.rejoined c l).ReadsAs s := within.readsAs.symm
  have bank : (s.channel c).bank = ((s.rejoined c l).channel c).bank := by rw [channel]; rfl
  have entry : s.entry c = (s.rejoined c l).entry c :=
    same.entry bank (by rw [channel]; rfl) (by rw [channel]; rfl)
  have first : (s.channel c).Carries ((s.rejoined c l).channel c) := by
    rw [channel]
    exact ⟨rfl, rfl, rfl⟩
  by_cases mem : c ∈ granted.map Grant.channel
  · obtain ⟨k, index, starts, taken⟩ := scan.starts c mem
    obtain ⟨launched, carries⟩ := State.Launched.of_taken after taken
    refine ⟨first.trans carries, scan.waiting_ungranted told, notices, .inr ⟨k, index, entry.trans starts, ?_⟩⟩
    rw [same.leg bank]
    exact launched.of_within within
  · have at_ := scan.other c mem
    rw [channel] at at_
    refine ⟨?_, scan.waiting_ungranted told, notices, .inl ⟨?_, ?_, ?_, ?_, ?_, ?_⟩⟩
    · rw [at_]
      exact ⟨rfl, rfl, rfl⟩
    · rw [at_]
    · rw [at_]; rfl
    · rw [scan.waiting, List.mem_filter]
      exact ⟨listed, decide_eq_true mem⟩
    · rw [at_]; rfl
    · rw [at_]; rfl
    · rw [at_]; rfl

/-- Channel `c` has given its grant up and stands IDLE (R125, R131). -/
structure State.Retires (s t : State) (c : Nat) : Prop where
  carries : (s.channel c).Carries (t.channel c)
  notices : s.water.gtNotices + 1 ≤ t.water.gtNotices
  state : (t.channel c).state = .idle
  cursor : (t.channel c).cursor = (s.channel c).cursor
  valve : (t.channel c).valve = false
  dwell : (t.channel c).dwellTimer = none
  off : c ∉ t.sweep.waiting
  ungranted : c ∉ t.sweep.grants.map Grant.channel

theorem State.Tells.retires (tells : s.Tells) (runs : (s.channel c).state.runs = true) :
    s.Retires (s.gone c .idle).grantScan c := by
  have told : (s.gone c .idle).Tells := tells.leave runs rfl rfl
  have channel : (s.gone c .idle).channel c = { (s.channel c).stopped with state := .idle } :=
    State.gone_channel .idle (State.lt_length_of_runs runs)
  obtain ⟨granted, scan, _⟩ := State.grantScan_scan told.inPlan
  have at_ := scan.channel told (d := c) (by rw [channel]; rfl)
  rw [channel] at at_
  have state : ((s.gone c .idle).grantScan.channel c).state = .idle := by rw [at_]
  have after := told.grantScan
  refine ⟨?_, ?_, state, ?_, ?_, ?_, fun listed => ?_, fun listed => ?_⟩
  · rw [at_]
    exact ⟨rfl, rfl, rfl⟩
  · rw [← s.gone_notices c .idle]
    exact scan.within.notices
  · rw [at_]; rfl
  · rw [at_]; rfl
  · rw [at_]; rfl
  · have waits := (after.waiting.mem c).mp listed
    rw [state] at waits
    exact Bool.false_ne_true waits
  · have runs := (after.grants.mem c).mp listed
    rw [state] at runs
    exact Bool.false_ne_true runs

/-! ## Grants kept -/

/-- A containment revokes a granted channel, or leaves it all but its last grant fund (R129). -/
theorem State.Tells.contain_channel_of_granted (tells : s.Tells) (runs : (s.channel c).state.runs = true) :
    s.contain.channel c = { (s.channel c).stopped with state := .denied, lastFund := (s.contain.channel c).lastFund } ∨
      s.contain.channel c = { s.channel c with lastFund := (s.contain.channel c).lastFund } := by
  obtain ⟨n, revokes, _⟩ := State.contain_revokes tells.grants
  obtain ⟨g, listed, rfl⟩ := List.mem_map.mp ((tells.grants.mem c).mpr runs)
  obtain ⟨i, at_i⟩ := List.mem_iff_getElem?.mp listed
  rcases Nat.lt_or_ge i n with kept | revoked
  · exact .inr (by rw [revokes.kept i g kept at_i])
  · exact .inl (by rw [revokes.revoked i g revoked at_i])

/-- Only channel `c` is moved in the grant list when only its priority has changed (R127). -/
theorem State.settleGrants_filter {old : State} (other : ∀ d, d ≠ c → s.priority d = old.priority d) :
    (State.settleGrants old s).sweep.grants.filter (fun g => decide (g.channel ≠ c)) =
      s.sweep.grants.filter (fun g => decide (g.channel ≠ c)) := by
  have insert : ∀ (g : Grant) (l : List Grant), g.channel = c →
      (s.insertGrant g l).filter (fun g => decide (g.channel ≠ c)) = l.filter (fun g => decide (g.channel ≠ c)) := fun g l own => by
    rw [State.insertGrant, List.filter_append, List.filter_cons_of_neg (by simpa using own), ← List.filter_append,
      List.takeWhile_append_dropWhile]
  have fold : ∀ move l : List Grant, (∀ g ∈ move, g.channel = c) →
      (move.foldl (fun l g => s.insertGrant g l) l).filter (fun g => decide (g.channel ≠ c)) =
        l.filter (fun g => decide (g.channel ≠ c)) := by
    intro move
    induction move with
    | nil => exact fun l _ => rfl
    | cons g move ih =>
      intro l own
      rw [List.foldl_cons, ih _ fun h hh => own h (List.mem_cons_of_mem _ hh), insert g l (own g List.mem_cons_self)]
  rw [State.settleGrants_eq]
  refine (fold _ _ fun g hg => ?_).trans ?_
  · rw [State.movedGrants, List.mem_flatMap] at hg
    obtain ⟨d, _, hg⟩ := hg
    obtain ⟨_, moved⟩ := List.mem_filter.mp hg
    rw [Bool.and_eq_true, Bool.not_eq_true', decide_eq_false_iff_not] at moved
    by_contra apart
    exact moved.2 (other _ apart)
  · rw [State.keptGrants, List.filter_filter]
    refine List.filter_congr fun g _ => ?_
    by_cases own : g.channel = c
    · simp [own]
    · simp [own, other _ own]

/-- Channel `c`, moved to cursor `k` in `b`, has gone on with its grant: its step has started, or its lower level has left it revoked;
`old` is the state before the move (R124, R129). -/
structure State.Continues (old b t : State) (c : Nat) (k : Cursor) : Prop where
  carries : (b.channel c).Carries (t.channel c)
  outcome : b.Launched t c (b.leg c k.leg) k (b.channel c).ringIndex ∨
    ((b.priority c).num < (old.priority c).num ∧ (t.channel c).state = .denied ∧ (t.channel c).cursor = some k ∧
      (t.channel c).ringIndex = (b.channel c).ringIndex ∧ (t.channel c).aim = (b.channel c).aim ∧ c ∈ t.sweep.waiting ∧
      c ∉ t.sweep.grants.map Grant.channel ∧ (t.channel c).valve = false ∧ (t.channel c).dwellTimer = none)
  fall : (b.priority c).num < (old.priority c).num → t.contained = true
  rise : (old.priority c).num ≤ (b.priority c).num → t.sweep.waiting = b.sweep.waiting ∧ t.water = b.water ∧
    t.sweep.grants.Perm b.sweep.grants ∧
    t.sweep.grants.filter (fun g => decide (g.channel ≠ c)) = b.sweep.grants.filter (fun g => decide (g.channel ≠ c))
  level : b.priority c = old.priority c → t.sweep.grants = b.sweep.grants

/-- A step started with the grant kept. -/
theorem State.startStep_launched (tells : s.Tells) (runs : (s.channel c).state.runs = true) (cursor : (s.channel c).cursor = some k) :
    s.Launched (s.startStep c) c (s.leg c k.leg) k (s.channel c).ringIndex ∧ (s.channel c).Carries ((s.startStep c).channel c) := by
  refine State.Launched.of_taken (tells.startStep runs) ?_
  rw [State.startStep_channel _ cursor, State.started_eq_taken _ _ cursor]

theorem State.Tells.continues {old : State} (tells : s.Tells) (runs : (s.channel c).state.runs = true)
    (cursor : (s.channel c).cursor = some k) (other : ∀ d, d ≠ c → s.priority d = old.priority d) :
    State.Continues old s (State.continueStep old s c) c k := by
  have settled : (State.settleGrants old s).Tells := tells.settleGrants old
  have perm := State.settleGrants_perm (old := old) (s := s) fun g hg => tells.grants.lt_length hg
  by_cases falls : (s.priority c).num < (old.priority c).num
  · have at_ : State.resettled old s c = (State.settleGrants old s).contain := if_pos falls
    have within : s.Within (State.settleGrants old s).contain := (State.settleGrants_within s old).trans (State.contain_within _)
    have told := settled.contain
    rw [State.continueStep_eq, at_]
    rcases settled.contain_channel_of_granted runs with denied | kept
    · have state : ((State.settleGrants old s).contain.channel c).state = .denied := by rw [denied]
      rw [if_pos state]
      refine ⟨?_, .inr ⟨falls, state, ?_, ?_, ?_, (told.waiting.mem c).mpr (by rw [state]; rfl), fun granted => ?_, ?_, ?_⟩,
        fun _ => State.contained_contain _, fun rises => absurd rises (Nat.not_le.mpr falls), fun same => ?_⟩
      · rw [denied]
        exact ⟨rfl, rfl, rfl⟩
      · rw [denied]; exact cursor
      · rw [denied]; rfl
      · rw [denied]; rfl
      · have runs := (told.grants.mem c).mp granted
        rw [state] at runs
        exact Bool.false_ne_true runs
      · rw [denied]; rfl
      · rw [denied]; rfl
      · exact absurd falls (by rw [same]; exact Nat.lt_irrefl _)
    · have runs' : ((State.settleGrants old s).contain.channel c).state.runs = true := by rw [kept]; exact runs
      have notDenied : ((State.settleGrants old s).contain.channel c).state ≠ .denied := fun denied => by
        rw [denied] at runs'
        exact Bool.false_ne_true runs'
      rw [if_neg notDenied]
      obtain ⟨launched, carries⟩ := State.startStep_launched told runs' (by rw [kept]; exact cursor)
      rw [within.readsAs.leg (by rw [kept]; rfl), show ((State.settleGrants old s).contain.channel c).ringIndex =
        (s.channel c).ringIndex by rw [kept]; rfl] at launched
      have first : (s.channel c).Carries ((State.settleGrants old s).contain.channel c) := by
        rw [kept]
        exact ⟨rfl, rfl, rfl⟩
      exact ⟨first.trans carries, .inl (launched.of_within within), fun _ => State.contained_startStep c (State.contained_contain _),
        fun rises => absurd rises (Nat.not_le.mpr falls), fun same => absurd falls (by rw [same]; exact Nat.lt_irrefl _)⟩
  · have at_ : State.resettled old s c = State.settleGrants old s := if_neg falls
    have notDenied : ((State.settleGrants old s).channel c).state ≠ .denied := fun denied => by
      have runs : ((State.settleGrants old s).channel c).state.runs = true := runs
      rw [denied] at runs
      exact Bool.false_ne_true runs
    rw [State.continueStep_eq, at_, if_neg notDenied]
    obtain ⟨launched, carries⟩ := State.startStep_launched settled runs cursor
    have grants : ((State.settleGrants old s).startStep c).sweep.grants = (State.settleGrants old s).sweep.grants :=
      State.startStep_grants _ c
    refine ⟨carries, .inl (launched.of_within (State.settleGrants_within s old)), fun falls' => absurd falls' falls,
      fun _ => ⟨State.startStep_waiting _ c, State.startStep_water _ c, ?_, ?_⟩, fun same => ?_⟩
    · rw [grants]
      exact perm
    · rw [grants]
      exact State.settleGrants_filter other
    · rw [grants, State.settleGrants_of_same]
      intro g _
      by_cases own : g.channel = c
      · rw [own]
        exact same
      · exact other _ own

end

end Sys2Proof.Machine
end

