-- ==== Sys2Proof/Proofs/DwellExpiries.lean ====
section
/-! DWELL_EXPIRY (O34): where the cursor comes to, and what the channel does there. -/

namespace Sys2Proof.Machine

section
variable {s t u : State} {c j : Nat} {g : Leg} {k : Cursor}

/-! ## The cursor moved -/

theorem State.closeStep_channel (hc : c < s.sweep.channels.length) :
    (s.closeStep c).channel c = { s.channel c with valve := false, dwellTimer := none } := State.channel_onChannel_self hc

theorem State.closeStep_leg (s : State) (c j : Nat) : (s.closeStep c).leg c j = s.leg c j :=
  (s.closeStep_within c).readsAs.leg (State.onChannel_field Channel.bank (by exact fun _ => rfl) s c c) j

theorem State.closeStep_eligibleFrom (s : State) (c j : Nat) : (s.closeStep c).eligibleFrom c j = s.eligibleFrom c j :=
  (s.closeStep_within c).readsAs.eligibleFrom (State.onChannel_field Channel.bank (by exact fun _ => rfl) s c c) j

theorem State.closeStep_cursor (s : State) (c : Nat) : ((s.closeStep c).channel c).cursor = (s.channel c).cursor :=
  State.onChannel_field Channel.cursor (by exact fun _ => rfl) s c c

/-- The state with the step of channel `c` closed and its cursor moved on (R124). -/
def State.advanced (s : State) (c : Nat) : State := (s.closeStep c).advanceCursor c

/-- A step of the leg is left and its face is still eligible (R124 case 1). -/
def State.HasMore (s : State) (c : Nat) (k : Cursor) : Prop :=
  k.step + 1 < (s.leg c k.leg).steps ∧ (s.leg c k.leg).minimum ≤ (s.finalLevel (s.leg c k.leg).face).num

theorem State.moveToNextStep_channel (hc : c < s.sweep.channels.length) (k : Cursor) :
    (s.moveToNextStep c k).channel c = { s.channel c with
      cursor := some ⟨k.leg, k.step + 1⟩,
      ringIndex := if (s.leg c k.leg).pattern = .ring then ((s.leg c k.leg).stride (s.channel c).ringIndex).1
        else (s.channel c).ringIndex,
      laps := if (s.leg c k.leg).pattern = .ring ∧ ((s.leg c k.leg).stride (s.channel c).ringIndex).2 = true
        then min 65535 ((s.channel c).laps + 1) else (s.channel c).laps } := by
  rw [State.moveToNextStep, State.channel_onChannel_self hc]
  by_cases ring : (s.leg c k.leg).pattern = .ring
  · simp only [ring, if_true, true_and]
  · simp only [ring, if_false, false_and]

section
variable (cursor : (s.channel c).cursor = some k)
include cursor

theorem State.advanced_of_more (more : s.HasMore c k) : s.advanced c = (s.closeStep c).moveToNextStep c k := by
  rw [State.advanced, State.advanceCursor, s.closeStep_cursor, cursor]
  dsimp only
  rw [s.closeStep_leg]
  refine if_pos ⟨more.1, ?_⟩
  rw [(s.closeStep_within c).readsAs.eligible]
  exact State.eligible_iff.mpr more.2

theorem State.advanced_of_last (last : ¬ s.HasMore c k) : s.advanced c =
    match s.eligibleFrom c (k.leg + 1) with
    | some j => (s.closeStep c).moveToLeg c j
    | none => (s.closeStep c).endPass c := by
  rw [State.advanced, State.advanceCursor, s.closeStep_cursor, cursor]
  dsimp only
  rw [s.closeStep_leg, s.closeStep_eligibleFrom]
  refine if_neg fun ⟨step, eligible⟩ => last ⟨step, ?_⟩
  rw [(s.closeStep_within c).readsAs.eligible] at eligible
  exact State.eligible_iff.mp eligible

variable (hc : c < s.sweep.channels.length)
include hc

theorem State.advanced_channel_of_more (more : s.HasMore c k) : (s.advanced c).channel c = { s.channel c with
    valve := false, dwellTimer := none, cursor := some ⟨k.leg, k.step + 1⟩,
    ringIndex := if (s.leg c k.leg).pattern = .ring then ((s.leg c k.leg).stride (s.channel c).ringIndex).1
      else (s.channel c).ringIndex,
    laps := if (s.leg c k.leg).pattern = .ring ∧ ((s.leg c k.leg).stride (s.channel c).ringIndex).2 = true
      then min 65535 ((s.channel c).laps + 1) else (s.channel c).laps } := by
  rw [State.advanced_of_more cursor more, State.moveToNextStep_channel (by rwa [(s.closeStep_within c).length]), s.closeStep_leg,
    State.closeStep_channel hc]

theorem State.advanced_channel_of_first (last : ¬ s.HasMore c k) (first : s.IsFirstEligible (s.plan c) (k.leg + 1) j g) :
    (s.advanced c).channel c = { s.channel c with
      valve := false, dwellTimer := none, cursor := some ⟨j, 0⟩, ringIndex := g.entryIndex (s.channel c) } := by
  rw [State.advanced_of_last cursor last, State.eligibleFrom_eq_some_iff.mpr ⟨g, first⟩]
  dsimp only
  rw [State.moveToLeg_channel _ j (by rwa [(s.closeStep_within c).length]), s.closeStep_leg, State.leg_eq first.2.1,
    State.closeStep_channel hc]
  rfl

theorem State.advanced_channel_of_spent (last : ¬ s.HasMore c k) (spent : s.eligibleFrom c (k.leg + 1) = none) :
    (s.advanced c).channel c = { s.channel c with
      valve := false, dwellTimer := none, cursor := none,
      bank := if (s.channel c).swapPending then s.sweep.requested else (s.channel c).bank, swapPending := false } := by
  rw [State.advanced_of_last cursor last, spent]
  dsimp only
  rw [State.endPass_channel (by rwa [(s.closeStep_within c).length]), State.closeStep_channel hc]
  rfl

end

/-! ## What follows -/

theorem State.priority_of_cursor (cursor : (s.channel c).cursor = some k) :
    s.priority c = s.finalLevel (s.leg c k.leg).face := by
  rw [State.priority, cursor]

theorem State.priority_of_first (off : (s.channel c).cursor = none) (first : s.IsFirstEligible (s.plan c) 0 j g) :
    s.priority c = s.finalLevel g.face := by
  rw [State.priority, off, State.eligibleFrom_eq_some_iff.mpr ⟨g, first⟩]
  dsimp only
  rw [State.leg_eq first.2.1]

theorem State.gone_waiting (s : State) (c : Nat) (st : ChannelState) : (s.gone c st).sweep.waiting = s.sweep.waiting :=
  State.release_waiting _ c

theorem State.gone_samePriority (s : State) (c : Nat) (st : ChannelState) : s.SamePriority (s.gone c st) :=
  (s.stopped_samePriority c st).trans (State.release_samePriority _ c)

theorem State.preemptionRelease_of_work (work : s.hasWork c = true) :
    s.preemptionRelease c = (s.rejoined c (s.insertFront c s.sweep.waiting)).grantScan := by
  have order : (s.gone c .waiting).insertFront c (s.gone c .waiting).sweep.waiting = s.insertFront c s.sweep.waiting := by
    rw [s.gone_waiting, (s.gone_samePriority c .waiting).insertFront]
  rw [← order, State.preemptionRelease]
  simp only [work, if_true]
  rfl

theorem State.preemptionRelease_of_none (none : s.hasWork c = false) : s.preemptionRelease c = (s.gone c .idle).grantScan := by
  rw [State.preemptionRelease]
  simp only [none, Bool.false_eq_true, if_false]
  rfl

theorem State.passEnd_of_none {old : State} (none : s.hasWork c = false) : State.passEnd old s c = (s.gone c .idle).grantScan := by
  rw [State.hasWork, Option.isSome_eq_false_iff, Option.isNone_iff_eq_none] at none
  rw [State.passEnd, none]
  rfl

/-- Whether a pass end under ROTATE gives way to a channel of equal priority (R125). -/
def State.Yields (s : State) (c : Nat) : Prop := s.cfg.policy = .rotate ∧ ∃ d ∈ s.sweep.waiting, s.priority d = s.priority c

theorem State.yields_iff : (s.cfg.policy = .rotate ∧ s.sweep.waiting.any (fun d => decide (s.priority d = s.priority c)) = true) ↔
    s.Yields c := by
  simp only [State.Yields, List.any_eq_true, decide_eq_true_iff]

theorem State.passEnd_of_yields {old : State} (first : s.eligibleFrom c 0 = some j) (yields : s.Yields c) :
    State.passEnd old s c = (s.rejoined c (s.insertBack c s.sweep.waiting)).grantScan := by
  have order : (s.gone c .waiting).insertBack c (s.gone c .waiting).sweep.waiting = s.insertBack c s.sweep.waiting := by
    have same := s.gone_samePriority c .waiting
    rw [s.gone_waiting]
    unfold State.insertBack
    simp only [same _]
  rw [← order, State.passEnd, first]
  exact if_pos (State.yields_iff.mpr yields)

theorem State.passEnd_of_stays {old : State} (first : s.eligibleFrom c 0 = some j) (stays : ¬ s.Yields c) :
    State.passEnd old s c = State.continueStep old (s.moveToLeg c j) c := by
  rw [State.passEnd, first]
  exact if_neg fun yields => stays (State.yields_iff.mp yields)

theorem State.stepEnd_of_marked (mark : (s.channel c).mark = true) : s.stepEnd c = (s.advanced c).preemptionRelease c := by
  rw [State.stepEnd_eq, if_pos mark]
  rfl

theorem State.stepEnd_of_off (mark : (s.channel c).mark = false) (off : ((s.advanced c).channel c).cursor = none) :
    s.stepEnd c = State.passEnd (s.closeStep c) (s.advanced c) c := by
  rw [State.stepEnd_eq, if_neg (by rw [mark]; decide)]
  exact if_pos off

theorem State.stepEnd_of_on (mark : (s.channel c).mark = false) (on : ((s.advanced c).channel c).cursor = some k) :
    s.stepEnd c = State.continueStep (s.closeStep c) (s.advanced c) c := by
  rw [State.stepEnd_eq, if_neg (by rw [mark]; decide)]
  have still : (((s.closeStep c).advanceCursor c).channel c).cursor ≠ none := by
    rw [show (s.closeStep c).advanceCursor c = s.advanced c from rfl, on]
    exact Option.some_ne_none k
  exact if_neg still

theorem State.advanced_advances (s : State) (c : Nat) : s.Advances (s.advanced c) c := s.stepEnd_advances c

theorem State.advanced_water (s : State) (c : Nat) : (s.advanced c).water = s.water := by
  unfold State.advanced State.advanceCursor
  split
  · rfl
  · split
    · rfl
    · split <;> rfl

/-- How a step end leaves its channel (R124, R125, R131). -/
inductive State.Ends (s t : State) (c : Nat) : Prop
  | rejoins (l : List Nat) (h : (s.advanced c).Rejoins t c l)
  | retires (h : (s.advanced c).Retires t c)
  | continues (b : State) (k : Cursor) (unmarked : (s.channel c).mark = false) (h : State.Continues (s.closeStep c) b t c k)

section
variable (tells : s.Tells) (runs : (s.channel c).state.runs = true)
include tells runs

theorem State.Tells.advanced : (s.advanced c).Tells ∧ ((s.advanced c).channel c).state.runs = true := by
  have advances := s.advanced_advances c
  exact ⟨advances.tells tells, by rw [advances.state]; exact runs⟩

/-- Channel `c` goes on at step 0 of leg `j`, or wherever its cursor has come to, in the state `b` (R124). -/
theorem State.Tells.goesOn {b : State} (advances : s.Advances b c) (cursor : (b.channel c).cursor = some k) :
    State.Continues (s.closeStep c) b (State.continueStep (s.closeStep c) b c) c k := by
  refine (advances.tells tells).continues (by rw [advances.state]; exact runs) cursor fun d apart => ?_
  rw [advances.priority apart]
  exact (s.closeStep_samePriority c d).symm

theorem State.Tells.preemptionRelease_rejoins (work : (s.advanced c).hasWork c = true) (mark : (s.channel c).mark = true) :
    (s.advanced c).Rejoins (s.stepEnd c) c ((s.advanced c).insertFront c (s.advanced c).sweep.waiting) := by
  obtain ⟨told, runs⟩ := tells.advanced runs
  rw [State.stepEnd_of_marked mark, State.preemptionRelease_of_work work]
  exact told.rejoins runs (State.insertFront_perm _ _ _)

theorem State.Tells.passEnd_rejoins (mark : (s.channel c).mark = false) (off : ((s.advanced c).channel c).cursor = none)
    (first : (s.advanced c).eligibleFrom c 0 = some j) (yields : (s.advanced c).Yields c) :
    (s.advanced c).Rejoins (s.stepEnd c) c ((s.advanced c).insertBack c (s.advanced c).sweep.waiting) := by
  obtain ⟨told, runs⟩ := tells.advanced runs
  rw [State.stepEnd_of_off mark off, State.passEnd_of_yields first yields]
  exact told.rejoins runs (State.insertBack_perm _ _ _)

theorem State.Tells.stepEnd_retires (off : ((s.advanced c).channel c).cursor = none) (none : (s.advanced c).hasWork c = false) :
    (s.advanced c).Retires (s.stepEnd c) c := by
  obtain ⟨told, runs⟩ := tells.advanced runs
  cases mark : (s.channel c).mark with
  | true =>
    rw [State.stepEnd_of_marked mark, State.preemptionRelease_of_none none]
    exact told.retires runs
  | false =>
    rw [State.stepEnd_of_off mark off, State.passEnd_of_none none]
    exact told.retires runs

/-- A new pass begun with the grant kept (R125). -/
theorem State.Tells.passEnd_continues (mark : (s.channel c).mark = false) (off : ((s.advanced c).channel c).cursor = none)
    (first : (s.advanced c).eligibleFrom c 0 = some j) (stays : ¬ (s.advanced c).Yields c) :
    State.Continues (s.closeStep c) ((s.advanced c).moveToLeg c j) (s.stepEnd c) c ⟨j, 0⟩ := by
  have advances := (s.advanced_advances c).trans ((s.advanced c).moveToLeg_advances c j)
  rw [State.stepEnd_of_off mark off, State.passEnd_of_stays first stays]
  refine tells.goesOn runs advances ?_
  rw [State.moveToLeg_channel _ j]
  rw [(s.advanced_advances c).within.length]
  exact State.lt_length_of_runs runs

theorem State.Tells.stepEnd_continues (mark : (s.channel c).mark = false) (on : ((s.advanced c).channel c).cursor = some k) :
    State.Continues (s.closeStep c) (s.advanced c) (s.stepEnd c) c k := by
  rw [State.stepEnd_of_on mark on]
  exact tells.goesOn runs (s.advanced_advances c) on

theorem State.Tells.stepEnd_ends : s.Ends (s.stepEnd c) c := by
  cases mark : (s.channel c).mark with
  | true =>
    cases work : (s.advanced c).hasWork c with
    | true => exact .rejoins _ (tells.preemptionRelease_rejoins runs work mark)
    | false =>
      obtain ⟨told, runs⟩ := tells.advanced runs
      refine .retires ?_
      rw [State.stepEnd_of_marked mark, State.preemptionRelease_of_none work]
      exact told.retires runs
  | false =>
    cases cursor : ((s.advanced c).channel c).cursor with
    | some k => exact .continues _ _ mark (tells.stepEnd_continues runs mark cursor)
    | none =>
      cases first : (s.advanced c).eligibleFrom c 0 with
      | none => exact .retires (tells.stepEnd_retires runs cursor (by rw [State.hasWork, first]; rfl))
      | some j =>
        by_cases yields : (s.advanced c).Yields c
        · exact .rejoins _ (tells.passEnd_rejoins runs mark cursor first yields)
        · exact .continues _ _ mark (tells.passEnd_continues runs mark cursor first yields)

end

end

end Sys2Proof.Machine
end

