-- ==== Sys2Proof/Proofs/DwellCases.lean ====
section
/-! The three cases of a dwell expiry put together (O34). -/

namespace Sys2Proof.Machine

section
variable {s : State} {c : Nat} {k : Cursor}

/-! ## Case 1: the next step of the leg -/

theorem State.onChannel_onChannel (s : State) (c : Nat) (u v : Channel → Channel) :
    (s.onChannel c u).onChannel c v = s.onChannel c (v ∘ u) := by
  unfold State.onChannel State.setSweep
  dsimp only
  rw [List.modify_modify_eq]

section
variable (cursor : (s.channel c).cursor = some k) (more : s.HasMore c k) (hc : c < s.sweep.channels.length)
include cursor more hc

theorem State.advanced_priority_of_more (d : Nat) : (s.advanced c).priority d = (s.closeStep c).priority d := by
  have advances := s.advanced_advances c
  rw [s.closeStep_samePriority c d]
  by_cases own : d = c
  · subst own
    have moved := State.advanced_channel_of_more cursor hc more
    have leg := advances.within.readsAs.leg (c := d) (by rw [moved]) k.leg
    rw [State.priority_of_cursor (by rw [moved]), State.priority_of_cursor cursor, advances.within.readsAs.levels, leg]
  · exact advances.priority own

/-- With a further step to take the grant list stands, and the step starts (R124 case 1). -/
theorem State.stepEnd_of_more (mark : (s.channel c).mark = false) (runs : (s.channel c).state.runs = true) :
    s.stepEnd c = (s.advanced c).startStep c := by
  have moved := State.advanced_channel_of_more cursor hc more
  have same := State.advanced_priority_of_more cursor more hc
  have settled : State.settleGrants (s.closeStep c) (s.advanced c) = s.advanced c :=
    State.settleGrants_of_same fun g _ => same g.channel
  have stands : State.resettled (s.closeStep c) (s.advanced c) c = s.advanced c := by
    rw [State.resettled, settled, same c]
    exact if_neg (Nat.lt_irrefl _)
  rw [State.stepEnd_of_on mark (by rw [moved]), State.continueStep_eq, stands]
  refine if_neg fun denied => ?_
  rw [(s.advanced_advances c).state] at denied
  rw [denied] at runs
  exact Bool.false_ne_true runs

theorem State.startStep_of_more : (s.advanced c).startStep c = { s with sweep := { s.sweep with
    channels := s.sweep.channels.set c (((s.advanced c).startStep c).channel c) } } := by
  have moved := State.advanced_channel_of_more cursor hc more
  have one : ∃ u, (s.advanced c).startStep c = s.onChannel c u := by
    rw [State.startStep_eq _ (c := c) (k := ⟨k.leg, k.step + 1⟩) (by rw [moved]), State.advanced_of_more cursor more]
    rw [State.moveToNextStep, State.closeStep, State.onChannel_onChannel, State.onChannel_onChannel]
    exact ⟨_, rfl⟩
  obtain ⟨u, one⟩ := one
  rw [one]
  exact State.onChannel_eq_with hc (State.channel_onChannel_self hc).symm

theorem State.startStep_channel_of_more : ((s.advanced c).startStep c).channel c =
    { s.taken c ⟨k.leg, k.step + 1⟩ (if (s.leg c k.leg).pattern = .ring then ((s.leg c k.leg).stride (s.channel c).ringIndex).1
        else (s.channel c).ringIndex) with
      laps := if (s.leg c k.leg).pattern = .ring ∧ ((s.leg c k.leg).stride (s.channel c).ringIndex).2 = true
        then min 65535 ((s.channel c).laps + 1) else (s.channel c).laps } := by
  have moved := State.advanced_channel_of_more cursor hc more
  have within := (s.advanced_advances c).within
  have on : ((s.advanced c).channel c).cursor = some ⟨k.leg, k.step + 1⟩ := by rw [moved]
  rw [State.startStep_channel _ on, State.started_eq_taken _ _ on, within.taken (by rw [moved]), moved]
  rfl

end

theorem State.leg_mem {j : Nat} (steps : (s.leg c j).steps ≠ 0) : s.leg c j ∈ s.plan c := by
  unfold State.leg at steps ⊢
  rw [List.getD_eq_getElem?_getD] at steps ⊢
  cases present : (s.plan c)[j]? with
  | some g => exact List.mem_of_getElem? present
  | none =>
    rw [present] at steps
    exact absurd rfl steps

/-! ## Places and figures of the state at the expiry -/

theorem takeWhile_dropWhile_congr {α : Type} {p q : α → Bool} {l : List α} (same : ∀ a ∈ l, p a = q a) :
    l.takeWhile p = l.takeWhile q ∧ l.dropWhile p = l.dropWhile q := by
  induction l with
  | nil => exact ⟨rfl, rfl⟩
  | cons a l ih =>
    obtain ⟨take, drop⟩ := ih fun b hb => same b (List.mem_cons_of_mem _ hb)
    have first := same a List.mem_cons_self
    simp only [List.takeWhile_cons, List.dropWhile_cons, first, take, drop]
    exact ⟨trivial, trivial⟩

section
variable {t : State} (advances : s.Advances t c) (tells : s.Tells) (runs : (s.channel c).state.runs = true)
include advances tells runs

theorem State.Advances.waiting_priority : ∀ d ∈ s.sweep.waiting, t.priority d = s.priority d := fun _ listed =>
  advances.priority fun own => (tells.running runs).2 (own ▸ listed)

theorem State.Advances.insertFront_eq {n : Nat} (own : (t.priority c).num = n) :
    t.insertFront c t.sweep.waiting = s.sweep.waiting.takeWhile (fun d => decide (n < (s.priority d).num)) ++
      c :: s.sweep.waiting.dropWhile (fun d => decide (n < (s.priority d).num)) := by
  obtain ⟨take, drop⟩ := takeWhile_dropWhile_congr (l := s.sweep.waiting)
    (p := fun d => decide ((t.priority c).num < (t.priority d).num)) (q := fun d => decide (n < (s.priority d).num))
    fun d listed => by rw [own, advances.waiting_priority tells runs d listed]
  rw [State.insertFront, advances.waiting, take, drop]

theorem State.Advances.insertBack_eq {n : Nat} (own : (t.priority c).num = n) :
    t.insertBack c t.sweep.waiting = s.sweep.waiting.takeWhile (fun d => decide (n ≤ (s.priority d).num)) ++
      c :: s.sweep.waiting.dropWhile (fun d => decide (n ≤ (s.priority d).num)) := by
  obtain ⟨take, drop⟩ := takeWhile_dropWhile_congr (l := s.sweep.waiting)
    (p := fun d => decide ((t.priority c).num ≤ (t.priority d).num)) (q := fun d => decide (n ≤ (s.priority d).num))
    fun d listed => by rw [own, advances.waiting_priority tells runs d listed]
  rw [State.insertBack, advances.waiting, take, drop]

theorem State.Advances.yields_iff {l : Level} (own : t.priority c = l) :
    t.Yields c ↔ s.cfg.policy = .rotate ∧ ∃ d ∈ s.sweep.waiting, (s.priority d).num = l.num := by
  rw [State.Yields, advances.within.readsAs.cfg, advances.waiting, own]
  refine and_congr_right fun _ => exists_congr fun _ => and_congr_right fun listed => ?_
  rw [advances.waiting_priority tells runs _ listed]
  exact ⟨congrArg Level.num, Level.num_injective⟩

end

end

/-- Settles O34: the cursor's three cases, and in each what a marked and an unmarked channel does. -/
theorem dwellExpiryAdvances : Obligations.DwellExpiryAdvances := by
  have expires : ∀ (c : Fin 4) (s : State), (s.channel c).state = .spraying ∨ (s.channel c).state = .dry →
      (s.channel c).dwellTimer.isSome = true → exec (.dwellExpiry c) s = .next (s.stepEnd c) ∧ (s.channel c).state.runs = true := by
    intro c s state timer
    refine ⟨by rw [exec_eq_after, State.after_dwellExpiry, if_pos ⟨state, timer⟩], ?_⟩
    rcases state with h | h <;> rw [h] <;> rfl
  refine ⟨fun c k s state timer mark cursor step eligible => ?_, fun c s state timer orders => ?_,
    fun c k s state timer cursor orders => ?_⟩
  · obtain ⟨done, runs⟩ := expires c s state timer
    have inPlan := State.lt_length_of_runs runs
    have more : s.HasMore c k := ⟨step, eligible⟩
    intro g moved index azimuth bias aim
    rw [done, State.stepEnd_of_more cursor more inPlan mark runs, State.startStep_of_more cursor more inPlan,
      State.startStep_channel_of_more cursor more inPlan]
    rfl
  · obtain ⟨done, runs⟩ := expires c s state timer
    have tells := State.ordersTell_iff.mp orders
    have noticed : (s.advanced c).water.gtNotices = s.water.gtNotices := by rw [s.advanced_water]
    refine ⟨s.stepEnd c, done, (s.stepEnd_within c).only, ?_⟩
    cases tells.stepEnd_ends runs with
    | rejoins l h =>
      have notices := noticed ▸ h.notices
      rcases h.outcome with ⟨waiting, _, _, _, valve, dwell⟩ | ⟨e, i, _, launched⟩
      · exact ⟨valve, dwell, .inr (.inr (.inl waiting)), fun _ => ⟨by rw [waiting]; decide, notices⟩⟩
      · exact ⟨launched.valve, launched.dwell, .inl launched.state, fun _ => ⟨by rw [launched.state]; decide, notices⟩⟩
    | retires h =>
      exact ⟨h.valve, h.dwell, .inr (.inr (.inr h.state)), fun _ => ⟨by rw [h.state]; decide, noticed ▸ h.notices⟩⟩
    | continues b e unmarked h =>
      rcases h.outcome with launched | ⟨_, denied, _, _, _, _, _, valve, dwell⟩
      · exact ⟨launched.valve, launched.dwell, .inl launched.state, fun marked =>
          absurd (unmarked.symm.trans marked) Bool.false_ne_true⟩
      · exact ⟨valve, dwell, .inr (.inl denied), fun marked => absurd (unmarked.symm.trans marked) Bool.false_ne_true⟩
  · obtain ⟨done, runs⟩ := expires c s state timer
    have tells := State.ordersTell_iff.mp orders
    have inPlan := State.lt_length_of_runs runs
    have advances := s.advanced_advances c
    have reads := advances.within.readsAs
    have water : (s.advanced c).water = s.water := s.advanced_water c
    intro ch level eligible more first spent bank newPlan indexAt started keeps waits
    have startedOf : ∀ {t : State} {g : Leg} {e : Cursor} {i : Nat}, s.Launched t c g e i → started t g e i := fun h =>
      ⟨h.state, h.cursor, h.ringIndex, h.aim, h.bias, h.dry, h.slew, h.granted, h.off⟩
    have keepsOf : ∀ {b t : State} {j : Nat} {g : Leg}, s.Advances b c → b.water = s.water → (b.channel c).cursor = some ⟨j, 0⟩ →
        b.leg c j = g → (b.channel c).ringIndex = indexAt g → (b.channel c).laps = ch.laps → (b.channel c).aim = ch.aim →
        State.Continues (s.closeStep c) b t c ⟨j, 0⟩ → keeps t j g := by
      intro b t j g moves dry on leg index laps aim h
      have new : (b.priority c).num = level g := by rw [State.priority_of_cursor on, moves.within.readsAs.levels, leg]
      have old : ((s.closeStep c).priority c).num = level (s.leg c k.leg) := by
        rw [s.closeStep_samePriority, State.priority_of_cursor cursor]
      refine ⟨h.carries.laps.trans laps, ?_, fun falls => State.grantsHold_iff.mpr (h.fall (by rw [new, old]; exact falls)),
        fun rises => ?_, fun same => ?_⟩
      · rcases h.outcome with launched | ⟨falls, denied, stands, ring, still, listed, off, _⟩
        · rw [leg, index] at launched
          exact .inl (startedOf (launched.of_within moves.within))
        · rw [new, old] at falls
          exact .inr ⟨falls, denied, stands, ring.trans index, still.trans aim, listed, off⟩
      · obtain ⟨waiting, dry', perm, rest⟩ := h.rise (by rw [new, old]; exact rises)
        rw [moves.grants] at perm rest
        exact ⟨waiting.trans moves.waiting, dry'.trans dry, perm, rest⟩
      · have grants := h.level (Level.num_injective (by rw [new, old]; exact same.symm))
        exact grants.trans moves.grants
    have waitsOf : ∀ {t : State} {front : Bool} {off : Option Cursor} {e : Cursor} {i : Nat} {g : Leg} {l : List Nat},
        (s.advanced c).Rejoins t c l →
        l = (let ahead (d : Nat) : Bool :=
            if front then decide (level g < (s.priority d).num) else decide (level g ≤ (s.priority d).num)
          s.sweep.waiting.takeWhile ahead ++ c.val :: s.sweep.waiting.dropWhile ahead) →
        (s.advanced c).entry c = some (e, i) → (s.advanced c).leg c e.leg = g → ((s.advanced c).channel c).cursor = off →
        ((s.advanced c).channel c).ringIndex = (if off = none then ch.ringIndex else i) → waits t front off e i g := by
      intro t front off e i g l h order entry leg on ring
      have noticed : (s.advanced c).water.gtNotices = s.water.gtNotices := by rw [water]
      refine ⟨by rw [h.waiting, order], noticed ▸ h.notices, ?_⟩
      rcases h.outcome with ⟨waiting, stands, listed, same, _⟩ | ⟨e', i', entry', launched⟩
      · exact .inl ⟨waiting, stands.trans on, listed, same.trans ring⟩
      · rw [entry, Option.some.injEq, Prod.mk.injEq] at entry'
        obtain ⟨rfl, rfl⟩ := entry'
        rw [leg] at launched
        exact .inr (startedOf (launched.of_within advances.within))
    refine ⟨s.stepEnd c, done, fun j g last next => ?_, fun last none => ?_, fun more mark => ?_⟩
    · have isFirst : s.IsFirstEligible (s.plan c) (k.leg + 1) j g := (State.ReadsAs.refl s).isFirstEligible_iff.mpr next
      have moved := State.advanced_channel_of_first cursor inPlan last isFirst
      have on : ((s.advanced c).channel c).cursor = some ⟨j, 0⟩ := by rw [moved]
      have leg : (s.advanced c).leg c j = g := (reads.leg (by rw [moved]) j).trans (State.leg_eq isFirst.2.1)
      have index : ((s.advanced c).channel c).ringIndex = indexAt g := by rw [moved]; rfl
      have own : ((s.advanced c).priority c).num = level g := by rw [State.priority_of_cursor on, reads.levels, leg]
      cases mark : (s.channel c).mark with
      | true =>
        have work : (s.advanced c).hasWork c = true := by
          rw [reads.hasWork (by rw [moved])]
          exact State.hasWork_iff.mpr ⟨g, List.mem_of_getElem? isFirst.2.1, isFirst.2.2.1⟩
        have h := tells.preemptionRelease_rejoins runs work mark
        refine ⟨h.carries.bank.trans (by rw [moved]), h.carries.pending.trans (by rw [moved]),
          fun unmarked => absurd unmarked.symm Bool.false_ne_true, fun _ => ?_⟩
        refine waitsOf h ?_ (by rw [State.entry_of_some on, index]) leg on ?_
        · exact advances.insertFront_eq tells runs own
        · rw [index]
          exact (if_neg (Option.some_ne_none _)).symm
      | false =>
        have h := tells.stepEnd_continues runs mark on
        refine ⟨h.carries.bank.trans (by rw [moved]), h.carries.pending.trans (by rw [moved]), fun _ => ?_,
          fun marked => absurd marked Bool.false_ne_true⟩
        exact keepsOf advances water on leg index (by rw [moved]) (by rw [moved]) h
    · have noNext : s.eligibleFrom c (k.leg + 1) = Option.none := State.eligibleFrom_eq_none_iff.mpr fun i g beyond present => by
        rw [← Bool.not_eq_true, State.eligible_iff]
        exact none i g beyond present
      have moved := State.advanced_channel_of_spent cursor inPlan last noNext
      have off : ((s.advanced c).channel c).cursor = Option.none := by rw [moved]
      have swapped : ((s.advanced c).channel c).bank = bank := by rw [moved]
      have cleared : ((s.advanced c).channel c).swapPending = false := by rw [moved]
      have index : ((s.advanced c).channel c).ringIndex = ch.ringIndex := by rw [moved]
      have legs : (s.advanced c).plan c = newPlan := State.Within.plan_of_bank reads swapped
      have firstOf : ∀ {j g}, first newPlan 0 j g → (s.advanced c).IsFirstEligible ((s.advanced c).plan c) 0 j g := fun next =>
        reads.symm.isFirstEligible_iff.mpr (by rw [legs]; exact next)
      cases found : (s.advanced c).eligibleFrom c 0 with
      | none =>
        have h := tells.stepEnd_retires runs off (by rw [State.hasWork, found]; rfl)
        refine ⟨h.carries.bank.trans swapped, h.carries.pending.trans cleared,
          fun _ => ⟨h.state, h.cursor.trans off, h.off, h.ungranted, water ▸ h.notices⟩, fun j g next => ?_⟩
        have some := State.eligibleFrom_eq_some_iff.mpr ⟨g, firstOf next⟩
        rw [found] at some
        cases some
      | some j =>
        obtain ⟨g, isFirst⟩ := State.eligibleFrom_eq_some_iff.mp found
        have own : ((s.advanced c).priority c).num = level g := by rw [State.priority_of_first off isFirst, reads.levels]
        have leg : (s.advanced c).leg c j = g := State.leg_eq isFirst.2.1
        have entry : (s.advanced c).entry c = some (⟨j, 0⟩, indexAt g) := by
          rw [State.entry_of_none off, found, Option.map_some, leg, Leg.entryIndex, index]
        have same : ∀ {j' g'}, first newPlan 0 j' g' → j = j' ∧ g = g' := fun next => by
          have found' := State.eligibleFrom_eq_some_iff.mpr ⟨_, firstOf next⟩
          rw [found, Option.some.injEq] at found'
          subst found'
          exact ⟨rfl, Option.some.inj (isFirst.2.1.symm.trans (firstOf next).2.1)⟩
        have unspent : ¬ spent newPlan 0 := fun none => by
          rw [← legs] at none
          refine none j g (Nat.zero_le j) isFirst.2.1 ?_
          have reach := State.eligible_iff.mp isFirst.2.2.1
          rwa [reads.levels] at reach
        have work : (s.advanced c).hasWork c = true := by rw [State.hasWork, found]; rfl
        have yields_iff := advances.yields_iff tells runs (State.priority_of_first off isFirst)
        rw [reads.levels] at yields_iff
        cases mark : (s.channel c).mark with
        | true =>
          have h := tells.preemptionRelease_rejoins runs work mark
          refine ⟨h.carries.bank.trans swapped, h.carries.pending.trans cleared, fun none => absurd none unspent, fun j' g' next => ?_⟩
          obtain ⟨rfl, rfl⟩ := same next
          refine ⟨fun _ => waitsOf h ?_ entry leg off index, fun unmarked => absurd unmarked.symm Bool.false_ne_true,
            fun unmarked => absurd unmarked.symm Bool.false_ne_true⟩
          exact advances.insertFront_eq tells runs own
        | false =>
          by_cases gives : (s.advanced c).Yields c
          · have h := tells.passEnd_rejoins runs mark off found gives
            refine ⟨h.carries.bank.trans swapped, h.carries.pending.trans cleared, fun none => absurd none unspent,
              fun j' g' next => ?_⟩
            obtain ⟨rfl, rfl⟩ := same next
            refine ⟨fun marked => absurd marked Bool.false_ne_true, fun _ _ => waitsOf h ?_ entry leg off index,
              fun _ stays => absurd (yields_iff.mp gives) stays⟩
            exact advances.insertBack_eq tells runs own
          · have h := tells.passEnd_continues runs mark off found gives
            have began := State.moveToLeg_channel (s.advanced c) j (c := c) (by rwa [advances.within.length])
            have both := advances.trans ((s.advanced c).moveToLeg_advances c j)
            refine ⟨h.carries.bank.trans (by rw [began]; exact swapped), h.carries.pending.trans (by rw [began]; exact cleared),
              fun none => absurd none unspent, fun j' g' next => ?_⟩
            obtain ⟨rfl, rfl⟩ := same next
            refine ⟨fun marked => absurd marked Bool.false_ne_true, fun _ yields => absurd (yields_iff.mpr yields) gives, fun _ _ => ?_⟩
            refine keepsOf both water (by rw [began]) ?_ ?_ (by rw [began, moved]) (by rw [began, moved]) h
            · exact (((s.advanced c).moveToLeg_within c j).readsAs.leg (by rw [began]) j).trans leg
            · rw [began, leg, index]
    · have moved := State.advanced_channel_of_more cursor inPlan more
      have on : ((s.advanced c).channel c).cursor = some ⟨k.leg, k.step + 1⟩ := by rw [moved]
      have leg : (s.advanced c).leg c k.leg = s.leg c k.leg := reads.leg (by rw [moved]) k.leg
      have own : ((s.advanced c).priority c).num = level (s.leg c k.leg) := by
        rw [State.priority_of_cursor on, reads.levels, leg]
      have work : (s.advanced c).hasWork c = true := by
        rw [reads.hasWork (by rw [moved])]
        refine State.hasWork_iff.mpr ⟨_, State.leg_mem (j := k.leg) (Nat.ne_of_gt ?_), State.eligible_iff.mpr more.2⟩
        exact Nat.zero_lt_of_lt more.1
      have h := tells.preemptionRelease_rejoins runs work mark
      refine ⟨h.carries.bank.trans (by rw [moved]), h.carries.pending.trans (by rw [moved]), ?_⟩
      refine waitsOf h ?_ (by rw [State.entry_of_some on, moved]) leg on ?_
      · exact advances.insertFront_eq tells runs own
      · rw [moved]
        exact (if_neg (Option.some_ne_none _)).symm

end Sys2Proof.Machine
end
